-- ==== Sys2Proof/Word.lean ====
section
/-!
DEFINITION. The word types of Glafin G1 (spec 00 R4-R6, 02 R33): bytes, 64-bit words, 96-bit
instruction slots, and the 64-byte line. Addresses are words; a key of memory is a `Nat`.
-/
set_option autoImplicit false

namespace Sys2Proof

/-- One byte of memory (R5). -/
abbrev Byte := BitVec 8
/-- A 64-bit register or address (R51, R224). -/
abbrev Word := BitVec 64
/-- A 96-bit instruction slot (R25, R33). -/
abbrev SlotWord := BitVec 96
/-- A 64-byte line as one little-endian number (R5, R25). -/
abbrev LineWord := BitVec 512

end Sys2Proof
end

