-- ==== Sys2Proof/Syntax.lean ====
section
/-!
DEFINITION. The instructions of Glafin G1 and the part's own steps, one constructor of `Instr` per row of
spec/opcode_table.json, with the operand types they are built from (02 R33-R43). Encodings are in Decode.lean;
which operands an instruction accepts is in WellFormed.lean.
-/
set_option autoImplicit false

namespace Sys2Proof

/-- The two engines of a hearth (R29). -/
inductive Eng where
  | a | x
  deriving DecidableEq, Repr, Inhabited

/-- A register number: the low five bits of an operand specifier (R34). -/
abbrev Reg := BitVec 5

/-- Fault codes of R316. -/
inductive FaultCode where
  | illegalOp | reservedField | badOperand | privilege | slotAlign | linkReserved | lineEngine
  | pstackOver | pstackUnder | loopCount | loopNest | guardMisuse
  | windowMiss | windowPerm | windowConflict | nonresident | replicaWrite | linkLost | ocmClosed
  | scratchRange | align
  | flueState | flueOverrun | flueMark | tdesc | bellowsCrc | bellowsLen | bellowsCode
  | schedMiss | stampClock | tileShape
  | launchDeadlock | parkState | deferFull | seqState | trap | machineCheck
  deriving DecidableEq, Repr, Inhabited

/-- The guard field G (R35). -/
inductive Guard where
  | always | top | notTop | slot (n : BitVec 4)
  deriving DecidableEq, Repr, Inhabited

/-- A class 0 register or a class 7 immediate (R34). -/
inductive Src where
  | reg (r : Reg) | imm (i : BitVec 5)
  deriving DecidableEq, Repr, Inhabited

/-- A vector operand: class 1 or class 4 (R186). -/
inductive VSrc where
  | v (r : Reg) | f (r : Reg)
  deriving DecidableEq, Repr, Inhabited

/-- A shift amount of VSHL and VSHR: class 0, 1, 4 or 7 (R195). -/
inductive VAmt where
  | reg (r : Reg) | imm (i : BitVec 5) | v (r : Reg) | f (r : Reg)
  deriving DecidableEq, Repr, Inhabited

/-- A source of TST: class 2 or class 3 (R215). -/
inductive TSrc where
  | tile (r : Reg) | acc (r : Reg)
  deriving DecidableEq, Repr, Inhabited

/-- TYPE codes of R10. -/
inductive DType where
  | i32 | n32 | i64 | n64 | i16 | i8 | n8 | f32 | bf16 | f16 | e4 | e5 | bp | i4
  deriving DecidableEq, Repr, Inhabited

/-- RND codes of R10 and R103. -/
inductive Rnd where
  | rne | rz | ru | rd | rna | sr
  deriving DecidableEq, Repr, Inhabited

/-- Condition codes of R41. -/
inductive Cond where
  | eq | ne | lt | le | gt | ge | uo | or
  deriving DecidableEq, Repr, Inhabited

/-- Width codes of R41. -/
inductive Width where
  | w8 | w16 | w32 | w64 | s8 | s16 | s32
  deriving DecidableEq, Repr, Inhabited

/-- SUB of LDL (R40). -/
inductive LdlKind where
  | w64 | w32 | s32
  deriving DecidableEq, Repr, Inhabited

/-- SUB of WAITW (R40). -/
inductive WaitCond where
  | eq | ne | ge | lt
  deriving DecidableEq, Repr, Inhabited

/-- Scopes of FENCE (R40, R257). -/
inductive Scope where
  | hearth | die | package | system
  deriving DecidableEq, Repr, Inhabited

/-- Operations of AMO (R42). -/
inductive AmoOp where
  | add | and | or | xor | smin | smax | umin | umax | xchg | cas | fadd | fmin | fmax
  deriving DecidableEq, Repr, Inhabited

/-- SUB of ACC (R40). -/
inductive AccOp where
  | add | smin | smax | umin | umax | fmin | fmax
  deriving DecidableEq, Repr, Inhabited

/-- Source kinds of FLOPEN (R43). -/
inductive FlKind where
  | eng | copy | gath | merge | remote | blow
  deriving DecidableEq, Repr, Inhabited

/-- Modes of FLMARK (R138). -/
inductive MarkMode where
  | clear | pin | soft
  deriving DecidableEq, Repr, Inhabited

/-- SUB of FLSTAT (R40). -/
inductive FlStat where
  | head | tail | claim | head2 | full
  deriving DecidableEq, Repr, Inhabited

/-- Completion codes (R41). -/
inductive Compl where
  | none | signal | barrier
  deriving DecidableEq, Repr, Inhabited

/-- Combine codes of MRG (R43); operators of VSCAN (R40). -/
inductive Combine where
  | add | min | max
  deriving DecidableEq, Repr, Inhabited

/-- Operators of VRED (R40). -/
inductive RedOp where
  | add | min | max | and | or | xor
  deriving DecidableEq, Repr, Inhabited

/-- Structured sparsity of MMAS (R40). -/
inductive Sparsity where
  | n8 | n16 | n32
  deriving DecidableEq, Repr, Inhabited

/-- An address operand `[base + index * 2^scl + ofs]` (R76). -/
structure MemOp where
  base : Reg
  index : Reg
  scl : BitVec 2
  ofs : BitVec 24
  deriving DecidableEq, Repr, Inhabited

/-- The completion operands of a copy command: CW and S3 (R173). -/
structure CopyEnd where
  compl : Compl
  cw : BitVec 18
  val : Reg
  deriving DecidableEq, Repr, Inhabited

/-- The completion operands of MRG and BLOW: IMM32[20:0] and S3 (R148). -/
structure UnitEnd where
  compl : Compl
  tgt : BitVec 21
  val : Reg
  deriving DecidableEq, Repr, Inhabited

/-- The rounding fields of MOD (R37). -/
structure RndSat where
  rnd : Rnd
  sat : Bool
  deriving DecidableEq, Repr, Inhabited

/-- The stamp of a stamped matrix command (R222). -/
structure Stamp where
  reg : Reg
  ofs : BitVec 24
  deriving DecidableEq, Repr, Inhabited

/-- The fields of TST beside its operands (R211). -/
structure TstRect where
  arows : BitVec 7
  acols : BitVec 7
  deriving DecidableEq, Repr, Inhabited

/-- What an on-chip map write carries (R161, R169, R172). -/
inductive OcmKind where
  | data | signal | credit
  deriving DecidableEq, Repr, Inhabited

/-- One stretch of a packet's way: the die whose eave ring it enters, if it waits for a cycle of one (R15, R16), and the
id that selects the link by which it first crosses the ridge, if it does (R17). -/
structure Hop where
  ring : Option Nat := none
  link : Option Nat := none
  deriving DecidableEq, Repr, Inhabited

/-- What a packet has still to pass on its way; a packet with nothing left has arrived. -/
structure Path where
  rings : List Hop := []
  deriving DecidableEq, Repr, Inhabited

/-- An on-chip map write on its way from one hearth to another (R159-R161). `bytes` is the payload; for a credit it is
the byte count, little-endian. `uid` is the number of the copy command whose payload it is. -/
structure OcmMsg where
  src : Nat
  smode : Bool
  kind : OcmKind
  addr : BitVec 40
  bytes : List Byte
  uid : Nat := 0
  path : Path := {}
  deriving DecidableEq, Repr, Inhabited

/-- Kinds of a pre-emption request (R324). -/
inductive ReqKind where
  | save | abort
  deriving DecidableEq, Repr, Inhabited

/-- Outcomes of one read of a scrub (R358). -/
inductive ScrubResult where
  | clean | corrected | uncorrectable
  deriving DecidableEq, Repr, Inhabited

/-- What an on-chip map read reads: the next element of the copy entry at a queue position of the hearth that issued it
(R161), or `n` bytes from an address of the map by a handler's copy command, of a register image (R160). -/
inductive OcmFrom where
  | entry (i : Nat)
  | image (addr : BitVec 40) (n : Nat)
  deriving DecidableEq, Repr, Inhabited

/-- The SRAM array that a sweep reads (R358): a core's scratchpad, a home slice's SRAM, a core's active or inactive
register half, its caches (the phase cache and, after it, its two instruction caches), its window table, or a die's
firebox. -/
inductive SramArray where
  | scratch (core : Nat)
  | slice (i : Nat)
  | half (core : Nat)
  | inactive (core : Nat)
  | caches (core : Nat)
  | windows (core : Nat)
  | firebox (die : Nat)
  deriving DecidableEq, Repr, Inhabited

/-- What a peer package's access asks of this one (R232, R236, R237, R268, R281). `accumulate` carries the FORCE bit;
`update` is a write in the order of the peer's home, for this package's replica of it; `collapsed` acknowledges a
collapse that this package asked the peer for. -/
inductive PeerAccess where
  | read (len : Nat)
  | write (bytes : List Byte)
  | accumulate (op : AccOp) (ty : DType) (value : LineWord) (force : Bool)
  | openRecord (key : BitVec 16) (span lo count : BitVec 32)
  | closeRecord (key : BitVec 16) (lo count : BitVec 32)
  | ordered (ty : DType) (key : BitVec 16) (index : BitVec 32) (value : LineWord)
  | collapse
  | update (bytes : List Byte)
  | collapsed
  deriving DecidableEq, Repr, Inhabited

/-- One constructor per row of spec/opcode_table.json, in the table's order: 140 instructions, each with its guard (R35;
NOP takes none), and the part's own 99 steps, whose operands name the unit and what the unit was free to choose. Hearths
are named by hearth id, slices by slice id, and queue entries by their position in the queue. -/
inductive Instr where
  | nop
  | movi (g : Guard) (d : Reg) (imm : Word)
  | mov (g : Guard) (d : Reg) (s1 : Src)
  | ldl (g : Guard) (k : LdlKind) (d : Reg) (disp : BitVec 32)
  | movs (g : Guard) (s1 : Src) (n : BitVec 12)
  | movf (g : Guard) (d : Reg) (n : BitVec 12)
  | add (g : Guard) (d : Reg) (s1 s2 s3 : Src) (ty : DType) (sat : Bool)
  | sub (g : Guard) (d : Reg) (s1 s2 s3 : Src) (ty : DType) (sat : Bool)
  | addx (g : Guard) (d : Reg) (s1 s2 s3 : Src) (ty : DType)
  | mul (g : Guard) (d : Reg) (s1 s2 : Src) (ty : DType) (sat : Bool)
  | mulh (g : Guard) (d : Reg) (s1 s2 : Src) (ty : DType)
  | div (g : Guard) (d : Reg) (s1 s2 : Src) (ty : DType)
  | rem (g : Guard) (d : Reg) (s1 s2 : Src) (ty : DType)
  | and (g : Guard) (d : Reg) (s1 s2 : Src) (ty : DType)
  | or (g : Guard) (d : Reg) (s1 s2 : Src) (ty : DType)
  | xor (g : Guard) (d : Reg) (s1 s2 : Src) (ty : DType)
  | andn (g : Guard) (d : Reg) (s1 s2 : Src) (ty : DType)
  | shl (g : Guard) (d : Reg) (s1 s2 : Src) (ty : DType)
  | shr (g : Guard) (d : Reg) (s1 s2 : Src) (ty : DType)
  | sar (g : Guard) (d : Reg) (s1 s2 : Src) (ty : DType)
  | rot (g : Guard) (d : Reg) (s1 s2 : Src) (ty : DType)
  | min (g : Guard) (d : Reg) (s1 s2 : Src) (ty : DType)
  | max (g : Guard) (d : Reg) (s1 s2 : Src) (ty : DType)
  | clz (g : Guard) (d : Reg) (s1 : Src) (ty : DType)
  | popc (g : Guard) (d : Reg) (s1 : Src) (ty : DType)
  | sel (g : Guard) (d : Reg) (s1 s2 : Src)
  | pcmp (g : Guard) (c : Cond) (s1 s2 : Src) (ty : DType)
  | pnot (g : Guard)
  | pand (g : Guard) (j : BitVec 5)
  | por (g : Guard) (j : BitVec 5)
  | ppop (g : Guard) (n : BitVec 5)
  | pbr (g : Guard) (b : Reg) (disp : BitVec 32)
  | pbrr (g : Guard) (b : Reg) (s1 : Reg) (ofs : BitVec 32)
  | br (g : Guard) (b : Reg)
  | brl (g : Guard) (d : Reg) (b : Reg)
  | loop (g : Guard) (l : Reg) (s1 : Src) (disp : BitVec 32)
  | loopp (g : Guard) (l : Reg) (s1 s2 : Reg) (b : Reg) (disp : BitVec 32)
  | lds (g : Guard) (w : Width) (d : Reg) (m : MemOp)
  | sts (g : Guard) (w : Width) (m : MemOp) (s3 : Src)
  | xput (g : Guard) (q : Reg) (s1 : Src)
  | xget (g : Guard) (d : Reg) (q : Reg)
  | waitw (g : Guard) (c : WaitCond) (d : Reg) (base : Reg) (s2 : Src) (ofs : BitVec 21)
  | fence (g : Guard) (s : Scope)
  | phase (g : Guard)
  | yield (g : Guard)
  | trap (g : Guard) (code : BitVec 32)
  | done (g : Guard)
  | gset (g : Guard) (slot : Reg) (s1 : Src)
  | gclr (g : Guard) (slot : Reg)
  | sret (g : Guard) (b : Reg)
  | snap (g : Guard) (d : Reg) (tag : BitVec 16)
  | ldg (g : Guard) (w : Width) (d : Reg) (m : MemOp)
  | stg (g : Guard) (w : Width) (m : MemOp) (s3 : Src)
  | stm (g : Guard) (w : Width) (m : MemOp) (s3 : Src)
  | amo (g : Guard) (op : AmoOp) (wide nr : Bool) (d : Reg) (base : Reg) (s2 : Src) (s3 : Reg) (ofs : BitVec 24)
  | acc (g : Guard) (op : AccOp) (m : MemOp) (s3 : Reg) (ty : DType) (rnd : Rnd)
  | acco (g : Guard) (base : Reg) (s2 : Reg) (s3 : Src) (ty : DType) (rnd : Rnd) (ofs : BitVec 20) (q : BitVec 4)
  | flushe (g : Guard)
  | seqopen (g : Guard) (s1 s2 s3 : Reg) (q : BitVec 4)
  | seqclose (g : Guard) (q : BitVec 4) (wait : Bool)
  | flopen (g : Guard) (k : FlKind) (restart auto : Bool) (f : Reg) (base : Reg) (ss cc : BitVec 4)
  | flclose (g : Guard) (f : Reg)
  | flfork (g : Guard) (f p : Reg) (auto : Bool)
  | flmark (g : Guard) (f : Reg) (m : BitVec 2) (mode : MarkMode)
  | flrewind (g : Guard) (f : Reg) (m : BitVec 2)
  | claim (g : Guard) (d : Reg) (f : Reg) (n : Src)
  | publish (g : Guard) (f : Reg) (n : Src)
  | waitfree (g : Guard) (d : Reg) (f : Reg) (n : Src)
  | waitfill (g : Guard) (d : Reg) (f : Reg) (n : Src)
  | flstat (g : Guard) (k : FlStat) (d : Reg) (f : Reg)
  | tdset (g : Guard) (s1 s2 : Reg) (n : BitVec 6)
  | cpy (g : Guard) (e : CopyEnd) (ta tb : BitVec 6)
  | cpyf (g : Guard) (e : CopyEnd) (f : Reg) (ta : BitVec 6)
  | drnf (g : Guard) (e : CopyEnd) (f : Reg) (ta : BitVec 6)
  | gath (g : Guard) (e : CopyEnd) (fd fs : Reg) (n : Src) (ta : BitVec 6)
  | scat (g : Guard) (e : CopyEnd) (fd fs : Reg) (n : Src) (ta : BitVec 6)
  | mrg (g : Guard) (e : UnitEnd) (c : Combine) (dropz : Bool) (fd f1 f2 : Reg) (ty : DType) (r : RndSat)
  | blow (g : Guard) (e : UnitEnd) (fd : Reg) (s1 s2 : Reg)
  | barinit (g : Guard) (base : Reg) (ofs : BitVec 21)
  | bararm (g : Guard) (base : Reg) (s2 : Src) (ofs : BitVec 21)
  | barwait (g : Guard) (d : Reg) (base : Reg) (s2 : Src) (ofs : BitVec 21)
  | winld (g : Guard) (s1 : Reg)
  | pgreq (g : Guard) (d : Reg) (s1 : Reg) (nowait : Bool)
  | pgreqR (g : Guard) (d : Reg) (s1 : Reg) (nowait : Bool)
  | resq (g : Guard) (d : Reg) (s1 : Reg)
  | launch (g : Guard) (d : Reg) (s1 : Reg)
  | launchw (g : Guard) (d : Reg) (s1 s2 s3 : Reg)
  | park (g : Guard) (s1 s2 : Reg) (b : Reg)
  | trel (g : Guard)
  | vld (g : Guard) (d : Reg) (m : MemOp) (ty : DType)
  | vst (g : Guard) (m : MemOp) (s3 : VSrc) (ty : DType)
  | vmov (g : Guard) (d s1 : VSrc) (ty : DType)
  | vbcst (g : Guard) (d : VSrc) (s1 : Src) (ty : DType)
  | vperm (g : Guard) (d s1 s2 : VSrc)
  | vsel (g : Guard) (d s1 s2 : VSrc)
  | vidx (g : Guard) (d : VSrc) (s1 s2 : Src) (ty : DType)
  | vcmp (g : Guard) (c : Cond) (s1 s2 : VSrc) (ty : DType)
  | vcnt (g : Guard) (d : Reg)
  | vadd (g : Guard) (d s1 s2 : VSrc) (ty : DType) (r : RndSat)
  | vsub (g : Guard) (d s1 s2 : VSrc) (ty : DType) (r : RndSat)
  | vmul (g : Guard) (d s1 s2 : VSrc) (ty : DType) (r : RndSat)
  | vfma (g : Guard) (d s1 s2 s3 : VSrc) (ty : DType) (r : RndSat)
  | vfms (g : Guard) (d s1 s2 s3 : VSrc) (ty : DType) (r : RndSat)
  | vmin (g : Guard) (d s1 s2 : VSrc) (ty : DType)
  | vmax (g : Guard) (d s1 s2 : VSrc) (ty : DType)
  | vabs (g : Guard) (d s1 : VSrc) (ty : DType) (sat : Bool)
  | vneg (g : Guard) (d s1 : VSrc) (ty : DType) (sat : Bool)
  | vrcp (g : Guard) (d s1 : VSrc) (ty : DType) (r : RndSat)
  | vrsq (g : Guard) (d s1 : VSrc) (ty : DType) (r : RndSat)
  | vexp2 (g : Guard) (d s1 : VSrc) (ty : DType) (r : RndSat)
  | vlog2 (g : Guard) (d s1 : VSrc) (ty : DType) (r : RndSat)
  | vand (g : Guard) (d s1 s2 : VSrc) (ty : DType)
  | vor (g : Guard) (d s1 s2 : VSrc) (ty : DType)
  | vxor (g : Guard) (d s1 s2 : VSrc) (ty : DType)
  | vshl (g : Guard) (d s1 : VSrc) (n : VAmt) (ty : DType)
  | vshr (g : Guard) (arith : Bool) (d s1 : VSrc) (n : VAmt) (ty : DType)
  | vcvt (g : Guard) (d s1 : VSrc) (ty src : DType) (r : RndSat)
  | vqnt (g : Guard) (d s1 : VSrc) (s2 s3 : Reg) (ty : DType) (r : RndSat)
  | vhistCount (g : Guard) (s1 : VSrc) (ty : DType)
  | vhistClear (g : Guard)
  | vhistRead (g : Guard) (d : VSrc) (q : BitVec 2)
  | scaleq (g : Guard) (d : Reg) (s1 : Src) (ty : DType)
  | vred (g : Guard) (op : RedOp) (d : Reg) (s1 : VSrc) (ty : DType) (r : RndSat)
  | vscan (g : Guard) (op : Combine) (d s1 : VSrc) (ty : DType) (r : RndSat)
  | defer (g : Guard) (v : Reg) (n : BitVec 5) (s3 : Reg)
  | drain (g : Guard) (d : Reg) (v : Reg) (n : BitVec 5) (final : Bool)
  | resp (g : Guard) (f : Reg) (blk : BitVec 6)
  | release (g : Guard) (f : Reg) (n : Src)
  | tld (g : Guard) (t : Reg) (f : Reg)
  | tstFlue (g : Guard) (f : Reg) (s : TSrc) (ty : DType) (r : TstRect)
  | tstMemory (g : Guard) (s : TSrc) (ty : DType) (td : BitVec 6) (r : TstRect)
  | mzero (g : Guard) (m : Reg)
  | mma (g : Guard) (m a b : Reg)
  | mmaStamped (g : Guard) (m a b : Reg) (st : Stamp)
  | mmas (g : Guard) (n : Sparsity) (m a b : Reg) (mt : BitVec 3)
  | mmasStamped (g : Guard) (n : Sparsity) (m a b : Reg) (mt : BitVec 3) (st : Stamp)
  | mmab (g : Guard) (p : BitVec 4) (m a b : Reg)
  | mmabStamped (g : Guard) (p : BitVec 4) (m a b : Reg) (st : Stamp)
  | mrd (g : Guard) (col : Bool) (d : Reg) (m : Reg) (s2 : Src)
  | mcvt (g : Guard) (t : Reg) (m : Reg) (s2 : Reg) (ty : DType) (r : RndSat)
  | slipWaitEnd (h : Nat) (e : Eng)
  | copyCommandStart (h i n : Nat)
  | copyCommandEnd (h i : Nat)
  | barrierCredit (h i : Nat)
  | unitSlotPublish (h f : Nat)
  | ocmWrite (m : OcmMsg)
  | ocmRead (h : Nat) (t : OcmFrom)
  | mergeEmit (h : Nat)
  | bellowsBlockStart (h : Nat)
  | bellowsClaim (h : Nat)
  | bellowsBlockPublish (h : Nat)
  | matrixCommandStart (h : Nat)
  | stampedStart (h : Nat)
  | matrixCommandEnd (h : Nat)
  | writeQueueGrant (s i : Nat)
  | operationLanding (s i : Nat)
  | damperDecision (s i : Nat)
  | damperWindow
  | accAnswer (i : Nat)
  | emberRetryTick
  | accoArrival (s i : Nat)
  | seqOpenRecord (s i : Nat)
  | seqCloseRecord (s i : Nat)
  | residencyServe (i : Nat)
  | replicaBuild (i : Nat)
  | replicaCollapse (h : Nat)
  | linkDown (port : Nat)
  | peerReset (peer : Nat)
  | peerInvalidation (peer : Nat)
  | linkUp (port : Nat)
  | ridgeLinkFail (link : Nat)
  | hearthStop (h : Nat)
  | handlerEntry (h : Nat)
  | preemptRequest (h : Nat) (k : ReqKind)
  | preemptDeadline (h : Nat)
  | contextSave (h : Nat)
  | contextResume (h slot : Nat)
  | contextAbort (h : Nat)
  | sealedImageMake (part slot : Nat) (haddr : Word)
  | sealedImageRestore (part slot : Nat) (haddr : Word)
  | snapshotLatch
  | snapshotPin
  | snapshotHostTrigger
  | queueDoorbell (vf q : Nat) (tail : BitVec 32)
  | heldNotifyServe
  | slotStarve (vf q : Nat)
  | launchPacket (vf q : Nat)
  | teardownDrain (vf q : Nat)
  | teardownAbort (vf q : Nat)
  | dispatch (h : Nat)
  | parkedDispatch (h : Nat)
  | parkWake (part gpa : Nat)
  | taskEnd (h : Nat)
  | launchDeadlock (part region : Nat)
  | quantumEnd (part : Nat)
  | create
  | rafters
  | grow
  | slots
  | slotTableUpdate
  | quota
  | cstore
  | assign
  | unassign
  | sched
  | pause
  | vfResume
  | evict
  | evictComplete (part : Nat)
  | backing
  | route
  | policy
  | reclaim
  | reclaimComplete (part : Nat)
  | transferInbound (vf : Nat)
  | transferOutbound (vf : Nat)
  | transferPartitionKey (vf : Nat)
  | attestation (vf : Nat)
  | rootWrite (vf : Nat) (v : Word)
  | registerWrite (fn : Nat) (ofs : BitVec 16) (v : Word)
  | targetRun
  | targetBank1
  | targetBank2
  | targetBank3
  | bankEntryComplete
  | wakeComplete
  | wakePin
  | wakePeerAccess (port : Nat)
  | capwWrite (v : Word)
  | telemetrySample (mw : BitVec 32) (t0 t1 : BitVec 16) (temps : List (BitVec 16))
  | hbmScrub (line : Nat) (r : ScrubResult) (synd : BitVec 32)
  | sramScrub (a : SramArray) (ofs : Nat) (r : ScrubResult) (synd : BitVec 32)
  | phyCalibration (channel : Nat)
  | coldReset
  | bringUpComplete (verified : Bool)
  | fetchReturn (h : Nat)
  | flitCheckFailure (link : Nat)
  | powerOff
  | remoteAccessArrival (port peer part : Nat) (gpa : Nat) (a : PeerAccess)
  deriving DecidableEq, Repr, Inhabited

end Sys2Proof
end

