-- ==== Sys2Proof/Config.lean ====
section
/-!
DEFINITION. What one part fixes, and the free values of this model: opaque constants without a body, so that nothing
in Lean can evaluate them or prove a value of them (logs 3, 5, 8, 9, 26).
-/
set_option autoImplicit false

namespace Sys2Proof

/-- What comes next in the machine (log 3): one DCC tick, one attempt of an engine, one of the part's own steps, or a
write of the host to its own memory. -/
inductive Choice where
  | tick
  | engine (h : Nat) (e : Eng)
  | event (i : Instr)
  | host (addr : Nat) (bytes : List Byte)
  deriving DecidableEq, Repr, Inhabited

/-- The order in which the parts of the package act when nothing in State fixes it: no rule gives times (R399). Position
n of the schedule is what the machine does n-th. Log 3. -/
opaque Config.schedule : Nat → Choice

/-- The n-th free value taken: a value, or one of several outcomes, that the spec leaves open. Log 5. -/
opaque Config.freeWord : Nat → Word

/-- HID.STEP, the silicon stepping of this part (R61). Log 26. -/
opaque Config.step : BitVec 8

/-- The throttle temperature of a die, in 1/16 °C (R359, R360). Log 44. -/
opaque Config.throttle : BitVec 16

/-- The package's device key, as a number below the order of P-384 (R342). Log 9. -/
opaque Config.deviceKey : Nat

/-- The chimney's n-th ephemeral key and signature nonce, numbers below the order of P-384 (R342, R344). Log 9. -/
opaque Config.ephemeral : Nat → Nat

/-- SHA-384 of the hob and chimney firmware images (R344). Log 9. -/
opaque Config.mhob : BitVec 384
opaque Config.mchim : BitVec 384

/-- The certificates of the device key in DER, leaf first (R344). Log 9. -/
opaque Config.certificates : List (List Byte)

/-- The two answers of a ROUTE's attestation: the peer is reachable and agrees link keys, and its chimney accepts the
partition under its own policy (R350). Arguments: peer id, peer-side partition, count. Log 8. -/
opaque Config.peerAttests : Nat → Nat → Nat → Bool

/-- The error-log entries that the hob's firmware has selected as snapshot triggers (R332). Log 73. -/
opaque Config.selectsError : List Byte → Bool

/-- Which of a route's working ports a line address chooses (R350). Log 74. -/
opaque Config.portChoice : Nat → Nat

end Sys2Proof
end

