-- ==== Sys2Proof/Machine/State.lean ====
section
/-!
DEFINITION. The state of the PLY-H192 as plain data (INVENTORY.md, "## State"), and the state after cold reset. A table
is a list of pairs in ascending order of key; an unlisted key holds the default. Memories list no byte that equals what
an unlisted address reads as.
-/
set_option autoImplicit false

namespace Sys2Proof.Machine

/-- Why the model itself stops. Every fault of the hardware is a next state (R317), so this is not one of them. -/
inductive Fault where
  /-- Raised by an instruction's meaning when State names no core as the one that executes it (`cur` ≥ 195). No step
  sets such a value; safe. -/
  | noSuchCore
  deriving DecidableEq, Repr

/-- Why the model gives an instruction no meaning. -/
inductive Refusal where
  /-- Raised by an arm of `exec` for a constructor that has no meaning yet; safe. -/
  | notModelled (mnemonic : String)
  deriving DecidableEq, Repr

/-- A table from numbers, ascending, one entry per key. -/
abbrev Tbl (α : Type) := List (Nat × α)

/-- A byte store: ascending addresses, no entry equal to the byte 0 that an unlisted address reads as (log 2). -/
abbrev Memory := List Host.Cell

/-- Privilege modes of R23. -/
inductive Mode where
  | t | s | h
  deriving DecidableEq, Repr, Inhabited

/-- States of a guard slot (R82). -/
inductive GState where
  | empty | pending | isFalse | isTrue
  deriving DecidableEq, Repr, Inhabited

/-- A loop register (R81). -/
structure Loop where
  remain : BitVec 32 := 0
  active : Bool := false
  pipe : Bool := false
  cntReg : Reg := 0
  doneReg : Reg := 0
  start : Word := 0
  stop : Word := 0
  restart : Word := 0
  deriving DecidableEq, Repr, Inhabited

/-- One engine's control state: the program counter and line (R27, R50), its current ORD (R30), DONE and SRET (R98,
R315), a stop at YIELD (R95), a wait under the slip rule, with the ordinal of the line about to be entered, and its end,
after which the entry is checked again and made (R30), a matrix command it stays at (R205), b and l registers, nesting
(innermost first), predicate stack (top first), clamp (R80), the greatest held store ordered before its loads (R56), the
slot whose access an implicit boundary comes before (R252), and the instruction cache (R31). -/
structure EngState where
  pc : Word := 0
  line : Option Word := none
  buf : LineWord := 0
  ord : Option (BitVec 12) := none
  done : Bool := true
  sret : Option Word := none
  stopped : Bool := false
  slipWait : Bool := false
  slipOrd : BitVec 12 := 0
  slipPass : Bool := false
  hold : Bool := false
  b : Tbl Word := []
  loops : Tbl Loop := []
  nest : List Nat := []
  preds : List Word := []
  clamp : Option Nat := none
  seen : Nat := 0
  imp : Option Word := none
  icache : Tbl LineWord := []
  deriving DecidableEq, Repr, Inhabited

/-- A cross-queue entry, with the held stores that precede it (R56) and the tick of the write (R55). -/
structure QEnt where
  val : Word := 0
  mark : Nat := 0
  since : Option Word := none
  deriving DecidableEq, Repr, Inhabited

/-- A flue record (R123). -/
structure Flue where
  base : BitVec 21 := 0
  ss : BitVec 4 := 0
  cc : BitVec 4 := 0
  kind : BitVec 3 := 0
  restart : Bool := false
  auto : Bool := false
  opened : Bool := false
  fork : Bool := false
  forked : Bool := false
  peer : BitVec 5 := 0
  fed : BitVec 2 := 0
  head : BitVec 32 := 0
  read : BitVec 32 := 0
  tail : BitVec 32 := 0
  claim : BitVec 32 := 0
  mark0 : BitVec 32 := 0
  mark1 : BitVec 32 := 0
  mark2 : BitVec 32 := 0
  mark3 : BitVec 32 := 0
  mmode : BitVec 8 := 0
  active : Bool := false
  drop : Bool := false
  stopped : Bool := false
  unit : BitVec 3 := 0
  qent : BitVec 6 := 0
  lenk : BitVec 2 := 0
  elem : Word := 0
  slot : Word := 0
  sofs : Word := 0
  aux : Word := 0
  prev : Word := 0
  faddr : Word := 0
  cmpl : Word := 0
  cval : Word := 0
  deriving DecidableEq, Repr, Inhabited

/-- A copy-queue command (R167), with the descriptors as they stood at its issue (R175), whether it is held on a guard
slot (R90), its bytes written and not yet credited, its writes sent and not yet landed, the bytes of its present element
that it has taken from flue slots already freed (R129), and its own number. -/
structure CopyCmd where
  op : BitVec 8 := 0
  sub : BitVec 11 := 0
  g : BitVec 5 := 0
  held : Bool := false
  started : Bool := false
  stopped : Bool := false
  drop : Bool := false
  ta : BitVec 6 := 0
  tb : BitVec 6 := 0
  tda : BitVec 1024 := 0
  tdb : BitVec 1024 := 0
  fd : BitVec 5 := 0
  fs : BitVec 5 := 0
  count : Word := 0
  elem : Word := 0
  cval : Word := 0
  ctgt : BitVec 21 := 0
  chrt : BitVec 8 := 0
  credit : BitVec 40 := 0
  faddr : Word := 0
  landed : Nat := 0
  sent : Nat := 0
  got : List Byte := []
  uid : Nat := 0
  deriving DecidableEq, Repr, Inhabited

/-- A merge-unit command (R149). -/
structure MergeCmd where
  fd : BitVec 5 := 0
  f1 : BitVec 5 := 0
  f2 : BitVec 5 := 0
  combine : Combine := .add
  dropz : Bool := false
  ty : DType := .i32
  rs : RndSat := ⟨.rne, false⟩
  sub : BitVec 2 := 0
  tgt : BitVec 21 := 0
  cval : Word := 0
  g : BitVec 5 := 0
  held : Bool := false
  started : Bool := false
  cnt : Nat := 0
  o1 : Nat := 0
  o2 : Nat := 0
  prev1 : Option (BitVec 32) := none
  prev2 : Option (BitVec 32) := none
  deriving DecidableEq, Repr, Inhabited

/-- Where the bellows stands within a block (R154). -/
inductive BlowPhase where
  | idle | header | claimed
  deriving DecidableEq, Repr, Inhabited

/-- A bellows command (R151, R154): block `idx` of `count`, whose header is at `hdr`; the first block's is at `first`.
Blocks before `goal` are passed over (R136); `bare` says that a fault of the bellows' own checks has left CMPL out of
the record (R377). -/
structure BlowCmd where
  fd : BitVec 5 := 0
  hdr : Word := 0
  count : Nat := 0
  idx : Nat := 0
  first : Word := 0
  goal : Nat := 0
  bare : Bool := false
  sub : BitVec 2 := 0
  tgt : BitVec 21 := 0
  cval : Word := 0
  g : BitVec 5 := 0
  held : Bool := false
  started : Bool := false
  phase : BlowPhase := .idle
  codec : Nat := 0
  elen : Nat := 0
  clen : Nat := 0
  crc : BitVec 32 := 0
  slots : Nat := 0
  pos : BitVec 32 := 0
  body : List Byte := []
  deriving DecidableEq, Repr, Inhabited

/-- A queued matrix command: the instruction, its row mask, the values it read at issue, its entry in flue positions,
the tick of its stamp, whether its start falls in this tick, whether it has started, the cycles it still occupies, the
elements a memory-form TST has written, and of a TLD the bytes of those of its slots that were freed before its end,
with a poisoned word among them (R205, R206, R214, R222, R358). -/
structure MatCmd where
  instr : Instr := .nop
  mask : Word := 0
  val : Word := 0
  td : BitVec 1024 := 0
  pos : BitVec 32 := 0
  slots : Nat := 0
  seed : Word := 0
  stamp : Option Word := none
  due : Bool := false
  started : Bool := false
  left : Nat := 0
  elem : Nat := 0
  data : List Byte := []
  bad : Option Nat := none
  deriving DecidableEq, Repr, Inhabited

/-- The frame block (R319). -/
structure Frame where
  code : BitVec 8 := 0
  src : BitVec 3 := 0
  kind : BitVec 2 := 0
  adone : Bool := false
  xdone : Bool := false
  smode : Bool := false
  dual : Bool := false
  faddr : Word := 0
  fdcc : Word := 0
  aslot : Word := 0
  xslot : Word := 0
  qent : BitVec 6 := 0
  qv : Bool := false
  flue : BitVec 5 := 0
  fv : Bool := false
  spend : Bool := false
  deriving DecidableEq, Repr, Inhabited

/-- States of an ember entry (R271). -/
inductive EState where
  | free | held | inflight
  deriving DecidableEq, Repr, Inhabited

/-- An ember entry and its tag (R271, R272), with the number of the message in flight. -/
structure Ember where
  state : EState := .free
  ref : BitVec 7 := 0
  op : AccOp := .add
  ty : DType := .i32
  line : BitVec 42 := 0
  value : LineWord := 0
  uid : Nat := 0
  deriving DecidableEq, Repr, Inhabited

/-- A sequence slot (R282). -/
structure SeqSlot where
  key : BitVec 16 := 0
  opened : Bool := false
  issued : Bool := false
  lo : BitVec 32 := 0
  count : BitVec 32 := 0
  last : BitVec 32 := 0
  span : BitVec 32 := 0
  ports : BitVec 12 := 0
  voidcnt : BitVec 16 := 0
  deriving DecidableEq, Repr, Inhabited

/-- A returning AMO of the A engine: sent under a number and unanswered, or answered (R248, log 11). -/
inductive AmoWait where
  | none | sent (uid : Nat) | got (v : Word)
  deriving DecidableEq, Repr, Inhabited

/-- What a SEQOPEN or SEQCLOSE of a slot waits for (R281, R285, R287). -/
inductive SeqStage where
  | opening | closing | retiring
  deriving DecidableEq, Repr, Inhabited

/-- A SEQOPEN or SEQCLOSE that waits: the number of its records, the slot, and the stage. -/
structure SeqWait where
  uid : Nat := 0
  slot : Nat := 0
  stage : SeqStage := .opening
  deriving DecidableEq, Repr, Inhabited

/-- One register half, or a saved context: every register group of R52, the engines' positions, and what the firebox
knows of the context; `failed` says that a handler's DONE has ended its task as FAILED (R315). `acco` is the number of
an ACCO sent and not yet taken (R284). `xrest` and `arest` are the words of the queue entries at and past the counts
(R82), and `bad` the 4-byte words of the image that are poisoned (R358). `taken` names the flue heads whose slot a unit
is partway through (R129); `xbind` is the guard slot to which the matrix command at which the X engine waits is bound,
and how that slot resolved (R90). -/
structure Ctx where
  taken : Tbl Nat := []
  xbind : Option (Nat × Option Bool) := none
  a : Tbl Word := []
  k : Tbl Word := []
  ae : EngState := {}
  xe : EngState := {}
  v : Tbl (BitVec 32) := []
  t : Memory := []
  m : Tbl (BitVec 32) := []
  guards : Tbl GState := []
  xq : List QEnt := []
  aq : List QEnt := []
  xrest : Tbl Word := []
  arest : Tbl Word := []
  bad : List Nat := []
  td : Tbl (BitVec 1024) := []
  flues : Tbl Flue := []
  copyq : List CopyCmd := []
  cpast : Tbl (CopyCmd × Bool) := []
  mergeq : List MergeCmd := []
  blowq : List BlowCmd := []
  slipw : BitVec 12 := 0
  embdrop : BitVec 16 := 0
  stdrop : BitVec 16 := 0
  impb : BitVec 16 := 0
  regopen : BitVec 16 := 0
  defBase : BitVec 21 := 0
  defCap : BitVec 12 := 0
  defCount : BitVec 12 := 0
  defHead : BitVec 11 := 0
  srseed : Word := 0x9E3779B97F4A7C15
  mseed : Word := 0xD1B54A32D192ED03
  tcfg : Tbl Word := []
  ctxid : Word := 0
  bins : Tbl (BitVec 32) := []
  frame : Frame := {}
  embers : Tbl Ember := []
  ea : Nat := 0
  seqs : Tbl SeqSlot := []
  amo : AmoWait := .none
  acco : Option Nat := none
  accSent : Bool := false
  seqWait : Option SeqWait := none
  part : Nat := 0
  vf : Nat := 0
  task : Nat := 0
  region : Nat := 0
  queue : Nat := 0
  onlyA : Bool := false
  onlyX : Bool := false
  failed : Bool := false
  deriving DecidableEq, Repr, Inhabited

/-- A held store (R249): the engine, its number in the hearth's order, the guest physical byte address, the bytes, the
offsets of those that each engine's loads have returned (R250), and whether it is published already and stays only for
the hearth's own loads of its cached line (log 48). -/
structure Held where
  eng : Eng := .a
  no : Nat := 0
  gpa : Nat := 0
  bytes : List Byte := []
  obsA : List Nat := []
  obsX : List Nat := []
  sent : Bool := false
  deriving DecidableEq, Repr, Inhabited

/-- What a hearth is doing (R317-R328, R315). -/
inductive Run where
  | free | running | stopping | stopped | handler | saving | ending | aborting | banked
  deriving DecidableEq, Repr, Inhabited

/-- A fault being recorded (R318, R319). -/
structure FaultRec where
  code : FaultCode := .illegalOp
  addr : Word := 0
  src : BitVec 3 := 0
  qent : Option Nat := none
  flue : Option Nat := none
  dual : Bool := false
  deriving DecidableEq, Repr, Inhabited

/-- A recorded pre-emption request (R324, R327): its kind, the context-store slot reserved for it, and the resident
ungated cycles left to its deadline (R95, R353). -/
structure Req where
  kind : ReqKind := .save
  slot : Option Nat := none
  left : Nat := 85000
  deriving DecidableEq, Repr, Inhabited

/-- What a handler serves (R322, R302). -/
inductive Serves where
  | none | stopped | deadlock (part region : Nat)
  deriving DecidableEq, Repr, Inhabited

/-- A PGREQ that waits (R244): for a place of the hob for a frame of a partition, posted, or served with a status. -/
inductive PgWait where
  | none | place (part g : Nat) | posted | served (status : Word)
  deriving DecidableEq, Repr, Inhabited

/-- Snapshot registers of a hearth (R332). -/
structure Latch where
  aslot : Word := 0
  xslot : Word := 0
  ctxid : Word := 0
  hstat : Word := 0
  lines : Nat := 0
  embers : Nat := 0
  deriving DecidableEq, Repr, Inhabited

/-- A stage-2 entry (R232). Frames are host frame numbers HPA[43:21], or the peer-side GPA[45:21] when REMOTE.
`building` is the hob's own: it is building a replica of the frame (R235). -/
structure S2Ent where
  v : Bool := false
  nr : Bool := false
  repd0 : Bool := false
  repd1 : Bool := false
  remote : Bool := false
  pend : Bool := false
  building : Bool := false
  peer : BitVec 8 := 0
  frame : BitVec 25 := 0
  rframe0 : BitVec 23 := 0
  rframe1 : BitVec 23 := 0
  deriving DecidableEq, Repr, Inhabited

/-- A memory access of the A engine that was translated and checked at its issue and has not completed (R233, R241): the
device virtual and guest physical addresses, the partition, the stage-2 entry of that moment, the addend of an ACC
(R278), and whether a load ends in LINK_LOST (R239) or has met a poisoned word of a home slice's SRAM (R358). -/
structure Issue where
  dva : Word := 0
  gpa : Nat := 0
  part : Nat := 0
  ent : S2Ent := {}
  data : LineWord := 0
  lost : Bool := false
  poison : Option Nat := none
  deriving DecidableEq, Repr, Inhabited

/-- What an engine in WAITW or BARWAIT watches: every write to the word at `addr` (R181, R182). For a barrier object it
waits for a PHASE other than `cmp`'s bit 0. `met` is the word of the write that ends the wait. -/
structure Watch where
  addr : Nat := 0
  bar : Bool := false
  cond : WaitCond := .eq
  cmp : Word := 0
  met : Option Word := none
  deriving DecidableEq, Repr, Inhabited

/-- What an X instruction that waits on flues waits for (R207): whether it needs an entry of the matrix queue, the flues
it reads with the full slots it needs, and the flue it writes with the free slots it needs. -/
structure StallOn where
  entry : Bool := false
  reads : List (Nat × Nat) := []
  dest : Option (Nat × Nat) := none
  deriving DecidableEq, Repr, Inhabited

/-- A PARK, or a LAUNCHW that parks, which has passed its checks and waits (R313 steps 5 and 6): its continuation record
as translated, the mask and resume slot, the record's event words, the event's guest address, and the region whose pool
a LAUNCHW found spent. -/
structure ParkWait where
  gpa : Nat := 0
  ent : S2Ent := {}
  mask : Word := 0
  resume : Word := 0
  ev : Word := 0
  eaddr : Word := 0
  cmp : Word := 0
  watch : Nat := 0
  child : Option Nat := none
  deriving DecidableEq, Repr, Inhabited

/-- An image that the context engine writes from the inactive half (R53, R328): the partition, the slot, and the groups
and scratchpad blocks that are dirty (R329). -/
structure OutImage where
  part : Nat := 0
  slot : Nat := 0
  groups : List Nat := []
  blocks : List Nat := []
  deriving DecidableEq, Repr, Inhabited

/-- Who reads: an engine that enters a line or loads a literal, its prefetch with the lines still to follow (R31), the
unit whose command has a number (R177), WINLD (R243). -/
inductive AskBy where
  | code (e : Eng)
  | ahead (e : Eng) (line : Word) (n : Nat)
  | unit (uid : Nat)
  | image
  deriving DecidableEq, Repr, Inhabited

/-- A read under way: the guest physical line, or the address of the on-chip map, and the way of its request and of the
bytes that come back. -/
structure Ask where
  who : AskBy := .image
  addr : Nat := 0
  path : Path := {}
  deriving DecidableEq, Repr, Inhabited

/-- One hearth-class core. `act` is the active half and `ina` the inactive one; `halfH1` says which of H0 and H1 is
active (R53). `pcache` holds the fetched line of each guest physical line (R250); `fetch` is the line that a load waits
for, and `fetchPath` the way of its request and of the bytes; `asks` are the reads under way of its units and fetches.
`pubA` and `pubX` say which engine's boundary is under way with its stores sent, `pubOld` that stores which a boundary
sent earlier are still to land (R253). `trel` counts the matrix commands that a TREL still waits for (R314); `parkW` is
a PARK that waits (R313). `out` is the image under way from the inactive half, `pre` the context-store slot whose image
is preloaded into it (R328), `base` the active context as its image last held it, and `dirty` the scratchpad blocks
written since (R329). `mapped` are the bytes that the last read of a register image over the on-chip map returned (R160,
log 27). `cacheBad` and `winBad` are the poisoned 4-byte words of its caches and of its window table (R358). -/
structure Hearth where
  mode : Mode := .t
  run : Run := .free
  serves : Serves := .none
  halfH1 : Bool := false
  act : Ctx := {}
  ina : Ctx := {}
  win : Tbl (BitVec 128) := []
  scratch : Memory := []
  tags : Tbl Word := []
  poison : List Nat := []
  cacheBad : List Nat := []
  winBad : List Nat := []
  pcache : Tbl LineWord := []
  held : List Held := []
  heldNo : Nat := 0
  pubA : Bool := false
  pubX : Bool := false
  pubOld : Bool := false
  fetch : Option Nat := none
  fetchPath : Path := {}
  asks : List Ask := []
  issue : Option Issue := none
  winld : Option (Tbl (BitVec 128)) := none
  watchA : Option Watch := none
  watchX : Option Watch := none
  matq : List MatCmd := []
  stall : Bool := false
  stallOn : StallOn := {}
  out : Option OutImage := none
  pre : Option Nat := none
  base : Option Ctx := none
  dirty : List Nat := []
  mapped : List Byte := []
  req : Option Req := none
  fault : Option FaultRec := none
  ffaddr : Word := 0
  pg : PgWait := .none
  trel : Option Nat := none
  parkW : Option ParkWait := none
  latch : Latch := {}
  deriving DecidableEq, Repr, Inhabited

/-- What a write-queue operation does to its line (R265, R279, R280, R283). `reply` is the number of a returning AMO.
`fill` is the hob's copy to host physical line `to_`: of the operation's bytes, or, where it has none, of its own line
(R234, R235). -/
inductive WKind where
  | fill (to_ : Nat)
  | store
  | copy (uid : Nat)
  | amo (op : AmoOp) (wide : Bool) (reply : Option Nat) (ofs : Nat) (v c : Word)
  | acc (op : AccOp) (ty : DType) (value : LineWord)
  | acco (key : BitVec 16) (ty : DType) (value : LineWord)
  deriving DecidableEq, Repr, Inhabited

/-- Class of the entry an operation holds (R265, R269). -/
inductive WClass where
  | reserved | shared | forced
  deriving DecidableEq, Repr, Inhabited

/-- An operation on one line: whose it is (256 and above: a peer package's; 512 and above: a die's hob's), the line
(host physical address of byte 0, or the peer-side guest address for a peer's slice), the bytes by offset, the hearths
whose addends it has merged, its class and grant tick, the port by which it leaves to a peer (R350), and its way. -/
structure WOp where
  kind : WKind := .store
  part : Nat := 0
  src : Nat := 0
  ctxid : Word := 0
  gline : Nat := 0
  line : Nat := 0
  bytes : List (Nat × Byte) := []
  more : List Nat := []
  cls : WClass := .shared
  grant : Word := 0
  port : Nat := 0
  path : Path := {}
  deriving DecidableEq, Repr, Inhabited

/-- An ACC message on its way to a damper, under the number that its ember entry keeps (R268, R273). -/
structure AccMsg where
  part : Nat := 0
  src : Nat := 0
  uid : Nat := 0
  gline : Nat := 0
  line : Nat := 0
  op : AccOp := .add
  ty : DType := .i32
  value : LineWord := 0
  force : Bool := false
  port : Nat := 0
  path : Path := {}
  deriving DecidableEq, Repr, Inhabited

/-- An ordered contribution (R283, R284); the first of a slot to a peer carries the slot's open record: SPAN, LO, COUNT.
-/
structure AccoMsg where
  part : Nat := 0
  src : Nat := 0
  uid : Nat := 0
  ctxid : Word := 0
  slot : Nat := 0
  key : BitVec 16 := 0
  index : Nat := 0
  gline : Nat := 0
  line : Nat := 0
  ty : DType := .i32
  value : LineWord := 0
  opens : Option (Nat × Nat × Nat) := none
  port : Nat := 0
  path : Path := {}
  deriving DecidableEq, Repr, Inhabited

/-- A range of a key held by a slice, with the number of its open record and the sender (R281, R285, R286). -/
structure SeqRange where
  uid : Nat := 0
  src : Nat := 0
  lo : Nat := 0
  n : Nat := 0
  closed : Bool := false
  deriving DecidableEq, Repr, Inhabited

/-- A key record of a slice (R281, R285). -/
structure KeyRec where
  part : Nat := 0
  key : BitVec 16 := 0
  span : Nat := 0
  ranges : List SeqRange := []
  deriving DecidableEq, Repr, Inhabited

/-- A pair of a key and a line that has received a contribution, with the indices that have arrived (R283). -/
structure SeqPair where
  part : Nat := 0
  key : BitVec 16 := 0
  line : Nat := 0
  arrived : List Nat := []
  deriving DecidableEq, Repr, Inhabited

/-- The configuration of a partition in a slice (R266). -/
structure SliceCfg where
  rsvq : BitVec 8 := 0
  rsvs : BitVec 4 := 0
  tok : BitVec 10 := 0
  deriving DecidableEq, Repr, Inhabited

/-- A home slice (R265-R285); `bad` are the poisoned 4-byte words of its SRAM (R358). -/
structure Slice where
  inq : List WOp := []
  wq : List WOp := []
  accq : List AccMsg := []
  accoq : List AccoMsg := []
  rob : List AccoMsg := []
  tokens : Tbl Nat := []
  cfg : Tbl SliceCfg := []
  sht : BitVec 8 := 96
  keys : List KeyRec := []
  pairs : List SeqPair := []
  bad : List Nat := []
  deriving DecidableEq, Repr, Inhabited

/-- A sequence open or close record on its way to a slice, under the number of the SEQOPEN or SEQCLOSE (R281, R285); a
slice of 64 and above is a peer package's. The sender is a hearth, or 256 + a peer. -/
structure SeqMsg where
  isOpen : Bool := true
  src : Nat := 0
  slice : Nat := 0
  part : Nat := 0
  uid : Nat := 0
  key : BitVec 16 := 0
  span : Nat := 0
  lo : Nat := 0
  n : Nat := 0
  port : Nat := 0
  path : Path := {}
  deriving DecidableEq, Repr, Inhabited

/-- The acknowledgements a SEQOPEN or SEQCLOSE waits for (R281, R285). -/
structure SeqAck where
  uid : Nat := 0
  left : Nat := 0
  rejected : Bool := false
  deriving DecidableEq, Repr, Inhabited

/-- A residency or replica request posted to a hob (R234, R235, R244): who waits, if a hearth does, the host frame that
is being filled for it through the home slices. -/
structure HobReq where
  part : Nat := 0
  g : Nat := 0
  die : Nat := 0
  replica : Bool := false
  waiter : Option Nat := none
  frame : Option Nat := none
  deriving DecidableEq, Repr, Inhabited

/-- A collapse that a peer's hob has been asked for, and whether it has acknowledged it (R236). -/
structure PeerAsk where
  peer : Nat := 0
  part : Nat := 0
  g : Nat := 0
  acked : Bool := false
  deriving DecidableEq, Repr, Inhabited

/-- A route-table entry of a partition (R350). -/
structure Route where
  ports : BitVec 12 := 0
  ppart : Nat := 0
  up : Bool := true
  deriving DecidableEq, Repr, Inhabited

/-- The state of a context-store slot and its image (R326). -/
structure Image where
  state : BitVec 2 := 0
  discard : Bool := false
  reserved : Bool := false
  ctxid : Word := 0
  task : Nat := 0
  region : Nat := 0
  lasth : Nat := 0
  sdcc : Word := 0
  ctx : Ctx := {}
  scratch : Memory := []
  poison : List Nat := []
  deriving DecidableEq, Repr, Inhabited

/-- What the chimney keeps of a policy blob (R340, R341). -/
structure Policy where
  pver : BitVec 32 := 0
  tkey : List Byte := []
  rmin : Nat := 0
  rmax : Nat := 0
  dies : BitVec 8 := 0
  vfmax : Nat := 0
  fmax : Nat := 0
  qmin : Nat := 0
  slmin : Nat := 0
  qumin : Nat := 0
  qumax : Nat := 0
  cmds : BitVec 16 := 0
  flags : BitVec 8 := 0
  peers : BitVec 256 := 0
  hash : BitVec 384 := 0
  deriving DecidableEq, Repr, Inhabited

/-- A partition (R334). `s2base` is the host physical address of its stage-2 array in HBM (R232), and `holds` names the
context whose image the bytes of a context-store slot last held (R329). `freeFrames` are frames of its allotment that
evictions have freed (R234), and `leaving` replica frames given up, each after its guest frame, that an access still
uses (R236). `busy` is the OPC and TAG of an EVICT or RECLAIM still running, with the guest frames that an EVICT has
still to write (R338). `pos` is the current place in the slice list and `cur` its virtual function, 64 for none (R345).
-/
structure Part where
  alive : Bool := false
  handle : Word := 0
  rafters : BitVec 24 := 0
  s2 : List S2Ent := []
  s2base : Option Nat := none
  holds : Tbl Word := []
  freeFrames : List Nat := []
  leaving : List (Nat × Nat) := []
  fixclk : Bool := false
  ple : Nat := 0
  csbase : Nat := 0
  csn : Nat := 0
  images : Tbl Image := []
  backBase : Word := 0
  backLen : Word := 0
  versions : Tbl Nat := []
  routes : Tbl Route := []
  policy : Policy := {}
  pkey : Option (BitVec 256) := none
  sealSeq : Word := 0
  root : Word := 0
  slist : List (Nat × Nat) := []
  schedSet : Bool := false
  pos : Nat := 0
  cur : Nat := 64
  qleft : Nat := 0
  busyOp : Nat := 0
  busyTag : Word := 0
  busyFrames : List Nat := []
  deriving DecidableEq, Repr, Inhabited

/-- A virtual function (R342-R346). -/
structure Vf where
  part : Option Nat := none
  handle : Word := 0
  qtbase : Word := 0
  qtn : Word := 0
  txbase : Word := 0
  txtail : BitVec 32 := 0
  txhead : BitVec 32 := 0
  txerr : BitVec 32 := 0
  txreason : BitVec 8 := 0
  attreq : Word := 0
  attGo : Bool := false
  kin : Option (BitVec 256) := none
  kout : Option (BitVec 256) := none
  ctrin : Word := 0
  ctrout : Word := 0
  gtime : Word := 0
  stolen : Word := 0
  paused : Bool := false
  deriving DecidableEq, Repr, Inhabited

/-- A doorbell that waits for the transfer entries written before it, or for a wake (R343, R356). -/
structure Bell where
  vf : Nat := 0
  q : Nat := 0
  tail : BitVec 32 := 0
  tx : BitVec 32 := 0
  deriving DecidableEq, Repr, Inhabited

/-- What the firebox keeps of a queue (R303, R305-R307); `tdown` is the teardown under way, 3 when it is complete. -/
structure Queue where
  tail : BitVec 32 := 0
  slotNo : Option Nat := none
  heldSince : Option Word := none
  starved : Bool := false
  heldFor : Nat := 0
  idleSince : Word := 0
  waiting : Bool := false
  tdown : BitVec 2 := 0
  last : Option Nat := none
  deriving DecidableEq, Repr, Inhabited

/-- A launch (R294, R306). -/
structure Launch where
  part : Nat := 0
  vf : Nat := 0
  q : Nat := 0
  lcmpl : Nat := 0
  irq : Bool := false
  vec : Nat := 0
  overlap : Bool := false
  pred : Option Nat := none
  started : Bool := false
  ended : Bool := false
  draining : Bool := false
  aborting : Bool := false
  ntask : Nat := 0
  live : Nat := 0
  aborted : Bool := false
  failed : Bool := false
  cancelled : Bool := false
  fcode : BitVec 8 := 0
  faddr : Word := 0
  edisc : Nat := 0
  voids : Nat := 0
  deriving DecidableEq, Repr, Inhabited

/-- Where a task stands (R292-R301). -/
inductive TState where
  | accepted | ready | dispatched | parked | saved
  deriving DecidableEq, Repr, Inhabited

/-- A task that has been accepted and has not ended (R293, R295, R299-R301). `event` is the park event; `cont` the
continuation record when the task resumes from one; `age` counts since it became ready; `entry` whether it holds a
pending-launch entry and `rsv` whether one is reserved for its LAUNCHW; `look` says that an item on which its readiness
depends waits for residency (R398); `ldie` is the launching hearth's die (R295). `ripe` says that it is ready while an
item that decides its place is still awaited, and `succs` are the successors whose records a release has still to reach
(R293, R398). -/
structure Task where
  part : Nat := 0
  vf : Nat := 0
  q : Nat := 0
  gpa : Nat := 0
  region : Nat := 0
  launch : Nat := 0
  st : TState := .accepted
  age : Nat := 0
  order : Nat := 0
  cont : Option Nat := none
  event : Nat := 0
  cond : Nat := 0
  eaddr : Nat := 0
  cmp : Word := 0
  met : Bool := false
  metFor : Nat := 0
  look : Bool := false
  slot : Option Nat := none
  ldie : Nat := 0
  die : Nat := 0
  place : Option (Nat × Nat) := none
  entry : Bool := false
  rsv : Bool := false
  treled : Bool := false
  succs : Option (List Nat) := none
  ripe : Bool := false
  fcode : BitVec 8 := 0
  faddr : Word := 0
  edisc : Nat := 0
  voids : Nat := 0
  deriving DecidableEq, Repr, Inhabited

/-- A live region's effective values and charges (R288-R290); `dirty` says that its RO fields in memory have to be
written, and for which launch (R398). `reread` says that a LAUNCH_DEADLOCK handler has ended and PLE is still to be read
again (R302). -/
structure Region where
  part : Nat := 0
  gpa : Nat := 0
  parent : Nat := 0
  level : Nat := 1
  hcap : Nat := 0
  ple : Nat := 0
  ea : Nat := 0
  sqa : Nat := 0
  prio : Nat := 0
  handler : Nat := 0
  propagate : Bool := false
  winimg : Nat := 0
  run : Nat := 0
  plu : Nat := 0
  squ : Nat := 0
  faults : Word := 0
  dlock : Bool := false
  reread : Bool := false
  dirty : Option Nat := none
  deriving DecidableEq, Repr, Inhabited

/-- How a task ends (R294). -/
inductive EndStatus where
  | done | aborted | cancelled | failed
  deriving DecidableEq, Repr, Inhabited

/-- A task whose end still has to release its successors and to be recorded (R293, R294, R398). -/
structure EndRec where
  part : Nat := 0
  gpa : Nat := 0
  status : EndStatus := .done
  deriving DecidableEq, Repr, Inhabited

/-- Bytes that the device owes to guest memory whose frame cannot take them now: RO fields of a retired region (R289),
or an image header (R326). -/
structure Owed where
  part : Nat := 0
  gpa : Nat := 0
  bytes : List Byte := []
  deriving DecidableEq, Repr, Inhabited

/-- The fireboxes (13): `unread` are frames whose residency request the hob has refused (R398); launches and queues by
number, tasks and regions by partition and address; `bad` are the poisoned words of their SRAM, by die, of which no
context reads any (R358); `turns` holds for each queue priority the slot that had the last turn (R306). -/
structure Firebox where
  queues : Tbl Queue := []
  launches : Tbl Launch := []
  tasks : List Task := []
  regions : List Region := []
  ends : List EndRec := []
  bells : List Bell := []
  nextLaunch : Nat := 0
  nextOrder : Nat := 0
  turns : Tbl Nat := []
  owed : List Owed := []
  ctxid : Word := 0
  unread : List (Nat × Nat) := []
  msix : List (Nat × Nat) := []
  bad : List (Nat × Nat) := []
  deriving DecidableEq, Repr, Inhabited

/-- The chimney (15): BAR0 of the physical function, events waiting for room, handles, and the count of ephemeral keys
taken. -/
structure Chimney where
  crbase : Word := 0
  crtail : BitVec 32 := 0
  crhead : BitVec 32 := 0
  evbase : Word := 0
  evhead : BitVec 32 := 0
  evtail : BitVec 32 := 0
  starve : Word := 1700000000
  events : List (List Byte) := []
  handles : Word := 0
  eph : Nat := 0
  deriving DecidableEq, Repr, Inhabited

/-- What a wake or a bank entry is doing (R354-R356). -/
inductive Trans where
  | none | entering (state : BitVec 2) | waking (left : Nat)
  deriving DecidableEq, Repr, Inhabited

/-- Power and housekeeping (16). `failed`: bring-up has refused the hob's firmware, and the package is held in reset;
`held` and `peerHeld` are doorbells and peer accesses that wait for a wake. `inject` are the error-injection registers,
which only H mode writes (R23, R360), and `sampled` the tick of the last telemetry record. -/
structure Power where
  on : Bool := true
  target : BitVec 2 := 0
  cur : BitVec 2 := 0
  ready : Bool := false
  refused : Bool := false
  wakesrc : BitVec 8 := 0
  trans : Trans := .none
  capw : BitVec 11 := 1600
  gates : Tbl Nat := []
  tlbase : Word := 0
  tltail : BitVec 32 := 0
  eltail0 : BitVec 32 := 0
  eltail1 : BitVec 32 := 0
  log : Tbl (List Byte) := []
  corrected : BitVec 32 := 0
  held : List Bell := []
  peerHeld : List Instr := []
  failed : Bool := false
  inject : Tbl Word := []
  sampled : Option Word := none
  deriving DecidableEq, Repr, Inhabited

/-- A pending snapshot trigger: the latch tick and the tag of the earliest SNAP (R332). -/
structure SnapTrig where
  at_ : Word := 0
  tag : BitVec 16 := 0
  bySnap : Bool := false
  deriving DecidableEq, Repr, Inhabited

/-- Fabric, links and peers (01, R239, R350). `losing` counts down to the invalidation of a peer; `lost` are the routes,
as 256 × partition + peer, that an invalidation has ended; `sleepPorts` are the ports that bank-3 has taken down. -/
structure Fabric where
  slots0 : Tbl (BitVec 5) := []
  slots1 : Tbl (BitVec 5) := []
  newSlots : List (Nat × Nat × BitVec 512) := []
  ridge : BitVec 16 := 0xFFFF
  resent : Nat := 0
  portDown : List Nat := []
  lost : List Nat := []
  losing : Tbl Nat := []
  sleepPorts : List Nat := []
  deriving DecidableEq, Repr, Inhabited

/-- The values latched for the blocks by a snapshot (R332): the latch tick, the tag, and the occupancy of each slice, of
each firebox, of each die's eave ring and of the ridge. -/
structure BlockLatch where
  tick : Word := 0
  tag : BitVec 16 := 0
  slices : List Nat := []
  fireboxes : List Nat := []
  rings : List Word := []
  ridge : Word := 0
  deriving DecidableEq, Repr, Inhabited

/-- An answer of a damper on its way to the sender of message `uid` (R268, R273). -/
structure AccAns where
  uid : Nat := 0
  accept : Bool := true
  part : Nat := 0
  path : Path := {}
  deriving DecidableEq, Repr, Inhabited

/-- The old value on its way to the returning AMO `uid` (R260). -/
structure AmoReply where
  uid : Nat := 0
  value : Word := 0
  part : Nat := 0
  path : Path := {}
  deriving DecidableEq, Repr, Inhabited

/-- An acknowledgement on its way to a SEQOPEN, SEQCLOSE or ACCO (R281, R284, R285). -/
structure SeqAns where
  uid : Nat := 0
  rejected : Bool := false
  part : Nat := 0
  path : Path := {}
  deriving DecidableEq, Repr, Inhabited

/-- The state of the whole package. `cur` and `eng` name the core and engine for which `exec` executes an instruction;
`due`, `agenda` and `sched` order the steps (log 3); `free` counts the free values taken (log 5). -/
structure State where
  dcc : Word
  mem : Memory
  poison : List Nat
  host : Memory
  hearths : Tbl Hearth
  cur : Nat
  eng : Eng
  slices : Tbl Slice
  ocm : List OcmMsg
  seqMsgs : List SeqMsg
  seqAcks : List SeqAck
  answers : List AccAns
  replies : List AmoReply
  acks : List SeqAns
  hobReqs : List HobReq
  peerAsks : List PeerAsk
  parts : Tbl Part
  vfs : Tbl Vf
  fb : Firebox
  ch : Chimney
  pw : Power
  fab : Fabric
  snap : Option SnapTrig
  latched : BlockLatch
  due : List Instr
  agenda : List Choice
  sched : Nat
  free : Nat
  uid : Nat
  deriving DecidableEq, Repr

/-- The state right after cold reset, before bring-up completes (R361): READY is 0, the counter restarts at 0 (R354), no
partition exists. Registers without a reset value hold what log 1 names; nothing is listed in any memory (log 2). -/
def State.reset : State :=
  { dcc := 0, mem := [], poison := [], host := [], hearths := [], cur := 0, eng := .a, slices := [], ocm := []
    seqMsgs := [], seqAcks := [], answers := [], replies := [], acks := [], hobReqs := [], peerAsks := [], parts := []
    vfs := [], fb := {}, ch := {}, pw := {}, fab := {}, snap := none, latched := {}, due := [], agenda := [], sched := 0
    free := 0, uid := 0 }

end Sys2Proof.Machine
end

