-- ==== Sys2Proof/Machine/Store.lean ====
section
/-!
DEFINITION. Tables and byte stores: lookup, update, ranges, and the little-endian reading and writing of multi-byte
values (R5). A store keeps its canonical form: ascending addresses, no byte 0 listed.
-/
set_option autoImplicit false

namespace Sys2Proof.Machine

/-- The value at a key; `d` where the table lists none. -/
def tget {α : Type} (d : α) : Tbl α → Nat → α
  | [], _ => d
  | (j, v) :: r, k => if j = k then v else tget d r k

/-- The table with the value at a key set. -/
def tput {α : Type} : Tbl α → Nat → α → Tbl α
  | [], k, v => [(k, v)]
  | (j, w) :: r, k, v => if k < j then (k, v) :: (j, w) :: r else if j = k then (k, v) :: r else (j, w) :: tput r k v

/-- The table without a key. -/
def tdel {α : Type} (l : Tbl α) (k : Nat) : Tbl α := l.filter fun p => p.1 != k

def thas {α : Type} (l : Tbl α) (k : Nat) : Bool := l.any fun p => p.1 == k

/-- One byte; an unlisted address reads 0 (log 2). -/
def mget (m : Memory) (a : Nat) : Byte := tget 0 m a

/-- Writes one byte; the byte 0 is never listed. -/
def mput (m : Memory) (a : Nat) (b : Byte) : Memory := if b = 0 then tdel m a else tput m a b

/-- The canonical form: strictly ascending addresses, no entry equal to what an unlisted address reads as. -/
def Memory.wf : Memory → Bool
  | [] => true
  | [(_, b)] => b != 0
  | (a, b) :: (c, d) :: r => b != 0 && a < c && Memory.wf ((c, d) :: r)

/-- `n` bytes from `a`, ascending. -/
def mbytes (m : Memory) (a n : Nat) : List Byte := (List.range n).map fun i => mget m (a + i)

/-- Writes bytes from `a` upward. -/
def mwrite (m : Memory) (a : Nat) : List Byte → Memory
  | [] => m
  | b :: r => mwrite (mput m a b) (a + 1) r

/-- A little-endian number from bytes (R5). -/
def leNat : List Byte → Nat
  | [] => 0
  | b :: r => b.toNat + 256 * leNat r

/-- The `n` little-endian bytes of a number (R5). -/
def leBytes : Nat → Nat → List Byte
  | 0, _ => []
  | n + 1, v => BitVec.ofNat 8 v :: leBytes n (v / 256)

/-- A big-endian number from bytes, for the byte strings of R340 and R344. -/
def beNat (l : List Byte) : Nat := l.foldl (fun a b => 256 * a + b.toNat) 0
def beBytes (n v : Nat) : List Byte := (leBytes n v).reverse

/-- An `n`-byte little-endian value at `a`. -/
def mrd (m : Memory) (a n : Nat) : Nat := leNat (mbytes m a n)
def mwr (m : Memory) (a n v : Nat) : Memory := mwrite m a (leBytes n v)

/-- The cells of a range, with addresses counted from `k`. -/
def mslice (m : Memory) (a n k : Nat) : Memory :=
  (m.filter fun p => a ≤ p.1 && p.1 < a + n).map fun p => (p.1 - a + k, p.2)

/-- The store with a range zeroed. -/
def mclear (m : Memory) (a n : Nat) : Memory := m.filter fun p => p.1 < a || a + n ≤ p.1

/-- Writes every listed cell of `src` over a store. -/
def mover (m : Memory) (src : Memory) : Memory := src.foldl (fun m p => mput m p.1 p.2) m

/-- Replaces a range by cells whose addresses already lie in it. -/
def mreplace (m : Memory) (a n : Nat) (src : Memory) : Memory := mover (mclear m a n) src

/-! ### Lists -/

/-- The element at a position replaced. -/
def lset {α : Type} : List α → Nat → α → List α
  | [], _, _ => []
  | _ :: r, 0, v => v :: r
  | x :: r, n + 1, v => x :: lset r n v

def lmod {α : Type} (l : List α) (n : Nat) (f : α → α) : List α :=
  match l[n]? with
  | some v => lset l n (f v)
  | none => l

/-- The list without the element at a position. -/
def ldel {α : Type} : List α → Nat → List α
  | [], _ => []
  | _ :: r, 0 => r
  | x :: r, n + 1 => x :: ldel r n

/-! ### Numbers -/

/-- zext(x, n) of R49 is `toNat`; sext(x, n) is `toInt`. A signed number taken modulo 2^w. -/
def wrap (w : Nat) (i : Int) : Nat := (i % (2 ^ w : Nat)).toNat

/-- x[n-1:0] sign-extended (R49). -/
def sextNat (n v : Nat) : Int :=
  let r := v % 2 ^ n
  if n = 0 then 0 else if 2 ^ (n - 1) ≤ r then (r : Int) - (2 ^ n : Nat) else r

/-- ceil(a / b). -/
def cdiv (a b : Nat) : Nat := (a + b - 1) / b

/-- The bits [lo+n-1:lo] of a number. -/
def bits (v lo n : Nat) : Nat := v / 2 ^ lo % 2 ^ n

def popcount (v : Word) : Nat := ((List.range 64).filter fun i => v.getLsbD i).length

/-- Stops at the all-ones value of `w` bits (R62). -/
def satInc {w : Nat} (v : BitVec w) : BitVec w := if v = BitVec.allOnes w then v else v + 1

def satAdd {w : Nat} (v : BitVec w) (n : Nat) : BitVec w := BitVec.ofNat w (min (v.toNat + n) (2 ^ w - 1))

end Sys2Proof.Machine
end

