-- ==== Sys2Proof/Machine/Crypto.lean ====
section
/-!
DEFINITION. The cryptography that 14 R331 and 15 R340-R344 name: SHA-384 and HMAC (FIPS 180-4, RFC 2104), HKDF (RFC 5869),
AES-256-GCM (FIPS 197, SP 800-38D), and P-384 with ECDSA and ECDH (FIPS 186-4). PRESUMED: the spec names the standards and
does not repeat them (log 38).
-/
set_option autoImplicit false

namespace Sys2Proof.Machine

/-! ### SHA-384 -/

/-- The largest r with r^k ≤ n and r < 2^b. -/
def rootGo (n k : Nat) : Nat → Nat → Nat
  | 0, r => r
  | b + 1, r => rootGo n k b (if (r + 2 ^ b) ^ k ≤ n then r + 2 ^ b else r)

def isPrime (n : Nat) : Bool := 2 ≤ n && (List.range n).all fun d => d < 2 || n % d != 0

/-- The first 80 primes. -/
def primes80 : List Nat := ((List.range 410).filter isPrime).take 80

/-- First 64 bits of the fractional parts of the cube roots of the first 80 primes. -/
def shaK : List (BitVec 64) := primes80.map fun p => BitVec.ofNat 64 (rootGo (p * 2 ^ 192) 3 68 0)

/-- First 64 bits of the fractional parts of the square roots of the 9th to 16th primes. -/
def sha384Init : List (BitVec 64) := ((primes80.drop 8).take 8).map fun p => BitVec.ofNat 64 (rootGo (p * 2 ^ 128) 2 68 0)

def shaW (ws : List (BitVec 64)) (i : Nat) : BitVec 64 := ws.getD i 0

/-- The message schedule, latest word first. -/
def shaExpand : Nat → List (BitVec 64) → List (BitVec 64)
  | 0, ws => ws
  | n + 1, ws =>
    let a := shaW ws 1
    let b := shaW ws 14
    let s1 := (a.rotateRight 19) ^^^ (a.rotateRight 61) ^^^ (a >>> 6)
    let s0 := (b.rotateRight 1) ^^^ (b.rotateRight 8) ^^^ (b >>> 7)
    shaExpand n ((s1 + shaW ws 6 + s0 + shaW ws 15) :: ws)

def shaRound (h : List (BitVec 64)) (kw : BitVec 64) : List (BitVec 64) :=
  let a := shaW h 0
  let e := shaW h 4
  let s1 := (e.rotateRight 14) ^^^ (e.rotateRight 18) ^^^ (e.rotateRight 41)
  let ch := (e &&& shaW h 5) ^^^ (~~~ e &&& shaW h 6)
  let t1 := shaW h 7 + s1 + ch + kw
  let s0 := (a.rotateRight 28) ^^^ (a.rotateRight 34) ^^^ (a.rotateRight 39)
  let maj := (a &&& shaW h 1) ^^^ (a &&& shaW h 2) ^^^ (shaW h 1 &&& shaW h 2)
  [t1 + s0 + maj, a, shaW h 1, shaW h 2, shaW h 3 + t1, e, shaW h 5, shaW h 6]

def shaBlock (h : List (BitVec 64)) (m : List Byte) : List (BitVec 64) :=
  let ws := (List.range 16).map fun i => BitVec.ofNat 64 (beNat ((m.drop (8 * i)).take 8))
  let sched := (shaExpand 64 ws.reverse).reverse
  let out := ((shaK.zip sched).map fun p => p.1 + p.2).foldl shaRound h
  (h.zip out).map fun p => p.1 + p.2

def shaBlocks : Nat → List Byte → List (BitVec 64) → List (BitVec 64)
  | 0, _, h => h
  | n + 1, l, h => shaBlocks n (l.drop 128) (shaBlock h (l.take 128))

def sha384 (l : List Byte) : List Byte :=
  let pad := (128 - (l.length + 17) % 128) % 128
  let m := l ++ [0x80] ++ List.replicate pad 0 ++ beBytes 16 (8 * l.length)
  (((shaBlocks (m.length / 128) m sha384Init).take 6).map fun w => beBytes 8 w.toNat).flatten

def hmac384 (key m : List Byte) : List Byte :=
  let k := (if 128 < key.length then sha384 key else key)
  let k := k ++ List.replicate (128 - k.length) 0
  sha384 (k.map (· ^^^ 0x5C) ++ sha384 (k.map (· ^^^ 0x36) ++ m))

/-- HKDF-SHA-384 for an output of at most 48 bytes. -/
def hkdf384 (salt ikm info : List Byte) (n : Nat) : List Byte :=
  (hmac384 (hmac384 salt ikm) (info ++ [1])).take n

/-! ### AES-256-GCM -/

def xtime (a : Nat) : Nat := if a < 128 then 2 * a else (2 * a) % 256 ^^^ 0x1B

/-- The product in GF(2^8). -/
def gmulGo : Nat → Nat → Nat → Nat
  | 0, _, _ => 0
  | n + 1, a, b => (if b % 2 = 1 then a else 0) ^^^ gmulGo n (xtime a) (b / 2)
def gmul (a b : Nat) : Nat := gmulGo 8 a b

/-- a^254, the inverse. -/
def ginv (a : Nat) : Nat :=
  let a2 := gmul a a
  let a4 := gmul a2 a2
  let a8 := gmul a4 a4
  let a16 := gmul a8 a8
  let a32 := gmul a16 a16
  let a64 := gmul a32 a32
  let a128 := gmul a64 a64
  gmul a128 (gmul a64 (gmul a32 (gmul a16 (gmul a8 (gmul a4 a2)))))

def rotl8 (a n : Nat) : Nat := a * 2 ^ n % 256 ||| a / 2 ^ (8 - n)
def sboxOf (a : Nat) : Nat :=
  let i := ginv a
  i ^^^ rotl8 i 1 ^^^ rotl8 i 2 ^^^ rotl8 i 3 ^^^ rotl8 i 4 ^^^ 0x63
def sboxTable : List Nat := (List.range 256).map sboxOf
def sbox (a : Nat) : Nat := sboxTable.getD a 0

def xorList (a b : List Nat) : List Nat := a.zipWith (· ^^^ ·) b

/-- The key schedule: words of four bytes, latest first. -/
def keyExpand : Nat → Nat → Nat → List (List Nat) → List (List Nat)
  | 0, _, _, ws => ws
  | n + 1, i, rc, ws =>
    let t := ws.headD []
    let prev := ws.getD 7 []
    if i % 8 = 0 then
      let r := (t.drop 1 ++ t.take 1).map sbox
      keyExpand n (i + 1) (xtime rc) (xorList (xorList r [rc, 0, 0, 0]) prev :: ws)
    else if i % 8 = 4 then keyExpand n (i + 1) rc (xorList (t.map sbox) prev :: ws)
    else keyExpand n (i + 1) rc (xorList t prev :: ws)

/-- The fifteen round keys of 16 bytes. -/
def roundKeys (key : List Nat) : List (List Nat) :=
  let ws := (List.range 8).map fun i => (key.drop (4 * i)).take 4
  let all := (keyExpand 52 8 1 ws.reverse).reverse
  (List.range 15).map fun r => ((all.drop (4 * r)).take 4).flatten

def shiftRows (b : List Nat) : List Nat :=
  (List.range 16).map fun i => b.getD ((i + 4 * (i % 4)) % 16) 0
def mixColumn (c : List Nat) : List Nat :=
  (List.range 4).map fun i =>
    gmul 2 (c.getD i 0) ^^^ gmul 3 (c.getD ((i + 1) % 4) 0) ^^^ c.getD ((i + 2) % 4) 0 ^^^ c.getD ((i + 3) % 4) 0
def mixColumns (b : List Nat) : List Nat :=
  (List.range 4).flatMap fun c => mixColumn ((b.drop (4 * c)).take 4)

def aesBlock (ks : List (List Nat)) (b : List Nat) : List Nat :=
  let b := xorList b (ks.headD [])
  let b := ((ks.drop 1).take 13).foldl (fun b k => xorList (mixColumns (shiftRows (b.map sbox))) k) b
  xorList (shiftRows (b.map sbox)) (ks.getD 14 [])

/-- The product of GHASH: bit 127 of a block's number is its first bit. -/
def ghashGo (y : Nat) : Nat → Nat → Nat → Nat
  | 0, _, z => z
  | n + 1, v, z =>
    let z := if y / 2 ^ n % 2 = 1 then z ^^^ v else z
    ghashGo y n (if v % 2 = 1 then v / 2 ^^^ 0xE1000000000000000000000000000000 else v / 2) z
def ghashMul (x y : Nat) : Nat := ghashGo y 128 x 0

/-- The 16-byte blocks of a string, the last filled with zeros. -/
def blocks16 : Nat → List Nat → List (List Nat)
  | 0, _ => []
  | n + 1, l => if l.isEmpty then [] else ((l.take 16) ++ List.replicate (16 - l.length) 0) :: blocks16 n (l.drop 16)
def blocksOf (l : List Nat) : List (List Nat) := blocks16 (l.length / 16 + 1) l

def beOf (l : List Nat) : Nat := l.foldl (fun a b => 256 * a + b) 0
def toBe (n v : Nat) : List Nat := (beBytes n v).map (·.toNat)

def ghash (h : Nat) (bs : List (List Nat)) : Nat := bs.foldl (fun y b => ghashMul (y ^^^ beOf b) h) 0

/-- The counter-mode stream over blocks numbered from a counter. -/
def ctrGo (ks : List (List Nat)) (iv : List Nat) : Nat → List (List Nat) → List Nat
  | _, [] => []
  | n, b :: r => xorList b (aesBlock ks (iv ++ toBe 4 n)) ++ ctrGo ks iv (n + 1) r

/-- The counter-mode image of a text and the tag of a ciphertext. -/
def gcmStream (key : BitVec 256) (iv text : List Byte) : List Byte :=
  let ks := roundKeys (toBe 32 key.toNat)
  let t := text.map (·.toNat)
  ((ctrGo ks (iv.map (·.toNat)) 2 (blocksOf t)).take t.length).map (BitVec.ofNat 8)
def gcmTag (key : BitVec 256) (iv aad cipher : List Byte) : List Byte :=
  let ks := roundKeys (toBe 32 key.toNat)
  let h := beOf (aesBlock ks (List.replicate 16 0))
  let lens := toBe 8 (8 * aad.length) ++ toBe 8 (8 * cipher.length)
  let y := ghash h (blocksOf (aad.map (·.toNat)) ++ blocksOf (cipher.map (·.toNat)) ++ [lens])
  (xorList (toBe 16 y) (aesBlock ks (iv.map (·.toNat) ++ toBe 4 1))).map (BitVec.ofNat 8)

/-- Ciphertext followed by the tag. -/
def gcmSeal (key : BitVec 256) (iv aad text : List Byte) : List Byte :=
  let c := gcmStream key iv text
  c ++ gcmTag key iv aad c
/-- The plaintext of a ciphertext whose tag verifies. -/
def gcmOpen (key : BitVec 256) (iv aad cipher tag : List Byte) : Option (List Byte) :=
  if gcmTag key iv aad cipher = tag then some (gcmStream key iv cipher) else none

/-- A key from 32 bytes in the order given, and back. -/
def keyOf (l : List Byte) : BitVec 256 := BitVec.ofNat 256 (beNat l)

/-! ### P-384 -/

def pP : Nat := 2 ^ 384 - 2 ^ 128 - 2 ^ 96 + 2 ^ 32 - 1
def pN : Nat := 0xFFFFFFFFFFFFFFFFFFFFFFFFFFFFFFFFFFFFFFFFFFFFFFFFC7634D81F4372DDF581A0DB248B0A77AECEC196ACCC52973
def pB : Nat := 0xB3312FA7E23EE7E4988E056BE3F82D19181D9C6EFE8141120314088F5013875AC656398D8A2ED19D2A85C8EDD3EC2AEF
def pGx : Nat := 0xAA87CA22BE8B05378EB1C71EF320AD746E1D3B628BA79B9859F741E082542A385502F25DBF55296C3A545E3872760AB7
def pGy : Nat := 0x3617DE4A96262C6F5D9E98BF9292DC29F8F41DBD289A147CE9DA3113B5F0B8C00A60B1CE1D7E819D7A431D7C90EA0E5F

/-- b^e mod m over the low k bits of e. -/
def powMod (m : Nat) : Nat → Nat → Nat → Nat
  | 0, _, _ => 1
  | k + 1, b, e => (if e % 2 = 1 then b else 1) * powMod m k (b * b % m) (e / 2) % m
def invMod (m a : Nat) : Nat := powMod m 384 (a % m) (m - 2)

/-- A point of the curve; none is the point at infinity. -/
abbrev Point := Option (Nat × Nat)

def subMod (a b : Nat) : Nat := (a % pP + (pP - b % pP)) % pP

def onCurve (x y : Nat) : Bool :=
  x < pP && y < pP && y * y % pP == (x * x % pP * x + (pP - 3) * x + pB) % pP

def pointAdd (p q : Point) : Point :=
  match p, q with
  | none, q => q
  | p, none => p
  | some (x, y), some (u, v) =>
    if x = u ∧ (y + v) % pP = 0 then none
    else
      let l := if x = u then (3 * x * x + (pP - 3)) % pP * invMod pP (2 * y) % pP
        else subMod v y * invMod pP (subMod u x) % pP
      let w := subMod (subMod (l * l % pP) x) u
      some (w, subMod (l * subMod x w % pP) y)

/-- A point (x, y) of the curve as (X, Y, Z) with x = X / Z², y = Y / Z³, and Z = 0 at infinity: sums in this form take
no inverse. -/
structure Jac where
  x : Nat
  y : Nat
  z : Nat

def Jac.double (p : Jac) : Jac :=
  let d := p.z * p.z % pP
  let g := p.y * p.y % pP
  let b := p.x * g % pP
  let a := 3 * (subMod p.x d * ((p.x + d) % pP) % pP) % pP
  let x := subMod (a * a % pP) (8 * b)
  { x := x, y := subMod (a * subMod (4 * b) x % pP) (8 * (g * g % pP)), z := 2 * p.y * p.z % pP }

def Jac.add (p q : Jac) : Jac :=
  if p.z = 0 then q
  else if q.z = 0 then p
  else
    let pp := p.z * p.z % pP
    let qq := q.z * q.z % pP
    let u := p.x * qq % pP
    let v := p.y * (q.z * qq % pP) % pP
    let h := subMod (q.x * pp % pP) u
    let r := subMod (q.y * (p.z * pp % pP) % pP) v
    if h = 0 then if r = 0 then p.double else { x := 1, y := 1, z := 0 }
    else
      let hh := h * h % pP
      let hhh := h * hh % pP
      let w := u * hh % pP
      let x := subMod (subMod (r * r % pP) hhh) (2 * w)
      { x := x, y := subMod (r * subMod w x % pP) (v * hhh % pP), z := h * (p.z * q.z % pP) % pP }

def Jac.affine (p : Jac) : Point :=
  if p.z = 0 then none
  else
    let i := invMod pP p.z
    let j := i * i % pP
    some (p.x * j % pP, p.y * (i * j % pP) % pP)

/-- n times a point, over the low k bits of n. -/
def pointMulGo (p : Jac) : Nat → Nat → Jac
  | 0, _ => { x := 1, y := 1, z := 0 }
  | k + 1, n =>
    let r := (pointMulGo p k (n / 2)).double
    if n % 2 = 1 then p.add r else r
def pointMul (n : Nat) (p : Point) : Point :=
  match p with
  | none => none
  | some (x, y) => (pointMulGo { x := x, y := y, z := 1 } 384 n).affine
def pG : Point := some (pGx, pGy)

/-- An uncompressed point: 0x04, X, Y. -/
def pointBytes (p : Point) : List Byte :=
  match p with
  | some (x, y) => [0x04] ++ beBytes 48 x ++ beBytes 48 y
  | none => List.replicate 97 0
def pointOf (l : List Byte) : Option (Nat × Nat) :=
  let x := beNat ((l.drop 1).take 48)
  let y := beNat ((l.drop 49).take 48)
  if l.getD 0 0 = 0x04 ∧ onCurve x y then some (x, y) else none

/-- ECDSA over SHA-384: the signature r ‖ s under key d with nonce k, and its check under a public point. -/
def ecdsaSign (d k : Nat) (m : List Byte) : List Byte :=
  let e := beNat (sha384 m)
  let r := match pointMul k pG with | some (x, _) => x % pN | none => 0
  let t := invMod pN k * ((e + r * d) % pN) % pN
  beBytes 48 r ++ beBytes 48 t
def ecdsaCheck (q : Nat × Nat) (m sig : List Byte) : Bool :=
  let r := beNat (sig.take 48)
  let t := beNat ((sig.drop 48).take 48)
  let e := beNat (sha384 m)
  let w := invMod pN t
  0 < r && r < pN && 0 < t && t < pN &&
    (match pointAdd (pointMul (e * w % pN) pG) (pointMul (r * w % pN) (some q)) with
     | some (x, _) => x % pN == r
     | none => false)

end Sys2Proof.Machine
end

