-- ==== Sys2Proof/WellFormed.lean ====
section
/-!
DEFINITION. Which instructions have an encoding in an engine's table: register numbers (R34), guards (R35), types and
rounding (R37), SUB values (R40-R43), and the further operand checks of each entry. The part's own steps have none.
-/
set_option autoImplicit false

namespace Sys2Proof

namespace WF

/-- Class 0 numbers of R34. -/
def reg (e : Eng) (r : Reg) : Bool := match e with | .a => true | .x => r.toNat < 16
def src (e : Eng) : Src → Bool | .reg r => reg e r | .imm _ => true
def mem (e : Eng) (m : MemOp) : Bool := reg e m.base && reg e m.index
/-- Class 5 numbers 0-7. -/
def breg (r : Reg) : Bool := r.toNat < 8
/-- Class 5 numbers 8-11. -/
def lreg (r : Reg) : Bool := 8 ≤ r.toNat && r.toNat ≤ 11
/-- Class 2 and class 3 numbers. -/
def tile (r : Reg) : Bool := r.toNat < 8
def accu (r : Reg) : Bool := r.toNat < 4
/-- Class 6 numbers 16-31. -/
def gslot (r : Reg) : Bool := 16 ≤ r.toNat
/-- Predicate guards and none: every instruction not listed in R35. -/
def pg : Guard → Bool | .slot _ => false | _ => true

def scalarTy : DType → Bool | .i32 | .n32 | .i64 | .n64 => true | _ => false
/-- Set I of R183. -/
def intTy : DType → Bool | .i32 | .n32 | .i16 | .i8 | .n8 | .i4 => true | _ => false
/-- Set F of R183. -/
def fltTy : DType → Bool | .f32 | .bf16 | .f16 | .e4 | .e5 => true | _ => false
def vecTy (t : DType) : Bool := intTy t || fltTy t
def signedVecTy : DType → Bool | .i32 | .i16 | .i8 | .i4 => true | _ => false
/-- Types of VQNT and SCALEQ. -/
def quantTy : DType → Bool | .i16 | .i8 | .n8 | .i4 | .bf16 | .f16 | .e4 | .e5 => true | _ => false
def word32Ty : DType → Bool | .i32 | .n32 | .f32 => true | _ => false
def storeW : Width → Bool | .w8 | .w16 | .w32 | .w64 => true | _ => false
/-- A nonzero RND with an integer TYPE is reserved (R187). -/
def fOnly (t : DType) (r : Rnd) : Bool := fltTy t || r == .rne
def vsrc : VSrc → Bool | _ => true
def vamt : VAmt → Bool | .reg r => reg .x r | _ => true
def tsrc : TSrc → Bool | .tile r => tile r | .acc r => accu r

/-- CW and S3 against the completion code (R173). -/
def copyEnd (c : CopyEnd) : Bool :=
  match c.compl with
  | .none => c.cw == 0 && c.val == 0
  | .signal => true
  | .barrier => c.val == 0 && c.cw.toNat % 2 == 0
/-- IMM32 and S3 against the completion code (R148). -/
def unitEnd (c : UnitEnd) : Bool :=
  match c.compl with
  | .none => c.tgt == 0 && c.val == 0
  | .signal => true
  | .barrier => c.val == 0
/-- TYPEs each SUB of ACC accepts (R276). -/
def accTy (op : AccOp) (t : DType) : Bool :=
  match op with
  | .add => t == .i32 || t == .i64 || t == .f32
  | .smin | .smax => t == .i32 || t == .i64
  | .umin | .umax => t == .n32 || t == .n64
  | .fmin | .fmax => t == .f32
/-- Condition codes 6 and 7 take floating-point types only (R41). -/
def condTy (c : Cond) (t : DType) : Bool :=
  match c with
  | .uo | .or => fltTy t
  | _ => true
/-- R42. -/
def amo (op : AmoOp) (wide nr : Bool) (d s3 : Reg) : Bool :=
  (match op with | .fadd | .fmin | .fmax => !wide | _ => true)
    && (nr == (d == 0)) && (op == .cas || s3 == 0)
/-- Type, RND and SAT of MRG (R138). -/
def mrg (c : Combine) (t : DType) (r : RndSat) : Bool :=
  word32Ty t && ((t == .f32 && c == .add) || r.rnd == .rne) && (c == .add || !r.sat)
/-- Operator, type and rounding of VRED (R187, R200). -/
def vred (op : RedOp) (t : DType) (r : RndSat) : Bool :=
  (match op with
   | .add | .min | .max => vecTy t
   | _ => intTy t) && (op == .add || !r.sat) && ((op == .add && fltTy t) || r.rnd == .rne)
def vscan (op : Combine) (t : DType) (r : RndSat) : Bool :=
  vecTy t && (op == .add || !r.sat) && ((op == .add && fltTy t) || r.rnd == .rne)
/-- The numbers of R59 whose Engines column names the engine. -/
def sysRegEngine (e : Eng) (n : BitVec 12) : Bool :=
  let k := n.toNat
  let both := k == 0 || k == 1 || k == 2 || k == 0x10 || k == 0x11 || k == 0x12 || k == 0x30 || k == 0x31 || k == 0x40
  match e with
  | .a => both || k == 0x15
  | .x => both || k == 0x13 || k == 0x14 || (0x20 ≤ k && k ≤ 0x27)
/-- The numbers of R59 whose Write column is not "none". -/
def sysRegWritable (n : BitVec 12) : Bool :=
  let k := n.toNat
  (0x10 ≤ k && k ≤ 0x15) || (0x20 ≤ k && k ≤ 0x27)
def tstRect (s : TSrc) (ty : DType) (r : TstRect) : Bool :=
  match s with
  | .tile _ => ty == .i32 && r.arows == 0 && r.acols == 0
  | .acc _ => word32Ty ty

end WF

open WF in
/-- The instruction has an encoding in the table of engine `e`, and its decoding raises no fault of checks 1-4 of R39.
-/
def wf (e : Eng) : Instr → Bool
  | .nop => true
  | .movi g d _ => pg g && reg e d
  | .mov g d s => pg g && reg e d && src e s
  | .ldl g _ d _ => pg g && reg e d
  | .movs g s n => pg g && src e s && sysRegEngine e n && sysRegWritable n
  | .movf g d n => pg g && reg e d && sysRegEngine e n
  | .add g d s1 s2 s3 t _ | .sub g d s1 s2 s3 t _ | .addx g d s1 s2 s3 t =>
      pg g && reg e d && src e s1 && src e s2 && src e s3 && scalarTy t
  | .mul g d s1 s2 t _ | .mulh g d s1 s2 t | .div g d s1 s2 t | .rem g d s1 s2 t
  | .and g d s1 s2 t | .or g d s1 s2 t | .xor g d s1 s2 t | .andn g d s1 s2 t
  | .shl g d s1 s2 t | .shr g d s1 s2 t | .sar g d s1 s2 t | .rot g d s1 s2 t
  | .min g d s1 s2 t | .max g d s1 s2 t => pg g && reg e d && src e s1 && src e s2 && scalarTy t
  | .clz g d s t | .popc g d s t => pg g && reg e d && src e s && scalarTy t
  | .sel g d s1 s2 => pg g && reg e d && src e s1 && src e s2
  | .pcmp g c s1 s2 t => pg g && src e s1 && src e s2 && (scalarTy t || t == .f32) && condTy c t &&
      (t != .f32 || (match s1, s2 with | .reg _, .reg _ => true | _, _ => false))
  | .pnot g => pg g
  | .pand g j | .por g j => pg g && 1 ≤ j.toNat && j.toNat ≤ 15
  | .ppop g n => pg g && 1 ≤ n.toNat && n.toNat ≤ 16
  | .pbr g b _ => pg g && breg b
  | .pbrr g b s _ => pg g && breg b && reg e s
  | .br g b => pg g && breg b
  | .brl g d b => pg g && breg d && breg b
  | .loop g l s _ => pg g && lreg l && src e s
  | .loopp g l s1 s2 b _ => pg g && lreg l && reg e s1 && reg e s2 && s1 != 0 && s2 != 0 && s1 != s2 && breg b
  | .lds g _ d m => pg g && reg e d && mem e m
  | .sts g w m s => pg g && storeW w && mem e m && src e s
  | .xput g q s => pg g && src e s && q == (match e with | .a => 0 | .x => 1)
  | .xget g d q => pg g && reg e d && q == (match e with | .a => 1 | .x => 0)
  | .waitw g _ d b s _ => pg g && reg e d && reg e b && src e s
  | .fence g _ | .phase g | .yield g | .trap g _ | .done g => pg g
  | .gset g n s => pg g && gslot n && src e s
  | .gclr g n => pg g && gslot n
  | .sret g b => pg g && breg b
  | .snap g d _ => pg g && reg e d
  | .ldg g _ _ _ => e == .a && pg g
  | .stg g w _ _ | .stm g w _ _ => e == .a && pg g && storeW w
  | .amo g op wide nr d _ _ s3 _ => e == .a && pg g && amo op wide nr d s3
  | .acc g op _ _ t _ => e == .a && pg g && accTy op t
  | .acco g _ _ _ t _ _ _ => e == .a && pg g && (t == .i32 || t == .i64 || t == .f32)
  | .flushe g => e == .a && pg g
  | .seqopen g _ _ _ _ | .seqclose g _ _ => e == .a && pg g
  | .flopen g _ _ _ _ _ ss cc => e == .a && pg g && ss.toNat ≤ 8 && cc.toNat ≤ 12
  | .flclose g _ => e == .a && pg g
  | .flfork g f p _ => e == .a && pg g && f != p
  | .flmark g _ _ _ | .flrewind g _ _ => e == .a && pg g
  | .claim g _ _ _ | .publish g _ _ | .waitfree g _ _ _ | .waitfill g _ _ _ | .flstat g _ _ _ => e == .a && pg g
  | .tdset g _ _ _ => e == .a && pg g
  | .cpy _ c _ _ | .cpyf _ c _ _ | .drnf _ c _ _ => e == .a && copyEnd c
  | .gath _ c fd fs _ _ | .scat _ c fd fs _ _ => e == .a && copyEnd c && fd != fs
  | .mrg _ c cb _ fd f1 f2 t r => e == .a && unitEnd c && mrg cb t r && fd != f1 && fd != f2 && f1 != f2
  | .blow _ c _ _ _ => e == .a && unitEnd c
  | .barinit g _ _ | .bararm g _ _ _ | .barwait g _ _ _ _ => e == .a && pg g
  | .winld g _ | .pgreq g _ _ _ | .pgreqR g _ _ _ | .resq g _ _ => e == .a && pg g
  | .launch g _ _ | .launchw g _ _ _ _ => e == .a && pg g
  | .park g _ _ b => e == .a && pg g && breg b
  | .trel g => e == .a && pg g
  | .vld g _ m t | .vst g m _ t => e == .x && pg g && mem .x m && vecTy t
  | .vmov g _ _ t => e == .x && pg g && vecTy t
  | .vbcst g _ s t => e == .x && pg g && src .x s && vecTy t
  | .vperm g _ _ _ | .vsel g _ _ _ => e == .x && pg g
  | .vidx g _ s1 s2 t => e == .x && pg g && src .x s1 && src .x s2 && (t == .i32 || t == .n32)
  | .vcmp g c _ _ t => e == .x && pg g && vecTy t && condTy c t
  | .vcnt g d => e == .x && pg g && reg .x d
  | .vadd g _ _ _ t r | .vsub g _ _ _ t r | .vmul g _ _ _ t r => e == .x && pg g && vecTy t && fOnly t r.rnd
  | .vfma g _ _ _ _ t r | .vfms g _ _ _ _ t r => e == .x && pg g && vecTy t && fOnly t r.rnd
  | .vmin g _ _ _ t | .vmax g _ _ _ t => e == .x && pg g && vecTy t
  | .vabs g _ _ t sat | .vneg g _ _ t sat => e == .x && pg g && (signedVecTy t || fltTy t) && (!sat || intTy t)
  | .vrcp g _ _ t _ | .vrsq g _ _ t _ | .vexp2 g _ _ t _ | .vlog2 g _ _ t _ => e == .x && pg g && fltTy t
  | .vand g _ _ _ t | .vor g _ _ _ t | .vxor g _ _ _ t => e == .x && pg g && intTy t
  | .vshl g _ _ n t | .vshr g _ _ _ n t => e == .x && pg g && vamt n && intTy t
  | .vcvt g _ _ t s r => e == .x && pg g && vecTy t && vecTy s && (!(intTy t && intTy s) || r.rnd == .rne)
  | .vqnt g _ _ s2 s3 t _ => e == .x && pg g && reg .x s2 && reg .x s3 && quantTy t
  | .vhistCount g _ t => e == .x && pg g && (fltTy t || t == .n8)
  | .vhistClear g | .vhistRead g _ _ => e == .x && pg g
  | .scaleq g d s t => e == .x && pg g && reg .x d && src .x s && quantTy t
  | .vred g op d _ t r => e == .x && pg g && reg .x d && vred op t r
  | .vscan g op _ _ t r => e == .x && pg g && vscan op t r
  | .defer g v n s3 => e == .x && pg g && 1 ≤ n.toNat && n.toNat ≤ 4 && v.toNat + n.toNat ≤ 32 && reg .x s3
  | .drain g d v n _ => e == .x && pg g && reg .x d && 1 ≤ n.toNat && n.toNat ≤ 4 && v.toNat + n.toNat ≤ 31
  | .resp g _ _ => e == .x && pg g
  | .release g _ n => e == .x && pg g && src .x n
  | .tld _ t _ => e == .x && tile t
  | .tstFlue _ _ s t r => e == .x && tsrc s && tstRect s t r
  | .tstMemory _ s t _ r => e == .x && tsrc s && tstRect s t r
  | .mzero _ m => e == .x && accu m
  | .mma _ m a b => e == .x && accu m && tile a && tile b
  | .mmaStamped _ m a b st => e == .x && accu m && tile a && tile b && reg .x st.reg
  | .mmas _ _ m a b _ => e == .x && accu m && tile a && tile b
  | .mmasStamped _ _ m a b _ st => e == .x && accu m && tile a && tile b && reg .x st.reg
  | .mmab _ p m a b => e == .x && accu m && tile a && tile b && 1 ≤ p.toNat && p.toNat ≤ 8
  | .mmabStamped _ p m a b st => e == .x && accu m && tile a && tile b && 1 ≤ p.toNat && p.toNat ≤ 8 && reg .x st.reg
  | .mrd _ _ _ m s => e == .x && accu m && src .x s
  | .mcvt _ t m s ty _ => e == .x && tile t && accu m && reg .x s && word32Ty ty
  | _ => false

/-- The instruction has an encoding in some engine's table. -/
def wellFormed (i : Instr) : Bool := wf .a i || wf .x i

end Sys2Proof
end

