-- ==== Sys2Proof/Decode.lean ====
section
/-!
DEFINITION. The decoder of 96-bit slots (02 R33-R43 and the encoding tables of each chapter) and, after it, the encoder
written from the same tables. The decoder makes checks 1-4 of R39 in their order and names the failing one; PRIVILEGE
(check 5) depends on the mode and is made by the instruction's meaning.
-/
set_option autoImplicit false

namespace Sys2Proof

/-- The fields of a slot (R33, format C; format L lays IMM64 over s1, s2, s3, mod and imm). -/
structure Fields where
  op : BitVec 8
  g : BitVec 5
  sub : BitVec 11
  d : BitVec 8
  s1 : BitVec 8
  s2 : BitVec 8
  s3 : BitVec 8
  mod : BitVec 8
  imm : BitVec 32
  deriving DecidableEq, Repr

def Fields.ofSlot (w : SlotWord) : Fields :=
  { op := w.extractLsb' 88 8, g := w.extractLsb' 83 5, sub := w.extractLsb' 72 11, d := w.extractLsb' 64 8
    s1 := w.extractLsb' 56 8, s2 := w.extractLsb' 48 8, s3 := w.extractLsb' 40 8, mod := w.extractLsb' 32 8
    imm := w.extractLsb' 0 32 }

def Fields.toSlot (f : Fields) : SlotWord :=
  f.op ++ f.g ++ f.sub ++ f.d ++ f.s1 ++ f.s2 ++ f.s3 ++ f.mod ++ f.imm

/-- IMM64 of format L. -/
def Fields.imm64 (f : Fields) : Word := f.s1 ++ f.s2 ++ f.s3 ++ f.mod ++ f.imm

/-! ### Codes of the shared fields -/

def DType.code : DType → BitVec 4
  | .i32 => 0 | .n32 => 1 | .i64 => 2 | .n64 => 3 | .i16 => 4 | .i8 => 5 | .n8 => 6 | .f32 => 7
  | .bf16 => 8 | .f16 => 9 | .e4 => 10 | .e5 => 11 | .bp => 12 | .i4 => 13

def DType.ofCode (c : BitVec 4) : DType :=
  match c.toNat with
  | 0 => .i32 | 1 => .n32 | 2 => .i64 | 3 => .n64 | 4 => .i16 | 5 => .i8 | 6 => .n8 | 7 => .f32
  | 8 => .bf16 | 9 => .f16 | 10 => .e4 | 11 => .e5 | 12 => .bp | _ => .i4

def Rnd.code : Rnd → BitVec 3
  | .rne => 0 | .rz => 1 | .ru => 2 | .rd => 3 | .rna => 4 | .sr => 5
def Rnd.ofCode (c : BitVec 3) : Rnd :=
  match c.toNat with | 0 => .rne | 1 => .rz | 2 => .ru | 3 => .rd | 4 => .rna | _ => .sr

def Cond.code : Cond → BitVec 11
  | .eq => 0 | .ne => 1 | .lt => 2 | .le => 3 | .gt => 4 | .ge => 5 | .uo => 6 | .or => 7
def Cond.ofCode (c : BitVec 11) : Cond :=
  match c.toNat with
  | 0 => .eq | 1 => .ne | 2 => .lt | 3 => .le | 4 => .gt | 5 => .ge | 6 => .uo | _ => .or

def Width.code : Width → BitVec 11
  | .w8 => 0 | .w16 => 1 | .w32 => 2 | .w64 => 3 | .s8 => 4 | .s16 => 5 | .s32 => 6
def Width.ofCode (c : BitVec 11) : Width :=
  match c.toNat with | 0 => .w8 | 1 => .w16 | 2 => .w32 | 3 => .w64 | 4 => .s8 | 5 => .s16 | _ => .s32

def LdlKind.code : LdlKind → BitVec 11 | .w64 => 0 | .w32 => 1 | .s32 => 2
def LdlKind.ofCode (c : BitVec 11) : LdlKind := match c.toNat with | 0 => .w64 | 1 => .w32 | _ => .s32

def WaitCond.code : WaitCond → BitVec 11 | .eq => 0 | .ne => 1 | .ge => 2 | .lt => 3
def WaitCond.ofCode (c : BitVec 11) : WaitCond := match c.toNat with | 0 => .eq | 1 => .ne | 2 => .ge | _ => .lt

def Scope.code : Scope → BitVec 11 | .hearth => 0 | .die => 1 | .package => 2 | .system => 3
def Scope.ofCode (c : BitVec 11) : Scope :=
  match c.toNat with | 0 => .hearth | 1 => .die | 2 => .package | _ => .system

def AmoOp.code : AmoOp → BitVec 4
  | .add => 0 | .and => 1 | .or => 2 | .xor => 3 | .smin => 4 | .smax => 5 | .umin => 6 | .umax => 7
  | .xchg => 8 | .cas => 9 | .fadd => 10 | .fmin => 11 | .fmax => 12
def AmoOp.ofCode (c : BitVec 4) : AmoOp :=
  match c.toNat with
  | 0 => .add | 1 => .and | 2 => .or | 3 => .xor | 4 => .smin | 5 => .smax | 6 => .umin | 7 => .umax
  | 8 => .xchg | 9 => .cas | 10 => .fadd | 11 => .fmin | _ => .fmax

def AccOp.code : AccOp → BitVec 3
  | .add => 0 | .smin => 1 | .smax => 2 | .umin => 3 | .umax => 4 | .fmin => 5 | .fmax => 6
def AccOp.ofCode (c : BitVec 3) : AccOp :=
  match c.toNat with
  | 0 => .add | 1 => .smin | 2 => .smax | 3 => .umin | 4 => .umax | 5 => .fmin | _ => .fmax

def FlKind.code : FlKind → BitVec 3
  | .eng => 0 | .copy => 1 | .gath => 2 | .merge => 3 | .remote => 4 | .blow => 5
def FlKind.ofCode (c : BitVec 3) : FlKind :=
  match c.toNat with | 0 => .eng | 1 => .copy | 2 => .gath | 3 => .merge | 4 => .remote | _ => .blow

def MarkMode.code : MarkMode → BitVec 2 | .clear => 0 | .pin => 1 | .soft => 2
def MarkMode.ofCode (c : BitVec 2) : MarkMode := match c.toNat with | 0 => .clear | 1 => .pin | _ => .soft

def FlStat.code : FlStat → BitVec 11 | .head => 0 | .tail => 1 | .claim => 2 | .head2 => 3 | .full => 4
def FlStat.ofCode (c : BitVec 11) : FlStat :=
  match c.toNat with | 0 => .head | 1 => .tail | 2 => .claim | 3 => .head2 | _ => .full

def Compl.code : Compl → BitVec 2 | .none => 0 | .signal => 1 | .barrier => 2
def Compl.ofCode (c : BitVec 2) : Compl := match c.toNat with | 0 => .none | 1 => .signal | _ => .barrier

def Combine.code : Combine → BitVec 2 | .add => 0 | .min => 1 | .max => 2
def Combine.ofCode (c : BitVec 2) : Combine := match c.toNat with | 0 => .add | 1 => .min | _ => .max

def RedOp.code : RedOp → BitVec 11 | .add => 0 | .min => 1 | .max => 2 | .and => 3 | .or => 4 | .xor => 5
def RedOp.ofCode (c : BitVec 11) : RedOp :=
  match c.toNat with | 0 => .add | 1 => .min | 2 => .max | 3 => .and | 4 => .or | _ => .xor

def Sparsity.code : Sparsity → BitVec 2 | .n8 => 0 | .n16 => 1 | .n32 => 2
def Sparsity.ofCode (c : BitVec 2) : Sparsity := match c.toNat with | 0 => .n8 | 1 => .n16 | _ => .n32

/-- R35: none for a reserved value. -/
def Guard.ofBits (g : BitVec 5) : Option Guard :=
  if g = 0 then some .always
  else if g = 1 then some .top
  else if g = 2 then some .notTop
  else if g.getLsbD 4 then some (.slot (g.extractLsb' 0 4))
  else none

def Guard.bits : Guard → BitVec 5
  | .always => 0 | .top => 1 | .notTop => 2 | .slot n => 1#1 ++ n

/-! ### Operand specifiers (R34) -/

def cls (b : BitVec 8) : Nat := (b.extractLsb' 5 3).toNat
def num (b : BitVec 8) : Reg := b.extractLsb' 0 5
def spec (c : BitVec 3) (r : Reg) : BitVec 8 := c ++ r

def Src.ofSpec (b : BitVec 8) : Src := if cls b = 7 then .imm (num b) else .reg (num b)
def Src.spec : Src → BitVec 8 | .reg r => Sys2Proof.spec 0 r | .imm i => Sys2Proof.spec 7 i
def VSrc.ofSpec (b : BitVec 8) : VSrc := if cls b = 4 then .f (num b) else .v (num b)
def VSrc.spec : VSrc → BitVec 8 | .v r => Sys2Proof.spec 1 r | .f r => Sys2Proof.spec 4 r
def VAmt.ofSpec (b : BitVec 8) : VAmt :=
  if cls b = 7 then .imm (num b) else if cls b = 1 then .v (num b) else if cls b = 4 then .f (num b) else .reg (num b)
def VAmt.spec : VAmt → BitVec 8
  | .reg r => Sys2Proof.spec 0 r | .imm i => Sys2Proof.spec 7 i | .v r => Sys2Proof.spec 1 r | .f r => Sys2Proof.spec 4 r
def TSrc.ofSpec (b : BitVec 8) : TSrc := if cls b = 3 then .acc (num b) else .tile (num b)
def TSrc.spec : TSrc → BitVec 8 | .tile r => Sys2Proof.spec 2 r | .acc r => Sys2Proof.spec 3 r

/-! ### Rows of the opcode map -/

/-- What a row accepts in one operand field: it must be zero, or be one of (class, lowest number, highest number). -/
inductive Accept where
  | zero
  | any
  | oneOf (l : List (Nat × Nat × Nat))

/-- One row: the assigned SUB values (R40), the operand fields, MOD, IMM32, and what stands in the further checks.
`resOk` and `badOk` are the entry's own RESERVED_FIELD and BAD_OPERAND checks. -/
structure Row where
  subOk : BitVec 11 → Bool := fun s => s == 0
  subUsed : Bool := false
  d : Accept := .zero
  s1 : Accept := .zero
  s2 : Accept := .zero
  s3 : Accept := .zero
  modUsed : Bool := false
  tyOk : Fields → DType → Bool := fun _ _ => true
  rndOk : Fields → DType → RndSat → Bool := fun _ _ r => r.rnd == .rne && !r.sat
  immMask : BitVec 32 := 0
  resOk : Fields → Bool := fun _ => true
  badOk : Fields → Bool := fun _ => true
  guardSlot : Bool := false
  build : Guard → Fields → Instr

/-- The highest valid number of a class on an engine (R34). -/
def classTop (e : Eng) : Nat → Nat
  | 0 => match e with | .a => 31 | .x => 15
  | 1 => match e with | .a => 0 | .x => 31
  | 2 => 7
  | 3 => 3
  | _ => 31

def Accept.zeroOk (a : Accept) (b : BitVec 8) : Bool := match a with | .zero => b == 0 | _ => true
def Accept.ok (e : Eng) (a : Accept) (b : BitVec 8) : Bool :=
  match a with
  | .oneOf l => l.any fun r => cls b == r.1 && r.2.1 ≤ (num b).toNat && (num b).toNat ≤ r.2.2 &&
      (num b).toNat ≤ classTop e r.1
  | _ => true

def Fields.ty (f : Fields) : DType := DType.ofCode (f.mod.extractLsb' 4 4)
def Fields.rs (f : Fields) : RndSat := { rnd := Rnd.ofCode (f.mod.extractLsb' 1 3), sat := f.mod.getLsbD 0 }
def Fields.modReserved (f : Fields) : Bool := 14 ≤ (f.mod.extractLsb' 4 4).toNat || 6 ≤ (f.mod.extractLsb' 1 3).toNat

/-- Checks 1-4 of R39 against a row, in their order. -/
def Row.decode (e : Eng) (r : Row) (f : Fields) : Except FaultCode Instr :=
  if r.subUsed && !r.subOk f.sub then .error .illegalOp
  else if !r.subUsed && f.sub != 0 then .error .reservedField
  else match Guard.ofBits f.g with
  | none => .error .reservedField
  | some g =>
    if !(r.d.zeroOk f.d && r.s1.zeroOk f.s1 && r.s2.zeroOk f.s2 && r.s3.zeroOk f.s3) then .error .reservedField
    else if (if r.modUsed then f.modReserved || !r.rndOk f f.ty f.rs else f.mod != 0) then .error .reservedField
    else if f.imm &&& ~~~r.immMask != 0 then .error .reservedField
    else if !r.resOk f then .error .reservedField
    else if !(r.d.ok e f.d && r.s1.ok e f.s1 && r.s2.ok e f.s2 && r.s3.ok e f.s3) then .error .badOperand
    else if r.modUsed && !r.tyOk f f.ty then .error .badOperand
    else if !r.badOk f then .error .badOperand
    else match g with
      | .slot n => if r.guardSlot then .ok (r.build (.slot n) f) else .error .guardMisuse
      | g => .ok (r.build g f)

namespace Enc

/-! Names for the accept lists of the encoding tables. -/
def r0 : Accept := .oneOf [(0, 0, 31)]
def r07 : Accept := .oneOf [(0, 0, 31), (7, 0, 31)]
def i7 (lo hi : Nat) : Accept := .oneOf [(7, lo, hi)]
def b5 : Accept := .oneOf [(5, 0, 7)]
def l5 : Accept := .oneOf [(5, 8, 11)]
def g6 : Accept := .oneOf [(6, 16, 31)]
def f4 : Accept := .oneOf [(4, 0, 31)]
def v1 : Accept := .oneOf [(1, 0, 31)]
def v14 : Accept := .oneOf [(1, 0, 31), (4, 0, 31)]
def amt : Accept := .oneOf [(0, 0, 31), (1, 0, 31), (4, 0, 31), (7, 0, 31)]
def t2 : Accept := .oneOf [(2, 0, 7)]
def m3 : Accept := .oneOf [(3, 0, 3)]

def mem (b i : BitVec 8) (imm : BitVec 32) : MemOp :=
  { base := num b, index := num i, scl := imm.extractLsb' 24 2, ofs := imm.extractLsb' 0 24 }
def memMask : BitVec 32 := 0x03FFFFFF
def below (n : Nat) (s : BitVec 11) : Bool := s.toNat < n
def scalar : Fields → DType → Bool := fun _ t => WF.scalarTy t
def satOnly : Fields → DType → RndSat → Bool := fun _ _ r => r.rnd == .rne
def anyRnd : Fields → DType → RndSat → Bool := fun _ _ _ => true
/-- RND only with a floating-point TYPE (R187). INT64 and UINT64, which no vector instruction accepts, count as integer
types, so a nonzero RND beside them is RESERVED_FIELD; TYPE 12 is left to BAD_OPERAND (R37). Log 70. -/
def fOnly : Fields → DType → RndSat → Bool := fun _ t r => WF.fltTy t || t == .bp || r.rnd == .rne

/-- An integer TYPE, accepted by the vector instructions or not (log 70). -/
def wholeTy (t : DType) : Bool := WF.intTy t || t == .i64 || t == .n64

def copyEnd (f : Fields) : CopyEnd :=
  { compl := Compl.ofCode (f.sub.extractLsb' 0 2), cw := f.imm.extractLsb' 0 18, val := num f.s3 }
def unitEnd (f : Fields) : UnitEnd :=
  { compl := Compl.ofCode (f.sub.extractLsb' 0 2), tgt := f.imm.extractLsb' 0 21, val := num f.s3 }
def ta (f : Fields) : BitVec 6 := f.imm.extractLsb' 18 6
def tb (f : Fields) : BitVec 6 := f.imm.extractLsb' 24 6
/-- RESERVED_FIELD checks of R173 on the completion. -/
def copyRes (f : Fields) : Bool :=
  match Compl.ofCode (f.sub.extractLsb' 0 2) with
  | .none => f.imm.extractLsb' 0 18 == 0 && f.s3 == 0
  | .signal => true
  | .barrier => f.s3 == 0 && !f.imm.getLsbD 0
/-- RESERVED_FIELD checks of R148 on the completion. -/
def unitRes (f : Fields) : Bool :=
  match Compl.ofCode (f.sub.extractLsb' 0 2) with
  | .none => f.imm == 0 && f.s3 == 0
  | .signal => true
  | .barrier => f.s3 == 0

def scalar3 (b : Guard → Reg → Src → Src → Src → DType → Bool → Instr) (sat : Bool) : Row :=
  { d := r0, s1 := r07, s2 := r07, s3 := r07, modUsed := true, tyOk := scalar
    rndOk := fun _ _ r => r.rnd == .rne && (sat || !r.sat)
    build := fun g f => b g (num f.d) (.ofSpec f.s1) (.ofSpec f.s2) (.ofSpec f.s3) f.ty f.rs.sat }
def scalar2 (b : Guard → Reg → Src → Src → DType → Bool → Instr) (sat : Bool) : Row :=
  { d := r0, s1 := r07, s2 := r07, modUsed := true, tyOk := scalar
    rndOk := fun _ _ r => r.rnd == .rne && (sat || !r.sat)
    build := fun g f => b g (num f.d) (.ofSpec f.s1) (.ofSpec f.s2) f.ty f.rs.sat }
def scalar1 (b : Guard → Reg → Src → DType → Instr) : Row :=
  { d := r0, s1 := r07, modUsed := true, tyOk := scalar
    build := fun g f => b g (num f.d) (.ofSpec f.s1) f.ty }
def bare (b : Guard → Instr) : Row := { build := fun g _ => b g }

/-- 0x01-0x1C (R67). -/
def scalarRows : List (Nat × Row) := [
  (0x01, { d := r0, s1 := .any, s2 := .any, s3 := .any, modUsed := true, immMask := 0xFFFFFFFF,
           rndOk := anyRnd, build := fun g f => .movi g (num f.d) f.imm64 }),
  (0x02, { d := r0, s1 := r07, build := fun g f => .mov g (num f.d) (.ofSpec f.s1) }),
  (0x03, { subUsed := true, subOk := below 3, d := r0, immMask := 0xFFFFFFFF,
           build := fun g f => .ldl g (.ofCode f.sub) (num f.d) f.imm }),
  (0x08, scalar3 .add true), (0x09, scalar3 .sub true), (0x0A, scalar2 .mul true),
  (0x0B, scalar2 (fun g d a b t _ => .mulh g d a b t) false),
  (0x0C, scalar2 (fun g d a b t _ => .div g d a b t) false),
  (0x0D, scalar2 (fun g d a b t _ => .rem g d a b t) false),
  (0x0E, scalar3 (fun g d a b c t _ => .addx g d a b c t) false),
  (0x10, scalar2 (fun g d a b t _ => .and g d a b t) false),
  (0x11, scalar2 (fun g d a b t _ => .or g d a b t) false),
  (0x12, scalar2 (fun g d a b t _ => .xor g d a b t) false),
  (0x13, scalar2 (fun g d a b t _ => .andn g d a b t) false),
  (0x14, scalar2 (fun g d a b t _ => .shl g d a b t) false),
  (0x15, scalar2 (fun g d a b t _ => .shr g d a b t) false),
  (0x16, scalar2 (fun g d a b t _ => .sar g d a b t) false),
  (0x17, scalar2 (fun g d a b t _ => .rot g d a b t) false),
  (0x18, scalar2 (fun g d a b t _ => .min g d a b t) false),
  (0x19, scalar2 (fun g d a b t _ => .max g d a b t) false),
  (0x1A, scalar1 .clz), (0x1B, scalar1 .popc),
  (0x1C, { d := r0, s1 := r07, s2 := r07, build := fun g f => .sel g (num f.d) (.ofSpec f.s1) (.ofSpec f.s2) })]

/-- MOVS and MOVF (R60): checks 1-3 take their places in R39. -/
def sysRows (e : Eng) : List (Nat × Row) := [
  (0x04, { s1 := r07, immMask := 0xFFF,
           badOk := fun f => WF.sysRegEngine e (f.imm.extractLsb' 0 12) && WF.sysRegWritable (f.imm.extractLsb' 0 12)
           build := fun g f => .movs g (.ofSpec f.s1) (f.imm.extractLsb' 0 12) }),
  (0x05, { d := r0, immMask := 0xFFF, badOk := fun f => WF.sysRegEngine e (f.imm.extractLsb' 0 12)
           build := fun g f => .movf g (num f.d) (f.imm.extractLsb' 0 12) })]

/-- 0x20-0x2D (R79). -/
def controlRows (e : Eng) : List (Nat × Row) := [
  (0x20, { subUsed := true, subOk := below 8, s1 := r07, s2 := r07, modUsed := true
           tyOk := fun f t => (WF.scalarTy t || t == .f32) && WF.condTy (.ofCode f.sub) t
           badOk := fun f => f.ty != .f32 || (cls f.s1 != 7 && cls f.s2 != 7)
           build := fun g f => .pcmp g (.ofCode f.sub) (.ofSpec f.s1) (.ofSpec f.s2) f.ty }),
  (0x21, bare .pnot),
  (0x22, { s1 := i7 1 15, build := fun g f => .pand g (num f.s1) }),
  (0x23, { s1 := i7 1 15, build := fun g f => .por g (num f.s1) }),
  (0x24, { immMask := 0x1F
           badOk := fun f => 1 ≤ (f.imm.extractLsb' 0 5).toNat && (f.imm.extractLsb' 0 5).toNat ≤ 16
           build := fun g f => .ppop g (f.imm.extractLsb' 0 5) }),
  (0x28, { d := b5, immMask := 0xFFFFFFFF, build := fun g f => .pbr g (num f.d) f.imm }),
  (0x29, { d := b5, s1 := r0, immMask := 0xFFFFFFFF, build := fun g f => .pbrr g (num f.d) (num f.s1) f.imm }),
  (0x2A, { s1 := b5, build := fun g f => .br g (num f.s1) }),
  (0x2B, { d := b5, s1 := b5, build := fun g f => .brl g (num f.d) (num f.s1) }),
  (0x2C, { d := l5, s1 := r07, immMask := 0xFFFFFFFF, build := fun g f => .loop g (num f.d) (.ofSpec f.s1) f.imm }),
  (0x2D, { d := l5, s1 := .oneOf [(0, 1, 31)], s2 := .oneOf [(0, 1, 31)], s3 := b5, immMask := 0xFFFFFFFF
           badOk := fun f => f.s1 != f.s2
           build := fun g f => .loopp g (num f.d) (num f.s1) (num f.s2) (num f.s3) f.imm }),
  (0x30, { subUsed := true, subOk := below 7, d := r0, s1 := r0, s2 := r0, immMask := memMask
           build := fun g f => .lds g (.ofCode f.sub) (num f.d) (mem f.s1 f.s2 f.imm) }),
  (0x31, { subUsed := true, subOk := below 4, s1 := r0, s2 := r0, s3 := r07, immMask := memMask
           build := fun g f => .sts g (.ofCode f.sub) (mem f.s1 f.s2 f.imm) (.ofSpec f.s3) }),
  (0x34, { d := .oneOf [match e with | .a => (6, 0, 0) | .x => (6, 1, 1)], s1 := r07
           build := fun g f => .xput g (num f.d) (.ofSpec f.s1) }),
  (0x35, { d := r0, s1 := .oneOf [match e with | .a => (6, 1, 1) | .x => (6, 0, 0)]
           build := fun g f => .xget g (num f.d) (num f.s1) }),
  (0x38, { subUsed := true, subOk := below 4, d := r0, s1 := r0, s2 := r07, immMask := 0x1FFFFF
           build := fun g f => .waitw g (.ofCode f.sub) (num f.d) (num f.s1) (.ofSpec f.s2) (f.imm.extractLsb' 0 21) }),
  (0x39, { subUsed := true, subOk := below 4, build := fun g f => .fence g (.ofCode f.sub) }),
  (0x3A, bare .phase), (0x3B, bare .yield),
  (0x3C, { immMask := 0xFFFFFFFF, build := fun g f => .trap g f.imm }),
  (0x3D, bare .done),
  (0x3E, { d := g6, s1 := r07, build := fun g f => .gset g (num f.d) (.ofSpec f.s1) }),
  (0x3F, { d := g6, build := fun g f => .gclr g (num f.d) }),
  (0xF0, { s1 := b5, build := fun g f => .sret g (num f.s1) }),
  (0xF1, { d := r0, immMask := 0xFFFF, build := fun g f => .snap g (num f.d) (f.imm.extractLsb' 0 16) })]

/-- 0x40-0x48 and 0x70-0x7B of the A table (R240, R277, R309). -/
def memoryRows : List (Nat × Row) := [
  (0x40, { subUsed := true, subOk := below 7, d := r0, s1 := r0, s2 := r0, immMask := memMask
           build := fun g f => .ldg g (.ofCode f.sub) (num f.d) (mem f.s1 f.s2 f.imm) }),
  (0x41, { subUsed := true, subOk := below 4, s1 := r0, s2 := r0, s3 := r07, immMask := memMask
           build := fun g f => .stg g (.ofCode f.sub) (mem f.s1 f.s2 f.imm) (.ofSpec f.s3) }),
  (0x42, { subUsed := true, subOk := below 4, s1 := r0, s2 := r0, s3 := r07, immMask := memMask
           build := fun g f => .stm g (.ofCode f.sub) (mem f.s1 f.s2 f.imm) (.ofSpec f.s3) }),
  (0x43, { subUsed := true
           subOk := fun s => s.toNat < 64 && s.toNat % 16 < 13 && (s.toNat % 16 < 10 || !s.getLsbD 5)
           d := r0, s1 := r0, s2 := r07, s3 := r0, immMask := 0xFFFFFF
           resOk := fun f => f.sub.extractLsb' 0 4 == 9 || f.s3 == 0
           badOk := fun f => f.sub.getLsbD 4 == (num f.d == 0)
           build := fun g f => .amo g (.ofCode (f.sub.extractLsb' 0 4)) (f.sub.getLsbD 5) (f.sub.getLsbD 4) (num f.d)
             (num f.s1) (.ofSpec f.s2) (num f.s3) (f.imm.extractLsb' 0 24) }),
  (0x44, { subUsed := true, subOk := below 7, s1 := r0, s2 := r0, s3 := r0, modUsed := true, immMask := memMask
           rndOk := fun _ _ r => !r.sat
           tyOk := fun f t => WF.accTy (.ofCode (f.sub.extractLsb' 0 3)) t
           build := fun g f => .acc g (.ofCode (f.sub.extractLsb' 0 3)) (mem f.s1 f.s2 f.imm) (num f.s3) f.ty f.rs.rnd }),
  (0x45, { s1 := r0, s2 := r0, s3 := r07, modUsed := true, immMask := 0xFFFFFF, rndOk := fun _ _ r => !r.sat
           tyOk := fun _ t => WF.accTy .add t
           build := fun g f => .acco g (num f.s1) (num f.s2) (.ofSpec f.s3) f.ty f.rs.rnd (f.imm.extractLsb' 0 20)
             (f.imm.extractLsb' 20 4) }),
  (0x46, bare .flushe),
  (0x47, { s1 := r0, s2 := r0, s3 := r0, immMask := 0xF
           build := fun g f => .seqopen g (num f.s1) (num f.s2) (num f.s3) (f.imm.extractLsb' 0 4) }),
  (0x48, { immMask := 0x1F, build := fun g f => .seqclose g (f.imm.extractLsb' 0 4) (f.imm.getLsbD 4) }),
  (0x70, { s1 := r0, build := fun g f => .winld g (num f.s1) }),
  (0x71, { subUsed := true, subOk := below 2, d := r0, s1 := r0, immMask := 1
           build := fun g f => if f.sub == 1 then .pgreqR g (num f.d) (num f.s1) (f.imm.getLsbD 0)
             else .pgreq g (num f.d) (num f.s1) (f.imm.getLsbD 0) }),
  (0x72, { d := r0, s1 := r0, build := fun g f => .resq g (num f.d) (num f.s1) }),
  (0x78, { d := r0, s1 := r0, build := fun g f => .launch g (num f.d) (num f.s1) }),
  (0x79, { d := r0, s1 := r0, s2 := r0, s3 := r0
           build := fun g f => .launchw g (num f.d) (num f.s1) (num f.s2) (num f.s3) }),
  (0x7A, { s1 := r0, s2 := r0, s3 := b5, build := fun g f => .park g (num f.s1) (num f.s2) (num f.s3) }),
  (0x7B, bare .trel)]

/-- 0x50-0x59 and 0x66, 0x67 of the A table (R138, R43). -/
def flueRows : List (Nat × Row) := [
  (0x50, { subUsed := true, subOk := fun s => s.toNat < 32 && s.toNat % 8 < 6, d := f4, s1 := r0, immMask := 0xFF
           resOk := fun f => (f.imm.extractLsb' 0 4).toNat ≤ 8 && (f.imm.extractLsb' 4 4).toNat ≤ 12
           build := fun g f => .flopen g (.ofCode (f.sub.extractLsb' 0 3)) (f.sub.getLsbD 3) (f.sub.getLsbD 4) (num f.d)
             (num f.s1) (f.imm.extractLsb' 0 4) (f.imm.extractLsb' 4 4) }),
  (0x51, { d := f4, build := fun g f => .flclose g (num f.d) }),
  (0x52, { d := f4, s1 := f4, immMask := 1, badOk := fun f => f.d != f.s1
           build := fun g f => .flfork g (num f.d) (num f.s1) (f.imm.getLsbD 0) }),
  (0x53, { d := f4, immMask := 0xF, resOk := fun f => (f.imm.extractLsb' 2 2).toNat < 3
           build := fun g f => .flmark g (num f.d) (f.imm.extractLsb' 0 2) (.ofCode (f.imm.extractLsb' 2 2)) }),
  (0x54, { d := f4, immMask := 3, build := fun g f => .flrewind g (num f.d) (f.imm.extractLsb' 0 2) }),
  (0x55, { d := r0, s1 := f4, s2 := r07, build := fun g f => .claim g (num f.d) (num f.s1) (.ofSpec f.s2) }),
  (0x56, { s1 := f4, s2 := r07, build := fun g f => .publish g (num f.s1) (.ofSpec f.s2) }),
  (0x57, { d := r0, s1 := f4, s2 := r07, build := fun g f => .waitfree g (num f.d) (num f.s1) (.ofSpec f.s2) }),
  (0x58, { d := r0, s1 := f4, s2 := r07, build := fun g f => .waitfill g (num f.d) (num f.s1) (.ofSpec f.s2) }),
  (0x59, { subUsed := true, subOk := below 5, d := r0, s1 := f4
           build := fun g f => .flstat g (.ofCode f.sub) (num f.d) (num f.s1) }),
  (0x66, { subUsed := true, subOk := fun s => s.toNat < 32 && s.toNat % 4 < 3 && s.toNat / 4 % 4 < 3
           d := f4, s1 := f4, s2 := f4, s3 := r0, modUsed := true, immMask := 0x1FFFFF, guardSlot := true
           rndOk := fun f t r =>
             ((t == .f32 && Combine.ofCode (f.sub.extractLsb' 2 2) == .add) || r.rnd == .rne) &&
             (Combine.ofCode (f.sub.extractLsb' 2 2) == .add || !r.sat)
           resOk := unitRes, tyOk := fun _ t => WF.word32Ty t
           badOk := fun f => f.d != f.s1 && f.d != f.s2 && f.s1 != f.s2
           build := fun g f => .mrg g (unitEnd f) (.ofCode (f.sub.extractLsb' 2 2)) (f.sub.getLsbD 4) (num f.d) (num f.s1)
             (num f.s2) f.ty f.rs }),
  (0x67, { subUsed := true, subOk := below 3, d := f4, s1 := r0, s2 := r0, s3 := r0, immMask := 0x1FFFFF
           guardSlot := true, resOk := unitRes
           build := fun g f => .blow g (unitEnd f) (num f.d) (num f.s1) (num f.s2) })]

/-- 0x60-0x65 and 0x68-0x6A of the A table (R173). -/
def copyRows : List (Nat × Row) := [
  (0x60, { s1 := r0, s2 := r0, immMask := 0x3F
           build := fun g f => .tdset g (num f.s1) (num f.s2) (f.imm.extractLsb' 0 6) }),
  (0x61, { subUsed := true, subOk := below 3, s3 := r0, immMask := 0x3FFFFFFF, guardSlot := true, resOk := copyRes
           build := fun g f => .cpy g (copyEnd f) (ta f) (tb f) }),
  (0x62, { subUsed := true, subOk := below 3, d := f4, s3 := r0, immMask := 0xFFFFFF, guardSlot := true
           resOk := copyRes, build := fun g f => .cpyf g (copyEnd f) (num f.d) (ta f) }),
  (0x63, { subUsed := true, subOk := below 3, s1 := f4, s3 := r0, immMask := 0xFFFFFF, guardSlot := true
           resOk := copyRes, build := fun g f => .drnf g (copyEnd f) (num f.s1) (ta f) }),
  (0x64, { subUsed := true, subOk := below 3, d := f4, s1 := f4, s2 := r07, s3 := r0, immMask := 0xFFFFFF
           guardSlot := true, resOk := copyRes, badOk := fun f => f.d != f.s1
           build := fun g f => .gath g (copyEnd f) (num f.d) (num f.s1) (.ofSpec f.s2) (ta f) }),
  (0x65, { subUsed := true, subOk := below 3, d := f4, s1 := f4, s2 := r07, s3 := r0, immMask := 0xFFFFFF
           guardSlot := true, resOk := copyRes, badOk := fun f => f.d != f.s1
           build := fun g f => .scat g (copyEnd f) (num f.d) (num f.s1) (.ofSpec f.s2) (ta f) }),
  (0x68, { s1 := r0, immMask := 0x1FFFFF, build := fun g f => .barinit g (num f.s1) (f.imm.extractLsb' 0 21) }),
  (0x69, { s1 := r0, s2 := r07, immMask := 0x1FFFFF
           build := fun g f => .bararm g (num f.s1) (.ofSpec f.s2) (f.imm.extractLsb' 0 21) }),
  (0x6A, { d := r0, s1 := r0, s2 := r07, immMask := 0x1FFFFF
           build := fun g f => .barwait g (num f.d) (num f.s1) (.ofSpec f.s2) (f.imm.extractLsb' 0 21) })]

def vec3 (b : Guard → VSrc → VSrc → VSrc → DType → RndSat → Instr) (ty : DType → Bool)
    (rnd : Fields → DType → RndSat → Bool) : Row :=
  { d := v14, s1 := v14, s2 := v14, modUsed := true, tyOk := fun _ t => ty t, rndOk := rnd
    build := fun g f => b g (.ofSpec f.d) (.ofSpec f.s1) (.ofSpec f.s2) f.ty f.rs }
def vec4 (b : Guard → VSrc → VSrc → VSrc → VSrc → DType → RndSat → Instr) : Row :=
  { d := v14, s1 := v14, s2 := v14, s3 := v14, modUsed := true, tyOk := fun _ t => WF.vecTy t, rndOk := fOnly
    build := fun g f => b g (.ofSpec f.d) (.ofSpec f.s1) (.ofSpec f.s2) (.ofSpec f.s3) f.ty f.rs }
def vec2 (b : Guard → VSrc → VSrc → DType → RndSat → Instr) (ty : DType → Bool)
    (rnd : Fields → DType → RndSat → Bool) : Row :=
  { d := v14, s1 := v14, modUsed := true, tyOk := fun _ t => ty t, rndOk := rnd
    build := fun g f => b g (.ofSpec f.d) (.ofSpec f.s1) f.ty f.rs }
def noRnd : Fields → DType → RndSat → Bool := fun _ _ r => r.rnd == .rne && !r.sat

/-- 0x40-0x50 of the X table (R187). -/
def vectorRows1 : List (Nat × Row) := [
  (0x40, { d := v1, s1 := r0, s2 := r0, modUsed := true, tyOk := fun _ t => WF.vecTy t, immMask := memMask
           build := fun g f => .vld g (num f.d) (mem f.s1 f.s2 f.imm) f.ty }),
  (0x41, { s1 := r0, s2 := r0, s3 := v14, modUsed := true, tyOk := fun _ t => WF.vecTy t, immMask := memMask
           build := fun g f => .vst g (mem f.s1 f.s2 f.imm) (.ofSpec f.s3) f.ty }),
  (0x42, vec2 (fun g d a t _ => .vmov g d a t) WF.vecTy noRnd),
  (0x43, { d := v14, s1 := r07, modUsed := true, tyOk := fun _ t => WF.vecTy t
           build := fun g f => .vbcst g (.ofSpec f.d) (.ofSpec f.s1) f.ty }),
  (0x44, { d := v14, s1 := v14, s2 := v14, build := fun g f => .vperm g (.ofSpec f.d) (.ofSpec f.s1) (.ofSpec f.s2) }),
  (0x45, { d := v14, s1 := v14, s2 := v14, build := fun g f => .vsel g (.ofSpec f.d) (.ofSpec f.s1) (.ofSpec f.s2) }),
  (0x46, { subUsed := true, subOk := below 8, s1 := v14, s2 := v14, modUsed := true
           tyOk := fun f t => WF.vecTy t && WF.condTy (.ofCode f.sub) t
           build := fun g f => .vcmp g (.ofCode f.sub) (.ofSpec f.s1) (.ofSpec f.s2) f.ty }),
  (0x47, { d := r0, build := fun g f => .vcnt g (num f.d) }),
  (0x48, vec3 .vadd WF.vecTy fOnly), (0x49, vec3 .vsub WF.vecTy fOnly), (0x4A, vec3 .vmul WF.vecTy fOnly),
  (0x4B, vec4 .vfma), (0x4C, vec4 .vfms),
  (0x4D, vec3 (fun g d a b t _ => .vmin g d a b t) WF.vecTy noRnd),
  (0x4E, vec3 (fun g d a b t _ => .vmax g d a b t) WF.vecTy noRnd),
  (0x4F, vec2 (fun g d a t r => .vabs g d a t r.sat) (fun t => WF.signedVecTy t || WF.fltTy t)
    (fun _ t r => r.rnd == .rne && (!r.sat || !WF.fltTy t))),
  (0x50, vec2 (fun g d a t r => .vneg g d a t r.sat) (fun t => WF.signedVecTy t || WF.fltTy t)
    (fun _ t r => r.rnd == .rne && (!r.sat || !WF.fltTy t)))]

/-- 0x51-0x62 of the X table (R187). -/
def vectorRows2 : List (Nat × Row) := [
  (0x51, vec2 .vrcp WF.fltTy anyRnd), (0x52, vec2 .vrsq WF.fltTy anyRnd),
  (0x53, vec2 .vexp2 WF.fltTy anyRnd), (0x54, vec2 .vlog2 WF.fltTy anyRnd),
  (0x55, vec3 (fun g d a b t _ => .vand g d a b t) WF.intTy noRnd),
  (0x56, vec3 (fun g d a b t _ => .vor g d a b t) WF.intTy noRnd),
  (0x57, vec3 (fun g d a b t _ => .vxor g d a b t) WF.intTy noRnd),
  (0x58, { d := v14, s1 := v14, s2 := amt, modUsed := true, tyOk := fun _ t => WF.intTy t
           build := fun g f => .vshl g (.ofSpec f.d) (.ofSpec f.s1) (.ofSpec f.s2) f.ty }),
  (0x59, { subUsed := true, subOk := below 2, d := v14, s1 := v14, s2 := amt, modUsed := true
           tyOk := fun _ t => WF.intTy t
           build := fun g f => .vshr g (f.sub == 1) (.ofSpec f.d) (.ofSpec f.s1) (.ofSpec f.s2) f.ty }),
  (0x5A, { d := v14, s1 := v14, modUsed := true, tyOk := fun _ t => WF.vecTy t, immMask := 0xF
           rndOk := fun f t r => !(wholeTy t && wholeTy (.ofCode (f.imm.extractLsb' 0 4))) || r.rnd == .rne
           resOk := fun f => (f.imm.extractLsb' 0 4).toNat < 14
           badOk := fun f => WF.vecTy (.ofCode (f.imm.extractLsb' 0 4))
           build := fun g f => .vcvt g (.ofSpec f.d) (.ofSpec f.s1) f.ty (.ofCode (f.imm.extractLsb' 0 4)) f.rs }),
  (0x5B, { d := v14, s1 := v14, s2 := r0, s3 := r0, modUsed := true, tyOk := fun _ t => WF.quantTy t, rndOk := anyRnd
           build := fun g f => .vqnt g (.ofSpec f.d) (.ofSpec f.s1) (num f.s2) (num f.s3) f.ty f.rs }),
  (0x5C, { d := .any, s1 := .any, modUsed := true, immMask := 0xF
           resOk := fun f => match (f.imm.extractLsb' 0 2).toNat with
             | 0 => f.d == 0 && f.imm.extractLsb' 2 2 == 0
             | 1 => f.d == 0 && f.s1 == 0 && f.mod == 0 && f.imm.extractLsb' 2 2 == 0
             | 2 => f.s1 == 0 && f.mod == 0
             | _ => false
           badOk := fun f => match (f.imm.extractLsb' 0 2).toNat with
             | 0 => v14.ok .x f.s1 && (WF.fltTy f.ty || f.ty == .n8)
             | 2 => v14.ok .x f.d
             | _ => true
           build := fun g f => match (f.imm.extractLsb' 0 2).toNat with
             | 0 => .vhistCount g (.ofSpec f.s1) f.ty
             | 1 => .vhistClear g
             | _ => .vhistRead g (.ofSpec f.d) (f.imm.extractLsb' 2 2) }),
  (0x5D, { d := r0, s1 := r07, modUsed := true, tyOk := fun _ t => WF.quantTy t
           build := fun g f => .scaleq g (num f.d) (.ofSpec f.s1) f.ty }),
  (0x60, { subUsed := true, subOk := below 6, d := r0, s1 := v14, modUsed := true
           rndOk := fun f t r => (RedOp.ofCode f.sub == .add || !r.sat) &&
             ((RedOp.ofCode f.sub == .add && (WF.fltTy t || t == .bp)) || r.rnd == .rne)
           tyOk := fun f t => match RedOp.ofCode f.sub with | .add | .min | .max => WF.vecTy t | _ => WF.intTy t
           build := fun g f => .vred g (.ofCode f.sub) (num f.d) (.ofSpec f.s1) f.ty f.rs }),
  (0x61, { subUsed := true, subOk := below 3, d := v14, s1 := v14, modUsed := true
           rndOk := fun f t r => (Combine.ofCode (f.sub.extractLsb' 0 2) == .add || !r.sat) &&
             ((Combine.ofCode (f.sub.extractLsb' 0 2) == .add && (WF.fltTy t || t == .bp)) || r.rnd == .rne)
           tyOk := fun _ t => WF.vecTy t
           build := fun g f => .vscan g (.ofCode (f.sub.extractLsb' 0 2)) (.ofSpec f.d) (.ofSpec f.s1) f.ty f.rs }),
  (0x62, { d := v14, s1 := r07, s2 := r07, modUsed := true, tyOk := fun _ t => t == .i32 || t == .n32
           build := fun g f => .vidx g (.ofSpec f.d) (.ofSpec f.s1) (.ofSpec f.s2) f.ty })]

/-- 0x68-0x6B of the X table (R79, R138). -/
def deferRows : List (Nat × Row) := [
  (0x68, { s1 := v1, s2 := i7 1 4, s3 := r0, badOk := fun f => (num f.s1).toNat + (num f.s2).toNat ≤ 32
           build := fun g f => .defer g (num f.s1) (num f.s2) (num f.s3) }),
  (0x69, { d := r0, s1 := v1, s2 := i7 1 4, immMask := 1, badOk := fun f => (num f.s1).toNat + (num f.s2).toNat ≤ 31
           build := fun g f => .drain g (num f.d) (num f.s1) (num f.s2) (f.imm.getLsbD 0) }),
  (0x6A, { s1 := f4, immMask := 0xFC0, build := fun g f => .resp g (num f.s1) (f.imm.extractLsb' 6 6) }),
  (0x6B, { s1 := f4, s2 := r07, build := fun g f => .release g (num f.s1) (.ofSpec f.s2) })]

def stamp (f : Fields) : Stamp := { reg := num f.s3, ofs := f.imm.extractLsb' 8 24 }
/-- Without a stamp, S3 and IMM32[31:8] are zero (R211). -/
def stampRes (f : Fields) : Bool := f.sub.getLsbD 6 || (f.s3 == 0 && f.imm.extractLsb' 8 24 == 0)

/-- 0x70-0x77 of the X table (R211). -/
def matrixRows : List (Nat × Row) := [
  (0x70, { d := t2, s1 := f4, guardSlot := true, build := fun g f => .tld g (num f.d) (num f.s1) }),
  (0x71, { d := .oneOf [(4, 0, 31), (0, 0, 0)], s1 := .oneOf [(2, 0, 7), (3, 0, 3)], modUsed := true
           immMask := 0x007F7F3F, guardSlot := true
           resOk := fun f => (cls f.d != 4 || f.imm.extractLsb' 0 6 == 0) &&
             (cls f.s1 != 2 || (f.imm.extractLsb' 8 7 == 0 && f.imm.extractLsb' 16 7 == 0))
           tyOk := fun f t => if cls f.s1 = 2 then t == .i32 else WF.word32Ty t
           build := fun g f =>
             if cls f.d = 4 then .tstFlue g (num f.d) (.ofSpec f.s1) f.ty ⟨f.imm.extractLsb' 8 7, f.imm.extractLsb' 16 7⟩
             else .tstMemory g (.ofSpec f.s1) f.ty (f.imm.extractLsb' 0 6) ⟨f.imm.extractLsb' 8 7, f.imm.extractLsb' 16 7⟩ }),
  (0x72, { d := m3, guardSlot := true, build := fun g f => .mzero g (num f.d) }),
  (0x73, { subUsed := true, subOk := fun s => s == 0 || s == 64, d := m3, s1 := t2, s2 := t2, s3 := r0
           immMask := 0xFFFFFF00, guardSlot := true, resOk := stampRes
           build := fun g f => if f.sub.getLsbD 6 then .mmaStamped g (num f.d) (num f.s1) (num f.s2) (stamp f)
             else .mma g (num f.d) (num f.s1) (num f.s2) }),
  (0x74, { subUsed := true, subOk := fun s => s.toNat % 64 < 3 && s.toNat < 128, d := m3, s1 := t2, s2 := t2, s3 := r0
           immMask := 0xFFFFFF07, guardSlot := true, resOk := stampRes
           build := fun g f =>
             if f.sub.getLsbD 6 then .mmasStamped g (.ofCode (f.sub.extractLsb' 0 2)) (num f.d) (num f.s1) (num f.s2)
               (f.imm.extractLsb' 0 3) (stamp f)
             else .mmas g (.ofCode (f.sub.extractLsb' 0 2)) (num f.d) (num f.s1) (num f.s2) (f.imm.extractLsb' 0 3) }),
  (0x75, { subUsed := true
           subOk := fun s => s.toNat % 64 == 0 && 1 ≤ s.toNat / 128 && s.toNat / 128 ≤ 8
           d := m3, s1 := t2, s2 := t2, s3 := r0, immMask := 0xFFFFFF00, guardSlot := true, resOk := stampRes
           build := fun g f =>
             if f.sub.getLsbD 6 then .mmabStamped g (f.sub.extractLsb' 7 4) (num f.d) (num f.s1) (num f.s2) (stamp f)
             else .mmab g (f.sub.extractLsb' 7 4) (num f.d) (num f.s1) (num f.s2) }),
  (0x76, { d := v1, s1 := m3, s2 := r07, immMask := 1, guardSlot := true
           build := fun g f => .mrd g (f.imm.getLsbD 0) (num f.d) (num f.s1) (.ofSpec f.s2) }),
  (0x77, { d := t2, s1 := m3, s2 := r0, modUsed := true, tyOk := fun _ t => WF.word32Ty t, rndOk := anyRnd
           guardSlot := true, build := fun g f => .mcvt g (num f.d) (num f.s1) (num f.s2) f.ty f.rs })]

end Enc

/-- The opcode table of an engine (R40), without NOP. -/
def opTable (e : Eng) : List (Nat × Row) :=
  Enc.scalarRows ++ Enc.sysRows e ++ Enc.controlRows e ++
  match e with
  | .a => Enc.memoryRows ++ Enc.flueRows ++ Enc.copyRows
  | .x => Enc.vectorRows1 ++ Enc.vectorRows2 ++ Enc.deferRows ++ Enc.matrixRows

def opRow (e : Eng) (op : BitVec 8) : Option Row := ((opTable e).find? fun r => r.1 == op.toNat).map (·.2)

/-- MOVI is format L: its S and MOD fields are IMM64, so no check but those of OP, G, SUB and D applies (R33). -/
def decodeMovi (e : Eng) (f : Fields) : Except FaultCode Instr :=
  if f.sub != 0 then .error .reservedField
  else match Guard.ofBits f.g with
  | none => .error .reservedField
  | some g =>
    if !Enc.r0.ok e f.d then .error .badOperand
    else match g with
      | .slot _ => .error .guardMisuse
      | g => .ok (.movi g (num f.d) f.imm64)

/-- Decoding of a slot by an engine (R38, R39 checks 1-4): total, rejecting by name. -/
def decode (e : Eng) (w : SlotWord) : Except FaultCode Instr :=
  if w = 0 then .ok .nop
  else
    let f := Fields.ofSlot w
    if f.op = 0 then .error .reservedField
    else if f.op = 1 then decodeMovi e f
    else match opRow e f.op with
      | none => .error .illegalOp
      | some r => r.decode e f

/-- The slot of twelve bytes at ascending addresses (R5). -/
def slotOfBytes (l : List Byte) : SlotWord :=
  BitVec.ofNat 96 ((l.take 12).foldr (fun b n => b.toNat + 256 * n) 0)

/-- Decoding of the bytes of a slot. Fewer than twelve bytes are no slot. -/
def decodeBytes (e : Eng) (l : List Byte) : Except FaultCode Instr :=
  if l.length < 12 then .error .illegalOp else decode e (slotOfBytes l)

/-- The instruction the decoder reads from the word `w`, numbered as spec/opcode_table.json numbers it: the A table
first, then the X table (R40). -/
def decodeTableWord (_nbits w : Nat) : Option Instr :=
  match decode .a (BitVec.ofNat 96 w) with
  | .ok i => some i
  | .error _ => match decode .x (BitVec.ofNat 96 w) with
    | .ok i => some i
    | .error _ => none

/-! ### The encoder, from the same tables -/

namespace Enc

def modTy (t : DType) : BitVec 8 := t.code ++ 0#4
def modRs (t : DType) (r : RndSat) : BitVec 8 := t.code ++ r.rnd.code ++ BitVec.ofBool r.sat
def modSat (t : DType) (s : Bool) : BitVec 8 := t.code ++ 0#3 ++ BitVec.ofBool s
def f0 (op : BitVec 8) (g : Guard) : Fields :=
  { op := op, g := g.bits, sub := 0, d := 0, s1 := 0, s2 := 0, s3 := 0, mod := 0, imm := 0 }
def memImm (m : MemOp) : BitVec 32 := 0#6 ++ m.scl ++ m.ofs
def f3 (op : BitVec 8) (g : Guard) (d : Reg) (a b c : Src) (m : BitVec 8) : Fields :=
  { f0 op g with d := spec 0 d, s1 := a.spec, s2 := b.spec, s3 := c.spec, mod := m }
def f2 (op : BitVec 8) (g : Guard) (d : Reg) (a b : Src) (t : DType) : Fields :=
  { f0 op g with d := spec 0 d, s1 := a.spec, s2 := b.spec, mod := modTy t }
def fv3 (op : BitVec 8) (g : Guard) (d a b : VSrc) (m : BitVec 8) : Fields :=
  { f0 op g with d := d.spec, s1 := a.spec, s2 := b.spec, mod := m }
def fv2 (op : BitVec 8) (g : Guard) (d a : VSrc) (m : BitVec 8) : Fields :=
  { f0 op g with d := d.spec, s1 := a.spec, mod := m }
def sub2 (c : Compl) : BitVec 11 := 0#9 ++ c.code
def copyImm (c : CopyEnd) (ta tb : BitVec 6) : BitVec 32 := 0#2 ++ tb ++ ta ++ c.cw
def stampImm (st : Stamp) (low : BitVec 8) : BitVec 32 := st.ofs ++ low
def rect (r : TstRect) (td : BitVec 6) : BitVec 32 := 0#9 ++ r.acols ++ 0#1 ++ r.arows ++ 0#2 ++ td

/-- Fields of the common instructions. -/
def common : Instr → Option Fields
  | .movi g d v => some { f0 0x01 g with d := spec 0 d, s1 := v.extractLsb' 56 8, s2 := v.extractLsb' 48 8, s3 := v.extractLsb' 40 8, mod := v.extractLsb' 32 8, imm := v.extractLsb' 0 32 }
  | .mov g d s => some { f0 0x02 g with d := spec 0 d, s1 := s.spec }
  | .ldl g k d i => some { f0 0x03 g with sub := k.code, d := spec 0 d, imm := i }
  | .movs g s n => some { f0 0x04 g with s1 := s.spec, imm := 0#20 ++ n }
  | .movf g d n => some { f0 0x05 g with d := spec 0 d, imm := 0#20 ++ n }
  | .add g d a b c t s => some (f3 0x08 g d a b c (modSat t s))
  | .sub g d a b c t s => some (f3 0x09 g d a b c (modSat t s))
  | .mul g d a b t s => some { f2 0x0A g d a b t with mod := modSat t s }
  | .mulh g d a b t => some (f2 0x0B g d a b t)
  | .div g d a b t => some (f2 0x0C g d a b t)
  | .rem g d a b t => some (f2 0x0D g d a b t)
  | .addx g d a b c t => some (f3 0x0E g d a b c (modTy t))
  | .and g d a b t => some (f2 0x10 g d a b t)
  | .or g d a b t => some (f2 0x11 g d a b t)
  | .xor g d a b t => some (f2 0x12 g d a b t)
  | .andn g d a b t => some (f2 0x13 g d a b t)
  | .shl g d a b t => some (f2 0x14 g d a b t)
  | .shr g d a b t => some (f2 0x15 g d a b t)
  | .sar g d a b t => some (f2 0x16 g d a b t)
  | .rot g d a b t => some (f2 0x17 g d a b t)
  | .min g d a b t => some (f2 0x18 g d a b t)
  | .max g d a b t => some (f2 0x19 g d a b t)
  | .clz g d a t => some { f0 0x1A g with d := spec 0 d, s1 := a.spec, mod := modTy t }
  | .popc g d a t => some { f0 0x1B g with d := spec 0 d, s1 := a.spec, mod := modTy t }
  | .sel g d a b => some { f0 0x1C g with d := spec 0 d, s1 := a.spec, s2 := b.spec }
  | .pcmp g c a b t => some { f0 0x20 g with sub := c.code, s1 := a.spec, s2 := b.spec, mod := modTy t }
  | .pnot g => some (f0 0x21 g)
  | .pand g j => some { f0 0x22 g with s1 := spec 7 j }
  | .por g j => some { f0 0x23 g with s1 := spec 7 j }
  | .ppop g n => some { f0 0x24 g with imm := 0#27 ++ n }
  | .pbr g b i => some { f0 0x28 g with d := spec 5 b, imm := i }
  | .pbrr g b s i => some { f0 0x29 g with d := spec 5 b, s1 := spec 0 s, imm := i }
  | .br g b => some { f0 0x2A g with s1 := spec 5 b }
  | .brl g d b => some { f0 0x2B g with d := spec 5 d, s1 := spec 5 b }
  | .loop g l s i => some { f0 0x2C g with d := spec 5 l, s1 := s.spec, imm := i }
  | .loopp g l a b t i => some { f0 0x2D g with d := spec 5 l, s1 := spec 0 a, s2 := spec 0 b, s3 := spec 5 t, imm := i }
  | .lds g w d m => some { f0 0x30 g with sub := w.code, d := spec 0 d, s1 := spec 0 m.base, s2 := spec 0 m.index, imm := memImm m }
  | .sts g w m s => some { f0 0x31 g with sub := w.code, s1 := spec 0 m.base, s2 := spec 0 m.index, s3 := s.spec, imm := memImm m }
  | .xput g q s => some { f0 0x34 g with d := spec 6 q, s1 := s.spec }
  | .xget g d q => some { f0 0x35 g with d := spec 0 d, s1 := spec 6 q }
  | .waitw g c d b s o => some { f0 0x38 g with sub := c.code, d := spec 0 d, s1 := spec 0 b, s2 := s.spec, imm := 0#11 ++ o }
  | .fence g s => some { f0 0x39 g with sub := s.code }
  | .phase g => some (f0 0x3A g)
  | .yield g => some (f0 0x3B g)
  | .trap g c => some { f0 0x3C g with imm := c }
  | .done g => some (f0 0x3D g)
  | .gset g n s => some { f0 0x3E g with d := spec 6 n, s1 := s.spec }
  | .gclr g n => some { f0 0x3F g with d := spec 6 n }
  | .sret g b => some { f0 0xF0 g with s1 := spec 5 b }
  | .snap g d t => some { f0 0xF1 g with d := spec 0 d, imm := 0#16 ++ t }
  | _ => none

/-- Fields of the A table's own instructions. -/
def aOnly : Instr → Option Fields
  | .ldg g w d m => some { f0 0x40 g with sub := w.code, d := spec 0 d, s1 := spec 0 m.base, s2 := spec 0 m.index, imm := memImm m }
  | .stg g w m s => some { f0 0x41 g with sub := w.code, s1 := spec 0 m.base, s2 := spec 0 m.index, s3 := s.spec, imm := memImm m }
  | .stm g w m s => some { f0 0x42 g with sub := w.code, s1 := spec 0 m.base, s2 := spec 0 m.index, s3 := s.spec, imm := memImm m }
  | .amo g op w nr d b s c o => some { f0 0x43 g with sub := 0#5 ++ BitVec.ofBool w ++ BitVec.ofBool nr ++ op.code, d := spec 0 d, s1 := spec 0 b, s2 := s.spec, s3 := spec 0 c, imm := 0#8 ++ o }
  | .acc g op m s t r => some { f0 0x44 g with sub := 0#8 ++ op.code, s1 := spec 0 m.base, s2 := spec 0 m.index, s3 := spec 0 s, mod := modRs t ⟨r, false⟩, imm := memImm m }
  | .acco g b s i t r o q => some { f0 0x45 g with s1 := spec 0 b, s2 := spec 0 s, s3 := i.spec, mod := modRs t ⟨r, false⟩, imm := 0#8 ++ q ++ o }
  | .flushe g => some (f0 0x46 g)
  | .seqopen g a b c q => some { f0 0x47 g with s1 := spec 0 a, s2 := spec 0 b, s3 := spec 0 c, imm := 0#28 ++ q }
  | .seqclose g q w => some { f0 0x48 g with imm := 0#27 ++ BitVec.ofBool w ++ q }
  | .flopen g k r a f b ss cc => some { f0 0x50 g with sub := 0#6 ++ BitVec.ofBool a ++ BitVec.ofBool r ++ k.code, d := spec 4 f, s1 := spec 0 b, imm := 0#24 ++ cc ++ ss }
  | .flclose g f => some { f0 0x51 g with d := spec 4 f }
  | .flfork g f p a => some { f0 0x52 g with d := spec 4 f, s1 := spec 4 p, imm := 0#31 ++ BitVec.ofBool a }
  | .flmark g f m md => some { f0 0x53 g with d := spec 4 f, imm := 0#28 ++ md.code ++ m }
  | .flrewind g f m => some { f0 0x54 g with d := spec 4 f, imm := 0#30 ++ m }
  | .claim g d f n => some { f0 0x55 g with d := spec 0 d, s1 := spec 4 f, s2 := n.spec }
  | .publish g f n => some { f0 0x56 g with s1 := spec 4 f, s2 := n.spec }
  | .waitfree g d f n => some { f0 0x57 g with d := spec 0 d, s1 := spec 4 f, s2 := n.spec }
  | .waitfill g d f n => some { f0 0x58 g with d := spec 0 d, s1 := spec 4 f, s2 := n.spec }
  | .flstat g k d f => some { f0 0x59 g with sub := k.code, d := spec 0 d, s1 := spec 4 f }
  | .tdset g a b n => some { f0 0x60 g with s1 := spec 0 a, s2 := spec 0 b, imm := 0#26 ++ n }
  | .cpy g c ta tb => some { f0 0x61 g with sub := sub2 c.compl, s3 := spec 0 c.val, imm := copyImm c ta tb }
  | .cpyf g c f ta => some { f0 0x62 g with sub := sub2 c.compl, d := spec 4 f, s3 := spec 0 c.val, imm := copyImm c ta 0 }
  | .drnf g c f ta => some { f0 0x63 g with sub := sub2 c.compl, s1 := spec 4 f, s3 := spec 0 c.val, imm := copyImm c ta 0 }
  | .gath g c fd fs n ta => some { f0 0x64 g with sub := sub2 c.compl, d := spec 4 fd, s1 := spec 4 fs, s2 := n.spec, s3 := spec 0 c.val, imm := copyImm c ta 0 }
  | .scat g c fd fs n ta => some { f0 0x65 g with sub := sub2 c.compl, d := spec 4 fd, s1 := spec 4 fs, s2 := n.spec, s3 := spec 0 c.val, imm := copyImm c ta 0 }
  | .mrg g c cb z fd a b t r => some { f0 0x66 g with sub := 0#6 ++ BitVec.ofBool z ++ cb.code ++ c.compl.code, d := spec 4 fd, s1 := spec 4 a, s2 := spec 4 b, s3 := spec 0 c.val, mod := modRs t r, imm := 0#11 ++ c.tgt }
  | .blow g c fd a b => some { f0 0x67 g with sub := sub2 c.compl, d := spec 4 fd, s1 := spec 0 a, s2 := spec 0 b, s3 := spec 0 c.val, imm := 0#11 ++ c.tgt }
  | .barinit g b o => some { f0 0x68 g with s1 := spec 0 b, imm := 0#11 ++ o }
  | .bararm g b s o => some { f0 0x69 g with s1 := spec 0 b, s2 := s.spec, imm := 0#11 ++ o }
  | .barwait g d b s o => some { f0 0x6A g with d := spec 0 d, s1 := spec 0 b, s2 := s.spec, imm := 0#11 ++ o }
  | .winld g s => some { f0 0x70 g with s1 := spec 0 s }
  | .pgreq g d s n => some { f0 0x71 g with d := spec 0 d, s1 := spec 0 s, imm := 0#31 ++ BitVec.ofBool n }
  | .pgreqR g d s n => some { f0 0x71 g with sub := 1, d := spec 0 d, s1 := spec 0 s, imm := 0#31 ++ BitVec.ofBool n }
  | .resq g d s => some { f0 0x72 g with d := spec 0 d, s1 := spec 0 s }
  | .launch g d s => some { f0 0x78 g with d := spec 0 d, s1 := spec 0 s }
  | .launchw g d a b c => some { f0 0x79 g with d := spec 0 d, s1 := spec 0 a, s2 := spec 0 b, s3 := spec 0 c }
  | .park g a b t => some { f0 0x7A g with s1 := spec 0 a, s2 := spec 0 b, s3 := spec 5 t }
  | .trel g => some (f0 0x7B g)
  | _ => none

/-- Fields of the X table's own instructions. -/
def xOnly : Instr → Option Fields
  | .vld g d m t => some { f0 0x40 g with d := spec 1 d, s1 := spec 0 m.base, s2 := spec 0 m.index, mod := modTy t, imm := memImm m }
  | .vst g m s t => some { f0 0x41 g with s1 := spec 0 m.base, s2 := spec 0 m.index, s3 := s.spec, mod := modTy t, imm := memImm m }
  | .vmov g d a t => some (fv2 0x42 g d a (modTy t))
  | .vbcst g d s t => some { f0 0x43 g with d := d.spec, s1 := s.spec, mod := modTy t }
  | .vperm g d a b => some (fv3 0x44 g d a b 0)
  | .vsel g d a b => some (fv3 0x45 g d a b 0)
  | .vcmp g c a b t => some { f0 0x46 g with sub := c.code, s1 := a.spec, s2 := b.spec, mod := modTy t }
  | .vcnt g d => some { f0 0x47 g with d := spec 0 d }
  | .vadd g d a b t r => some (fv3 0x48 g d a b (modRs t r))
  | .vsub g d a b t r => some (fv3 0x49 g d a b (modRs t r))
  | .vmul g d a b t r => some (fv3 0x4A g d a b (modRs t r))
  | .vfma g d a b c t r => some { fv3 0x4B g d a b (modRs t r) with s3 := c.spec }
  | .vfms g d a b c t r => some { fv3 0x4C g d a b (modRs t r) with s3 := c.spec }
  | .vmin g d a b t => some (fv3 0x4D g d a b (modTy t))
  | .vmax g d a b t => some (fv3 0x4E g d a b (modTy t))
  | .vabs g d a t s => some (fv2 0x4F g d a (modSat t s))
  | .vneg g d a t s => some (fv2 0x50 g d a (modSat t s))
  | .vrcp g d a t r => some (fv2 0x51 g d a (modRs t r))
  | .vrsq g d a t r => some (fv2 0x52 g d a (modRs t r))
  | .vexp2 g d a t r => some (fv2 0x53 g d a (modRs t r))
  | .vlog2 g d a t r => some (fv2 0x54 g d a (modRs t r))
  | .vand g d a b t => some (fv3 0x55 g d a b (modTy t))
  | .vor g d a b t => some (fv3 0x56 g d a b (modTy t))
  | .vxor g d a b t => some (fv3 0x57 g d a b (modTy t))
  | .vshl g d a n t => some { fv2 0x58 g d a (modTy t) with s2 := n.spec }
  | .vshr g ar d a n t => some { fv2 0x59 g d a (modTy t) with sub := 0#10 ++ BitVec.ofBool ar, s2 := n.spec }
  | .vcvt g d a t s r => some { fv2 0x5A g d a (modRs t r) with imm := 0#28 ++ s.code }
  | .vqnt g d a b c t r => some { fv2 0x5B g d a (modRs t r) with s2 := spec 0 b, s3 := spec 0 c }
  | .vhistCount g a t => some { f0 0x5C g with s1 := a.spec, mod := modTy t }
  | .vhistClear g => some { f0 0x5C g with imm := 1 }
  | .vhistRead g d q => some { f0 0x5C g with d := d.spec, imm := 0#28 ++ q ++ 2#2 }
  | .scaleq g d s t => some { f0 0x5D g with d := spec 0 d, s1 := s.spec, mod := modTy t }
  | .vred g op d a t r => some { f0 0x60 g with sub := op.code, d := spec 0 d, s1 := a.spec, mod := modRs t r }
  | .vscan g op d a t r => some { fv2 0x61 g d a (modRs t r) with sub := 0#9 ++ op.code }
  | .vidx g d a b t => some { f0 0x62 g with d := d.spec, s1 := a.spec, s2 := b.spec, mod := modTy t }
  | .defer g v n s => some { f0 0x68 g with s1 := spec 1 v, s2 := spec 7 n, s3 := spec 0 s }
  | .drain g d v n f => some { f0 0x69 g with d := spec 0 d, s1 := spec 1 v, s2 := spec 7 n, imm := 0#31 ++ BitVec.ofBool f }
  | .resp g f b => some { f0 0x6A g with s1 := spec 4 f, imm := 0#20 ++ b ++ 0#6 }
  | .release g f n => some { f0 0x6B g with s1 := spec 4 f, s2 := n.spec }
  | .tld g t f => some { f0 0x70 g with d := spec 2 t, s1 := spec 4 f }
  | .tstFlue g f s t r => some { f0 0x71 g with d := spec 4 f, s1 := s.spec, mod := modTy t, imm := rect r 0 }
  | .tstMemory g s t td r => some { f0 0x71 g with s1 := s.spec, mod := modTy t, imm := rect r td }
  | .mzero g m => some { f0 0x72 g with d := spec 3 m }
  | .mma g m a b => some { f0 0x73 g with d := spec 3 m, s1 := spec 2 a, s2 := spec 2 b }
  | .mmaStamped g m a b st => some { f0 0x73 g with sub := 64, d := spec 3 m, s1 := spec 2 a, s2 := spec 2 b, s3 := spec 0 st.reg, imm := stampImm st 0 }
  | .mmas g n m a b k => some { f0 0x74 g with sub := 0#9 ++ n.code, d := spec 3 m, s1 := spec 2 a, s2 := spec 2 b, imm := 0#29 ++ k }
  | .mmasStamped g n m a b k st => some { f0 0x74 g with sub := 1#5 ++ 0#4 ++ n.code, d := spec 3 m, s1 := spec 2 a, s2 := spec 2 b, s3 := spec 0 st.reg, imm := stampImm st (0#5 ++ k) }
  | .mmab g p m a b => some { f0 0x75 g with sub := p ++ 0#7, d := spec 3 m, s1 := spec 2 a, s2 := spec 2 b }
  | .mmabStamped g p m a b st => some { f0 0x75 g with sub := p ++ 64#7, d := spec 3 m, s1 := spec 2 a, s2 := spec 2 b, s3 := spec 0 st.reg, imm := stampImm st 0 }
  | .mrd g c d m s => some { f0 0x76 g with d := spec 1 d, s1 := spec 3 m, s2 := s.spec, imm := 0#31 ++ BitVec.ofBool c }
  | .mcvt g t m s ty r => some { f0 0x77 g with d := spec 2 t, s1 := spec 3 m, s2 := spec 0 s, mod := modRs ty r }
  | _ => none

end Enc

/-- The fields of an instruction's slot; none for NOP and for the part's own steps. -/
def encodeFields (i : Instr) : Option Fields := (Enc.common i <|> Enc.aOnly i) <|> Enc.xOnly i

/-- The slot of an instruction: NOP is the all-zero slot (R38). -/
def encode (i : Instr) : SlotWord :=
  match encodeFields i with
  | some f => f.toSlot
  | none => 0

/-- The twelve bytes of an instruction's slot at ascending addresses (R5). -/
def encodeBytes (i : Instr) : List Byte := (List.range 12).map fun k => (encode i).extractLsb' (8 * k) 8

end Sys2Proof
end

