-- ==== Sys2Proof/Machine/Numbers.lean ====
section
/-!
DEFINITION. Number formats, rounding, saturation, the stochastic-rounding generator, bit planes, block scales, minimum
and maximum, and the order of sums (spec 05, R99-R119), with the elementary functions of R194.
-/
set_option autoImplicit false

namespace Sys2Proof.Machine

/-- An exact value (R119): NaN, an infinity, or ± num / den × 2^exp; a zero has a sign. -/
inductive Val where
  | nan
  | inf (neg : Bool)
  | fin (neg : Bool) (num den : Nat) (exp : Int)
  deriving DecidableEq, Repr, Inhabited

/-! ### Formats -/

/-- A floating-point format (R99): exponent bits, fraction bits, bias. -/
structure Fmt where
  eb : Nat
  mb : Nat
  bias : Nat

def fmtOf : DType → Option Fmt
  | .f32 => some ⟨8, 23, 127⟩
  | .bf16 => some ⟨8, 7, 127⟩
  | .f16 => some ⟨5, 10, 15⟩
  | .e4 => some ⟨4, 3, 7⟩
  | .e5 => some ⟨5, 2, 15⟩
  | _ => none

/-- Element width in bits (R99, R102); a bit-plane element has one bit for each plane and is not counted here. -/
def tyBits : DType → Nat
  | .i32 | .n32 | .f32 => 32
  | .i64 | .n64 => 64
  | .i16 | .bf16 | .f16 => 16
  | .i8 | .n8 | .e4 | .e5 => 8
  | .i4 => 4
  | .bp => 1

def isFlt (t : DType) : Bool := (fmtOf t).isSome

/-- Signed integer types (R68, R102). -/
def isSigned : DType → Bool
  | .i32 | .i64 | .i16 | .i8 | .i4 => true
  | _ => false

/-- Type minimum and maximum of R102. -/
def tyMin (t : DType) : Int := if isSigned t then -((2 ^ (tyBits t - 1) : Nat) : Int) else 0
def tyMax (t : DType) : Int :=
  if isSigned t then ((2 ^ (tyBits t - 1) : Nat) : Int) - 1 else ((2 ^ tyBits t : Nat) : Int) - 1

/-- The encoding of the largest finite magnitude (R99). -/
def maxEnc (t : DType) (f : Fmt) : Nat := if t = .e4 then 0x7E else (2 ^ f.eb - 1) * 2 ^ f.mb - 1

/-- canon_nan (R101). -/
def canonNan : DType → Nat
  | .f32 => 0x7FC00000 | .bf16 => 0x7FC0 | .f16 => 0x7E00 | .e5 => 0x7E | .e4 => 0x7F | _ => 0

/-- value_of (R100, R102). -/
def valueOf (t : DType) (b : Nat) : Val :=
  match fmtOf t with
  | some f =>
    let neg := bits b (f.eb + f.mb) 1 == 1
    let e := bits b f.mb f.eb
    let m := bits b 0 f.mb
    if e = 2 ^ f.eb - 1 && (t != .e4 || m == 7) then
      if t != .e4 && m == 0 then .inf neg else .nan
    else if e = 0 then .fin neg m 1 (1 - (f.bias : Int) - f.mb)
    else .fin neg (m + 2 ^ f.mb) 1 ((e : Int) - f.bias - f.mb)
  | none =>
    let i : Int := if isSigned t then sextNat (tyBits t) b else ((b % 2 ^ tyBits t : Nat) : Int)
    .fin (i < 0) i.natAbs 1 0

def ofInt (i : Int) : Val := .fin (i < 0) i.natAbs 1 0

/-! ### Rounding (R103-R107) -/

/-- floor(log2 (num / den)) for positive num and den. -/
def ratLog2 (num den : Nat) : Int :=
  let l : Int := (Nat.log2 num : Int) - Nat.log2 den
  if (if 0 ≤ l then den * 2 ^ l.toNat ≤ num else den ≤ num * 2 ^ (-l).toNat) then l else l - 1

/-- num / den × 2^exp as a quotient and a remainder over a divisor, in units of 2^q. -/
def inUnits (num den : Nat) (exp q : Int) : Nat × Nat × Nat :=
  let s := exp - q
  let n := if 0 ≤ s then num * 2 ^ s.toNat else num
  let d := if 0 ≤ s then den else den * 2 ^ (-s).toNat
  (n / d, n % d, d)

/-- Whether the magnitude rounds up to the next unit (R103, R108): `lo` whole units, remainder r of d, draw u. -/
def roundsUp (rnd : Rnd) (neg : Bool) (lo r d : Nat) (u : Nat) : Bool :=
  if r = 0 then false
  else match rnd with
  | .rne => d < 2 * r || (2 * r == d && lo % 2 == 1)
  | .rz => false
  | .ru => !neg
  | .rd => neg
  | .rna => d ≤ 2 * r
  | .sr => u < 2 ^ 32 * r / d

def signBit (f : Fmt) (neg : Bool) : Nat := if neg then 2 ^ (f.eb + f.mb) else 0

/-- The infinity of a type; FP8-E4 has none and takes the NaN of the sign (R106). -/
def infEnc (t : DType) (f : Fmt) (neg : Bool) : Nat :=
  signBit f neg + (if t = .e4 then 0x7F else (2 ^ f.eb - 1) * 2 ^ f.mb)

/-- R105: what an overflowing result becomes. -/
def overflowEnc (t : DType) (f : Fmt) (rnd : Rnd) (sat neg : Bool) : Nat :=
  let toMax := sat || (match rnd with | .rz => true | .ru => neg | .rd => !neg | _ => false)
  if toMax then signBit f neg + maxEnc t f else infEnc t f neg

/-- The magnitude of k units of 2^q as an encoding without sign, exponent unbounded above. -/
def packMag (f : Fmt) (k : Nat) (q : Int) : Nat :=
  let q0 : Int := 1 - (f.bias : Int) - f.mb
  if k < 2 ^ f.mb then k
  else k + (q - q0).toNat * 2 ^ f.mb

/-- Rounding of a finite value to a floating-point type. -/
def roundFlt (t : DType) (f : Fmt) (rnd : Rnd) (sat : Bool) (u : Nat) (neg : Bool) (num den : Nat) (exp : Int) : Nat :=
  if num = 0 then signBit f neg
  else
    let e := ratLog2 num den + exp
    let emin : Int := 1 - (f.bias : Int)
    let q := (if e < emin then emin else e) - f.mb
    let (lo, r, d) := inUnits num den exp q
    let k := if roundsUp rnd neg lo r d u then lo + 1 else lo
    let enc := packMag f k q
    if maxEnc t f < enc then overflowEnc t f rnd sat neg else signBit f neg + enc

/-- Rounding of a finite value to an integer (R107), before clamping. -/
def roundInt (rnd : Rnd) (u : Nat) (neg : Bool) (num den : Nat) (exp : Int) : Int :=
  let (lo, r, d) := inUnits num den exp 0
  let k := if roundsUp rnd neg lo r d u then lo + 1 else lo
  if neg then -(k : Int) else k

/-- Narrowing of an integer to a type (R107): clamped, or modulo 2^bits. -/
def narrow (t : DType) (sat : Bool) (i : Int) : Nat :=
  wrap (tyBits t) (if sat then (if i < tyMin t then tyMin t else if tyMax t < i then tyMax t else i) else i)

/-- round_to (R119): the encoding of an exact value, with the draw u for stochastic rounding. -/
def roundTo (t : DType) (rnd : Rnd) (sat : Bool) (u : Nat) (x : Val) : Nat :=
  match fmtOf t with
  | some f =>
    match x with
    | .nan => canonNan t
    | .inf neg => if sat then signBit f neg + maxEnc t f else infEnc t f neg
    | .fin neg n d e => roundFlt t f rnd sat u neg n d e
  | none =>
    match x with
    | .nan => 0
    | .inf neg => if sat then wrap (tyBits t) (if neg then tyMin t else tyMax t) else 0
    | .fin neg n d e => narrow t sat (roundInt rnd u neg n d e)

/-- sr_draw (R108): the next state and the 32-bit number. -/
def srDraw (s : Word) : Word × Nat :=
  let s := s ^^^ (s <<< 13)
  let s := s ^^^ (s >>> 7)
  let s := s ^^^ (s <<< 17)
  (s, (s >>> 32).toNat)

/-! ### Exact arithmetic -/

def Val.isNan : Val → Bool | .nan => true | _ => false
def Val.isZero : Val → Bool | .fin _ 0 _ _ => true | _ => false
def Val.isNeg : Val → Bool | .fin n _ _ _ => n | .inf n => n | .nan => false
def Val.flip : Val → Val | .fin n a d e => .fin (!n) a d e | .inf n => .inf (!n) | .nan => .nan

/-- Exact product; 0 × ∞ is invalid (R101). -/
def Val.mul : Val → Val → Val
  | .nan, _ | _, .nan => .nan
  | .inf a, .inf b => .inf (a != b)
  | .inf a, .fin b n _ _ => if n = 0 then .nan else .inf (a != b)
  | .fin b n _ _, .inf a => if n = 0 then .nan else .inf (a != b)
  | .fin a n d e, .fin b n' d' e' => .fin (a != b) (n * n') (d * d') (e + e')

/-- 1 / x for a finite nonzero x. -/
def Val.recip : Val → Val
  | .fin s n d e => if n = 0 then .inf s else .fin s d n (-e)
  | .inf s => .fin s 0 1 0
  | .nan => .nan

def Val.scaled (neg : Bool) (n d : Nat) (e emin : Int) (den : Nat) : Int :=
  let m := n * (den / d) * 2 ^ (e - emin).toNat
  if neg then -(m : Int) else m

/-- Exact sum of a list. An exact zero is -0 only when every term is -0, and, when terms cancel, under RD (R103). -/
def Val.sum (rd : Bool) (l : List Val) : Val :=
  if l.any Val.isNan then .nan
  else
    let pinf := l.any fun v => match v with | .inf false => true | _ => false
    let ninf := l.any fun v => match v with | .inf true => true | _ => false
    if pinf && ninf then .nan
    else if pinf then .inf false
    else if ninf then .inf true
    else
      let emin : Int := l.foldl (fun m v => match v with | .fin _ _ _ e => if e < m then e else m | _ => m) 0
      let den := l.foldl (fun m v => match v with | .fin _ _ d _ => Nat.lcm m d | _ => m) 1
      let s : Int := l.foldl (fun a v => match v with | .fin g n d e => a + Val.scaled g n d e emin den | _ => a) 0
      if s = 0 then
        let allNegZero := l.all fun v => v.isZero && v.isNeg
        let allPosZero := l.all fun v => v.isZero && !v.isNeg
        .fin (allNegZero || (rd && !allPosZero)) 0 1 0
      else .fin (s < 0) s.natAbs den emin

def Val.add (rnd : Rnd) (x y : Val) : Val := Val.sum (rnd == .rd) [x, y]

/-- Numeric comparison of values that are not NaN: x < y, with the two zeros equal. -/
def Val.lt : Val → Val → Bool
  | .inf a, .inf b => a && !b
  | .inf a, .fin _ _ _ _ => a
  | .fin _ _ _ _, .inf b => !b
  | .fin a n d e, .fin b n' d' e' =>
    let m := if e < e' then e else e'
    Val.scaled a (n * d') 1 e m 1 < Val.scaled b (n' * d) 1 e' m 1
  | _, _ => false

/-- The conditions of R41 and R85. -/
def compareVals (c : Cond) (x y : Val) : Bool :=
  let un := x.isNan || y.isNan
  match c with
  | .uo => un
  | .or => !un
  | .ne => un || Val.lt x y || Val.lt y x
  | .eq => !un && !Val.lt x y && !Val.lt y x
  | .lt => !un && Val.lt x y
  | .le => !un && !Val.lt y x
  | .gt => !un && Val.lt y x
  | .ge => !un && !Val.lt x y

/-- min_num and max_num of R115 on encodings: a NaN loses to a number, -0 is less than +0, two NaNs are canonical. -/
def minMaxFlt (t : DType) (isMax : Bool) (a b : Nat) : Nat :=
  let x := valueOf t a
  let y := valueOf t b
  if x.isNan && y.isNan then canonNan t
  else if x.isNan then b
  else if y.isNan then a
  else
    let aLess := Val.lt x y || (!Val.lt y x && x.isNeg && !y.isNeg)
    if aLess != isMax then a else b

def minMaxInt (t : DType) (isMax : Bool) (a b : Nat) : Nat :=
  let n := 2 ^ tyBits t
  let x : Int := if isSigned t then sextNat (tyBits t) a else ((a % n : Nat) : Int)
  let y : Int := if isSigned t then sextNat (tyBits t) b else ((b % n : Nat) : Int)
  if (x < y) != isMax then a % n else b % n

def minMax (t : DType) (isMax : Bool) (a b : Nat) : Nat :=
  if isFlt t then minMaxFlt t isMax a b else minMaxInt t isMax a b

def tyInt (t : DType) (a : Nat) : Int :=
  if isSigned t then sextNat (tyBits t) a else ((a % 2 ^ tyBits t : Nat) : Int)

/-- A lane sum: rounded for a floating-point type, wrapped or clamped for an integer type (R192). -/
def addEnc (t : DType) (r : RndSat) (u : Nat) (a b : Nat) : Nat :=
  if isFlt t then roundTo t r.rnd r.sat u (Val.add r.rnd (valueOf t a) (valueOf t b))
  else narrow t r.sat (tyInt t a + tyInt t b)

/-! ### Scales and bit planes -/

/-- scale_of (R113). -/
def scaleOf (e : Nat) : Val := if e = 255 then .nan else .fin false 1 1 ((e : Int) - 127)

/-- A finite normal FP32 value (R113). -/
def isNormalF32 (b : Nat) : Bool := 1 ≤ bits b 23 8 && bits b 23 8 ≤ 254

/-- bp_value (R112). -/
def bpValue (q : Int) (k : Nat) : Int :=
  if 8 ≤ k then q else q / ((2 ^ (8 - k) : Nat) : Int) * ((2 ^ (8 - k) : Nat) : Int) + ((2 ^ (7 - k) : Nat) : Int)

/-- Element j of a group of which the first k planes are read (R111, R112): bit 7 - p of q is bit j of plane p. -/
def bpElem (grp : Nat → Byte) (k j : Nat) : Int :=
  let q := (List.range (min k 8)).foldl
    (fun a p => if (grp (8 * p + j / 8)).getLsbD (j % 8) then a + 2 ^ (7 - p) else a) 0
  bpValue (sextNat 8 q) k

/-! ### Elementary functions (R194), correctly rounded -/

/-- floor(sqrt n), by Newton's method on fuel. -/
def isqrtGo : Nat → Nat → Nat → Nat
  | 0, _, x => x
  | k + 1, n, x =>
    let y := (x + n / x) / 2
    if y < x then isqrtGo k n y else x

def isqrt (n : Nat) : Nat := if n = 0 then 0 else isqrtGo (Nat.log2 n + 8) n (2 ^ (Nat.log2 n / 2 + 1))

/-- A value strictly between n and n + 1 units of 2^e, or n units exactly. -/
def between (neg : Bool) (n : Nat) (e : Int) (exact : Bool) : Val :=
  if exact then .fin neg n 1 e else .fin neg (2 * n + 1) 1 (e - 1)

/-- 1 / sqrt of n × 2^e, n > 0, e even: 200 bits and whether they are exact. -/
def rsqrtVal (n : Nat) (e : Int) : Val :=
  let r := isqrt (2 ^ 600 / n)
  between false r (-300 - e / 2) (r * r * n == 2 ^ 600)

/-- The roots 2^(2^-i), i = 1, 2, ..., in units of 2^-256 rounded down. -/
def exp2Go : Nat → Nat → Nat → Nat → Nat
  | 0, _, _, acc => acc
  | k + 1, root, frac, acc =>
    let root := isqrt (root * 2 ^ 256)
    let acc := if bits frac k 1 = 1 then acc * root / 2 ^ 256 else acc
    exp2Go k root frac acc

/-- 2^a for a finite a = ± num × 2^e. -/
def exp2Val (neg : Bool) (num : Nat) (e : Int) : Val :=
  if num = 0 then .fin false 1 1 0
  else if 12 ≤ ratLog2 num 1 + e then (if neg then .fin false 1 1 (-5000) else .fin false 1 1 5000)
  else
    let p : Nat := 176
    let sh : Int := e + (p : Int)
    let fx : Int := if 0 ≤ sh then ((num * 2 ^ sh.toNat : Nat) : Int) else ((num / 2 ^ (-sh).toNat : Nat) : Int)
    let fx := if neg then -fx else fx
    let n := fx / ((2 ^ p : Nat) : Int)
    let frac := (fx % ((2 ^ p : Nat) : Int)).toNat
    if frac = 0 then .fin false 1 1 n
    else between false (exp2Go p (2 ^ 257) frac (2 ^ 256)) (n - 256) false

/-- The first k bits of log2 of y in [1, 2), y in units of 2^-480. -/
def log2Go : Nat → Nat → Nat → Nat
  | 0, _, acc => acc
  | k + 1, y, acc =>
    let y := y * y / 2 ^ 480
    if 2 ^ 481 ≤ y then log2Go k (y / 2) (2 * acc + 1) else log2Go k y (2 * acc)

/-- log2 of num × 2^e, num > 0. -/
def log2Val (num : Nat) (e : Int) : Val :=
  let l := Nat.log2 num
  let n : Int := e + l
  if num = 2 ^ l then ofInt n
  else
    let fx : Int := n * ((2 ^ 200 : Nat) : Int) + (log2Go 200 (num * 2 ^ (480 - l)) 0 : Nat)
    if 0 ≤ fx then between false fx.toNat (-200) false
    else between true ((-fx).toNat - 1) (-200) false

/-- The four functions on exact values, with the special operands of R194. -/
def rcpVal (x : Val) : Val := x.recip
def rsqVal : Val → Val
  | .nan => .nan
  | .inf neg => if neg then .nan else .fin false 0 1 0
  | .fin neg n _ e =>
    if n = 0 then .inf neg else if neg then .nan
    else if e % 2 = 0 then rsqrtVal n e else rsqrtVal (2 * n) (e - 1)
def exp2ValOf : Val → Val
  | .nan => .nan
  | .inf neg => if neg then .fin false 0 1 0 else .inf false
  | .fin neg n _ e => exp2Val neg n e
def log2ValOf : Val → Val
  | .nan => .nan
  | .inf neg => if neg then .nan else .inf false
  | .fin neg n _ e => if n = 0 then .inf true else if neg then .nan else log2Val n e

/-- The FP32 biased exponent of an element's value (R198). -/
def histBin (t : DType) (b : Nat) : Nat :=
  if t = .n8 then b % 256
  else match valueOf t b with
  | .fin _ n _ e =>
    if n = 0 then 0
    else
      let x := ratLog2 n 1 + e
      if x < -126 then 0 else (x + 127).toNat
  | _ => 255

end Sys2Proof.Machine
end

