-- ==== Sys2Proof/Machine/Ops.lean ====
section
/-!
DEFINITION. The named operations over State: the core that executes, registers, predicate stacks, guards (R36), the
step of an engine after an instruction (R50, R88), scratchpad accesses (R76, R156, R330), free values, and taking a
fault (R317) with its return (R323).
-/
set_option autoImplicit false

namespace Sys2Proof.Machine

abbrev Out := Host.Outcome State Fault Refusal

/-! ### Parts of the state -/

/-- Cores 0-191 are hearths, 192 and 193 the hobs, 194 the chimney's core (R61). -/
def nCores : Nat := 195

/-- A core as reset leaves it (log 1): a hearth is free; the hobs and the chimney's core are in H mode (R23). -/
def Hearth.initial (h : Nat) : Hearth := { mode := if h < 192 then .t else .h }

def State.hearth (s : State) (h : Nat) : Hearth := tget (Hearth.initial h) s.hearths h
def State.setHearth (s : State) (h : Nat) (x : Hearth) : State := { s with hearths := tput s.hearths h x }
def State.modHearth (s : State) (h : Nat) (f : Hearth → Hearth) : State := s.setHearth h (f (s.hearth h))
def State.modCtx (s : State) (h : Nat) (f : Ctx → Ctx) : State := s.modHearth h fun x => { x with act := f x.act }

/-- The executing core, its active half, and the executing engine. -/
def State.me (s : State) : Hearth := s.hearth s.cur
def State.ctx (s : State) : Ctx := s.me.act
def State.setMe (s : State) (x : Hearth) : State := s.setHearth s.cur x
def State.setCtx (s : State) (c : Ctx) : State := s.setMe { s.me with act := c }

def Ctx.es (c : Ctx) : Eng → EngState | .a => c.ae | .x => c.xe
def Ctx.setEs (c : Ctx) (e : Eng) (x : EngState) : Ctx := match e with | .a => { c with ae := x } | .x => { c with xe := x }
def State.es (s : State) : EngState := s.ctx.es s.eng
def State.setEs (s : State) (x : EngState) : State := s.setCtx (s.ctx.setEs s.eng x)
/-- The slot address of the executing instruction (R50). -/
def State.pc (s : State) : Word := s.es.pc
def Eng.other : Eng → Eng | .a => .x | .x => .a

def State.part (s : State) (p : Nat) : Part := tget {} s.parts p
def State.setPart (s : State) (p : Nat) (x : Part) : State := { s with parts := tput s.parts p x }
def State.modPart (s : State) (p : Nat) (f : Part → Part) : State := s.setPart p (f (s.part p))
def State.vf (s : State) (v : Nat) : Vf := tget {} s.vfs v
def State.setVf (s : State) (v : Nat) (x : Vf) : State := { s with vfs := tput s.vfs v x }
def State.modVf (s : State) (v : Nat) (f : Vf → Vf) : State := s.setVf v (f (s.vf v))
def State.slice (s : State) (i : Nat) : Slice := tget {} s.slices i
def State.setSlice (s : State) (i : Nat) (x : Slice) : State := { s with slices := tput s.slices i x }
def State.modSlice (s : State) (i : Nat) (f : Slice → Slice) : State := s.setSlice i (f (s.slice i))
def State.pushDue (s : State) (i : Instr) : State := { s with due := s.due ++ [i] }

/-- A free value (log 5). -/
def State.freeWord (s : State) : Word × State := (Config.freeWord s.free, { s with free := s.free + 1 })
def State.freeBit (s : State) : Bool × State := ((Config.freeWord s.free).getLsbD 0, { s with free := s.free + 1 })

/-- The die, rafter and course of a hearth id (R3). -/
def dieOf (h : Nat) : Nat := if h < 192 then h / 96 else if h = 193 ∨ h = 513 then 1 else 0
def rafterOf (h : Nat) : Nat := h / 8

/-- The partition that owns a hearth (R20). -/
def State.ownerOf (s : State) (h : Nat) : Option Nat :=
  if h < 192 then (s.parts.find? fun p => p.2.alive && p.2.rafters.getLsbD (rafterOf h)).map (·.1) else none

/-! ### Registers (R51, R68) -/

/-- a0 and k0 read as zero. -/
def Ctx.reg (c : Ctx) (e : Eng) (r : Reg) : Word :=
  if r = 0 then 0 else match e with | .a => tget 0 c.a r.toNat | .x => tget 0 c.k r.toNat

/-- The 4-byte words of the register image (R52) in [o, o + n) cease to be poisoned: they are written whole (R358). -/
def cleanWords (bad : List Nat) (o n : Nat) : List Nat := bad.filter fun w => 4 * w < o || o + n < 4 * w + 4

/-- Image offsets of a register (R52). -/
def regOfs (e : Eng) (r : Reg) : Nat := (match e with | .a => 0 | .x => 0x200) + 8 * r.toNat

/-- Writes to a0 and k0 are discarded. -/
def Ctx.setReg (c : Ctx) (e : Eng) (r : Reg) (v : Word) : Ctx :=
  if r = 0 then c else match e with
  | .a => { c with a := tput c.a r.toNat v, bad := cleanWords c.bad (regOfs .a r) 8 }
  | .x => { c with k := tput c.k r.toNat v, bad := cleanWords c.bad (regOfs .x r) 8 }

def State.reg (s : State) (r : Reg) : Word := s.ctx.reg s.eng r
def State.setReg (s : State) (r : Reg) (v : Word) : State := s.setCtx (s.ctx.setReg s.eng r v)

/-- read_operand(spec, UINT64) of a class 0 or class 7 source (R49). -/
def State.src (s : State) : Src → Word
  | .reg r => s.reg r
  | .imm i => i.signExtend 64

def Ctx.breg (c : Ctx) (e : Eng) (b : Reg) : Word := tget 0 (c.es e).b b.toNat
def State.breg (s : State) (b : Reg) : Word := s.ctx.breg s.eng b
/-- Image offset of an engine's control state (R52, R80). -/
def ctlOfs : Eng → Nat | .a => 0x100 | .x => 0x400
/-- Words of the active context's image are written whole (R358). -/
def State.cleanImage (s : State) (o n : Nat) : State := s.setCtx { s.ctx with bad := cleanWords s.ctx.bad o n }
def State.setBreg (s : State) (b : Reg) (v : Word) : State :=
  (s.setEs { s.es with b := tput s.es.b b.toNat v }).cleanImage (ctlOfs s.eng + 8 * b.toNat) 8

/-! ### Slots and lines (R26, R49) -/

def isSlot (a : Word) : Bool :=
  let m := a.toNat % 64
  m == 4 || m == 16 || m == 28 || m == 40 || m == 52
def lineOf (a : Word) : Word := a &&& ~~~63#64
def slotAddr (l : Word) (k : Nat) : Word := l + 4 + BitVec.ofNat 64 (12 * k)
def signed12 (i : Int) : Int := (i + 2048) % 4096 - 2048

/-- Link word fields (R25). -/
def linkEng (l : LineWord) : BitVec 2 := l.extractLsb' 30 2
def linkNext (l : LineWord) : BitVec 18 := l.extractLsb' 12 18
def linkOrd (l : LineWord) : BitVec 12 := l.extractLsb' 0 12
/-- The slot at an address within a line (R25). -/
def slotOf (l : LineWord) (a : Word) : SlotWord := l.extractLsb' (8 * (a.toNat % 64)) 96

/-! ### Guards and predicate stacks (R36, R85) -/

/-- The lane mask of a predicate guard; none when the stack is empty (PSTACK_UNDER). A guard-slot guard is evaluated by
the receiving unit. -/
def guardMask (g : Guard) (preds : List Word) : Option Word :=
  match g with
  | .always | .slot _ => some (BitVec.allOnes 64)
  | .top => preds.head?
  | .notTop => preds.head?.map (~~~ ·)

/-- runs(e, d, m) of R49: `own` says the OP belongs to the X engine's own table. -/
def runs (e : Eng) (own : Bool) (m : Word) : Bool :=
  match e with
  | .a => m == BitVec.allOnes 64
  | .x => if own then m != 0 else m.getLsbD 0

/-! ### Taking a fault (R317, R318) and the end of an instruction (R50, R88) -/

def FaultCode.code : FaultCode → BitVec 8
  | .illegalOp => 0x01 | .reservedField => 0x02 | .badOperand => 0x03 | .privilege => 0x04 | .slotAlign => 0x05
  | .linkReserved => 0x06 | .lineEngine => 0x07 | .pstackOver => 0x08 | .pstackUnder => 0x09 | .loopCount => 0x0A
  | .loopNest => 0x0B | .guardMisuse => 0x0C | .windowMiss => 0x10 | .windowPerm => 0x11 | .windowConflict => 0x12
  | .nonresident => 0x13 | .replicaWrite => 0x14 | .linkLost => 0x15 | .ocmClosed => 0x16 | .scratchRange => 0x17
  | .align => 0x18 | .flueState => 0x20 | .flueOverrun => 0x21 | .flueMark => 0x22 | .tdesc => 0x23
  | .bellowsCrc => 0x24 | .bellowsLen => 0x25 | .bellowsCode => 0x26 | .schedMiss => 0x28 | .stampClock => 0x29
  | .tileShape => 0x2A | .launchDeadlock => 0x30 | .parkState => 0x31 | .deferFull => 0x32 | .seqState => 0x33
  | .trap => 0x38 | .machineCheck => 0x3F

/-- The order of R318 among causes that meet while a stop is in progress: the smaller number is recorded. -/
def FaultRec.rank (f : FaultRec) : Nat :=
  match f.src.toNat with
  | 0 => 0
  | 1 => 1
  | 2 => 2 + f.qent.getD 0
  | 3 => 100 + f.flue.getD 0
  | _ => 1000

/-- Of two causes that meet, the one recorded; DUAL says that both engines faulted (R318). -/
def FaultRec.meet (g f : FaultRec) : FaultRec :=
  let both := (g.src == 0 && f.src == 1) || (g.src == 1 && f.src == 0)
  { (if f.rank < g.rank then f else g) with dual := g.dual || both }

/-- Taking a fault: the hearth stops (R317). The first applicable cause of R318 is the one recorded; HEARTH_STOP, which
the stop leaves due, writes the frame and routes it. A core with no context running takes none. -/
def takeFault (s : State) (h : Nat) (f : FaultRec) : State :=
  let x := s.hearth h
  match x.run with
  | .running | .handler | .ending => (s.setHearth h { x with run := .stopping, fault := some f }).pushDue (.hearthStop h)
  | .saving | .stopping =>
    match x.fault with
    | some g => s.setHearth h { x with fault := some (g.meet f) }
    | none => s.setHearth h { x with fault := some f }
  | _ => s

/-- The outcome of an instruction's execute step (R50). -/
inductive Res where
  /-- Completed without a transfer; the end-of-slot step follows. -/
  | done (s : State)
  /-- A transfer of control. -/
  | jump (s : State) (t : Word)
  /-- Not taken effect yet: the engine stays at the instruction; `stall` is the stall of R207. -/
  | wait (s : State) (stall : Bool)
  /-- A fault; the state is as before the instruction unless its own rule says otherwise. -/
  | trap (s : State) (code : FaultCode) (addr : Word)
  /-- The instruction has set the engine's position itself. -/
  | stay (s : State)

/-- require(cond, code, addr) of R49. -/
def req (s : State) (c : Bool) (code : FaultCode) (addr : Word) (k : Res) : Res := if c then k else .trap s code addr

/-- advance(e, a) of R50 for a slot of the line being executed, or of a line whose bytes are given. -/
def advanceIn (l : LineWord) (a : Word) : Except (FaultCode × Word) Word :=
  if (a - lineOf a).toNat < 52 then .ok (a + 12)
  else if linkNext l = 0 then .error (.illegalOp, lineOf a)
  else .ok (slotAddr (lineOf a + ((linkNext l).signExtend 64 <<< 6)) 0)

def EngState.loop (x : EngState) (n : Nat) : Loop := tget {} x.loops n
def EngState.setLoop (x : EngState) (n : Nat) (l : Loop) : EngState := { x with loops := tput x.loops n l }
/-- Deactivates a loop and takes it out of the nesting order. -/
def EngState.deactivate (x : EngState) (n : Nat) : EngState :=
  { x.setLoop n { x.loop n with active := false } with nest := x.nest.filter (· != n) }

/-- Whether a pre-emption request is pending at the hearth (R95). -/
def Hearth.pending (x : Hearth) : Bool := x.req.isSome

/-- The loops that end at slot `a`, innermost first: decremented, taken back, clamped or exhausted (R88, R95). The
answer is the context and the next slot where the step names one. The REMAIN of an active loop is 0 only where software
has written it so, and the decrement then gives 2^32 - 1 (DESIGN CHOICE, log 81). -/
def loopStep (e : Eng) (pend : Bool) (a : Word) : List Nat → Ctx → Ctx × Option Word
  | [], c => (c, none)
  | n :: rest, c =>
    let l := (c.es e).loop n
    if l.active && l.stop == a then
      let rem := l.remain - 1
      let c := c.setEs e ((c.es e).setLoop n { l with remain := rem })
      let c := if l.pipe then c.setReg e l.doneReg (c.reg e l.doneReg + 1) else c
      if rem ≠ 0 then
        if l.pipe && pend && (c.es e).clamp.isNone && (c.es e).nest.head? == some n then
          let c := c.setReg e l.cntReg (rem.setWidth 64)
          (c.setEs e { (c.es e).deactivate n with clamp := some n }, none)
        else (c, some l.start)
      else loopStep e pend a rest (c.setEs e ((c.es e).deactivate n))
    else loopStep e pend a rest c

/-- The end-of-slot step of R88 and the advance of R50: the context and the next slot, or the fault of R28. -/
def endOfSlot (e : Eng) (pend : Bool) (c : Ctx) : Ctx × Except (FaultCode × Word) Word :=
  let x := c.es e
  let (c, t) := loopStep e pend x.pc x.nest c
  match t with
  | some t => (c, .ok t)
  | none => (c, advanceIn x.buf x.pc)

def engSrc : Eng → BitVec 3 | .a => 0 | .x => 1

/-- Raises the executing engine's fault. -/
def raise (s : State) (code : FaultCode) (addr : Word) : State :=
  takeFault s s.cur { code := code, addr := addr, src := engSrc s.eng }

def State.setPc (s : State) (t : Word) : State := s.setEs { s.es with pc := t }
def State.setStall (s : State) (b : Bool) : State :=
  match s.eng with
  | .a => s
  | .x => s.setMe { s.me with stall := b }

/-- What an outcome makes of the machine (R50). -/
def finish : Res → State
  | .done s =>
    let s := s.setStall false
    let (c, t) := endOfSlot s.eng s.me.pending s.ctx
    match t with
    | .ok t => (s.setCtx c).setPc t
    | .error (code, addr) => raise (s.setCtx c) code addr
  | .jump s t => (s.setStall false).setPc t
  | .wait s stall => s.setStall stall
  | .trap s code addr => raise (s.setStall false) code addr
  | .stay s => s.setStall false

/-- An instruction under its guard (R50): guard evaluation is check 6 of R39. The body gets the lane mask. -/
def underGuard (g : Guard) (own : Bool) (s : State) (body : Word → Res) : Res :=
  match guardMask g s.es.preds with
  | none => .trap s .pstackUnder s.pc
  | some m => if runs s.eng own m then body m else .done s

/-- An instruction of the tables executed by the core and engine that State names. -/
def instr (g : Guard) (own : Bool) (s : State) (body : Word → Res) : Out :=
  if s.cur < nCores then .next (finish (underGuard g own s body)) else .fault .noSuchCore

/-- One of the common range, the A table, and the X table. -/
def common (g : Guard) (s : State) (body : Res) : Out := instr g false s fun _ => body
def aInstr (g : Guard) (s : State) (body : Res) : Out := instr g false s fun _ => body
def xInstr (g : Guard) (s : State) (body : Word → Res) : Out := instr g true s body

/-- Whether a mode may do what needs a mode: each includes the ones below it, T, S, H (R23, R44). -/
def Mode.allows : Mode → Mode → Bool
  | .t, need => need == .t
  | .s, need => need != .h
  | .h, _ => true

/-- The mode that a MOVF or MOVS of a register requires (R59). -/
def readMode (n : Nat) : Mode := if n = 0x040 then .s else .t
def writeMode (n : Nat) : Mode := if n = 0x011 ∨ n = 0x012 then .s else .t

/-- The mode that an instruction requires (R44, R60). -/
def needMode : Instr → Mode
  | .movs _ _ n => writeMode n.toNat
  | .movf _ _ n => readMode n.toNat
  | .sret .. | .snap .. | .winld .. => .s
  | _ => .t

/-- PRIVILEGE is check 5 of R39, before the guard (R44, R60). -/
def privileged (g : Guard) (need : Mode) (s : State) (body : Res) : Out :=
  if s.cur < nCores then
    .next (finish (if s.me.mode.allows need then underGuard g false s fun _ => body else .trap s .privilege s.pc))
  else .fault .noSuchCore

/-- Pushes onto the engine's predicate stack (R85). -/
def pushPred (s : State) (m : Word) : Res :=
  if s.es.preds.length = 16 then .trap s .pstackOver s.pc
  else
    let s := s.setEs { s.es with preds := m :: s.es.preds }
    .done (match s.eng with
      | .a => s
      | .x => s.cleanImage (ctlOfs .x + 0x100 + 8 * (s.es.preds.length - 1)) 8)

/-! ### Scratchpad -/

def scratchSize : Nat := 2097152

/-- Tags of the blocks a write reaches (R330). -/
def retag (x : Hearth) (a n : Nat) : Hearth :=
  if n = 0 then x
  else (List.range ((a + n - 1) / 1024 - a / 1024 + 1)).foldl (fun x i =>
    let b := a / 1024 + i
    let t := tget 0 x.tags b
    if t ≠ 0 ∧ t ≠ x.act.ctxid then { x with tags := tdel x.tags b } else x) x

/-- The blocks that a write reaches join the dirty ones (R329). -/
def addBlocks (d : List Nat) (a n : Nat) : List Nat :=
  if n = 0 then d
  else (List.range ((a + n - 1) / 1024 - a / 1024 + 1)).foldl (fun d i =>
    if d.contains (a / 1024 + i) then d else d ++ [a / 1024 + i]) d

def waitMet (c : WaitCond) (w v : Word) : Bool :=
  match c with
  | .eq => w == v
  | .ne => w != v
  | .ge => v.toNat ≤ w.toNat
  | .lt => w.toNat < v.toNat

/-- A waiting engine observes a write to its word: WAITW the first that satisfies its condition, BARWAIT the latest flip
(R181, R182). -/
def Watch.see (old new : Memory) (w : Watch) : Watch :=
  let v := BitVec.ofNat 64 (mrd new w.addr 8)
  if w.bar then if bits v.toNat 40 1 = bits (mrd old w.addr 8) 40 1 then w else { w with met := some v }
  else if w.met.isNone && waitMet w.cond v w.cmp then { w with met := some v }
  else w

/-- Bytes written to a hearth's scratchpad; a write of a whole word clears its poison mark (R358). -/
def Hearth.writeScratch (x : Hearth) (a : Nat) (l : List Byte) : Hearth :=
  let x := retag x a l.length
  let m := mwrite x.scratch a l
  { x with scratch := m, poison := x.poison.filter fun p => 4 * p < a || a + l.length < 4 * p + 4
           dirty := addBlocks x.dirty a l.length, watchA := x.watchA.map (·.see x.scratch m)
           watchX := x.watchX.map (·.see x.scratch m) }

/-- Several pieces written as one access: a word that they cover together is a whole one, and a waiting engine observes
the memory after all of them (R77, R181, R182). -/
def Hearth.writePieces (x : Hearth) (l : List (Nat × List Byte)) : Hearth :=
  let y := l.foldl (fun x p => x.writeScratch p.1 p.2) x
  let covered (b : Nat) : Bool := l.any fun p => p.1 ≤ b && b < p.1 + p.2.length
  { y with poison := (x.poison.filter fun p => !((List.range 4).all fun k => covered (4 * p + k)))
           watchA := x.watchA.map (·.see x.scratch y.scratch), watchX := x.watchX.map (·.see x.scratch y.scratch) }

def Hearth.readScratch (x : Hearth) (a n : Nat) : Nat := mrd x.scratch a n

def widthBytes : Width → Nat
  | .w8 | .s8 => 1 | .w16 | .s16 => 2 | .w32 | .s32 => 4 | .w64 => 8

/-- The value loaded at a width code (R41). -/
def extendWidth (w : Width) (v : Nat) : Word :=
  match w with
  | .s8 | .s16 | .s32 => BitVec.ofInt 64 (sextNat (8 * widthBytes w) v)
  | _ => BitVec.ofNat 64 v

/-- The address of LDS, STS, VLD and VST as a mathematical integer (R76, R188). -/
def State.scratchAddr (s : State) (m : MemOp) : Int :=
  ((s.reg m.base).toNat : Int) + (s.reg m.index).toNat * 2 ^ m.scl.toNat + m.ofs.toInt

def addrWord (a : Int) : Word := BitVec.ofInt 64 a

/-- The address of LDG, STG, STM and ACC, modulo 2^64 (R241). -/
def State.memAddr (s : State) (m : MemOp) : Word :=
  s.reg m.base + (s.reg m.index <<< m.scl.toNat) + m.ofs.signExtend 64

/-- The checks of a scratchpad operand: SCRATCH_RANGE, then ALIGN (R76). -/
def scratchReq (s : State) (a : Int) (n align : Nat) (k : Nat → Res) : Res :=
  if 0 ≤ a ∧ a + n ≤ scratchSize then
    req s (a.toNat % align == 0) .align (addrWord a) (k a.toNat)
  else .trap s .scratchRange (addrWord a)

/-- A read of a poisoned scratchpad word raises MACHINE_CHECK (R358). -/
def poisoned (x : Hearth) (a n : Nat) : Bool := x.poison.any fun p => a / 4 ≤ p && p ≤ (a + n - 1) / 4

/-- The scratchpad offset of the poisoned word that a read of [a, a + n) meets: its LOC in the error log (R360). -/
def poisonOfs (x : Hearth) (a n : Nat) : Nat := 4 * ((x.poison.find? fun p => a / 4 ≤ p && p ≤ (a + n - 1) / 4).getD 0)

end Sys2Proof.Machine
end

