-- ==== Sys2Proof/Machine/FlueOps.lean ====
section
/-!
DEFINITION. Flue counters, hold points, marks, claims, publishes, reads and frees (06 R120-R137), the tail and head words
of a remote flue (R127), and scratchpad writes that may touch a tail word.
-/
set_option autoImplicit false

namespace Sys2Proof.Machine

def Ctx.flue (c : Ctx) (n : Nat) : Flue := tget {} c.flues n
def Ctx.setFlue (c : Ctx) (n : Nat) (f : Flue) : Ctx := { c with flues := tput c.flues n f }
def Hearth.flue (x : Hearth) (n : Nat) : Flue := x.act.flue n

def Flue.slotBytes (f : Flue) : Nat := 64 * 2 ^ f.ss.toNat
def Flue.slots (f : Flue) : Nat := 2 ^ f.cc.toNat
def Flue.ring (f : Flue) : Nat := f.slotBytes * f.slots
/-- The scratchpad address of position p's slot (R121, R122). -/
def Flue.slotAddr (f : Flue) (p : BitVec 32) : Nat := f.base.toNat + f.slotBytes * (p.toNat % f.slots)
/-- The flue's region [lo, hi) (R121). -/
def Flue.lo (f : Flue) : Nat := if f.kind = 4 then f.base.toNat - 16 else f.base.toNat
def Flue.hi (f : Flue) : Nat := f.base.toNat + f.ring + (if f.restart then 0 else f.ring / 32)

/-- x earlier than y (R122). -/
def earlier (x y : BitVec 32) : Bool := 1 ≤ (y - x).toNat && (y - x).toNat < 2 ^ 31
def earliest (x y : BitVec 32) : BitVec 32 := if earlier y x then y else x

def Flue.mark (f : Flue) (m : BitVec 2) : BitVec 32 :=
  match m.toNat with | 0 => f.mark0 | 1 => f.mark1 | 2 => f.mark2 | _ => f.mark3
def Flue.markMode (f : Flue) (m : BitVec 2) : Nat := bits f.mmode.toNat (2 * m.toNat) 2
def Flue.setMark (f : Flue) (m : BitVec 2) (mode : Nat) (p : BitVec 32) : Flue :=
  let mm := BitVec.ofNat 8 (f.mmode.toNat - f.markMode m * 4 ^ m.toNat + mode * 4 ^ m.toNat)
  let f := { f with mmode := mm }
  match m.toNat with
  | 0 => { f with mark0 := p } | 1 => { f with mark1 := p } | 2 => { f with mark2 := p } | _ => { f with mark3 := p }

/-- A reader's hold point: the earlier of its HEAD and its pinned marks (R122). -/
def Flue.hold (f : Flue) : BitVec 32 :=
  [0#2, 1#2, 2#2, 3#2].foldl (fun p m => if f.markMode m = 1 then earliest p (f.mark m) else p) f.head

/-- The primary of a flue. -/
def Ctx.primary (c : Ctx) (n : Nat) : Nat := if (c.flue n).fork then (c.flue n).peer.toNat else n

/-- hold_min over the readers of a primary's ring (R122). -/
def Ctx.holdMin (c : Ctx) (p : Nat) : BitVec 32 :=
  let f := c.flue p
  if f.forked then earliest f.hold (c.flue f.peer.toNat).hold else f.hold

/-- Free slots of a primary (R122). -/
def Ctx.freeSlots (c : Ctx) (p : Nat) : Nat :=
  (c.flue p).slots - ((c.flue p).claim - c.holdMin p).toNat

/-- Full slots before a reader (R122): TAIL of the primary less the reader's READ. -/
def Ctx.fullSlots (c : Ctx) (n : Nat) : Nat := ((c.flue (c.primary n)).tail - (c.flue n).read).toNat

/-- The hearth writes hold_min of a kind 4 flue into the head word when it differs from `old`, its value before (R127).
-/
def Hearth.syncHead (x : Hearth) (p : Nat) (old : BitVec 32) : Hearth :=
  let f := x.flue p
  if f.opened && f.kind == 4 && x.act.holdMin p != old then
    x.writeScratch (f.base.toNat - 8) (leBytes 8 (x.act.holdMin p).toNat)
  else x

/-- The bytes of n slots of a ring from a position on. -/
def Hearth.slotsFrom (x : Hearth) (p : Flue) (first : BitVec 32) (n : Nat) : List Byte :=
  (List.range n).flatMap fun k => mbytes x.scratch (p.slotAddr (first + BitVec.ofNat 32 k)) p.slotBytes

/-- The poisoned scratchpad word that a read of those slots meets (R358). -/
def Hearth.slotsBad (x : Hearth) (p : Flue) (first : BitVec 32) (n : Nat) : Option Nat :=
  ((List.range n).find? fun k => poisoned x (p.slotAddr (first + BitVec.ofNat 32 k)) p.slotBytes).map fun k =>
    poisonOfs x (p.slotAddr (first + BitVec.ofNat 32 k)) p.slotBytes

/-- Before the hold point of primary p's ring moves to `m`, a queued TLD takes the bytes of those of its slots that this
frees: every read of a slot precedes what its freeing lets the producer write (R133). What its other slots hold it reads
in its last cycle (R206). -/
def Hearth.latchReads (x : Hearth) (p : Nat) (m : BitVec 32) : Hearth :=
  let f := x.flue p
  { x with matq := x.matq.map fun c => match c.instr with
    | .tld _ _ r =>
      let first := c.pos - BitVec.ofNat 32 c.slots
      let had := c.data.length / f.slotBytes
      let freed := min c.slots (m - first).toInt.toNat
      if x.act.primary r.toNat = p ∧ had < freed then
        let from_ := first + BitVec.ofNat 32 had
        { c with data := c.data ++ x.slotsFrom f from_ (freed - had), bad := c.bad <|> x.slotsBad f from_ (freed - had) }
      else c
    | _ => c }

/-- The hearth with the flue records of `c`, which differ from its own in the ring of primary p alone. -/
def Hearth.withFlues (x : Hearth) (c : Ctx) (p : Nat) : Hearth :=
  { x.latchReads p (c.holdMin p) with act := c }.syncHead p (x.act.holdMin p)

def Hearth.setFlue (x : Hearth) (n : Nat) (f : Flue) : Hearth :=
  let c := x.act.setFlue n f
  x.withFlues c (c.primary n)

/-- Residency bits of n slots from position p set to 1 (R125, R126); only in ZERO mode is there a map. -/
def Hearth.setResident (x : Hearth) (n : Nat) (p : BitVec 32) (k : Nat) : Hearth :=
  let f := x.flue n
  if f.restart then x
  else (List.range (min k f.slots)).foldl (fun x i =>
    let idx := (p + BitVec.ofNat 32 i).toNat % f.slots
    let a := f.base.toNat + f.ring + idx * (f.slotBytes / 32)
    x.writeScratch a (List.replicate (f.slotBytes / 32) 0xFF)) x

/-- Sets the residency bit of each cell of ring bytes [a, a + n) of a ZERO-mode flue to b (R121, R134). -/
def Hearth.setCells (x : Hearth) (n : Nat) (a len : Nat) (b : Bool) : Hearth :=
  let f := x.flue n
  if f.restart || len = 0 then x
  else (List.range ((a + len - 1) / 4 - a / 4 + 1)).foldl (fun x i =>
    let cell := a / 4 + i
    let at_ := f.base.toNat + f.ring + cell / 8
    let old := mget x.scratch at_
    let bit := 1#8 <<< (cell % 8)
    x.writeScratch at_ [if b then old ||| bit else old &&& ~~~bit]) x

/-- Publishes k slots of a primary (R122, R126). -/
def Hearth.publish (x : Hearth) (n k : Nat) : Hearth :=
  x.setFlue n { x.flue n with tail := (x.flue n).tail + BitVec.ofNat 32 k }
def Hearth.claimSlots (x : Hearth) (n k : Nat) : Hearth :=
  x.setFlue n { x.flue n with claim := (x.flue n).claim + BitVec.ofNat 32 k }

/-- A unit reader frees k slots as it finishes them (R129). -/
def Hearth.consume (x : Hearth) (n k : Nat) : Hearth :=
  let f := x.flue n
  let r := f.read + BitVec.ofNat 32 k
  x.setFlue n { f with read := r, head := r }

/-- The commit of an X read of k slots (R128). -/
def Hearth.commitRead (x : Hearth) (n k : Nat) : Hearth :=
  let f := x.flue n
  let r := f.read + BitVec.ofNat 32 k
  x.setFlue n { f with read := r, head := if f.auto then (if f.restart then r else r - 1) else f.head }

/-- The AUTO step at the end of a TLD whose last slot ends at p (R214). -/
def Hearth.autoRelease (x : Hearth) (n : Nat) (p : BitVec 32) : Hearth :=
  let f := x.flue n
  if !f.auto || !f.opened then x
  else
    let h := if f.restart then p else p - 1
    let h := if earlier f.read h then f.read else h
    if earlier f.head h then x.setFlue n { f with head := h } else x

/-- Writes the bytes of an X result into the slot at CLAIM, zero-fills and publishes it (R125). -/
def Hearth.produceX (x : Hearth) (n : Nat) (l : List Byte) : Hearth :=
  let f := x.flue n
  let pos := f.claim
  let x := x.writeScratch (f.slotAddr pos) (l ++ List.replicate (f.slotBytes - l.length) 0)
  let x := x.setFlue n { f with fed := 2, claim := pos + 1, tail := pos + 1 }
  x.setResident n pos 1

/-- The open kind 4 primaries whose tail word a write of [a, a + n) touches (R127). -/
def Hearth.tailTouched (x : Hearth) (a n : Nat) : List Nat :=
  (List.range 32).filter fun i =>
    let f := x.flue i
    f.opened && !f.fork && f.kind == 4 && a < f.base.toNat - 8 && f.base.toNat - 16 < a + n

/-- A publish through a tail word (R127): none when the new tail overruns. -/
def Hearth.tailPublish (x : Hearth) (n : Nat) : Option Hearth :=
  let f := x.flue n
  let v := BitVec.ofNat 32 (x.readScratch (f.base.toNat - 16) 4)
  let k := (v - f.tail).toNat
  if x.act.freeSlots n < k then none
  else
    let old := f.tail
    some ((x.setFlue n { f with tail := v, claim := v }).setResident n old k)

/-- The hearth with its halves exchanged: as the flues of the stopped context beside a handler see it. -/
def Hearth.flip (x : Hearth) : Hearth := { x with act := x.ina, ina := x.act }

/-- The publishes that a write of regions (address, length), which has been made, causes in the active context. -/
def Hearth.publishTails (x : Hearth) (l : List (Nat × Nat)) : Except Nat Hearth :=
  (l.flatMap fun p => x.tailTouched p.1 p.2).eraseDups.foldl (fun r k =>
    match r with
    | .error e => .error e
    | .ok y => match y.tailPublish k with | some z => .ok z | none => .error k) (.ok x)

/-- A scratchpad write of several pieces as one access, with the publishes it causes (R127): the flue that overruns, or
the hearth after it. The flues of a stopped context beside a handler are filled meanwhile too; their overrun is the
hearth's fault as it runs (log 94). -/
def Hearth.storeAll (x : Hearth) (l : List (Nat × List Byte)) : Except Nat Hearth :=
  let places := l.map fun p => (p.1, p.2.length)
  match (x.writePieces l).publishTails places with
  | .error e => .error e
  | .ok y =>
    if y.serves = .stopped then
      match y.flip.publishTails places with
      | .error e => .error e
      | .ok z => .ok z.flip
    else .ok y

/-- A scratchpad write of one piece. -/
def Hearth.store (x : Hearth) (a : Nat) (l : List Byte) : Except Nat Hearth := x.storeAll [(a, l)]

/-- A scratchpad write by a unit or another hearth; an overrun is the flue's fault (R127, R318), and the bytes stay
written (log 72). -/
def storeAt (s : State) (h a : Nat) (l : List Byte) : State :=
  match (s.hearth h).store a l with
  | .ok x => s.setHearth h x
  | .error n =>
    takeFault (s.setHearth h ((s.hearth h).writeScratch a l)) h
      { code := .flueOverrun, addr := BitVec.ofNat 64 n, src := 3, flue := some n }

/-! ### The stall of the execute side (R207) -/

/-- No pending guard slot holds the instruction at which the X engine waits (R205). -/
def Hearth.unbound (x : Hearth) : Bool := match x.act.xbind with | none | some (_, some true) => true | _ => false

/-- The X engine waits to read flue n (R128, R205). -/
def Hearth.awaits (x : Hearth) (n : Nat) : Bool := x.stall && x.unbound && x.stallOn.reads.any fun r => r.1 == n

/-- The X engine waits on flues alone: every other condition of its wait holds, and some flue that it reads has too few
full slots, or the one it writes too few free ones once the reads are committed (R207). -/
def Hearth.stalled (x : Hearth) : Bool :=
  let w := x.stallOn
  let unread := w.reads.any fun r => x.act.fullSlots r.1 < r.2 || x.act.taken.any fun t => t.1 == r.1
  let unwritten := w.dest.any fun d => (w.reads.foldl (fun y r => y.commitRead r.1 r.2) x).act.freeSlots d.1 < d.2
  x.stall && (!w.entry || x.matq.length < 4) && x.unbound && (unread || unwritten)

/-- The wait of an X instruction whose flue needs are `w`. -/
def waitOn (s : State) (w : StallOn) : Res := .wait (s.setMe { s.me with stallOn := w }) true

/-! ### Barrier objects (R171, R172) -/

structure Barrier where
  pending : Int
  phase : Bool
  err : Bool
  armed : Nat

/-- The barrier object at an address; its reserved bits are ignored (DESIGN CHOICE, log 91). -/
def readBarrier (m : Memory) (a : Nat) : Barrier :=
  let w := mrd m a 8
  { pending := sextNat 40 w, phase := bits w 40 1 == 1, err := bits w 41 1 == 1, armed := mrd m (a + 8) 8 % 2 ^ 40 }

/-- The bytes of a barrier object, whose reserved bits are written as zero (DESIGN CHOICE, log 91). -/
def barrierBytes (b : Barrier) : List Byte :=
  leBytes 8 (wrap 40 b.pending + (if b.phase then 2 ^ 40 else 0) + (if b.err then 2 ^ 41 else 0)) ++ leBytes 8 b.armed

/-- The flip by reaching zero (R172). -/
def Barrier.settle (b : Barrier) : Barrier :=
  if wrap 40 b.pending = 0 ∧ b.armed ≠ 0 then { pending := 0, phase := !b.phase, err := false, armed := 0 } else b

def Barrier.credit (b : Barrier) (n : Nat) : Barrier := { b with pending := b.pending - n }.settle

/-- BARARM of a signed 40-bit adjustment (R172, R180). -/
def Barrier.arm (b : Barrier) (n : Int) : Barrier :=
  if n < 0 then { pending := 0, phase := !b.phase, err := true, armed := 0 }
  else if n = 0 then b
  else { b with pending := b.pending + n, armed := wrap 40 (b.armed + n) }.settle

/-- A credit of n bytes to the barrier at address a of hearth h's scratchpad (R172); it reads the barrier, and `stop` is
what a poisoned word there, at its offset, makes of it (R358). -/
def creditAt (s : State) (h a n : Nat) (stop : State → Nat → State) : State :=
  if n = 0 then s
  else if poisoned (s.hearth h) a 16 then stop s (poisonOfs (s.hearth h) a 16)
  else storeAt s h a (barrierBytes ((readBarrier (s.hearth h).scratch a).credit n))

end Sys2Proof.Machine
end

