-- ==== Sys2Proof/Machine/Trans.lean ====
section
/-!
DEFINITION. Translation through the window table and stage 2 (10 R224-R233), reads of memory by copy (R233), the phase
cache and held stores (11 R249-R253), phase boundaries, and sending operations to the home slices (12 R265).
-/
set_option autoImplicit false

namespace Sys2Proof.Machine

/-! ### The window table (R227, R228) -/

/-- A window entry, unpacked from its sixteen bytes (R227). -/
structure WinEnt where
  size : Nat
  r : Bool
  w : Bool
  x : Bool
  nr : Bool
  rep : Bool
  vbase : Nat
  gbase : Nat
  deriving DecidableEq, Repr

/-- Bytes of a SIZE code. -/
def winBytes : Nat → Nat
  | 1 => 65536 | 2 => 2097152 | 3 => 1073741824 | _ => 0

def winEnt (e : BitVec 128) : WinEnt :=
  { size := (e.extractLsb' 0 2).toNat, r := e.getLsbD 2, w := e.getLsbD 3, x := e.getLsbD 4, nr := e.getLsbD 5
    rep := e.getLsbD 6, vbase := (e.extractLsb' 16 32).toNat * 65536, gbase := (e.extractLsb' 80 30).toNat * 65536 }

def WinEnt.hit (e : WinEnt) (a : Nat) : Bool := e.size != 0 && e.vbase ≤ a && a < e.vbase + winBytes e.size

/-- The entry used for a DVA: the smallest that matches (R228). An address above 48 bits matches none (R224). -/
def lookupWin (t : Tbl (BitVec 128)) (a : Word) : Option WinEnt :=
  if 2 ^ 48 ≤ a.toNat then none
  else
    let hits := (t.map fun p => winEnt p.2).filter fun e => e.hit a.toNat
    hits.foldl (fun b e => match b with
      | none => some e
      | some c => if e.size < c.size then some e else b) none

/-! ### Stage 2 (R225, R232, R233) -/

def frameSize : Nat := 2097152
def hbmFrames : Nat := 91552

/-- A frame number that names memory (R225). -/
def frameOk (f : Nat) : Bool := f / 2 ^ 21 < 2 && f % 2 ^ 21 < hbmFrames

/-- The number under which the cores of H mode address host frames. -/
def hostPart : Nat := 24

/-- The entry of a guest frame, when the frame exists. -/
def State.stage2 (s : State) (p g : Nat) : Option S2Ent :=
  if p = hostPart then (if frameOk g then some { v := true, frame := BitVec.ofNat 25 g } else none)
  else match (s.part p).s2[g]? with
  | some e => if e.v then some e else none
  | none => none

/-- The 16 bytes of an entry (R232). -/
def S2Ent.bytes (e : S2Ent) : List Byte :=
  leBytes 8 (e.v.toNat + 2 * e.nr.toNat + 4 * e.repd0.toNat + 8 * e.repd1.toNat + 16 * e.remote.toNat + 32 * e.pend.toNat
      + 2 ^ 8 * e.peer.toNat + 2 ^ 21 * e.frame.toNat)
    ++ leBytes 8 (e.rframe0.toNat + 2 ^ 23 * e.rframe1.toNat)

/-- Entry g as it stands goes into the partition's array in HBM, at base + 16 g (R232). -/
def State.storeStage2 (s : State) (p g : Nat) : State :=
  match (s.part p).s2base, (s.part p).s2[g]? with
  | some b, some e => { s with mem := mwrite s.mem (b + 16 * g) e.bytes }
  | _, _ => s

def State.setStage2 (s : State) (p g : Nat) (f : S2Ent → S2Ent) : State :=
  (s.modPart p fun x => { x with s2 := lmod x.s2 g f }).storeStage2 p g

def S2Ent.hasReplica (e : S2Ent) : Bool := e.repd0 || e.repd1
/-- A frame whose plain stores raise REPLICA_WRITE: from step 2 of R235 on. -/
def S2Ent.replicated (e : S2Ent) : Bool := e.hasReplica || e.building
def S2Ent.repOn (e : S2Ent) (d : Nat) : Bool := if d = 0 then e.repd0 else e.repd1
def S2Ent.rframe (e : S2Ent) (d : Nat) : Nat := if d = 0 then e.rframe0.toNat else e.rframe1.toNat
/-- Host physical address of a byte of the home copy. -/
def S2Ent.home (e : S2Ent) (gpa : Nat) : Nat := e.frame.toNat * frameSize + gpa % frameSize
/-- Host physical addresses of the byte in every valid replica. -/
def S2Ent.replicas (e : S2Ent) (gpa : Nat) : List Nat :=
  [0, 1].filterMap fun d => if e.repOn d then some (e.rframe d * frameSize + gpa % frameSize) else none

/-- A partition's route to a peer (R350). -/
def State.routeTo (s : State) (p peer : Nat) : Option Route :=
  ((s.part p).routes.find? fun r => r.1 == peer).map (·.2)

/-- The ports of a route that are up. -/
def State.workingPorts (s : State) (r : Route) : List Nat :=
  (List.range 12).filter fun i => r.ports.getLsbD i && !s.fab.portDown.contains i

/-- A partition's route to a peer stands: attested, over a port that is up (R350). -/
def State.routed (s : State) (p peer : Nat) : Bool :=
  match s.routeTo p peer with
  | some r => r.up && !(s.workingPorts r).isEmpty
  | none => false

/-- An invalidation has ended a partition's route to a peer (R239). -/
def State.lostTo (s : State) (p peer : Nat) : Bool := s.fab.lost.contains (256 * p + peer)

/-- The peer's home is reachable: routed, or still within the 17,000 cycles after the loss of its route, in which
accesses may complete; never after the invalidation (R239, R350). -/
def State.peerUp (s : State) (p peer : Nat) : Bool :=
  !s.lostTo p peer && (s.routed p peer || ((s.routeTo p peer).isSome && s.fab.losing.any fun q => q.1 == peer))

/-- The port by which an access to a line leaves to a peer (R350, log 74). -/
def State.portFor (s : State) (p peer line : Nat) : Nat :=
  match s.routeTo p peer with
  | some r => (s.workingPorts r).getD (Config.portChoice line % max 1 (s.workingPorts r).length) 0
  | none => 0

/-- The home slice of a host physical line (R225); a peer's slices stand at 64 + peer. -/
def sliceOf (hpa : Nat) : Nat := bits hpa 42 2 * 32 + (bits hpa 6 5 ^^^ bits hpa 21 5)
/-- The HBM channel of a host physical line (R13, R225). -/
def channelOf (hpa : Nat) : Nat := 4 * sliceOf hpa + (bits hpa 11 2 ^^^ bits hpa 26 2)

/-- The crossing link of the ridge for a packet to an id: the id modulo 16, or the next higher working link (R17). -/
def ridgeLink (working : BitVec 16) (id : Nat) : Option Nat :=
  ((List.range 16).map fun k => (id + k) % 16).find? working.getLsbD

/-- A translated access: the guest physical address, its partition, and the stage-2 entry. -/
structure Trn where
  gpa : Nat
  part : Nat
  ent : S2Ent

/-- What an access asks of translation (R228, R241). -/
inductive Need where
  | read | write | multicast | both | exec | any
  deriving DecidableEq, Repr

def Need.ok : Need → WinEnt → Bool
  | .read, e => e.r
  | .write, e | .multicast, e => e.w
  | .both, e => e.r && e.w
  | .exec, e => e.x
  | .any, e => e.r || e.w || e.x

/-- Loads and fetches read a replica on their own die; every other access uses the home copy (R233). Code fetch, LDL and
WINLD's image read count as loads here (DESIGN CHOICE, log 106). -/
def Need.readsReplica : Need → Bool | .read | .exec => true | _ => false

/-- The checks of R241 after the alignment, in their order, for an access on a die; a frame of a lost peer raises
LINK_LOST (R239). `part` is the partition whose stage 2 translates. -/
def translateIn (s : State) (die : Nat) (win : Tbl (BitVec 128)) (part : Nat) (need : Need) (a : Word) :
    Except FaultCode Trn :=
  match lookupWin win a with
  | none => .error .windowMiss
  | some e =>
    if !need.ok e then .error .windowPerm
    else
      let gpa := e.gbase + (a.toNat - e.vbase)
      match s.stage2 part (gpa / frameSize) with
      | none => .error .windowPerm
      | some f =>
        if f.remote && s.lostTo part f.peer.toNat then .error .linkLost
        else if need != .any && e.nr && f.nr then .error .nonresident
        else if (need == .write || need == .both) && e.rep && f.replicated then .error .replicaWrite
        else if f.remote && !s.peerUp part f.peer.toNat then .error .linkLost
        else if need.readsReplica && f.repOn die then
          if frameOk (f.rframe die) then .ok { gpa := gpa, part := part, ent := f } else .error .machineCheck
        else if !f.remote && !frameOk f.frame.toNat then .error .machineCheck
        else if need == .multicast && [0, 1].any (fun d => f.repOn d && !frameOk (f.rframe d)) then .error .machineCheck
        else .ok { gpa := gpa, part := part, ent := f }

/-- A poisoned word of the window entry that matches an address (R358). -/
def winPoison (x : Hearth) (a : Word) : Option Nat :=
  x.winBad.find? fun w => x.win.any fun p => p.1 == w / 4 && (winEnt p.2).hit a.toNat

/-- An access of a core in H mode: its address is a host physical one, which nothing translates (R23, R224). An address
that names no memory is MACHINE_CHECK, as R225 has it of a frame (DESIGN CHOICE, log 25). -/
def untranslated (a : Word) : Except FaultCode Trn :=
  let g := a.toNat / frameSize
  if frameOk g then .ok { gpa := a.toNat, part := hostPart, ent := { v := true, frame := BitVec.ofNat 25 g } }
  else .error .machineCheck

/-- Translation for a hearth: its own table and its partition's stage 2. A hearth of no partition has no valid frame.
The cores that run in H mode reach every byte of the package at its host address (R23, R224, log 25). -/
def translate (s : State) (h : Nat) (need : Need) (a : Word) : Except FaultCode Trn :=
  if 192 ≤ h then untranslated a
  else if (winPoison (s.hearth h) a).isSome then .error .machineCheck
  else match s.ownerOf h with
  | some p => translateIn s (dieOf h) (s.hearth h).win p need a
  | none => match lookupWin (s.hearth h).win a with | none => .error .windowMiss | some _ => .error .windowPerm

/-- The partition whose stage 2 translates for a core; a core of no partition has that of no existing one. -/
def State.guestOf (s : State) (h : Nat) : Nat := if 192 ≤ h then hostPart else (s.ownerOf h).getD (hostPart + 1)

/-! ### Error log (R360) and its snapshot trigger (R332) -/

/-- A trigger raised now: merged into a latch that is still to come, else a new one. -/
def trigger (s : State) (tag : Option (BitVec 16)) : State × Word :=
  match s.snap with
  | some t =>
    match tag with
    | some g => ({ s with snap := some (if t.bySnap then t else { t with tag := g, bySnap := true }) }, t.at_)
    | none => (s, t.at_)
  | none =>
    let at_ : Word := 256 * (s.dcc / 256 + 2)
    ({ s with snap := some { at_ := at_, tag := tag.getD 0, bySnap := tag.isSome } }, at_)

/-- Writes an error-log entry on a die's log and gives its index; an entry that the hob selects triggers a snapshot. -/
def logError (s : State) (die : Nat) (kind array : Byte) (unit : Nat) (synd : Nat) (loc : Nat) (ctxid : Word) :
    State × Nat :=
  let e := [kind, array] ++ leBytes 2 unit ++ leBytes 4 synd ++ leBytes 8 loc ++ leBytes 8 ctxid.toNat
    ++ leBytes 8 s.dcc.toNat
  let tail := if die = 0 then s.pw.eltail0 else s.pw.eltail1
  let idx := (if die = 0 then 0 else 4096) + tail.toNat % 4096
  let pw := { s.pw with log := tput s.pw.log idx e }
  let pw := if die = 0 then { pw with eltail0 := tail + 1 } else { pw with eltail1 := tail + 1 }
  ({ s with pw := pw, snap := if Config.selectsError e then (trigger s none).1.snap else s.snap }, idx)

/-- The host address at which a guest address stands in the copy whose frame names no memory (R225): of the die's own
replica, else of the home copy, else of another replica. -/
def badPlace (s : State) (die part gpa : Nat) : Nat :=
  match s.stage2 part (gpa / frameSize) with
  | some f =>
    let rep (d : Nat) : List Nat := if f.repOn d then [f.rframe d] else []
    let l := rep die ++ (if f.remote then [] else [f.frame.toNat]) ++ rep 0 ++ rep 1
    ((l.find? (!frameOk ·)).getD 0) * frameSize + gpa % frameSize
  | none => gpa

/-- The host address that an access of a core with a bad frame names (R224, R225). -/
def badAccess (s : State) (h : Nat) (a : Word) : Nat :=
  if 192 ≤ h then a.toNat
  else match lookupWin (s.hearth h).win a with
    | some e => badPlace s (dieOf h) (s.guestOf h) (e.gbase + (a.toNat - e.vbase))
    | none => a.toNat

/-- The error-log entry of an access to a frame that names no memory: LOC is the host address (R225, R360, log 35). -/
def logFrame (s : State) (h loc : Nat) : State × Nat :=
  logError s (dieOf h) 2 0 h 0 loc (s.hearth h).act.ctxid

/-- The error-log entry of a translation's MACHINE_CHECK: poison of the window entry consumed, or a frame number that
names no memory (R225, R316, R358). -/
def logTrn (s : State) (h : Nat) (a : Word) : State × Nat :=
  match if h < 192 then winPoison (s.hearth h) a else none with
  | some w => logError s (dieOf h) 3 4 h 0 (4 * w) (s.hearth h).act.ctxid
  | none => logFrame s h (badAccess s h a)

/-- A fault of a translation by the executing engine. -/
def trapTrn (s : State) (c : FaultCode) (a : Word) : Res :=
  match c with
  | .machineCheck =>
    let (s, i) := logTrn s s.cur a
    .trap s .machineCheck (BitVec.ofNat 64 i)
  | c => .trap s c a

/-- The die and the UNIT of an error-log entry (R360): a home slice for HBM lines (array 0) and for its own SRAM, the
hearth whose scratchpad a read over the on-chip map meets, else the hearth itself. -/
def errorUnit (h : Nat) (array : Byte) (loc : Nat) (unit : Option Nat) : Nat × Nat :=
  match unit with
  | some i => (if array = 2 then dieOf i else i / 32, i)
  | none => if array = 0 then (sliceOf loc / 32, sliceOf loc) else (dieOf h, h)

/-- A read of a poisoned word or line by the executing engine (R358): logged as poison consumed. `unit` is the home
slice or the other hearth whose SRAM it is. -/
def poisonTrap (s : State) (array : Byte) (loc : Nat) (unit : Option Nat := none) : Res :=
  let (die, unit) := errorUnit s.cur array loc unit
  let (s, i) := logError s die 3 array unit 0 loc s.ctx.ctxid
  .trap s .machineCheck (BitVec.ofNat 64 i)

/-- The same by a unit of hearth `h`. -/
def poisonFault (s : State) (h : Nat) (array : Byte) (loc : Nat) (src : BitVec 3) (qent flue : Option Nat)
    (unit : Option Nat := none) : State :=
  let (die, unit) := errorUnit h array loc unit
  let (s, i) := logError s die 3 array unit 0 loc (s.hearth h).act.ctxid
  takeFault s h { code := .machineCheck, addr := BitVec.ofNat 64 i, src := src, qent := qent, flue := flue }

/-- A fault of a unit at an address. -/
def unitFault (s : State) (h : Nat) (c : FaultCode) (a : Word) (src : BitVec 3) (qent flue : Option Nat) : State :=
  match c with
  | .machineCheck =>
    let (s, i) := logTrn s h a
    takeFault s h { code := c, addr := BitVec.ofNat 64 i, src := src, qent := qent, flue := flue }
  | c => takeFault s h { code := c, addr := a, src := src, qent := qent, flue := flue }

/-! ### Reading memory (R233, R246) -/

/-- `n` bytes of free values (log 5), eight to a draw. -/
def freeBytes : State → Nat → List Byte × State
  | s, n => (List.range ((n + 7) / 8)).foldl (fun (acc : List Byte × State) _ =>
      let (w, s) := acc.2.freeWord
      (acc.1 ++ leBytes 8 w.toNat, s)) ([], s) |> fun r => (r.1.take n, r.2)

/-- The host address at which a load or fetch on a die reads (R233). -/
def S2Ent.readAt (e : S2Ent) (die gpa : Nat) : Nat :=
  if e.repOn die then e.rframe die * frameSize + gpa % frameSize else e.home gpa

/-- The copy that a load on a die reads is a peer's. -/
def S2Ent.away (e : S2Ent) (die : Nat) : Bool := e.remote && !e.repOn die

/-- The way of a packet of `core` from die `a` to a destination of number `id` on die `b` (R15-R17): onto its own die's
ring, and where the destination lies on the other die, across the ridge onto that one's. Packets of a hob's or the
chimney's core wait for no ring, and cross the ridge as every other does (log 92). -/
def wayOf (core a b id : Nat) : Path :=
  let cross : Option Nat := if a = b then none else some (id % 16)
  if 192 ≤ core then { rings := if a = b then [] else [{ link := cross }] }
  else if a = b then { rings := [{ ring := some b }] }
  else { rings := [{ ring := some a }, { ring := some b, link := cross }] }

/-- The way of a core's packet to a slice, a port or a hearth's window of a die with number `id`. -/
def pathTo (src die id : Nat) : Path := wayOf src (dieOf src) die id
def pathToSlice (src hpa : Nat) : Path := pathTo src (sliceOf hpa / 32) (sliceOf hpa)
/-- The way to a Laneikai port: a packet crosses to it by the link of its number (DESIGN CHOICE, log 92: R17 names
slices and hearths only). -/
def pathToPort (src port : Nat) : Path := pathTo src (port / 6) port
/-- On one die a packet between two hearths takes the mesh alone (R15). -/
def pathToHearth (src h : Nat) : Path := if dieOf src = dieOf h then {} else pathTo src (dieOf h) h

/-- The way of an answer from a die to a core; it crosses the ridge by the link of the hearth's id (R17). -/
def pathBack (core die : Nat) : Path := wayOf core die (dieOf core) core

/-- One way after another: of a request, and of what comes back for it. -/
def roundTrip (p q : Path) : Path := { rings := p.rings ++ q.rings }

/-- The die from which slice `n` answers, or a peer through a port of this package. -/
def answerDie (n port : Nat) : Nat := if n < 64 then n / 32 else port / 6

/-- The way of a load's request to the copy that it reads (R233), and of the bytes back to the hearth. -/
def S2Ent.readPath (s : State) (e : S2Ent) (h part gpa : Nat) : Path :=
  if e.away (dieOf h) then
    let port := s.portFor part e.peer.toNat gpa
    roundTrip (pathToPort h port) (pathBack h (port / 6))
  else
    let at_ := e.readAt (dieOf h) gpa
    roundTrip (pathToSlice h at_) (pathBack h (sliceOf at_ / 32))

/-- The way of a read of another hearth's window, there and back. -/
def mapPath (h w : Nat) : Path :=
  if dieOf h = dieOf w then {} else roundTrip (pathToHearth h w) (pathBack h (dieOf w))

def Hearth.asked (x : Hearth) (b : AskBy) (a : Nat) : Option Path :=
  (x.asks.find? fun q => q.who == b && q.addr == a).map (·.path)

/-- Reads of one command, each by its address and way (R15-R17, R21): whether their bytes are all back, so that it goes
on; else those not under way yet are sent. -/
def askAll (s : State) (h : Nat) (b : AskBy) (l : List (Nat × Path)) : Bool × State :=
  let x := s.hearth h
  let l := l.filter fun p => !p.2.rings.isEmpty
  if l.isEmpty then (true, s)
  else if l.all fun p => (x.asked b p.1).any (·.rings.isEmpty) then
    (true, s.modHearth h fun x => { x with asks := x.asks.filter (·.who != b) })
  else
    let new := l.filter fun p => (x.asked b p.1).isNone
    (false, s.modHearth h fun x => { x with asks := x.asks ++ new.map fun p => { who := b, addr := p.1, path := p.2 } })

/-- Bytes at a guest physical address, read by a load or fetch on a die: its replica there, else the home copy; a peer's
bytes are free values (log 8). The range lies in one frame. -/
def readGuest (s : State) (die : Nat) (e : S2Ent) (gpa n : Nat) : List Byte × State :=
  if e.away die then freeBytes s n else (mbytes s.mem (e.readAt die gpa) n, s)

/-- An address range of HBM holds a poisoned line (R358). -/
def poisonedMem (s : State) (hpa n : Nat) : Bool := s.poison.any fun p => p < hpa + n && hpa < p + 64

/-- The copy that a load on a die reads is poisoned there. -/
def poisonedCopy (s : State) (die : Nat) (e : S2Ent) (gpa n : Nat) : Bool :=
  !e.away die && poisonedMem s (e.readAt die gpa) n

/-! ### Poisoned words of an SRAM (R358) -/

/-- The poisoned word of an array that an access meets there, if it meets one: which datum stands in which word is a
free choice (log 80). -/
def meetWord (bad : List Nat) (s : State) : Option Nat × State :=
  if bad.isEmpty then (none, s)
  else
    let (w, s) := s.freeWord
    (bad[w.toNat % (bad.length + 1)]?, s)

/-- The same of a home slice's SRAM. -/
def slicePoison (s : State) (n : Nat) : Option Nat × State := meetWord (s.slice n).bad s

/-- The same of the copy that a load on a die reads, with its home slice. -/
def copyWordPoison (s : State) (die : Nat) (e : S2Ent) (gpa : Nat) : Option (Nat × Nat) × State :=
  if e.away die then (none, s)
  else
    let n := sliceOf (e.readAt die gpa)
    let (b, s) := slicePoison s n
    (b.map fun w => (n, w), s)

/-- A line written whole to slice n: the word that it meets is poisoned no longer. -/
def cleanSlice (s : State) (n : Nat) : State :=
  match slicePoison s n with
  | (some w, s) => s.modSlice n fun x => { x with bad := x.bad.filter (· != w) }
  | (none, s) => s

/-- The bytes at a guest physical address of a partition, as the firebox, chimney and context engine read them: none
when a frame is untranslatable or not resident (R398). -/
def readGpa (s : State) (p gpa : Nat) (n : Nat) : Option (List Byte) :=
  let parts := (List.range ((gpa % frameSize + n + frameSize - 1) / frameSize)).map fun i =>
    let lo := if i = 0 then gpa else (gpa / frameSize + i) * frameSize
    let hi := min (gpa + n) ((gpa / frameSize + i + 1) * frameSize)
    match s.stage2 p (lo / frameSize) with
    | some e => if e.remote || e.nr || !frameOk e.frame.toNat then none else some (mbytes s.mem (e.home lo) (hi - lo))
    | none => none
  parts.foldl (fun a b => match a, b with | some x, some y => some (x ++ y) | _, _ => none) (some [])

/-- Whether a guest physical address is translatable (R398): valid and not REMOTE. -/
def gpaOk (s : State) (p gpa : Nat) : Bool :=
  match s.stage2 p (gpa / frameSize) with
  | some e => !e.remote
  | none => false

def gpaNr (s : State) (p gpa : Nat) : Bool :=
  match s.stage2 p (gpa / frameSize) with
  | some e => !e.remote && e.nr
  | none => false

/-- The poison marks left when the lines of [a, a + n) are written whole (R358). -/
def cleanLines (poison : List Nat) (a n : Nat) : List Nat := poison.filter fun p => p < a || a + n < p + 64

/-- Host addresses of a guest byte in the copies of its frame beside the home copy: the valid replicas, those that are
being built, to which a write that the home slice applies meanwhile is forwarded (R235 step 4), and those given up that
an access still uses (R236 step 2, R247). -/
def State.copiesOf (s : State) (part : Nat) (e : S2Ent) (gpa : Nat) : List Nat :=
  let at_ (f : Nat) : Nat := f * frameSize + gpa % frameSize
  let building := s.hobReqs.filterMap fun r =>
    if r.part = part ∧ r.g = gpa / frameSize ∧ r.replica then r.frame.map at_ else none
  let leaving := (s.part part).leaving.filterMap fun f => if f.1 = gpa / frameSize then some (at_ f.2) else none
  e.replicas gpa ++ building ++ leaving

/-- A landed write of bytes of one frame to every copy (R237); a line written whole loses its poison mark. -/
def writeFrame (s : State) (part : Nat) (e : S2Ent) (gpa : Nat) (l : List Byte) : State :=
  if e.remote then s
  else
    let at_ := e.home gpa :: s.copiesOf part e gpa
    { s with mem := at_.foldl (fun m a => mwrite m a l) s.mem, poison := at_.foldl (fun p a => cleanLines p a l.length) s.poison }

/-- A landed write at a guest physical address by the firebox, chimney or context engine, frame by frame; bytes of
frames that do not translate are not written. -/
def writeGpa (s : State) (p gpa : Nat) (l : List Byte) : State :=
  (List.range ((gpa % frameSize + l.length + frameSize - 1) / frameSize)).foldl (fun s i =>
    let lo := if i = 0 then gpa else (gpa / frameSize + i) * frameSize
    let hi := min (gpa + l.length) ((gpa / frameSize + i + 1) * frameSize)
    match s.stage2 p (lo / frameSize) with
    | some e => writeFrame s p e lo ((l.drop (lo - gpa)).take (hi - lo))
    | none => s) s

def readGpaNat (s : State) (p gpa n : Nat) : Nat := leNat ((readGpa s p gpa n).getD [])

/-! ### Sending operations (R265) -/

/-- Stores of a hearth that were dropped, counted in the context they belong to, with that of a handler that serves it
(R62, R239). -/
def Hearth.countLost (x : Hearth) (n : Nat) : Hearth :=
  let add (c : Ctx) : Ctx := { c with stdrop := satAdd c.stdrop n }
  { x with act := add x.act, ina := if x.serves = .stopped then add x.ina else x.ina }

/-- Sends an operation to its line's home slice; to a peer that is lost it is dropped, and a store counted (R239). -/
def sendOp (s : State) (op : WOp) : State :=
  match s.stage2 op.part (op.gline / frameSize) with
  | none => s
  | some e =>
    if e.remote then
      if s.peerUp op.part e.peer.toNat then
        s.modSlice (64 + e.peer.toNat) fun x =>
          { x with inq := x.inq ++ [{ op with line := e.frame.toNat * frameSize + op.gline % frameSize
                                              port := s.portFor op.part e.peer.toNat op.gline
                                              path := pathToPort op.src (s.portFor op.part e.peer.toNat op.gline) }] }
      else
        match op.kind with
        | .store | .copy _ => s.modHearth op.src fun x => x.countLost 1
        | _ => s
    else
      let hpa := e.home op.gline
      s.modSlice (sliceOf hpa) fun x => { x with inq := x.inq ++ [{ op with line := hpa, path := pathToSlice op.src hpa }] }

/-- Whether an operation with a property is still on its way or in a write queue. -/
def anyOp (s : State) (f : WOp → Bool) : Bool := s.slices.any fun p => p.2.inq.any f || p.2.wq.any f

/-! ### Held stores and the phase cache (R249-R253) -/

def lineNo (a : Nat) : Nat := a / 64 * 64

/-- The lines of the phase cache: fetched lines and lines with held stores (R252). -/
def Hearth.cacheLines (x : Hearth) : List Nat :=
  (x.pcache.map (·.1) ++ x.held.map fun d => lineNo d.gpa).eraseDups

/-- Whether a line needs an entry that is not there: the line that a load waits for has taken its own (R252). -/
def Hearth.needsRoom (x : Hearth) (line : Nat) : Bool :=
  let taken := (x.cacheLines ++ x.fetch.toList).eraseDups
  !(taken.contains line) && 1024 ≤ taken.length

def Held.covers (d : Held) (a : Nat) : Bool := d.gpa ≤ a && a < d.gpa + d.bytes.length

/-- What each held store sends: the bytes that no later one of them writes (R253). -/
def heldSends : List Held → List (Nat × List (Nat × Byte))
  | [] => []
  | d :: r =>
    let l := (List.range d.bytes.length).filterMap fun i =>
      if r.any (·.covers (d.gpa + i)) then none else some ((d.gpa + i) % 64, d.bytes.getD i 0)
    if l.isEmpty then heldSends r else (lineNo d.gpa, l) :: heldSends r

/-- Sends the held stores that `f` selects and keeps the others (R234, R253 step 1). Until the next boundary, a sent
store still supplies the hearth's own loads of a line that the cache holds with its earlier bytes (log 48). -/
def publishHeld (s : State) (h : Nat) (f : Held → Bool) : State :=
  let x := s.hearth h
  let sel (d : Held) : Bool := !d.sent && f d
  let cached (d : Held) : Bool := x.pcache.any fun p => p.1 == lineNo d.gpa
  let s := s.setHearth h { x with held :=
    (x.held.filter fun d => !sel d || cached d).map fun d => if sel d then { d with sent := true } else d }
  (heldSends (x.held.filter sel)).foldl (fun s p =>
    sendOp s { kind := .store, part := x.act.part, src := h, ctxid := x.act.ctxid, gline := p.1, bytes := p.2 }) s

/-- Whether every published store of a hearth has landed (R253 step 2). -/
def landedAll (s : State) (h : Nat) : Bool :=
  !anyOp s fun op => op.src == h && (match op.kind with | .store => true | _ => false)

/-- The boundaries that a hearth's engines have begun are broken off by a stop, a handler's end or a save. -/
def Hearth.breakOff (x : Hearth) : Hearth :=
  { x with pubA := false, pubX := false, pubOld := x.pubOld || x.pubA || x.pubX }

/-- A phase boundary caused by an engine (R253): sends, then waits, then empties the fetched lines. The answer is the
state and whether the boundary is complete. What the other engine's boundary has sent, or one that a stop has broken
off, lands first (R255). -/
def boundary (s : State) (h : Nat) (e : Eng) : State × Bool :=
  let x := s.hearth h
  let sent := match e with | .a => x.pubA | .x => x.pubX
  let before := x.pubOld || match e with | .a => x.pubX | .x => x.pubA
  if !sent && before && !landedAll s h then (s, false)
  else
  let s := if sent then s else
    (publishHeld s h fun _ => true).modHearth h fun x => match e with
      | .a => { x with pubA := true } | .x => { x with pubX := true }
  if landedAll s h then
    (s.modHearth h fun x =>
      let x := { x with pcache := [], held := (x.held.filter fun d => !d.sent), pubOld := false }
      match e with | .a => { x with pubA := false } | .x => { x with pubX := false }, true)
  else (s, false)

/-- An engine has begun an implicit boundary before the access of its present slot, and not completed it. -/
def EngState.inBoundary (g : EngState) : Bool := g.imp == some g.pc

/-- An implicit boundary of an engine (R252): counted as it begins, and under way until step 3 of R253 is done. -/
def implicitBoundary (s : State) (h : Nat) (e : Eng) : State × Bool :=
  let s := s.modCtx h fun c =>
    let g := c.es e
    if g.inBoundary then c else ({ c with impb := satInc c.impb }).setEs e { g with imp := some g.pc }
  let (s, ok) := boundary s h e
  if ok then (s.modCtx h fun c => c.setEs e { c.es e with imp := none }, true) else (s, false)

/-- Whether an access of the executing engine to a line has its entry and no implicit boundary before it (R252). -/
def State.hasRoom (s : State) (line : Nat) : Bool := !s.es.inBoundary && !s.me.needsRoom line

/-- An access that needs an entry of a full phase cache first makes an implicit boundary, through step 3 (R252, R253).
-/
def withRoom (s : State) (line : Nat) (k : State → Res) : Res :=
  if s.hasRoom line then k s
  else
    let (s, ok) := implicitBoundary s s.cur s.eng
    if ok && !s.me.needsRoom line then k s else .wait s false

/-- Holds a store (R249). -/
def holdStore (s : State) (gpa : Nat) (l : List Byte) : State :=
  let x := s.me
  s.setMe { x with held := x.held ++ [{ eng := s.eng, no := x.heldNo, gpa := gpa, bytes := l }]
                   heldNo := x.heldNo + 1 }

/-- The offsets within a held store of the bytes that a load of [gpa, gpa + n) meets. -/
def Held.met (d : Held) (gpa n : Nat) : List Nat :=
  (List.range d.bytes.length).filter fun i => gpa ≤ d.gpa + i && d.gpa + i < gpa + n

/-- The held stores that a load of the engine may return, with the free choice for the unordered ones of the other
engine, of which no byte that the load meets has been returned before (R250): the positions returned, and the state
after the choices. -/
def visibleHeld (s : State) (gpa n : Nat) : List Nat × State :=
  let x := s.me
  (List.range x.held.length).foldl (fun (acc, s) i =>
    match x.held[i]? with
    | none => (acc, s)
    | some d =>
      if (d.met gpa n).isEmpty then (acc, s)
      else
        let obs := match s.eng with | .a => d.obsA | .x => d.obsX
        let seen := (d.met gpa n).any obs.contains || d.eng == s.eng || d.no < s.es.seen
        if seen then (acc ++ [i], s)
        else
          let (b, s) := s.freeBit
          (if b then acc ++ [i] else acc, s)) ([], s)

/-- One byte of a load from the chosen held stores, else from the line in the phase cache. -/
def loadByte (x : Hearth) (vis : List Nat) (a : Nat) : Option Byte :=
  let fromHeld := vis.foldl (fun (r : Option Byte) i => match x.held[i]? with
    | some d => if d.covers a then some (d.bytes.getD (a - d.gpa) 0) else r
    | none => r) none
  match fromHeld with
  | some b => some b
  | none => (x.pcache.find? fun p => p.1 == lineNo a).map fun p => p.2.extractLsb' (8 * (a % 64)) 8

/-- Marks the bytes of stores that a load of [gpa, gpa + n) has returned (R250). -/
def markObserved (x : Hearth) (e : Eng) (vis : List Nat) (gpa n : Nat) : Hearth :=
  { x with held := vis.foldl (fun l i => lmod l i fun d =>
      let add (l : List Nat) : List Nat := l ++ (d.met gpa n).filter fun k => !l.contains k
      match e with | .a => { d with obsA := add d.obsA } | .x => { d with obsX := add d.obsX }) x.held }

end Sys2Proof.Machine
end

