-- ==== Sys2Proof/Machine/Operands.lean ====
section
/-!
DEFINITION. Operand forms: scalar sources and results at a TYPE (03 R68), vector and flue operands with their packing
(08 R184-R186), shift amounts (R74, R195).
-/
set_option autoImplicit false

namespace Sys2Proof.Machine

/-! ### Scalar operands (R68) -/

/-- The bits of a register or immediate as a number of the type: sign- or zero-extended from the width. -/
def typed (t : DType) (v : Word) : Int := tyInt t v.toNat

/-- A source read at a TYPE; a class 7 immediate is sign-extended, then taken modulo 2^w (R68). -/
def State.srcTy (s : State) (t : DType) (x : Src) : Int := typed t (s.src x)

/-- A result reduced modulo 2^w and written sign- or zero-extended (R68). -/
def resultTy (t : DType) (r : Int) : Word :=
  let n := wrap (tyBits t) r
  if isSigned t then BitVec.ofInt 64 (sextNat (tyBits t) n) else BitVec.ofNat 64 n

/-- The unsigned bits [w-1:0] of a source: a shift amount, or the bits of CLZ and POPC (R74, R75). -/
def State.srcBits (s : State) (t : DType) (x : Src) : Nat := (s.src x).toNat % 2 ^ tyBits t

def clampTy (t : DType) (r : Int) : Int := if r < tyMin t then tyMin t else if tyMax t < r then tyMax t else r

/-- The shifts of R74 at the width of a type: x by n. -/
def shiftL (t : DType) (x : Int) (n : Nat) : Int := if tyBits t ≤ n then 0 else x * ((2 ^ n : Nat) : Int)
def shiftR (t : DType) (x : Int) (n : Nat) : Int :=
  if tyBits t ≤ n then 0 else ((wrap (tyBits t) x / 2 ^ n : Nat) : Int)
def shiftA (t : DType) (x : Int) (n : Nat) : Int :=
  if tyBits t ≤ n then (if x < 0 then -1 else 0)
  else sextNat (tyBits t) (wrap (tyBits t) x) / ((2 ^ n : Nat) : Int)
def rotL (t : DType) (x : Int) (n : Nat) : Int :=
  let w := tyBits t
  let k := n % w
  let v := wrap w x
  ((v * 2 ^ k % 2 ^ w + v / 2 ^ (w - k) : Nat) : Int)

/-! ### Vector operands (R184-R186) -/

def Ctx.vlane (c : Ctx) (r : Reg) (j : Nat) : BitVec 32 := tget 0 c.v (64 * r.toNat + j)
def Ctx.setLane (c : Ctx) (r : Reg) (j : Nat) (v : BitVec 32) : Ctx :=
  { c with v := tput c.v (64 * r.toNat + j) v, bad := cleanWords c.bad (0x4000 + 4 * (64 * r.toNat + j)) 4 }

/-- Lanes as they are held: the element's bits [w-1:0], filled to 32 under R184. -/
def fillLane (t : DType) (e : Nat) : BitVec 32 :=
  let w := tyBits t
  if isSigned t then BitVec.ofInt 32 (sextNat w e) else BitVec.ofNat 32 (e % 2 ^ w)

/-- Element j of densely packed bytes, of width w bits; INT4 elements lie in nibbles (R102, R186). -/
def packedElem (w : Nat) (l : List Byte) (j : Nat) : Nat :=
  if w = 4 then bits ((l.getD (j / 2) 0).toNat) (4 * (j % 2)) 4
  else leNat ((l.drop (j * (w / 8))).take (w / 8))

/-- 64 elements of width w packed densely. -/
def packElems (w : Nat) (l : List Nat) : List Byte :=
  if w = 4 then (List.range 32).map fun i => BitVec.ofNat 8 (l.getD (2 * i) 0 % 16 + 16 * (l.getD (2 * i + 1) 0 % 16))
  else l.flatMap fun e => leBytes (w / 8) e

/-- What reading a vector operand gives: 64 elements of width w, and the flue it read if it did; or a wait, or the
FLUE_STATE of R128 and R186. -/
inductive VRead where
  | ok (l : List Nat) (flue : Option Nat)
  | empty
  | bad (n : Nat)

/-- Reads a vector operand of width w bits. `used` are the flues this instruction has already read a slot from, so that
a second read takes the next slot (R186). A slot that a unit is partway through is the unit's (R129). -/
def readV (c : Ctx) (scratch : Memory) (w : Nat) (used : List Nat) : VSrc → VRead
  | .v r => .ok ((List.range 64).map fun j => (c.vlane r j).toNat % 2 ^ w) none
  | .f r =>
    let n := r.toNat
    let f := c.flue n
    let p := c.flue (c.primary n)
    let ahead := (used.filter (· == n)).length
    if !f.opened || p.slotBytes < 8 * w then .bad n
    else if c.fullSlots n ≤ ahead || c.taken.any (fun t => t.1 == n) then .empty
    else
      let l := mbytes scratch (p.slotAddr (f.read + BitVec.ofNat 32 ahead)) (8 * w)
      .ok ((List.range 64).map fun j => packedElem w l j) (some n)

/-- What vector operands and a flue destination need of the flues (R125, R186). -/
def flueNeeds (ops : List (Nat × VSrc)) (dest : Option Nat) : StallOn :=
  let rs := ops.filterMap fun o => match o.2 with | .f r => some r.toNat | .v _ => none
  { reads := rs.eraseDups.map fun r => (r, rs.count r), dest := dest.map fun r => (r, 1) }

/-- The slots that vector operands read, as addresses and lengths (R186). -/
def slotReads (c : Ctx) : List (Nat × VSrc) → List Nat → List (Nat × Nat)
  | [], _ => []
  | (_, .v _) :: r, used => slotReads c r used
  | (w, .f f) :: r, used =>
    let ahead := BitVec.ofNat 32 (used.filter (· == f.toNat)).length
    ((c.flue (c.primary f.toNat)).slotAddr ((c.flue f.toNat).read + ahead), 8 * w) :: slotReads c r (used ++ [f.toNat])

/-- The poisoned scratchpad word that vector operands read (R358). -/
def sourcePoison (x : Hearth) (ops : List (Nat × VSrc)) : Option Nat :=
  ((slotReads x.act ops []).find? fun a => poisoned x a.1 a.2).map fun a => poisonOfs x a.1 a.2

/-- Reads several vector operands in the order S1, S2, S3 (R186). FLUE_STATE of any of them comes before a wait, whose
stall also looks at the flue destination, if there is one (R207). -/
def readVs (s : State) (ops : List (Nat × VSrc)) (dest : Option Nat) (k : List (List Nat) → List Nat → Res) : Res :=
  let x := s.me
  let rec go : List (Nat × VSrc) → List (List Nat) → List Nat → Option Nat → Bool → Res
    | [], acc, used, bad, wait =>
      match bad with
      | some n => .trap s .flueState (BitVec.ofNat 64 n)
      | none =>
        if wait then waitOn s (flueNeeds ops dest)
        else match sourcePoison x ops with
          | some a => poisonTrap s 2 a
          | none => k acc used
    | (w, o) :: rest, acc, used, bad, wait =>
      match readV x.act x.scratch w used o with
      | .ok l f => go rest (acc ++ [l]) (used ++ f.toList) bad wait
      | .empty => go rest (acc ++ [[]]) used bad true
      | .bad n => go rest (acc ++ [[]]) used (bad <|> some n) wait
  go ops [] [] none false

/-- Checks a flue destination of 8 × w bytes: an open kind 0 primary not fed by A, large enough (R125, R186). -/
def flueDestOk (c : Ctx) (n bytes : Nat) : Bool :=
  let f := c.flue n
  f.opened && !f.fork && f.kind == 0 && f.fed != 1 && bytes ≤ f.slotBytes

/-- Commits the reads of an X instruction (R128). -/
def commitReads (x : Hearth) (used : List Nat) : Hearth := used.foldl (fun x n => x.commitRead n 1) x

/-- Reads the sources, then writes 64 elements of width w to a vector or flue destination under the mask (R185, R186).
`f` gives the elements and a last change of the state; `fill` is the lane of an element. A flue destination that is not
open, of the wrong kind, or too small raises FLUE_STATE after the sources' own checks; the instruction then waits, the
execute side stalled, until every source has a full slot and the destination a free one (R125, R128, R207). A source
read from the destination flue's own reader counts as read before the production. -/
def vectorOp (s : State) (d : VSrc) (m : Word) (w : Nat) (fill : Nat → BitVec 32) (ops : List (Nat × VSrc))
    (f : List (List Nat) → List Nat × (State → State)) : Res :=
  let destBad := match d with | .f r => !flueDestOk s.ctx r.toNat (8 * w) | .v _ => false
  let srcBad := ops.any fun o => match readV s.ctx s.me.scratch o.1 [] o.2 with | .bad _ => true | _ => false
  if destBad && !srcBad then
    .trap s .flueState (BitVec.ofNat 64 (match d with | .f r => r.toNat | .v r => r.toNat))
  else readVs s ops (match d with | .f r => some r.toNat | .v _ => none) fun ls used =>
    let (out, post) := f ls
    match d with
    | .v r =>
      let x := commitReads s.me used
      let c := (List.range 64).foldl (fun c j => if m.getLsbD j then c.setLane r j (fill (out.getD j 0)) else c) x.act
      .done (post (s.setMe { x with act := c }))
    | .f r =>
      let x := commitReads s.me used
      if x.act.freeSlots r.toNat = 0 then waitOn s (flueNeeds ops (some r.toNat))
      else
        let l := packElems w ((List.range 64).map fun j => if m.getLsbD j then out.getD j 0 else 0)
        .done (post (s.setMe (x.produceX r.toNat l)))

end Sys2Proof.Machine
end

