-- ==== Sys2Proof/Machine/Flags.lean ====
section
/-!
DEFINITION. Glafin has no condition-flag register (03 R51): what other machines keep as flags is computed here as values
and predicate entries: the carry and overflow of ADDX (R72), and the comparisons of PCMP and VCMP (R85, R191).
-/
set_option autoImplicit false

namespace Sys2Proof.Machine

/-- ADDX's result for the exact sum e: 1 above the type's range, -1 below it, else 0 (R72). -/
def carryOf (t : DType) (e : Int) : Int := if tyMax t < e then 1 else if e < tyMin t then -1 else 0

/-- A comparison of two encodings of a type under a condition (R85). -/
def compareTy (c : Cond) (t : DType) (a b : Nat) : Bool := compareVals c (valueOf t a) (valueOf t b)

/-- The entry PCMP pushes: the result bit, as 64 copies (R85; on A the entry is one bit, held as all ones or zeros). -/
def predEntry (b : Bool) : Word := if b then BitVec.allOnes 64 else 0

end Sys2Proof.Machine
end

