-- ==== Sys2Proof/Machine/Fetch.lean ====
section
/-!
DEFINITION. Fetching: when an engine may act, entering a line with the checks of R27, the slip rule (R30), the
instruction caches (R31, R32), and the fault of a slot that does not decode (R39).
-/
set_option autoImplicit false

namespace Sys2Proof.Machine

/-- The sixteenths by which the partition of a core is gated in this tick (R352): in every 4,096 ticks the core stands
still in the first 256 for each sixteenth. -/
def gatedAt (s : State) (h : Nat) : Bool :=
  match s.ownerOf h with
  | some p => s.dcc.toNat % 4096 < 256 * tget 0 s.pw.gates p
  | none => false

/-- An engine acts while its core runs in the run state ungated, and it has neither finished, stopped at a YIELD, waited
in SRET, nor stayed at a matrix command (R30, R95, R98, R205, R354); the hobs' and the chimney's cores have an A engine
only (R23). -/
def canAct (s : State) (h : Nat) (e : Eng) : Bool :=
  let x := s.hearth h
  let g := x.act.es e
  (h < 192 || e == .a) && (x.run == .running || x.run == .handler) && s.pw.cur == 0 && !gatedAt s h && !g.done && g.sret.isNone && !g.stopped
    && !g.hold && !g.slipWait

/-- The bytes of a code line with checks 2-4 of R27: the fault and its address, or the line. A poisoned line raises
MACHINE_CHECK (R358). -/
def readLine (s : State) (h : Nat) (l : Word) : Except FaultCode (LineWord × State) :=
  match translate s h .exec l with
  | .error c => .error c
  | .ok t =>
    let (bad, s) := copyWordPoison s (dieOf h) t.ent t.gpa
    if poisonedCopy s (dieOf h) t.ent t.gpa 64 || bad.isSome then .error .machineCheck
    else
      let (b, s) := readGuest s (dieOf h) t.ent t.gpa 64
      .ok (BitVec.ofNat 512 (leNat b), s)

/-- Checks 5 and 6 of R27. -/
def linkFault (e : Eng) (l : LineWord) : Option FaultCode :=
  if linkEng l = 3 then some .linkReserved
  else if linkEng l = (match e with | .a => 0 | .x => 1) then none
  else some .lineEngine

/-- Puts a line into an instruction cache of 128 lines (R31); from a full one the line of the lowest address leaves (log
69). -/
def cachePut (t : Tbl LineWord) (a : Nat) (l : LineWord) : Tbl LineWord :=
  if thas t a || t.length < 128 then tput t a l else tput (t.drop 1) a l

/-- A prefetch of one line: dropped when it fails a check (R31). -/
def prefetchLine (s : State) (h : Nat) (e : Eng) (l : Word) : State × Option LineWord :=
  match tget none ((s.hearth h).act.es e |>.icache.map fun p => (p.1, some p.2)) l.toNat with
  | some w => (s, some w)
  | none =>
    match readLine s h l with
    | .error _ => (s, none)
    | .ok (w, s) =>
      match linkFault e w with
      | some _ => (s, none)
      | none =>
        (s.modCtx h fun c => c.setEs e { c.es e with icache := cachePut (c.es e).icache l.toNat w }, some w)

def nextLine (a : Word) (l : LineWord) : Word := a + ((linkNext l).signExtend 64 <<< 6)

/-- The way of the read of a code line by core h, with the line's guest address; none where it does not translate. -/
def codeAsk (s : State) (h : Nat) (l : Word) : List (Nat × Path) :=
  match translate s h .exec l with
  | .ok t => [(t.gpa, t.ent.readPath s h t.part t.gpa)]
  | .error _ => []

/-- The line at `l` is at hand for an engine: its instruction cache holds it, or its bytes have come back (R15-R17,
R31); else its read is under way. -/
def lineHere (s : State) (l : Word) : Bool × State :=
  if s.es.icache.any (·.1 == l.toNat) then (true, s) else askAll s s.cur (.code s.eng) (codeAsk s s.cur l)

/-- The prefetch of the line at `t`, and of the `n` lines after it (R31), is sent unless it is under way. -/
def askAhead (s : State) (h : Nat) (e : Eng) (t : Word) (n : Nat) : State :=
  let asked := (s.hearth h).asks.any fun q => match q.who with | .ahead e' a _ => e' == e && a == t | _ => false
  if asked then s
  else s.modHearth h fun x => { x with
    asks := x.asks ++ (codeAsk s h t).map fun p => { who := .ahead e t n, addr := p.1, path := p.2 } }

/-- The `n` lines that follow along the chain (R31): the first that the instruction cache lacks is asked for, and the
chain goes on when it comes. -/
def prefetchChain : Nat → State → Nat → Eng → Word → LineWord → State
  | 0, s, _, _, _, _ => s
  | n + 1, s, h, e, a, l =>
    if linkNext l = 0 then s
    else
      let t := nextLine a l
      match ((s.hearth h).act.es e).icache.find? fun p => p.1 == t.toNat with
      | some (_, w) => prefetchChain n s h e t w
      | none => askAhead s h e t n

/-- The wait of R30 for engine `e` about to enter a line with ordinal `n`. -/
def slipHeld (c : Ctx) (e : Eng) (n : BitVec 12) : Bool :=
  let me := c.es e
  let ot := c.es (Eng.other e)
  match me.ord, ot.ord with
  | some a, some b =>
    let lead := 0 < signed12 ((a.toNat : Int) - b.toNat) || (a == b && e == .x)
    lead && !ot.done && ot.sret.isNone && c.slipw != 0xFFF
      && (c.slipw.toNat : Int) < signed12 ((n.toNat : Int) - b.toNat)
  | _, _ => false

/-- The vector registers that an X instruction reads or writes. -/
def vectorRegs : Instr → List Reg
  | .vld _ d _ _ => [d]
  | .vst _ _ a _ | .vhistCount _ a _ | .vred _ _ _ a _ _ => vr a
  | .vmov _ d a _ | .vabs _ d a _ _ | .vneg _ d a _ _ | .vrcp _ d a _ _ | .vrsq _ d a _ _ | .vexp2 _ d a _ _
  | .vlog2 _ d a _ _ | .vcvt _ d a _ _ _ | .vqnt _ d a _ _ _ _ | .vscan _ _ d a _ _ => vr d ++ vr a
  | .vbcst _ d _ _ | .vidx _ d _ _ _ | .vhistRead _ d _ => vr d
  | .vperm _ d a b | .vsel _ d a b | .vadd _ d a b _ _ | .vsub _ d a b _ _ | .vmul _ d a b _ _ | .vmin _ d a b _
  | .vmax _ d a b _ | .vand _ d a b _ | .vor _ d a b _ | .vxor _ d a b _ => vr d ++ vr a ++ vr b
  | .vcmp _ _ a b _ => vr a ++ vr b
  | .vfma _ d a b c _ _ | .vfms _ d a b c _ _ => vr d ++ vr a ++ vr b ++ vr c
  | .vshl _ d a n _ | .vshr _ _ d a n _ => vr d ++ vr a ++ (match n with | .v r => [r] | _ => [])
  | .defer _ v n _ => (List.range n.toNat).map fun i => BitVec.ofNat 5 (v.toNat + i)
  | .drain _ _ v n _ => (List.range (n.toNat + 1)).map fun i => BitVec.ofNat 5 (v.toNat + i)
  | _ => []
where vr : VSrc → List Reg
  | .v r => [r]
  | .f _ => []

/-- The flue that a vector instruction produces into. -/
def vectorDest : Instr → Option Reg
  | .vmov _ (.f d) _ _ | .vabs _ (.f d) _ _ _ | .vneg _ (.f d) _ _ _ | .vrcp _ (.f d) _ _ _ | .vrsq _ (.f d) _ _ _
  | .vexp2 _ (.f d) _ _ _ | .vlog2 _ (.f d) _ _ _ | .vcvt _ (.f d) _ _ _ _ | .vqnt _ (.f d) _ _ _ _ _
  | .vscan _ _ (.f d) _ _ _ | .vbcst _ (.f d) _ _ | .vidx _ (.f d) _ _ _ | .vhistRead _ (.f d) _
  | .vperm _ (.f d) _ _ | .vsel _ (.f d) _ _ | .vadd _ (.f d) _ _ _ _ | .vsub _ (.f d) _ _ _ _
  | .vmul _ (.f d) _ _ _ _ | .vmin _ (.f d) _ _ _ | .vmax _ (.f d) _ _ _ | .vand _ (.f d) _ _ _
  | .vor _ (.f d) _ _ _ | .vxor _ (.f d) _ _ _ | .vfma _ (.f d) _ _ _ _ _ | .vfms _ (.f d) _ _ _ _ _
  | .vshl _ (.f d) _ _ _ | .vshr _ _ (.f d) _ _ _ => some d
  | _ => none

/-- The operand specifiers of an instruction's slot that name registers, D first; the immediate of MOVI overlays the
others (R33). -/
def specsOf (i : Instr) : List (BitVec 8) :=
  match encodeFields i with
  | none => []
  | some f => match i with
    | .movi .. => [f.d]
    | _ => [f.d, f.s1, f.s2, f.s3]

/-- The scalar registers that an instruction names, a0 and k0 apart (R34, R51). -/
def scalarRegs (l : List (BitVec 8)) : List Reg := (l.filter fun b => cls b == 0 && num b != 0).map num

/-- The matrix commands, which observe one another through the queue (R206). -/
def isMatrix : Instr → Bool
  | .tld .. | .tstFlue .. | .tstMemory .. | .mzero .. | .mma .. | .mmaStamped .. | .mmas .. | .mmasStamped .. | .mmab ..
  | .mmabStamped .. | .mrd .. | .mcvt .. => true
  | _ => false

/-- The waits of an X instruction on the matrix queue: a register that a queued command writes or reads, which are the
vector register of MRD and the scalar registers of MRD, MCVT and a stamped command (R210), and a flue into which a
queued TST produces before it (R125: publishes come in claim order, log 33). -/
def waitsOnQueue (q : List MatCmd) (i : Instr) : Bool :=
  let names (r : Reg) : Bool := !isMatrix i && (scalarRegs (specsOf i)).contains r
  q.any fun c => match c.instr with
    | .mrd _ _ d _ s2 => (vectorRegs i).contains d || (match s2 with | .reg r => names r | .imm _ => false)
    | .mcvt _ _ _ s2 _ _ => names s2
    | .mmaStamped _ _ _ _ st | .mmasStamped _ _ _ _ _ _ st | .mmabStamped _ _ _ _ _ st => names st.reg
    | .tstFlue _ f _ _ _ => vectorDest i == some f
    | _ => false

/-- The bytes of the register image behind an operand specifier (R34, R52). -/
def specPlace (e : Eng) (b : BitVec 8) : Nat × Nat :=
  let n := (num b).toNat
  match cls b with
  | 0 => if n = 0 then (0, 0) else (regOfs e (num b), 8)
  | 1 => (0x4000 + 256 * n, 256)
  | 2 => (0x10000 + 0x4000 * n, 0x4000)
  | 3 => (0x30000 + 0x4000 * n, 0x4000)
  | 4 => (0x6000 + 128 * n, 128)
  | 5 => if n < 8 then (ctlOfs e + 8 * n, 8) else (ctlOfs e + 0x40 + 32 * (n - 8), 32)
  | 6 => if n = 0 then (0x840, 72) else if n = 1 then (0x8C0, 72) else (0x800, 8)
  | _ => (0, 0)

/-- The specifiers that an instruction reads after its execution checks: the data of a store or an AMO (R76, R189, R241,
R279). Where a poisoned word is met among the faults of an instruction is the model's choice (DESIGN CHOICE, log 109).
-/
def lateSpecs (i : Instr) : List (BitVec 8) :=
  match i with
  | .sts .. | .stg .. | .stm .. | .vst .. => (specsOf i).drop 3
  | .amo .. => (specsOf i).drop 2
  | _ => []

/-- The poisoned word of the register image in the data that an instruction reads after its checks (R358). -/
def lateBad (s : State) (i : Instr) : Option Nat :=
  s.ctx.bad.find? fun w => (lateSpecs i).any fun b =>
    let p := specPlace s.eng b
    p.1 ≤ 4 * w && 4 * w < p.1 + p.2

/-- Goes on with the data of an instruction where it is sound (R358). -/
def lateData (s : State) (i : Instr) (k : Res) : Res :=
  match lateBad s i with
  | some w => poisonTrap s 3 (4 * w)
  | none => k

/-- The specifiers that an instruction reads before its checks: its sources, and as D a flue, a queue or a slot that is
not made anew. The tiles and accumulators of a matrix command are read in its last cycle (R206). -/
def readSpecs (i : Instr) : List (BitVec 8) :=
  let d := (specsOf i).take 1
  let fresh := match i with | .flopen .. | .flfork .. | .gset .. | .gclr .. => true | _ => false
  let c (b : BitVec 8) : Nat := cls b
  let sources := (specsOf i).drop 1
  (d.filter fun b => !fresh && (c b == 4 || c b == 6))
    ++ (sources.take (sources.length - (lateSpecs i).length)).filter fun b => !(isMatrix i && (c b == 2 || c b == 3))

/-- The descriptors that an instruction names (R162). -/
def tdsOf : Instr → List (BitVec 6)
  | .cpy _ _ a b => [a, b]
  | .cpyf _ _ _ t | .drnf _ _ _ t | .gath _ _ _ _ _ t | .scat _ _ _ _ _ t | .tstMemory _ _ _ t _ => [t]
  | _ => []

/-- The tiles and accumulators that a matrix command reads, as places of the image. -/
def matrixPlaces (i : Instr) : List (Nat × Nat) :=
  let t (r : Reg) : Nat × Nat := (0x10000 + 0x4000 * r.toNat, 0x4000)
  let m (r : Reg) : Nat × Nat := (0x30000 + 0x4000 * r.toNat, 0x4000)
  match i with
  | .tstFlue _ _ s _ _ | .tstMemory _ s _ _ _ => (match s with | .tile r => [t r] | .acc r => [m r])
  | .mma _ c a b | .mmaStamped _ c a b _ | .mmab _ _ c a b | .mmabStamped _ _ c a b _ => [m c, t a, t b]
  | .mmas _ _ c a b k | .mmasStamped _ _ c a b k _ => [m c, t a, t b, t (k.setWidth 5)]
  | .mrd _ _ _ c _ | .mcvt _ _ c _ _ _ => [m c]
  | _ => []

/-- The first of some poisoned words that lies in one of some places. -/
def badIn (bad : List Nat) (places : List (Nat × Nat)) : Option Nat :=
  bad.find? fun w => places.any fun p => p.1 ≤ 4 * w && 4 * w < p.1 + p.2

/-- The image of the j-th predicate from the top of an engine's stack of the given depth, with DEPTH (R80). -/
def predPlaces (e : Eng) (depth j : Nat) : List (Nat × Nat) :=
  (ctlOfs e + 0xC0, 4) :: match e with
    | .a => []
    | .x => if j < depth then [(ctlOfs e + 0x100 + 8 * (depth - 1 - j), 8)] else []

/-- The place of a sequence slot in the image (R271, R282). -/
def seqPlace (q : Nat) : Nat × Nat := (0xA800 + 32 * q, 32)

/-- The tiles that a matrix command names (R66, R210). -/
def tilesOf : Instr → List Reg
  | .tld _ t _ => [t]
  | .tstFlue _ _ s _ _ | .tstMemory _ s _ _ _ => match s with | .tile t => [t] | .acc _ => []
  | .mma _ _ a b | .mmaStamped _ _ a b _ | .mmas _ _ _ a b _ | .mmasStamped _ _ _ a b _ _ | .mmab _ _ _ a b
  | .mmabStamped _ _ _ a b _ => [a, b]
  | .mcvt _ t _ _ _ _ => [t]
  | _ => []

/-- MMAS also reads its metadata tile (R218). -/
def metaTile : Instr → List Reg
  | .mmas _ _ _ _ _ m | .mmasStamped _ _ _ _ _ m _ => [m.setWidth 5]
  | _ => []

/-- What an instruction reads through no specifier: predicates (R86), system registers (R59), bins and the deferral
queue's registers (R92, R198, R199), sequence slots, and the configuration of tiles. -/
def impliedPlaces (e : Eng) (depth : Nat) (i : Instr) : List (Nat × Nat) :=
  match i with
  | .sel .. | .vsel .. | .vcnt .. | .pnot .. => predPlaces e depth 0
  | .pand _ j | .por _ j => predPlaces e depth 0 ++ predPlaces e depth j.toNat
  | .pcmp .. | .vcmp .. | .ppop .. | .resp .. => [(ctlOfs e + 0xC0, 4)]
  | .movf _ _ n => [(0x1000 + 8 * n.toNat, 8)]
  | .vhistCount .. | .vhistRead .. | .scaleq .. => [(0x1400, 0x400)]
  | .defer .. | .drain .. => [(0x1098, 8), (0x4D8, 8)]
  | .seqopen _ _ _ _ q | .seqclose _ q _ => [seqPlace q.toNat]
  | _ => (tilesOf i ++ metaTile i).map fun t => (0x1000 + 8 * (0x20 + t.toNat), 8)

/-- The predicate of a slot's guard (R36). -/
def slotPlaces (s : State) (i : Instr) : List (Nat × Nat) :=
  match (encodeFields i).bind fun f => Guard.ofBits f.g with
  | some .top | some .notTop => predPlaces s.eng s.es.preds.length 0
  | _ => []

/-- The active loops whose END is the executing engine's slot, which the end-of-slot step reads (R88). -/
def loopPlaces (s : State) (read : Nat → Bool) : List (Nat × Nat) :=
  let x := s.es
  (x.nest.filter fun n => (x.loop n).active && (x.loop n).stop == x.pc && read n).map fun n =>
    (ctlOfs s.eng + 0x40 + 32 * n, 32)

/-- The poisoned word of a loop's record that the end-of-slot step of an instruction has read, of which `t` is what the
instruction has left: the step changes REMAIN of every loop that it reads (R88, R358). -/
def loopRead (s t : State) : Option Nat :=
  let x := t.hearth s.cur
  if x.run == .free || x.halfH1 != s.me.halfH1 then none
  else badIn s.ctx.bad (loopPlaces s fun n => (x.act.es s.eng).loop n != s.es.loop n)

/-- The first poisoned word of the register image that an instruction reads (R358); one whose predicate guard reads
false reads no operand (R36). -/
def poisonedSource (s : State) (i : Instr) : Option Nat :=
  let bad := s.ctx.bad
  if bad.isEmpty then none
  else
    let places := (readSpecs i).map (specPlace s.eng) ++ (tdsOf i).map (fun n => (0x2000 + 128 * n.toNat, 128))
      ++ impliedPlaces s.eng s.es.preds.length i
    let reads := (encodeFields i).any fun f => (Guard.ofBits f.g).any fun g => (guardMask g s.es.preds).any fun m =>
      runs s.eng (Enc.xOnly i).isSome m
    badIn bad (slotPlaces s i ++ if reads then places else [])

/-- What a fetch gives. -/
inductive Fetched where
  | idle (s : State)
  | trap (s : State) (code : FaultCode) (addr : Word)
  | run (i : Instr) (s : State)

/-- The decode of the slot at `pc` in the line that the engine executes; a decode fault names the slot, and GUARD_MISUSE
the guard's slot number (R316). A privileged instruction in a mode that may not run it reads nothing (R39). -/
def decodeHere (s : State) : Fetched :=
  let x := s.es
  let w := slotOf x.buf x.pc
  match decode s.eng w with
  | .ok i =>
    if s.eng = .x && waitsOnQueue s.me.matq i then .idle s
    else match if s.me.mode.allows (needMode i) then poisonedSource s i else none with
      | some w => match poisonTrap s 3 (4 * w) with
        | .trap s c a => .trap s c a
        | _ => .idle s
      | none => .run i s
  | .error .guardMisuse => .trap s .guardMisuse ((w.extractLsb' 83 4).setWidth 64)
  | .error c => .trap s c x.pc

/-- The fault of a read through the instruction path: MACHINE_CHECK names its error-log entry, of a bad frame or of
consumed poison (R225, R358). -/
def codeTrap (s : State) (c : FaultCode) (l a : Word) : Res :=
  match c, translate s s.cur .exec l with
  | .machineCheck, .ok t =>
    if poisonedCopy s (dieOf s.cur) t.ent t.gpa 64 then poisonTrap s 0 (t.ent.readAt (dieOf s.cur) t.gpa)
    else match copyWordPoison s (dieOf s.cur) t.ent t.gpa with
      | (some (n, w), s) => poisonTrap s 1 (4 * w) (some n)
      | (none, s) => trapTrn s c a
  | c, _ => trapTrn s c a

/-- The same as a fault of the entry into a line. -/
def entryTrap (s : State) (c : FaultCode) (l : Word) (r : Res) : Fetched :=
  match r with
  | .trap s c a => .trap s c a
  | _ => .trap s c l

/-- The line as the executing engine sees it: as it stands, or, where its instruction cache holds an older one, one of
the two (R32). -/
def cachedLine (s : State) (l : Word) (w : LineWord) : LineWord × State :=
  match (s.es.icache.find? fun p => p.1 == l.toNat) with
  | some (_, old) =>
    if old = w then (w, s)
    else
      let (b, s) := s.freeBit
      (if b then old else w, s)
  | none => (w, s)

/-- The poisoned word of the instruction caches that a line met there stands in, if it does; a line that enters them
ends the mark of the word it takes (R358, log 80). -/
def cacheTouch (s : State) (l : Word) : Option Nat × State :=
  match meetWord (s.me.cacheBad.filter (16384 ≤ ·)) s with
  | (some w, s) =>
    if s.es.icache.any (·.1 == l.toNat) then (some w, s)
    else (none, s.setMe { s.me with cacheBad := s.me.cacheBad.filter (· != w) })
  | r => r

/-- Entry into the line of `pc` (R27, R30), once its bytes have come: the checks in their order, the slip rule except at
a first entry and after a wait under it, then the line as it stands, or as the instruction cache holds it (R32). -/
def enterLine (s : State) : Fetched :=
  let x := s.es
  let l := lineOf x.pc
  match lineHere s l with
  | (false, s) => .idle s
  | (true, s) => match readLine s s.cur l with
  | .error c => entryTrap s c l (codeTrap s c l l)
  | .ok (w, s) =>
    match cacheTouch s l with
    | (some p, s) => entryTrap s .machineCheck l (poisonTrap s 4 (4 * p))
    | (none, s) =>
    let (w, s) := cachedLine s l w
    match linkFault s.eng w with
    | some c => .trap s c l
    | none =>
      if x.line.isSome && !x.slipPass && slipHeld s.ctx s.eng (linkOrd w) then
        .idle (s.setEs { s.es with slipWait := true, slipOrd := linkOrd w })
      else
        let x := s.es
        let s := s.setEs { x with slipPass := false, line := some l, buf := w, ord := some (linkOrd w), icache := cachePut x.icache l.toNat w }
        decodeHere (prefetchChain 4 s s.cur s.eng l w)

/-- One attempt of an engine up to the decoded instruction (R50). -/
def fetch (s : State) (h : Nat) (e : Eng) : Fetched :=
  if !canAct s h e then .idle s
  else
    let s := { s with cur := h, eng := e }
    let x := s.es
    if !isSlot x.pc then .trap s .slotAlign x.pc
    else if x.line = some (lineOf x.pc) then decodeHere s
    else enterLine s

/-- Whether a constructor is one of the part's own steps: it has no encoding (R40). -/
def isEvent (i : Instr) : Bool := i != .nop && (encodeFields i).isNone

/-! ### A program placed for one step (log 4) -/

/-- The engine whose table decodes a slot: the A engine first. -/
def wordEngine (w : Nat) : Eng :=
  match decode .a (BitVec.ofNat 96 w) with
  | .ok _ => .a
  | .error _ => .x

/-- The window entry that maps the 64 KiB at device virtual address 0 to guest physical address 0, executable (R227). -/
def placeWindow : BitVec 128 := 0x11#128
/-- The code line: its link word, the slot as slot 0, and four NOP slots. -/
def placeLine (e : Eng) (w : Nat) : List Byte :=
  leBytes 4 (match e with | .a => 0 | .x => 0x40000000) ++ leBytes 12 w ++ List.replicate 48 0

/-- The state in which the next step fetches and executes the slot `w` on hearth 0 (log 4). -/
def placeWord (s : State) (w : Nat) : State :=
  let e := wordEngine w
  let x := s.hearth 0
  let g : EngState := { x.act.es e with
    pc := 4, line := none, done := false, sret := none, stopped := false, slipWait := false, slipPass := false, hold := false, icache := [] }
  let x : Hearth := { x with
    run := .running, asks := [{ who := .code e, addr := 0 }], win := tput x.win 0 placeWindow, act := { x.act.setEs e g with bad := [] }, cacheBad := [], winBad := [] }
  let p : Part := { s.part 0 with
    alive := true, rafters := (s.part 0).rafters ||| 1, s2 := [{ v := true, frame := 0 }] }
  let s := (s.setHearth 0 x).setPart 0 p
  { s with
    slices := s.slices.map fun q => if q.1 = sliceOf 0 then (q.1, { q.2 with bad := [] }) else q
    mem := mwrite s.mem 0 (placeLine e w), poison := s.poison.filter (64 ≤ ·)
    pw := { s.pw with cur := 0, gates := tdel s.pw.gates 0 }, due := [], agenda := [.engine 0 e] }

end Sys2Proof.Machine
end

