-- ==== Sys2Proof/Machine/SysRegs.lean ====
section
/-!
DEFINITION. The system registers (03 R59-R66) and their register-specific checks, as MOVS and MOVF, a dispatch and an
on-chip map write of group 14 reach them.
-/
set_option autoImplicit false

namespace Sys2Proof.Machine

def freshSrSeed : Word := 0x9E3779B97F4A7C15
def freshMSeed : Word := 0xD1B54A32D192ED03
/-- R109, R397: the state 0 is never held. -/
def nonzeroSeed (fresh v : Word) : Word := if v = 0 then fresh else v

/-- HID (R61). -/
def State.hid (s : State) (h : Nat) : Word :=
  let p : BitVec 8 := match s.ownerOf h with | some p => BitVec.ofNat 8 p | none => 0xFF
  (0 : BitVec 32) ++ Config.step ++ (1 : BitVec 8) ++ p ++ BitVec.ofNat 8 h

def Mode.code : Mode → BitVec 2 | .t => 0 | .s => 1 | .h => 2

/-- The loss counters of HSTAT (R62), the part of it that the context holds. -/
def Ctx.hstatCounters (c : Ctx) : Word := c.impb ++ c.stdrop ++ c.embdrop ++ (0 : BitVec 16)

/-- HSTAT (R62). -/
def State.hstat (s : State) (h : Nat) : Word :=
  let x := s.hearth h
  let fix := match s.ownerOf h with | some p => (s.part p).fixclk | none => false
  x.act.hstatCounters ||| ((0 : BitVec 60) ++ BitVec.ofBool fix ++ x.mode.code ++ BitVec.ofBool x.halfH1)

/-- DEFCFG (R64). -/
def Ctx.defcfg (c : Ctx) : Word :=
  (0 : BitVec 4) ++ c.defCount ++ (0 : BitVec 4) ++ c.defCap ++ (0 : BitVec 11) ++ c.defBase

/-- A TCFG value that R66 allows. -/
def tcfgOk (v : Word) : Bool :=
  if v = 0 then true
  else
    let ty := bits v.toNat 0 4
    let rows := bits v.toNat 7 7
    let cols := bits v.toNat 16 12
    let planes := bits v.toNat 28 4
    let t := DType.ofCode (BitVec.ofNat 4 ty)
    let width := if t = .bp then planes else tyBits t
    ty < 14 && 1 ≤ rows && rows ≤ 64 && 1 ≤ cols && ty != 2 && ty != 3
      && (if t = .bp then 1 ≤ planes && planes ≤ 8 && cols % 64 == 0 else planes == 0)
      && (t != .i4 || cols % 2 == 0) && cols * width ≤ 2048

/-- TCFG as it is held: only the RW fields (R9, R60). -/
def tcfgMask : Word := 0xFFFF3F8F

/-- DEFCFG's check (R64). -/
def defcfgOk (v : Word) : Bool :=
  let base := bits v.toNat 0 21
  let cap := bits v.toNat 32 12
  base % 32 == 0 && cap ≤ 2048 && base + 32 * cap ≤ scratchSize

/-- A context system register as group 14 holds it (R59): HSTAT's counters only; none where the Context column does not
say yes. -/
def Ctx.sysWord (c : Ctx) (n : Nat) : Option Word :=
  if n = 0x002 then some c.ctxid
  else if n = 0x010 then some (c.slipw.setWidth 64)
  else if n = 0x011 then some c.hstatCounters
  else if n = 0x012 then some (c.regopen.setWidth 64)
  else if n = 0x013 then some c.defcfg
  else if n = 0x014 then some c.srseed
  else if n = 0x015 then some c.mseed
  else if 0x020 ≤ n ∧ n ≤ 0x027 then some (tget 0 c.tcfg (n - 0x20))
  else none

/-- The write of a system register's RW fields with its checks: the fault and its address, or the context (R60-R66). -/
def Ctx.writeSys (c : Ctx) (n : Nat) (v : Word) : Except (FaultCode × Word) Ctx :=
  if n = 0x010 then .ok { c with slipw := v.setWidth 12 }
  else if n = 0x011 then
    .ok { c with embdrop := v.extractLsb' 16 16, stdrop := v.extractLsb' 32 16, impb := v.extractLsb' 48 16 }
  else if n = 0x012 then .ok { c with regopen := v.setWidth 16 }
  else if n = 0x013 then
    if defcfgOk v then
      .ok { c with defBase := v.setWidth 21, defCap := v.extractLsb' 32 12, defCount := 0, defHead := 0 }
    else .error (.scratchRange, (v.setWidth 21).setWidth 64)
  else if n = 0x014 then .ok { c with srseed := nonzeroSeed freshSrSeed v }
  else if n = 0x015 then .ok { c with mseed := nonzeroSeed freshMSeed v }
  else if 0x020 ≤ n ∧ n ≤ 0x027 then
    let w := v &&& tcfgMask
    if tcfgOk w then .ok { c with tcfg := tput c.tcfg (n - 0x20) w } else .error (.tileShape, BitVec.ofNat 64 (n - 0x20))
  else .ok c

/-- A MOVF of any register of R59; the hobs and the chimney's core have no virtual function (R346). -/
def State.readSys (s : State) (n : Nat) : Word :=
  if n = 0x000 then s.hid s.cur
  else if n = 0x001 then s.dcc
  else if n = 0x011 then s.hstat s.cur
  else if n = 0x030 then if s.cur < 192 then (s.vf s.ctx.vf).gtime else 0
  else if n = 0x031 then if s.cur < 192 then (s.vf s.ctx.vf).stolen else 0
  else if n = 0x040 then s.me.ffaddr
  else (s.ctx.sysWord n).getD 0

/-- Whether an issued matrix command names tile t. -/
def Hearth.tileBusy (x : Hearth) (t : Nat) : Bool :=
  x.matq.any fun c => (tilesOf c.instr ++ metaTile c.instr).any fun r => r.toNat == t

end Sys2Proof.Machine
end

