-- ==== Sys2Proof/Machine/Flues.lean ====
section
/-!
DEFINITION. The flue instructions of both engines (06 R140-R147).
-/
set_option autoImplicit false

namespace Sys2Proof.Machine

def flueNo (f : Reg) : Word := f.setWidth 64

/-- The FLUE_STATE check of an instruction that names flue f. -/
def reqFlue (s : State) (c : Bool) (f : Reg) (k : Res) : Res := req s c .flueState (flueNo f) k

/-! ### Open, close, fork (R140-R142) -/

/-- The opcodes of the copy commands that name a data flue, and those that name a flue of S1 (R167, R173). -/
def CopyCmd.usesFd (c : CopyCmd) : Bool := c.op == 0x62 || c.op == 0x64 || c.op == 0x65
def CopyCmd.usesFs (c : CopyCmd) : Bool := c.op == 0x63 || c.op == 0x64 || c.op == 0x65
def CopyCmd.names (c : CopyCmd) (f : Nat) : Bool := (c.usesFd && c.fd.toNat == f) || (c.usesFs && c.fs.toNat == f)
def MergeCmd.names (c : MergeCmd) (f : Nat) : Bool := c.fd.toNat == f || c.f1.toNat == f || c.f2.toNat == f
def MatCmd.namesFlue (c : MatCmd) (f : Nat) : Bool :=
  match c.instr with
  | .tld _ _ r => r.toNat == f
  | .tstFlue _ r _ _ _ => r.toNat == f
  | _ => false

/-- An issued command that names flue f has not ended. -/
def Hearth.flueNamed (x : Hearth) (f : Nat) : Bool :=
  x.act.copyq.any (·.names f) || x.act.mergeq.any (·.names f) || x.act.blowq.any (fun c => c.fd.toNat == f)
    || x.matq.any (·.namesFlue f)

/-- A command that names flue f is held on a pending guard slot. -/
def Hearth.flueHeld (x : Hearth) (f : Nat) : Bool :=
  x.act.copyq.any (fun c => c.held && c.names f) || x.act.mergeq.any (fun c => c.held && c.names f)
    || x.act.blowq.any fun c => c.held && c.fd.toNat == f

def kindNo : FlKind → BitVec 3
  | .eng => 0 | .copy => 1 | .gath => 2 | .merge => 3 | .remote => 4 | .blow => 5

/-- The region of a new primary meets that of an open one (R121). -/
def Ctx.meets (c : Ctx) (lo hi : Nat) : Bool :=
  (List.range 32).any fun i =>
    let f := c.flue i
    f.opened && !f.fork && lo < f.hi && f.lo < hi

def execFlopen (g : Guard) (k : FlKind) (restart auto : Bool) (f : Reg) (base : Reg) (ss cc : BitVec 4) (s : State) : Out :=
  aInstr g s <|
    let x := s.me
    let a := s.reg base
    let n : Flue := { base := a.setWidth 21, ss := ss, cc := cc, kind := kindNo k, restart := restart, auto := auto
                      opened := true }
    let hi := a.toNat + n.ring + (if restart then 0 else n.ring / 32)
    let lo := if k = .remote then a.toNat - 16 else a.toNat
    reqFlue s (!(x.flue f.toNat).opened) f <|
    req s (a.toNat % 64 == 0 && (k != .remote || 16 ≤ a.toNat) && hi ≤ scratchSize) .scratchRange a <|
    reqFlue s (k != .blow || restart) f <|
    reqFlue s (!x.act.meets lo hi) f <|
      let x := if k = .remote then x.writeScratch lo (List.replicate 16 0) else x
      .done ((s.setMe (x.setFlue f.toNat n)).cleanImage (0x6000 + 128 * f.toNat) 128)

/-- An X read whose flue closes while it waits raises FLUE_STATE (R128). -/
def readCloses (s : State) (n : Nat) : State :=
  if s.me.awaits n then takeFault s s.cur { code := .flueState, addr := BitVec.ofNat 64 n, src := 1 } else s

/-- FLCLOSE (R141). A closed flue's record is zero throughout, and its primary's PEER with FORKED (DESIGN CHOICE, log
102). -/
def execFlclose (g : Guard) (f : Reg) (s : State) : Out :=
  aInstr g s <|
    let x := s.me
    let n := f.toNat
    let v := x.flue n
    reqFlue s v.opened f <| reqFlue s (!v.forked) f <| reqFlue s (!x.flueHeld n) f <|
      if x.flueNamed n then .wait s false
      else
        let c := x.act.setFlue n {}
        let p := v.peer.toNat
        .done (readCloses (s.setMe (if v.fork then x.withFlues (c.setFlue p { c.flue p with forked := false, peer := 0 }) p
          else { x with act := c })) n)

/-- FLFORK (R142). The second reader's record holds 0 in BASE, SS, CC and KIND, which are its primary's (DESIGN CHOICE,
log 102). -/
def execFlfork (g : Guard) (f p : Reg) (auto : Bool) (s : State) : Out :=
  aInstr g s <|
    let x := s.me
    let v := x.flue p.toNat
    reqFlue s (!(x.flue f.toNat).opened) f <| reqFlue s (v.opened && !v.fork && !v.forked) p <|
      let r : Flue := { restart := v.restart, auto := auto, opened := true, fork := true, peer := p, head := v.head
                        read := v.head }
      let x := { x with act := x.act.setFlue f.toNat r }
      .done ((s.setMe (x.setFlue p.toNat { v with forked := true, peer := f })).cleanImage (0x6000 + 128 * f.toNat) 128)

/-! ### Marks (R143, R131) -/

def markCode : MarkMode → Nat | .clear => 0 | .pin => 1 | .soft => 2

def execFlmark (g : Guard) (f : Reg) (m : BitVec 2) (mode : MarkMode) (s : State) : Out :=
  aInstr g s <|
    let x := s.me
    let v := x.flue f.toNat
    reqFlue s v.opened f <|
      .done (s.setMe (x.setFlue f.toNat (v.setMark m (markCode mode) (if mode = .clear then v.mark m else v.read))))

def execFlrewind (g : Guard) (f : Reg) (m : BitVec 2) (s : State) : Out :=
  aInstr g s <|
    let x := s.me
    let v := x.flue f.toNat
    let p := x.flue (x.act.primary f.toNat)
    let t := v.mark m
    reqFlue s v.opened f <|
    req s (v.markMode m != 0 && !earlier v.read t && (v.markMode m != 2 || (p.claim - t).toNat ≤ p.slots)) .flueMark
      (flueNo f) <|
      .done (s.setMe (x.setFlue f.toNat { v with read := t, head := earliest v.head t }))

/-! ### Claims, publishes and waits (R144) -/

/-- The address of the slot at a position of a ring. -/
def slotWord (p : Flue) (pos : BitVec 32) : Word := BitVec.ofNat 64 (p.slotAddr pos)

def engineFed (v : Flue) : Bool := !v.fork && v.kind == 0 && v.fed != 2

def execClaim (g : Guard) (d : Reg) (f : Reg) (n : Src) (s : State) : Out :=
  aInstr g s <|
    let x := s.me
    let v := x.flue f.toNat
    let k := (s.src n).toNat
    reqFlue s v.opened f <| reqFlue s (engineFed v) f <|
    req s (k ≤ x.act.freeSlots f.toNat) .flueOverrun (flueNo f) <|
      .done ((s.setMe (x.setFlue f.toNat { v with fed := 1, claim := v.claim + BitVec.ofNat 32 k })).setReg d
        (slotWord v v.claim))

def execPublish (g : Guard) (f : Reg) (n : Src) (s : State) : Out :=
  aInstr g s <|
    let x := s.me
    let v := x.flue f.toNat
    let k := (s.src n).toNat
    reqFlue s v.opened f <| reqFlue s (engineFed v) f <|
    req s (k ≤ (v.claim - v.tail).toNat) .flueOverrun (flueNo f) <|
      .done (s.setMe ((x.publish f.toNat k).setResident f.toNat v.tail k))

def execWaitfree (g : Guard) (d : Reg) (f : Reg) (n : Src) (s : State) : Out :=
  aInstr g s <|
    let x := s.me
    let q := x.act.primary f.toNat
    let p := x.flue q
    let k := (s.src n).toNat
    reqFlue s (x.flue f.toNat).opened f <| reqFlue s (k ≤ p.slots) f <|
      if x.act.freeSlots q < k then .wait s false else .done (s.setReg d (slotWord p p.claim))

def execWaitfill (g : Guard) (d : Reg) (f : Reg) (n : Src) (s : State) : Out :=
  aInstr g s <|
    let x := s.me
    let v := x.flue f.toNat
    let p := x.flue (x.act.primary f.toNat)
    let k := (s.src n).toNat
    reqFlue s v.opened f <| reqFlue s (k ≤ p.slots) f <|
      if x.act.fullSlots f.toNat < k then .wait s false else .done (s.setReg d (slotWord p v.read))

/-- FLSTAT's value (R145). -/
def flueStat (c : Ctx) (k : FlStat) (n : Nat) : Nat :=
  let v := c.flue n
  let p := c.flue (c.primary n)
  match k with
  | .head => v.head.toNat
  | .tail => p.tail.toNat
  | .claim => p.claim.toNat
  | .head2 => if v.fork || v.forked then (c.flue v.peer.toNat).head.toNat else v.head.toNat
  | .full => c.fullSlots n

def execFlstat (g : Guard) (k : FlStat) (d : Reg) (f : Reg) (s : State) : Out :=
  aInstr g s <|
    reqFlue s (s.me.flue f.toNat).opened f <| .done (s.setReg d (BitVec.ofNat 64 (flueStat s.ctx k f.toNat)))

/-! ### RELEASE and RESP (R146, R147) -/

def execRelease (g : Guard) (f : Reg) (n : Src) (s : State) : Out :=
  xInstr g s fun _ =>
    let x := s.me
    let v := x.flue f.toNat
    let k := (s.src n).toNat
    reqFlue s v.opened f <| req s (k ≤ (v.read - v.head).toNat) .flueOverrun (flueNo f) <|
      .done (s.setMe (x.setFlue f.toNat { v with head := v.head + BitVec.ofNat 32 k }))

/-- The residency bit of cell k of the slot at a position; 0 beyond the slot. -/
def residentCell (x : Hearth) (p : Flue) (pos : BitVec 32) (k : Nat) : Bool :=
  let cells := p.slotBytes / 4
  let bit := (pos.toNat % p.slots) * cells + k
  k < cells && (mget x.scratch (p.base.toNat + p.ring + bit / 8)).getLsbD (bit % 8)

/-- The residency bytes of the at most 64 cells of a slot from cell k on (R134): their address and number. -/
def residencyBytes (p : Flue) (pos : BitVec 32) (k : Nat) : Nat × Nat :=
  let cells := p.slotBytes / 4
  let bit := (pos.toNat % p.slots) * cells + k
  let n := min 64 (cells - k)
  (p.base.toNat + p.ring + bit / 8, if n = 0 then 0 else (bit % 8 + n + 7) / 8)

def execResp (g : Guard) (f : Reg) (blk : BitVec 6) (s : State) : Out :=
  xInstr g s fun _ =>
    let x := s.me
    let v := x.flue f.toNat
    let p := x.flue (x.act.primary f.toNat)
    reqFlue s (v.opened && !v.restart && v.read != v.head) f <|
      let l := residencyBytes p (v.read - 1) (64 * blk.toNat)
      if poisoned x l.1 l.2 then poisonTrap s 2 (poisonOfs x l.1 l.2)
      else
      pushPred s ((List.range 64).foldl (fun m j =>
        if residentCell x p (v.read - 1) (64 * blk.toNat + j) then m ||| (1#64 <<< j) else m) 0)

end Sys2Proof.Machine
end

