-- ==== Sys2Proof/Machine/Desc.lean ====
section
/-!
DEFINITION. Tensor descriptors: fields, validity and element addresses (07 R162-R164).
-/
set_option autoImplicit false

namespace Sys2Proof.Machine

/-- A tensor descriptor, unpacked (R162). -/
structure TDesc where
  base : Nat
  ty : Nat
  rank : Nat
  planes : Nat
  space : Nat
  dims : List Nat
  strides : List Int
  scaleb : Nat
  scptr : Nat
  reserved : Bool
  deriving DecidableEq, Repr

def tdesc (d : BitVec 1024) : TDesc :=
  let v := d.toNat
  { base := bits v 0 48, ty := bits v 64 4, rank := bits v 68 4, planes := bits v 72 4, space := bits v 78 2
    dims := (List.range 10).map fun i => bits v (8 * (0x10 + 4 * i)) 32
    strides := (List.range 10).map fun i => sextNat 40 (bits v (8 * (0x38 + 5 * i)) 40)
    scaleb := bits v (8 * 0x6C) 32, scptr := bits v (8 * 0x70) 48
    reserved := bits v 48 16 == 0 && bits v 80 48 == 0 && bits v (8 * 0x6A) 16 == 0 && bits v (8 * 0x70 + 48) 16 == 0
      && bits v (8 * 0x78) 64 == 0 }

def TDesc.isBp (d : TDesc) : Bool := d.ty == 12
def TDesc.isI4 (d : TDesc) : Bool := d.ty == 13
/-- Elements moved together: an INT4 pair, a bit-plane group, else one element (R164). -/
def TDesc.unitElems (d : TDesc) : Nat := if d.isBp then 64 else if d.isI4 then 2 else 1
/-- The bytes moved together. -/
def TDesc.unitBytes (d : TDesc) : Nat :=
  if d.isBp then 8 * d.planes else if d.isI4 then 1 else tyBits (DType.ofCode (BitVec.ofNat 4 d.ty)) / 8

/-- The extents of the descriptor's own dimensions. -/
def TDesc.extents (d : TDesc) : List Nat := d.dims.take d.rank
def TDesc.count (d : TDesc) : Nat := d.extents.foldl (· * ·) 1
/-- The descriptor's byte count (R164). -/
def TDesc.byteCount (d : TDesc) : Nat := d.count / d.unitElems * d.unitBytes

/-- The least and greatest element offset of a descriptor without a zero extent. -/
def TDesc.offRange (d : TDesc) : Int × Int :=
  ((d.extents.zip d.strides).map fun p => ((p.1 : Int) - 1) * p.2).foldl
    (fun r x => if x < 0 then (r.1 + x, r.2) else (r.1, r.2 + x)) (0, 0)

/-- The address, relative to BASE, of the unit that holds the element at an offset (R164). -/
def TDesc.unitOff (d : TDesc) (off : Int) : Int :=
  if d.isBp then off / 64 * ((8 * d.planes : Nat) : Int) else if d.isI4 then off / 2 else off * (d.unitBytes : Int)

/-- The last condition of R163. -/
def TDesc.inSpace (d : TDesc) : Bool :=
  let (mn, mx) := d.offRange
  let lo := (d.base : Int) + d.unitOff mn
  let hi := (d.base : Int) + d.unitOff mx + d.unitBytes
  decide (0 ≤ lo) &&
    (if d.space = 0 then decide (hi ≤ ((2 ^ 48 : Nat) : Int))
     else if d.space = 1 then
       decide (hi ≤ ((2 ^ 40 : Nat) : Int)) && lo.toNat / 2 ^ 22 == (hi.toNat - 1) / 2 ^ 22
         && (hi.toNat - 1) % 2 ^ 22 < 2 ^ 21
     else decide (hi ≤ (scratchSize : Int)))

/-- R163. -/
def TDesc.valid (d : TDesc) : Bool :=
  let s0 := d.strides.getD 0 0
  d.reserved && d.space != 3 && d.ty < 14
    && (if d.isBp then 2 ≤ d.planes && d.planes ≤ 8 else d.planes == 0)
    && 1 ≤ d.rank && d.rank ≤ 10
    && (d.dims.drop d.rank).all (· == 0) && (d.strides.drop d.rank).all (· == 0)
    && (!d.isI4 || (s0 == 1 && d.dims.getD 0 0 % 2 == 0 && ((d.strides.take d.rank).drop 1).all (· % 2 == 0)))
    && (!d.isBp || (s0 == 1 && d.dims.getD 0 0 % 64 == 0 && ((d.strides.take d.rank).drop 1).all (· % 64 == 0)))
    && d.byteCount < 2 ^ 40
    && (d.extents.contains 0 || d.inSpace)

/-- The offset of linear element e: index 0 runs fastest (R164). -/
def linearOff : List Nat → List Int → Nat → Int
  | n :: ns, st :: sts, e => ((e % n : Nat) : Int) * st + linearOff ns sts (e / n)
  | _, _, _ => 0

/-- The address of the unit that holds linear element e. -/
def TDesc.unitAddr (d : TDesc) (e : Nat) : Nat :=
  ((d.base : Int) + d.unitOff (linearOff d.extents d.strides e)).toNat

/-- Elements of the sub-tensor that one index selects (R179). -/
def TDesc.subCount (d : TDesc) : Nat := (d.extents.take (d.rank - 1)).foldl (· * ·) 1
def TDesc.lastDim (d : TDesc) : Nat := d.extents.getD (d.rank - 1) 0

/-- R113: a scale pointer with a base that is not a finite normal FP32 value. -/
def TDesc.badScale (d : TDesc) : Bool := d.scptr != 0 && !isNormalF32 d.scaleb

def Ctx.desc (c : Ctx) (n : Nat) : BitVec 1024 := tget 0 c.td n

/-! ### TDSET (R175) -/

/-- An issued command that has not ended names descriptor n: a copy command, or a memory-form TST. -/
def Hearth.tdNamed (x : Hearth) (n : Nat) : Bool :=
  x.act.copyq.any (fun c => c.ta.toNat == n || (c.op == 0x61 && c.tb.toNat == n))
    || x.matq.any fun c => match c.instr with | .tstMemory _ _ _ td _ => td.toNat == n | _ => false

def execTdset (g : Guard) (s1 s2 : Reg) (n : BitVec 6) (s : State) : Out :=
  aInstr g s <|
    let x := s.reg s1
    let o := s.reg s2
    req s (x.toNat + 128 ≤ scratchSize) .scratchRange x <| req s (x.toNat % 8 == 0) .align x <|
      if poisoned s.me x.toNat 128 then poisonTrap s 2 (poisonOfs s.me x.toNat 128) else
      let img := BitVec.ofNat 1024 (s.me.readScratch x.toNat 128)
      let img := if s2 = 0 then img else img &&& ~~~(BitVec.allOnes 48).setWidth 1024 ||| (o.setWidth 48).setWidth 1024
      req s (s2 == 0 || o.toNat < 2 ^ 48) .tdesc x <| req s (tdesc img).valid .tdesc x <|
        if s.me.tdNamed n.toNat then .wait s false
        else .done ((s.setCtx { s.ctx with td := tput s.ctx.td n.toNat img }).cleanImage (0x2000 + 128 * n.toNat) 128)

end Sys2Proof.Machine
end

