-- ==== Sys2Proof/Machine/CopyOps.lean ====
section
/-!
DEFINITION. How the units of a hearth move bytes: reads and writes of the three spaces (07 R159-R164), production into a
flue (06 R126, R134), reading a flue as a unit (R129), and completions (07 R169-R172).
-/
set_option autoImplicit false

namespace Sys2Proof.Machine

/-! ### Line pieces of a byte range -/

/-- The pieces of [a, a + n) that lie in one 64-byte line each. -/
def linePieces : Nat → Nat → Nat → List (Nat × Nat)
  | 0, _, _ => []
  | _ + 1, _, 0 => []
  | k + 1, a, n =>
    let m := min n (64 - a % 64)
    (a, m) :: linePieces k (a + m) (n - m)

def piecesOf (a n : Nat) : List (Nat × Nat) := linePieces (n / 64 + 2) a n

/-- A write of the hearth to a guest line that is sent and has not landed, and for which a read of the line waits: a
published store (R247), or a write of the reading command itself, whose elements go in order (R177; log 78). -/
def ownInFlight (s : State) (h uid : Nat) (t : Trn) : Bool :=
  anyOp s fun op => op.src == h && op.part == t.part && op.gline == lineNo t.gpa && (match op.kind with
    | .store => true
    | .copy u => u == uid
    | _ => false)

/-! ### Reads -/

/-- What a unit's read of bytes gives: the bytes, each with whether it is the zero of a non-resident page; a wait; or a
fault with the address of the first byte that fails. -/
inductive Got where
  | ok (l : List (Byte × Bool)) (s : State)
  | wait
  | fault (s : State) (code : FaultCode) (addr : Nat)
  | poison (s : State) (array : Byte) (loc : Nat) (slice : Option Nat)

/-- Reads memory through the hearth's window table, line piece by line piece; `zero` says that a non-resident page reads
as zeros (R134), and `uid` is the number of the reading copy command, 0 for the bellows. -/
def readVirtual (s : State) (h uid : Nat) (zero : Bool) (a n : Nat) : Got :=
  (piecesOf a n).foldl (fun r p =>
    match r with
    | .ok l s =>
      match translate s h .read (BitVec.ofNat 64 p.1) with
      | .error .nonresident => if zero then .ok (l ++ List.replicate p.2 (0, true)) s else .fault s .nonresident p.1
      | .error c => .fault s c p.1
      | .ok t =>
        if ownInFlight s h uid t then .wait
        else if poisonedCopy s (dieOf h) t.ent t.gpa p.2 then .poison s 0 (t.ent.readAt (dieOf h) t.gpa) none
        else match copyWordPoison s (dieOf h) t.ent t.gpa with
        | (some (n, w), s) => .poison s 1 (4 * w) (some n)
        | (none, s) =>
          let (b, s) := readGuest s (dieOf h) t.ent t.gpa p.2
          .ok (l ++ b.map fun x => (x, false)) s
    | r => r) (.ok [] s)

/-- R160 check 1: the window's hearth belongs to the accessing hearth's partition; a core in H mode may touch every one
(R23). -/
def windowOk (s : State) (h w : Nat) : Bool :=
  w < 192 && (s.ownerOf w).isSome && (192 ≤ h || s.ownerOf w == s.ownerOf h)

/-- Reads another scratchpad through the on-chip map, after every write the hearth has sent there (R161). -/
def readMap (s : State) (h a n : Nat) : Got :=
  let w := a / 2 ^ 22
  if !windowOk s h w then .fault s .windowPerm a
  else if s.ocm.any fun m => m.src == h && m.addr.toNat / 2 ^ 22 == w then .wait
  else if poisoned (s.hearth w) (a % 2 ^ 22) n then .poison s 2 (poisonOfs (s.hearth w) (a % 2 ^ 22) n) (some w)
  else .ok ((mbytes (s.hearth w).scratch (a % 2 ^ 22) n).map fun x => (x, false)) s

def readLocal (s : State) (h a n : Nat) : Got :=
  if poisoned (s.hearth h) a n then .poison s 2 (poisonOfs (s.hearth h) a n) none
  else .ok ((mbytes (s.hearth h).scratch a n).map fun x => (x, false)) s

/-- The reads of n bytes at a device virtual address, one for each line piece (R15-R17): none where a piece does not
translate, which faults at once. -/
def virtualAsks (s : State) (h a n : Nat) : List (Nat × Path) :=
  let l := (piecesOf a n).map fun p => match translate s h .read (BitVec.ofNat 64 p.1) with
    | .ok t => some (lineNo t.gpa, t.ent.readPath s h t.part (lineNo t.gpa))
    | .error _ => none
  if l.all (·.isSome) then l.filterMap id else []

/-- The reads of the unit that holds linear element e of a descriptor (R161 for a window of another hearth). -/
def unitAsks (s : State) (h : Nat) (d : TDesc) (e : Nat) : List (Nat × Path) :=
  let a := d.unitAddr e
  if d.badScale then []
  else if d.space = 0 then virtualAsks s h a d.unitBytes
  else if d.space = 1 && windowOk s h (a / 2 ^ 22) then [(a, mapPath h (a / 2 ^ 22))]
  else []

/-- Reads the unit that holds linear element e of a descriptor. -/
def readUnit (s : State) (h uid : Nat) (zero : Bool) (d : TDesc) (e : Nat) : Got :=
  if d.badScale then .fault s .tdesc 0
  else if d.space = 0 then readVirtual s h uid zero (d.unitAddr e) d.unitBytes
  else if d.space = 1 then readMap s h (d.unitAddr e) d.unitBytes
  else readLocal s h (d.unitAddr e) d.unitBytes

/-! ### Writes -/

/-- What a unit's write gives: the state, the operations sent, and the bytes already landed. -/
inductive Put where
  | ok (s : State) (sent landed : Nat)
  | fault (s : State) (code : FaultCode)

/-- Writes memory: every piece is translated before any is sent (R236, R241). -/
def writeVirtual (s : State) (h uid a : Nat) (l : List Byte) : Put :=
  let ps := piecesOf a l.length
  let bad := ps.findSome? fun p => match translate s h .write (BitVec.ofNat 64 p.1) with
    | .error c => some c
    | .ok _ => none
  match bad with
  | some c => .fault s c
  | none =>
    let s := ps.foldl (fun s p => match translate s h .write (BitVec.ofNat 64 p.1) with
      | .error _ => s
      | .ok t =>
        sendOp s { kind := .copy uid, part := t.part, src := h, ctxid := (s.hearth h).act.ctxid, gline := lineNo t.gpa
                   bytes := (List.range p.2).map fun i => (t.gpa + i - lineNo t.gpa, l.getD (p.1 - a + i) 0) }) s
    .ok s ps.length 0

/-- Sends an on-chip map write (R161); `uid` is the number of the copy command whose payload it is, 0 for a completion.
-/
def sendMap (s : State) (h uid a : Nat) (k : OcmKind) (l : List Byte) : State :=
  { s with ocm := s.ocm ++
      [{ src := h, smode := (s.hearth h).mode == .s, kind := k, addr := BitVec.ofNat 40 a, bytes := l, uid := uid
         path := pathToHearth h (a / 2 ^ 22) }] }

/-- Writes the unit that holds linear element e of a descriptor. Bytes sent to a memory or over the on-chip map land
later (R161, R169). -/
def writeUnit (s : State) (h uid : Nat) (d : TDesc) (e : Nat) (l : List Byte) : Put :=
  let a := d.unitAddr e
  if d.badScale then .fault s .tdesc
  else if d.space = 0 then writeVirtual s h uid a l
  else if d.space = 1 then
    if windowOk s h (a / 2 ^ 22) then .ok (sendMap s h uid a .data l) 1 0 else .fault s .windowPerm
  else .ok (storeAt s h a l) 0 l.length

/-! ### Production into a flue (R126) -/

/-- Residency bits of bytes written at ring offset o (R134): a cell that holds a delivered zero is 0; another cell takes
1 with its first byte. -/
def Hearth.markCells (x : Hearth) (n o : Nat) (l : List Bool) : Hearth :=
  if (x.flue n).restart then x
  else (List.range l.length).foldl (fun x i =>
    if l.getD i false then x.setCells n (o + i) 1 false
    else if (o + i) % 4 = 0 then x.setCells n (o + i) 1 true
    else x) x

/-- Writes bytes at the fill position of the slot that stands claimed. -/
def Hearth.fillSlot (x : Hearth) (n : Nat) (l : List (Byte × Bool)) : Hearth :=
  let f := x.flue n
  let pos := f.slot.setWidth 32
  let a := f.slotAddr pos + f.sofs.toNat
  let x := x.writeScratch a (l.map (·.1))
  let x := x.markCells n (a - f.base.toNat) (l.map (·.2))
  x.setFlue n { x.flue n with sofs := f.sofs + BitVec.ofNat 64 l.length }

/-- Claims the next slot when none is being filled. -/
def Hearth.openSlot (x : Hearth) (n : Nat) : Hearth :=
  let f := x.flue n
  if f.sofs = 0 then x.setFlue n { f with slot := f.claim.setWidth 64, claim := f.claim + 1 } else x

/-- Publishes the slot being filled, zero-filling what is left of it; zero-fill cells take residency 1. -/
def Hearth.closeSlot (x : Hearth) (n : Nat) : Hearth :=
  let f := x.flue n
  let rest := f.slotBytes - f.sofs.toNat
  let x := x.fillSlot n (List.replicate rest (0, false))
  (x.publish n 1).setFlue n { (x.publish n 1).flue n with sofs := 0 }

/-- Produces bytes into a flue, as far as the slot being filled reaches: the hearth, the element bytes whose slot was
published, and the bytes taken; none when there is no free slot. -/
def produce (x : Hearth) (n : Nat) (l : List (Byte × Bool)) : Option (Hearth × Nat × Nat) :=
  let f := x.flue n
  if f.sofs = 0 && x.act.freeSlots n = 0 then none
  else
    let x := x.openSlot n
    let k := min l.length (f.slotBytes - (x.flue n).sofs.toNat)
    let x := x.fillSlot n (l.take k)
    if (x.flue n).sofs.toNat = f.slotBytes then
      some ((x.publish n 1).setFlue n { (x.publish n 1).flue n with sofs := 0 }, f.slotBytes, k)
    else some (x, 0, k)

/-! ### Reading a flue as a unit (R129) -/

/-- `k` bytes from byte offset `o` of the slots at READ on: none until they are full. -/
def unitBytesAt (x : Hearth) (n o k : Nat) : Option (List Byte) :=
  let f := x.flue n
  let p := x.flue (x.act.primary n)
  let sb := p.slotBytes
  let need := if k = 0 then 0 else (o + k - 1) / sb + 1
  if x.act.fullSlots n < need then none
  else some ((List.range k).map fun i =>
    mget x.scratch (p.slotAddr (f.read + BitVec.ofNat 32 ((o + i) / sb)) + (o + i) % sb))

/-- The poisoned scratchpad word among those bytes (R358). -/
def unitBad (x : Hearth) (n o k : Nat) : Option Nat :=
  let p := x.flue (x.act.primary n)
  let sb := p.slotBytes
  let place (i : Nat) : Nat := p.slotAddr ((x.flue n).read + BitVec.ofNat 32 ((o + i) / sb)) + (o + i) % sb
  ((List.range k).find? fun i => poisoned x (place i) 1).map fun i => poisonOfs x (place i) 1

/-- Whether unit `who` may read the head of flue n: no other unit is partway through its slot. -/
def Ctx.mayTake (c : Ctx) (who n : Nat) : Bool :=
  match c.taken.find? fun p => p.1 == n with
  | some (_, w) => w == who
  | none => true

/-- A unit has read up to byte offset `o`: the slots it finished are freed. The answer is the new offset. -/
def unitAdvance (x : Hearth) (who n o : Nat) : Hearth × Nat :=
  let sb := (x.flue (x.act.primary n)).slotBytes
  let x := if o / sb = 0 then x else x.consume n (o / sb)
  let t := if o % sb = 0 then tdel x.act.taken n else tput x.act.taken n who
  ({ x with act := { x.act with taken := t } }, o % sb)

/-- A unit leaves a flue: the slot it is partway through is freed with the rest. -/
def unitLeave (x : Hearth) (who n : Nat) : Hearth :=
  match x.act.taken.find? fun p => p.1 == n with
  | some (_, w) =>
    if w = who then { (x.consume n 1) with act := { (x.consume n 1).act with taken := tdel (x.consume n 1).act.taken n } }
    else x
  | none => x

/-! ### Completion -/

/-- A completion in a scratchpad: a SIGNAL word (R169), or the credit of bytes to a barrier (R172). -/
def writeSignal (s : State) (h a : Nat) (v : Word) : State := storeAt s h a (leBytes 8 v.toNat)

end Sys2Proof.Machine
end

