-- ==== Sys2Proof/Machine/Scalar.lean ====
section
/-!
DEFINITION. The scalar instructions (03 R67-R78): moves, literals, system registers, arithmetic, scratchpad loads and
stores, and the cross queues.
-/
set_option autoImplicit false

namespace Sys2Proof.Machine

/-- A scalar instruction without an execution fault that writes one register. -/
def scalar (g : Guard) (d : Reg) (s : State) (v : Word) : Out := common g s (.done (s.setReg d v))

/-- The same at a TYPE: the exact result is reduced and extended under R68. -/
def scalarTy (g : Guard) (d : Reg) (t : DType) (s : State) (r : Int) : Out := scalar g d s (resultTy t r)

def sat1 (t : DType) (sat : Bool) (r : Int) : Int := if sat then clampTy t r else r

/-! ### R69 -/

def execNop (s : State) : Out := common .always s (.done s)
def execMovi (g : Guard) (d : Reg) (imm : Word) (s : State) : Out := scalar g d s imm
def execMov (g : Guard) (d : Reg) (s1 : Src) (s : State) : Out := scalar g d s (s.src s1)

/-! ### R70 -/

def ldlBytes : LdlKind → Nat | .w64 => 8 | .w32 | .s32 => 4
def ldlWidth : LdlKind → Width | .w64 => .w64 | .w32 => .w32 | .s32 => .s32

def execLdl (g : Guard) (k : LdlKind) (d : Reg) (disp : BitVec 32) (s : State) : Out :=
  let a := lineOf s.pc + disp.signExtend 64
  let l := lineOf a
  let n := ldlBytes k
  common g s <|
    req s (a.toNat % n == 0 && 4 ≤ a.toNat % 64) .align a <|
    match lineHere s l with
    | (false, s) => .wait s false
    | (true, s) => match readLine s s.cur l with
    | .error c => codeTrap s c l a
    | .ok (w, s) =>
      let (w, s) := cachedLine s l w
      req s (linkEng w == 2) .lineEngine a <|
        let s := s.setEs { s.es with icache := cachePut s.es.icache l.toNat w }
        .done (s.setReg d (extendWidth (ldlWidth k) (bits w.toNat (8 * (a.toNat % 64)) (8 * n))))

/-! ### R71 -/

/-- MOVS and MOVF of MSEED wait until every MRG issued before has ended (R397). -/
def mseedWaits (s : State) (n : Nat) : Bool := n == 0x015 && !s.ctx.mergeq.isEmpty

def execMovs (g : Guard) (s1 : Src) (n : BitVec 12) (s : State) : Out :=
  let k := n.toNat
  privileged g (writeMode k) s <|
    match s.ctx.writeSys k (s.src s1) with
    | .error (code, a) => .trap s code a
    | .ok c =>
      if (0x020 ≤ k && s.me.tileBusy (k - 0x20)) || mseedWaits s k then .wait s false else .done ((s.setCtx c).cleanImage (0x1000 + 8 * k) 8)

def execMovf (g : Guard) (d : Reg) (n : BitVec 12) (s : State) : Out :=
  privileged g (readMode n.toNat) s <|
    if mseedWaits s n.toNat then .wait s false else .done (s.setReg d (s.readSys n.toNat))

/-! ### R72, R73 -/

def execAdd (g : Guard) (d : Reg) (s1 s2 s3 : Src) (ty : DType) (sat : Bool) (s : State) : Out :=
  scalarTy g d ty s (sat1 ty sat (s.srcTy ty s1 + s.srcTy ty s2 + s.srcTy ty s3))

def execSub (g : Guard) (d : Reg) (s1 s2 s3 : Src) (ty : DType) (sat : Bool) (s : State) : Out :=
  scalarTy g d ty s (sat1 ty sat (s.srcTy ty s1 - s.srcTy ty s2 - s.srcTy ty s3))

def execAddx (g : Guard) (d : Reg) (s1 s2 s3 : Src) (ty : DType) (s : State) : Out :=
  scalarTy g d ty s (carryOf ty (s.srcTy ty s1 + s.srcTy ty s2 + s.srcTy ty s3 % 2))

def execMul (g : Guard) (d : Reg) (s1 s2 : Src) (ty : DType) (sat : Bool) (s : State) : Out :=
  scalarTy g d ty s (sat1 ty sat (s.srcTy ty s1 * s.srcTy ty s2))

def execMulh (g : Guard) (d : Reg) (s1 s2 : Src) (ty : DType) (s : State) : Out :=
  scalarTy g d ty s ((s.srcTy ty s1 * s.srcTy ty s2) / ((2 ^ tyBits ty : Nat) : Int))

/-- Quotient and remainder of R73. -/
def divTy (t : DType) (x y : Int) : Int × Int :=
  if y = 0 then (-1, x)
  else if isSigned t ∧ x = tyMin t ∧ y = -1 then (x, 0)
  else (x.tdiv y, x - x.tdiv y * y)

def execDiv (g : Guard) (d : Reg) (s1 s2 : Src) (ty : DType) (s : State) : Out :=
  scalarTy g d ty s (divTy ty (s.srcTy ty s1) (s.srcTy ty s2)).1

def execRem (g : Guard) (d : Reg) (s1 s2 : Src) (ty : DType) (s : State) : Out :=
  scalarTy g d ty s (divTy ty (s.srcTy ty s1) (s.srcTy ty s2)).2

/-! ### R74 -/

/-- A bitwise operation at the width of a type. -/
def bitOp (f : Word → Word → Word) (g : Guard) (d : Reg) (s1 s2 : Src) (ty : DType) (s : State) : Out :=
  scalarTy g d ty s ((f (s.src s1) (s.src s2)).toNat : Int)

def execAnd (g : Guard) (d : Reg) (s1 s2 : Src) (ty : DType) (s : State) : Out := bitOp (· &&& ·) g d s1 s2 ty s
def execOr (g : Guard) (d : Reg) (s1 s2 : Src) (ty : DType) (s : State) : Out := bitOp (· ||| ·) g d s1 s2 ty s
def execXor (g : Guard) (d : Reg) (s1 s2 : Src) (ty : DType) (s : State) : Out := bitOp (· ^^^ ·) g d s1 s2 ty s
def execAndn (g : Guard) (d : Reg) (s1 s2 : Src) (ty : DType) (s : State) : Out := bitOp (· &&& ~~~ ·) g d s1 s2 ty s

def execShl (g : Guard) (d : Reg) (s1 s2 : Src) (ty : DType) (s : State) : Out :=
  scalarTy g d ty s (shiftL ty (s.srcTy ty s1) (s.srcBits ty s2))
def execShr (g : Guard) (d : Reg) (s1 s2 : Src) (ty : DType) (s : State) : Out :=
  scalarTy g d ty s (shiftR ty (s.srcTy ty s1) (s.srcBits ty s2))
def execSar (g : Guard) (d : Reg) (s1 s2 : Src) (ty : DType) (s : State) : Out :=
  scalarTy g d ty s (shiftA ty (s.srcTy ty s1) (s.srcBits ty s2))
def execRot (g : Guard) (d : Reg) (s1 s2 : Src) (ty : DType) (s : State) : Out :=
  scalarTy g d ty s (rotL ty (s.srcTy ty s1) (s.srcBits ty s2))

/-! ### R75 -/

def execMin (g : Guard) (d : Reg) (s1 s2 : Src) (ty : DType) (s : State) : Out :=
  let x := s.srcTy ty s1
  let y := s.srcTy ty s2
  scalarTy g d ty s (if x ≤ y then x else y)

def execMax (g : Guard) (d : Reg) (s1 s2 : Src) (ty : DType) (s : State) : Out :=
  let x := s.srcTy ty s1
  let y := s.srcTy ty s2
  scalarTy g d ty s (if x ≤ y then y else x)

/-- Leading zero bits of a `w`-bit number. -/
def leadingZeros (w x : Nat) : Nat := if x = 0 then w else w - 1 - Nat.log2 x

def execClz (g : Guard) (d : Reg) (s1 : Src) (ty : DType) (s : State) : Out :=
  scalarTy g d ty s (leadingZeros (tyBits ty) (s.srcBits ty s1) : Nat)

def execPopc (g : Guard) (d : Reg) (s1 : Src) (ty : DType) (s : State) : Out :=
  scalarTy g d ty s (popcount (BitVec.ofNat 64 (s.srcBits ty s1)) : Nat)

/-- SEL reads the stack whatever its guard is, and raises PSTACK_UNDER if the stack is empty. -/
def execSel (g : Guard) (d : Reg) (s1 s2 : Src) (s : State) : Out :=
  match s.es.preds with
  | [] => common .always s (.trap s .pstackUnder s.pc)
  | m :: _ => common g s (.done (s.setReg d (if m.getLsbD 0 then s.src s1 else s.src s2)))

/-! ### R76 -/

def execLds (g : Guard) (w : Width) (d : Reg) (m : MemOp) (s : State) : Out :=
  let n := widthBytes w
  common g s <| scratchReq s (s.scratchAddr m) n n fun a =>
    if poisoned s.me a n then poisonTrap s 2 (poisonOfs s.me a n) else .done (s.setReg d (extendWidth w (s.me.readScratch a n)))

/-- A scratchpad store by an engine: an overrun of a remote flue that it publishes to is its own fault (R127). -/
def engineStore (s : State) (a : Nat) (l : List Byte) : Res :=
  match s.me.store a l with
  | .ok x => .done (s.setMe x)
  | .error f => .trap s .flueOverrun (BitVec.ofNat 64 f)

def execSts (g : Guard) (w : Width) (m : MemOp) (s3 : Src) (s : State) : Out :=
  let n := widthBytes w
  common g s <| scratchReq s (s.scratchAddr m) n n fun a =>
    lateData s (.sts g w m s3) <| engineStore s a (leBytes n (s.src s3).toNat)

/-! ### R78 -/

/-- The queue an engine writes: xq for A, aq for X. -/
def Ctx.outQ (c : Ctx) : Eng → List QEnt | .a => c.xq | .x => c.aq
def Ctx.setOutQ (c : Ctx) (e : Eng) (l : List QEnt) : Ctx := match e with | .a => { c with xq := l } | .x => { c with aq := l }

/-- XPUT: the entry carries the hearth's held stores so far (R56, R250). -/
def execXput (g : Guard) (_q : Reg) (s1 : Src) (s : State) : Out :=
  let l := s.ctx.outQ s.eng
  common g s <|
    if 8 ≤ l.length then .wait s false
    else .done (s.setCtx (s.ctx.setOutQ s.eng (l ++ [{ val := s.src s1, mark := s.me.heldNo, since := some s.dcc }])))

/-- XGET: a value is readable from the tick after its write on (R55). -/
def execXget (g : Guard) (d : Reg) (_q : Reg) (s : State) : Out :=
  common g s <|
    match s.ctx.outQ (Eng.other s.eng) with
    | [] => .wait s false
    | q :: r =>
      if q.since = some s.dcc then .wait s false
      else
      let s := s.setCtx (s.ctx.setOutQ (Eng.other s.eng) r)
      let s := s.setEs { s.es with seen := max s.es.seen q.mark }
      .done (s.setReg d q.val)

end Sys2Proof.Machine
end

