-- ==== Sys2Proof/Machine/Copy.lean ====
section
/-!
DEFINITION. The copy commands and their progress (07 R166-R179), barriers (R180, R181), WAITW (R182), guard slots and the
commands they hold (04 R89-R91).
-/
set_option autoImplicit false

namespace Sys2Proof.Machine

/-! ### Guard slots (R89, R90) -/

def Ctx.gstate (c : Ctx) (n : Nat) : GState := tget .empty c.guards n
def Ctx.setGstate (c : Ctx) (n : Nat) (v : GState) : Ctx := { c with guards := tput c.guards n v }

/-- The binding of a command to its guard slot at issue (R90): `k` gets whether the command is held. -/
def bindGuard (s : State) (g : Guard) (k : Bool → Res) : Res :=
  match g with
  | .slot n =>
    match s.ctx.gstate n.toNat with
    | .empty => .trap s .guardMisuse (n.setWidth 64)
    | .isTrue => k false
    | .isFalse => .done s
    | .pending => k true
  | _ => k false

/-- The guard field that an entry keeps: the guard slot on which it is held (R91, R167). -/
def keptGuard (g : Guard) (held : Bool) : BitVec 5 :=
  match g with
  | .slot n => if held then 1#1 ++ n else 0
  | _ => 0

/-- The resolution of a slot: the commands held on it are released, or discarded. -/
def Ctx.resolve (c : Ctx) (n : Nat) (v : Bool) : Ctx :=
  let c := c.setGstate n (if v then .isTrue else .isFalse)
  let c := { c with xbind := match c.xbind with
    | some (k, none) => if k = n then some (k, some v) else c.xbind
    | b => b }
  let on (held : Bool) (g : BitVec 5) : Bool := held && g.toNat == 16 + n
  if v then
    { c with copyq := c.copyq.map fun x => if on x.held x.g then { x with held := false, g := 0 } else x
             mergeq := c.mergeq.map fun x => if on x.held x.g then { x with held := false, g := 0 } else x
             blowq := c.blowq.map fun x => if on x.held x.g then { x with held := false, g := 0 } else x }
  else
    { c with copyq := c.copyq.filter fun x => !on x.held x.g
             mergeq := c.mergeq.filter fun x => !on x.held x.g
             blowq := c.blowq.filter fun x => !on x.held x.g }

def execGset (g : Guard) (slot : Reg) (s1 : Src) (s : State) : Out :=
  let n := slot.toNat - 16
  common g s <|
    req s (s.ctx.gstate n == .pending) .guardMisuse (BitVec.ofNat 64 n) <|
      .done (s.setCtx (s.ctx.resolve n (s.src s1 != 0)))

def execGclr (g : Guard) (slot : Reg) (s : State) : Out :=
  let n := slot.toNat - 16
  common g s <|
    req s (s.ctx.gstate n != .pending) .guardMisuse (BitVec.ofNat 64 n) <| .done (s.setCtx (s.ctx.setGstate n .pending))

/-- Slots that hold a command, for R91: also one whose state word software has rewritten to a state that is not pending
(DESIGN CHOICE, log 82). -/
def Ctx.heldSlots (c : Ctx) : List Nat :=
  (List.range 16).filter fun n =>
    c.copyq.any (fun x => x.held && x.g.toNat == 16 + n) || c.mergeq.any (fun x => x.held && x.g.toNat == 16 + n)
      || c.blowq.any fun x => x.held && x.g.toNat == 16 + n

/-! ### Issue (R176) -/

def complCode : Compl → BitVec 11 | .none => 0 | .signal => 1 | .barrier => 2
def complSize : Compl → Nat | .none => 1 | .signal => 8 | .barrier => 16

/-- Check 5 of R176 and the check of R148: the completion target. -/
def reqTarget (s : State) (c : Compl) (tgt : Nat) (k : Res) : Res :=
  req s (c == .none || tgt + complSize c ≤ scratchSize) .scratchRange (BitVec.ofNat 64 tgt) <|
    req s (tgt % complSize c == 0) .align (BitVec.ofNat 64 tgt) k

/-- Check 1: descriptor n is valid. -/
def reqDesc (s : State) (n : BitVec 6) (k : Res) : Res := req s (tdesc (s.ctx.desc n.toNat)).valid .tdesc (n.setWidth 64) k

/-- A flue that may be produced into by kind k (R124), and one that may be read. -/
def Ctx.producible (c : Ctx) (f : Reg) (k : BitVec 3) : Bool :=
  (c.flue f.toNat).opened && !(c.flue f.toNat).fork && (c.flue f.toNat).kind == k
def Ctx.isOpen (c : Ctx) (f : Reg) : Bool := (c.flue f.toNat).opened

/-- The hearth whose scratchpad holds the completion target (R169). -/
def targetHearth (h : Nat) (hasDest : Bool) (dst : TDesc) : Nat :=
  if hasDest && dst.space == 1 then dst.base / 2 ^ 22 else h

/-- Checks 5 and 6, and the placing in the queue. A command that waits for a full queue binds its slot afresh at each
attempt (R90; DESIGN CHOICE, log 96). -/
def placeCopy (s : State) (g : Guard) (e : CopyEnd) (c : CopyCmd) : Res :=
  reqTarget s e.compl (8 * e.cw.toNat) <| bindGuard s g fun held =>
    if 64 ≤ s.ctx.copyq.length then .wait s false
    else
      let hasDest := c.op == 0x61 || c.op == 0x63
      let tda := s.ctx.desc c.ta.toNat
      let c := { c with
        sub := complCode e.compl, g := keptGuard g held, held := held, tda := tda, tdb := s.ctx.desc c.tb.toNat
        cval := (if e.compl = .signal then s.reg e.val else 0), ctgt := BitVec.ofNat 21 (8 * e.cw.toNat)
        chrt := BitVec.ofNat 8 (targetHearth s.cur hasDest (tdesc tda)), uid := s.uid + 1 }
      .done { s.setCtx { s.ctx with copyq := s.ctx.copyq ++ [c] } with uid := s.uid + 1 }

def execCpy (g : Guard) (e : CopyEnd) (ta tb : BitVec 6) (s : State) : Out :=
  let d := tdesc (s.ctx.desc ta.toNat)
  let r := tdesc (s.ctx.desc tb.toNat)
  aInstr g s <| reqDesc s ta <| reqDesc s tb <|
    req s (d.ty == r.ty && d.planes == r.planes && d.byteCount == r.byteCount) .tdesc (ta.setWidth 64) <|
      placeCopy s g e { op := 0x61, ta := ta, tb := tb }

def execCpyf (g : Guard) (e : CopyEnd) (f : Reg) (ta : BitVec 6) (s : State) : Out :=
  aInstr g s <| reqDesc s ta <| reqFlue s (s.ctx.producible f 1) f <| placeCopy s g e { op := 0x62, ta := ta, fd := f }

def execDrnf (g : Guard) (e : CopyEnd) (f : Reg) (ta : BitVec 6) (s : State) : Out :=
  aInstr g s <| reqDesc s ta <| reqFlue s (s.ctx.isOpen f) f <| placeCopy s g e { op := 0x63, ta := ta, fs := f }

/-- Check 3 of GATH and SCAT (R179). -/
def indexable (d : TDesc) (n : Word) : Bool := n.toNat < 2 ^ 32 && !((d.isBp || d.isI4) && d.rank == 1)

def execGath (g : Guard) (e : CopyEnd) (fd fs : Reg) (n : Src) (ta : BitVec 6) (s : State) : Out :=
  aInstr g s <| reqDesc s ta <| reqFlue s (s.ctx.producible fd 2) fd <| reqFlue s (s.ctx.isOpen fs) fs <|
    req s (indexable (tdesc (s.ctx.desc ta.toNat)) (s.src n)) .tdesc (ta.setWidth 64) <|
      placeCopy s g e { op := 0x64, ta := ta, fd := fd, fs := fs, count := s.src n }

def execScat (g : Guard) (e : CopyEnd) (fd fs : Reg) (n : Src) (ta : BitVec 6) (s : State) : Out :=
  aInstr g s <| reqDesc s ta <| reqFlue s (s.ctx.isOpen fd) fd <| reqFlue s (s.ctx.isOpen fs) fs <|
    req s (indexable (tdesc (s.ctx.desc ta.toNat)) (s.src n)) .tdesc (ta.setWidth 64) <|
      placeCopy s g e { op := 0x65, ta := ta, fd := fd, fs := fs, count := s.src n }

/-! ### Progress (R166, R168) -/

/-- Units of a hearth act while its context runs, or ends (R315), ungated in the run state (R353). -/
def unitsRun (s : State) (h : Nat) : Bool :=
  ((s.hearth h).run == .running || (s.hearth h).run == .handler || (s.hearth h).run == .ending) && s.pw.cur == 0 && !gatedAt s h

def CopyCmd.isIndexed (c : CopyCmd) : Bool := c.op == 0x64 || c.op == 0x65
def CopyCmd.produces (c : CopyCmd) : Bool := c.op == 0x62 || c.op == 0x64
/-- Elements moved for one index; a sub-tensor without elements counts as one step that moves nothing. -/
def CopyCmd.sub1 (c : CopyCmd) : Nat := max 1 (tdesc c.tda).subCount
/-- Steps of a command: its elements, or its indices with their elements. -/
def CopyCmd.total (c : CopyCmd) : Nat := if c.isIndexed then c.count.toNat * c.sub1 else (tdesc c.tda).count
def CopyCmd.step (c : CopyCmd) : Nat :=
  if c.isIndexed && (tdesc c.tda).subCount == 0 then 1 else (tdesc c.tda).unitElems
/-- Bytes moved before the command's present element. -/
def CopyCmd.bytesDone (c : CopyCmd) : Nat := c.elem.toNat / (tdesc c.tda).unitElems * (tdesc c.tda).unitBytes
def CopyCmd.who (c : CopyCmd) : Nat := c.uid + 1

def Hearth.copyAt (x : Hearth) (i : Nat) : CopyCmd := x.act.copyq.getD i {}
def Hearth.modCopyAt (x : Hearth) (i : Nat) (f : CopyCmd → CopyCmd) : Hearth :=
  { x with act := { x.act with copyq := lmod x.act.copyq i f } }

/-- What one element's move gives: the element is moved; a part of it, up to the end of a slot (log 71); its read is
under way; a wait; a fault. -/
inductive Moved where
  | ok (s : State)
  | part (s : State)
  | ask (s : State)
  | wait
  | stop (s : State)

/-- A command stops at an element boundary with a fault (R168): the fault's address is recorded with it. -/
def copyFault (s : State) (h i : Nat) (code : FaultCode) (a : Word) : State :=
  let c := (s.hearth h).copyAt i
  let s := s.modHearth h fun x =>
    let x := x.modCopyAt i fun c => { c with faddr := a }
    if c.produces then x.setFlue c.fd.toNat { x.flue c.fd.toNat with faddr := a } else x
  if c.produces then unitFault s h code a 3 none (some c.fd.toNat) else unitFault s h code a 2 (some i) none

/-- The same for a unit's read of poison. -/
def copyPoison (s : State) (h i : Nat) (array : Byte) (loc : Nat) (slice : Option Nat) : State :=
  let c := (s.hearth h).copyAt i
  if c.produces then poisonFault s h array loc 3 none (some c.fd.toNat) slice
  else poisonFault s h array loc 2 (some i) none slice

/-- The place of a flue's record in the image (R52). -/
def flueRecord (n : Reg) : Nat × Nat := (0x6000 + 128 * n.toNat, 128)

/-- The flue records that an entry's unit reads. -/
def CopyCmd.places (c : CopyCmd) : List (Nat × Nat) :=
  (if c.produces || c.op = 0x65 then [flueRecord c.fd] else [])
    ++ if c.op = 0x63 || c.isIndexed then [flueRecord c.fs] else []

/-- The address that a fault at an element names: the descriptor number for R113's check, else the element's address. -/
def elemAddr (code : FaultCode) (n : BitVec 6) (d : TDesc) (e : Nat) : Word :=
  match code with
  | .tdesc => n.setWidth 64
  | _ => BitVec.ofNat 64 (d.unitAddr e)

/-- Reads a unit, then continues with its bytes. -/
def moveRead (s : State) (h i : Nat) (zero : Bool) (n : BitVec 6) (d : TDesc) (e : Nat)
    (k : State → List (Byte × Bool) → Moved) : Moved :=
  let uid := ((s.hearth h).copyAt i).uid
  match askAll s h (.unit uid) (unitAsks s h d e) with
  | (false, s) => .ask s
  | (true, t) => match readUnit t h uid zero d e with
    | .ok l s => k s l
    | .wait => .wait
    | .fault s code _ => .stop (copyFault s h i code (elemAddr code n d e))
    | .poison s a loc n => .stop (copyPoison s h i a loc n)

/-- Writes a unit and records what was sent and what landed. -/
def moveWrite (s : State) (h i : Nat) (n : BitVec 6) (d : TDesc) (e : Nat) (l : List Byte) : Moved :=
  match writeUnit s h ((s.hearth h).copyAt i).uid d e l with
  | .ok s sent landed =>
    .ok (s.modHearth h fun x => x.modCopyAt i fun c => { c with sent := c.sent + sent, landed := c.landed + landed })
  | .fault s code => .stop (copyFault s h i code (elemAddr code n d e))

/-- An earlier command of the queue produces into flue f: producers into one flue run one after another (R124). -/
def earlierProducer (x : Hearth) (i f : Nat) : Bool :=
  (x.act.copyq.take i).any fun c => c.produces && c.fd.toNat == f

/-- AUX of a gather's producer record (R123): the position of its next index, and the byte offset in that slot. -/
def auxOf (read : BitVec 32) (o : Nat) : Word := BitVec.ofNat 64 (read.toNat + 2 ^ 32 * o)
/-- The byte offset that AUX holds. -/
def auxOfs (w : Word) : Nat := bits w.toNat 32 14

/-- The producer record of a command that begins to produce (R123). -/
def beginRecord (x : Hearth) (i : Nat) : Hearth :=
  let c := x.copyAt i
  let f := x.flue c.fd.toNat
  if f.active then x
  else x.setFlue c.fd.toNat { f with
    active := true, unit := f.kind, qent := BitVec.ofNat 6 i, elem := c.elem, slot := f.claim.setWidth 64, sofs := 0
    aux := (if c.op = 0x64 then auxOf (x.flue c.fs.toNat).read 0 else 0), prev := 0, faddr := 0, cmpl := 0, cval := 0 }

/-- The bytes of the present element that the flue's slots hold already: a command begins at a slot boundary (R126), and
an element reaches past the end of a slot only with the next one (log 71). -/
def CopyCmd.partDone (c : CopyCmd) (f : Flue) : Nat :=
  let k := (f.sofs.toNat + f.slotBytes - c.bytesDone % f.slotBytes) % f.slotBytes
  if k < (tdesc c.tda).unitBytes then k else 0

/-- Produces the bytes of an element into the command's data flue. -/
def moveProduce (s : State) (h i : Nat) (f : Nat) (l : List (Byte × Bool)) : Moved :=
  let x := s.hearth h
  let k := (x.copyAt i).partDone (x.flue f)
  match produce x f (l.drop k) with
  | none => .wait
  | some (x, done, n) =>
    let x := if (x.flue f).sofs = 0 then x.setFlue f { x.flue f with slot := (x.flue f).claim.setWidth 64 } else x
    let s := s.setHearth h (x.modCopyAt i fun c => { c with landed := c.landed + done })
    if k + n = l.length then .ok s else .part s

/-- Reads the n bytes of entry i's present element from flue f as a unit, the element beginning at slot offset o. A slot
is freed as soon as it is finished, within an element too: the bytes taken from it wait in the unit for the rest (R129).
-/
def moveTake (s : State) (h i f o n : Nat) (k : State → List Byte → Moved) : Moved :=
  let x := s.hearth h
  let c := x.copyAt i
  let sb := (x.flue (x.act.primary f)).slotBytes
  let at_ := (o + c.got.length) % sb
  let m := min (n - c.got.length) (sb - at_)
  if !x.act.mayTake c.who f then .wait
  else match unitBytesAt x f at_ m with
    | none => .wait
    | some l =>
      if let some a := unitBad x f at_ m then .stop (copyPoison s h i 2 a none)
      else if c.got.length + m < n then
        .part (s.setHearth h ((unitAdvance x c.who f (at_ + m)).1.modCopyAt i fun d => { d with got := d.got ++ l }))
      else match k s (c.got ++ l) with
        | .ok s => .ok (s.modHearth h fun x => (unitAdvance x c.who f (at_ + m)).1)
        | r => r

def Hearth.slotBytesOf (x : Hearth) (f : Nat) : Nat := (x.flue (x.act.primary f)).slotBytes

/-- The byte offset in its slot of the next index of a GATH or SCAT: a gather's record holds it (R123). -/
def indexOfs (x : Hearth) (c : CopyCmd) : Nat :=
  if c.op = 0x64 then auxOfs (x.flue c.fd.toNat).aux else 4 * (c.elem.toNat / c.sub1) % x.slotBytesOf c.fs.toNat

/-- The index of a GATH or SCAT at its present position, with its scratchpad address (R179). -/
def indexAt (x : Hearth) (c : CopyCmd) : Option (Int × Nat) :=
  let f := c.fs.toNat
  let p := x.flue (x.act.primary f)
  let o := indexOfs x c
  if !x.act.mayTake c.who f then none
  else (unitBytesAt x f o 4).map fun l => (sextNat 32 (leNat l), p.slotAddr (x.flue f).read + o)

/-- After an element of an indexed command: when it was the index's last, the index is finished. The slot of the
command's last index is freed at the command's end (R369). -/
def indexDone (c : CopyCmd) (s : State) (h : Nat) : State :=
  if (c.elem.toNat + c.step) % c.sub1 = 0 then
    s.modHearth h fun x =>
      let o := indexOfs x c + 4
      let (x, o) := if c.elem.toNat + c.step < c.total then unitAdvance x c.who c.fs.toNat o
        else ({ x with act := { x.act with taken := tput x.act.taken c.fs.toNat c.who } }, o)
      if c.op = 0x64 then x.setFlue c.fd.toNat { x.flue c.fd.toNat with aux := auxOf (x.flue c.fs.toNat).read o } else x
  else s

/-- Counts the element as moved; a producer records its progress as it goes (R126). -/
def countElem (h i : Nat) (c : CopyCmd) (m : Moved) : Moved :=
  match m with
  | .ok s => .ok (s.modHearth h fun x =>
      let n := c.elem + BitVec.ofNat 64 c.step
      let x := x.modCopyAt i fun d => { d with elem := n, got := [] }
      if c.produces then x.setFlue c.fd.toNat { x.flue c.fd.toNat with elem := n, qent := BitVec.ofNat 6 i } else x)
  | r => r

/-- One element of an indexed command, after its index x was found at scratchpad address a. -/
def moveIndexed (s : State) (h i : Nat) (c : CopyCmd) (x : Int) (a : Nat) : Moved :=
  let d := tdesc c.tda
  if x < 0 ∨ (d.lastDim : Int) ≤ x then .stop (copyFault s h i .tdesc (BitVec.ofNat 64 a))
  else
    let e := x.toNat * d.subCount + c.elem.toNat % c.sub1
    let r :=
      if d.subCount = 0 then Moved.ok s
      else if c.op = 0x64 then
        moveRead s h i (!((s.hearth h).flue c.fd.toNat).restart) c.ta d e fun s l => moveProduce s h i c.fd.toNat l
      else
        moveTake s h i c.fd.toNat (c.bytesDone % (s.hearth h).slotBytesOf c.fd.toNat) d.unitBytes fun s l =>
          moveWrite s h i c.ta d e l
    match r with
    | .ok s => .ok (indexDone c s h)
    | r => r

/-- A CPY within the hearth's own scratchpad whose next source bytes an earlier element of it has written by the on-chip
map, not landed yet: elements go in ascending order (R177). -/
def ownMapPending (s : State) (h : Nat) (c : CopyCmd) : Bool :=
  let d := tdesc c.tda
  let r := tdesc c.tdb
  let a := r.unitAddr c.elem.toNat
  r.space == 2 && d.space == 1 && s.ocm.any fun m =>
    m.src == h && m.kind == .data && m.addr.toNat / 2 ^ 22 == h && m.addr.toNat % 2 ^ 22 < a + r.unitBytes
      && a < m.addr.toNat % 2 ^ 22 + m.bytes.length
      && (List.range (c.elem.toNat / d.unitElems)).any fun k => d.unitAddr (k * d.unitElems) == m.addr.toNat

/-- One element of entry i: moved, waiting, or stopped by a fault. -/
def moveElem (s : State) (h i : Nat) : Moved :=
  let s := if ((s.hearth h).copyAt i).produces && !earlierProducer (s.hearth h) i ((s.hearth h).copyAt i).fd.toNat then
      s.modHearth h fun x => beginRecord x i else s
  let x := s.hearth h
  let c := x.copyAt i
  let d := tdesc c.tda
  let e := c.elem.toNat
  if c.produces && earlierProducer x i c.fd.toNat then .wait
  else if let some w := badIn x.act.bad c.places then .stop (copyPoison s h i 3 (4 * w) none)
  else if c.op = 0x61 && ownMapPending s h c then .wait
  else countElem h i c <|
    if c.op = 0x61 then moveRead s h i false c.tb (tdesc c.tdb) e fun s l => moveWrite s h i c.ta d e (l.map (·.1))
    else if c.op = 0x62 then
      moveRead s h i (!(x.flue c.fd.toNat).restart) c.ta d e fun s l => moveProduce s h i c.fd.toNat l
    else if c.op = 0x63 then
      moveTake s h i c.fs.toNat (c.bytesDone % x.slotBytesOf c.fs.toNat) d.unitBytes fun s l =>
        moveWrite s h i c.ta d e l
    else match indexAt x c with
      | none => .wait
      | some (j, a) =>
        if poisoned x a 4 then .stop (copyPoison s h i 2 (poisonOfs x a 4) none) else moveIndexed s h i c j a

/-- At most n elements of entry i. -/
def moveMany : Nat → State → Nat → Nat → State
  | 0, s, _, _ => s
  | n + 1, s, h, i =>
    let c := (s.hearth h).copyAt i
    if c.total ≤ c.elem.toNat then s
    else match moveElem s h i with
      | .ok s | .part s => if unitsRun s h then moveMany n s h i else s
      | .wait => s
      | .ask s | .stop s => s

/-- An entry that may start: not held, all before it started, and fewer than four in progress (R166). -/
def mayStart (x : Hearth) (i : Nat) : Bool :=
  i < x.act.copyq.length && !(x.copyAt i).held && (x.act.copyq.take i).all (·.started)
    && (x.act.copyq.filter (·.started)).length < 4

/-- Starts an entry; one that produces into a flue opens the flue's producer record (R123). -/
def startCopy (x : Hearth) (i : Nat) : Hearth :=
  let c := x.copyAt i
  let x := x.modCopyAt i fun c => { c with started := true }
  if c.produces && !earlierProducer x i c.fd.toNat then beginRecord x i else x

/-! ### Completion (R169, R170) -/

/-- The command's completion target lies in the scratchpad of its SPACE 1 destination's hearth (R169). -/
def CopyCmd.toMap (c : CopyCmd) : Bool := (c.op == 0x61 || c.op == 0x63) && (tdesc c.tda).space == 1
/-- The completion of a command of hearth h goes over the on-chip map: to the hearth that CHRT names (R161, R167). -/
def CopyCmd.viaMap (c : CopyCmd) (h : Nat) : Bool := c.toMap || c.chrt.toNat != h
/-- The map address of the completion target. -/
def CopyCmd.target (c : CopyCmd) : Nat := c.chrt.toNat * 2 ^ 22 + c.ctgt.toNat

/-- Credits what has landed to the command's barrier. Over the on-chip map the credit is sent once, after every payload
byte (R169). -/
def creditCopy (s : State) (h i : Nat) : State :=
  let c := (s.hearth h).copyAt i
  if c.sub = 2 && (!c.viaMap h || c.total ≤ c.elem.toNat && c.sent == 0) then
    let s := if !c.viaMap h then creditAt s h c.ctgt.toNat c.landed fun s o => copyPoison s h i 2 o none
      else if c.landed = 0 then s
      else sendMap s h 0 c.target .credit (leBytes 8 c.landed)
    s.modHearth h fun x => x.modCopyAt i fun c => { c with credit := c.credit + BitVec.ofNat 40 c.landed, landed := 0 }
  else s

/-- Entry i leaves the queue, and the producer records name the places of the entries behind it (R123). -/
def dropEntry (x : Hearth) (i : Nat) : Hearth :=
  let x := { x with act := { x.act with copyq := ldel x.act.copyq i } }
  (List.range 32).foldl (fun x n =>
    let f := x.flue n
    if f.active && (f.unit == 1 || f.unit == 2) && i < f.qent.toNat then x.setFlue n { f with qent := f.qent - 1 } else x) x

/-- Leaves the flues, the data flue published first, and writes the completion of a command whose last byte has landed.
-/
def endCopy (s : State) (h i : Nat) : State :=
  let c := (s.hearth h).copyAt i
  let s := s.modHearth h fun x =>
    let x := if c.produces then
        let f := c.fd.toNat
        let n := (x.flue f).sofs.toNat
        let x := if n = 0 then x else (x.closeSlot f).modCopyAt i fun c => { c with landed := c.landed + n }
        x.setFlue f { x.flue f with active := false }
      else if c.op = 0x65 then unitLeave x c.who c.fd.toNat
      else x
    if c.usesFs then unitLeave x c.who c.fs.toNat else x
  let s := creditCopy s h i
  let c := (s.hearth h).copyAt i
  let s := s.modHearth h fun x => dropEntry x i
  if !c.viaMap h then (if c.sub = 1 then writeSignal s h c.ctgt.toNat c.cval else s)
  else if c.sub = 1 then sendMap s h 0 c.target .signal (leBytes 8 c.cval.toNat)
  else s

/-- COPY_COMMAND_START: starts entry i if it has not started, and moves at most n elements (log 10). -/
def execCopyCommandStart (h i n : Nat) (s : State) : Out :=
  .next <|
    if !unitsRun s h then s
    else
      let x := s.hearth h
      let s := if !(x.copyAt i).started && mayStart x i then s.setHearth h (startCopy x i) else s
      if ((s.hearth h).copyAt i).started then moveMany n s h i else s

/-- COPY_COMMAND_END: moves what is left of a started entry, and ends it once its writes have landed. -/
def execCopyCommandEnd (h i : Nat) (s : State) : Out :=
  .next <|
    let c := (s.hearth h).copyAt i
    if !unitsRun s h || !c.started then s
    else
      let s := moveMany (2 * (c.total - c.elem.toNat)) s h i
      let c := (s.hearth h).copyAt i
      if unitsRun s h && c.total ≤ c.elem.toNat && c.sent == 0
          && !(c.produces && earlierProducer (s.hearth h) i c.fd.toNat) then endCopy s h i
      else s

/-- BARRIER_CREDIT: bytes of entry i that have landed are credited (R172). -/
def execBarrierCredit (h i : Nat) (s : State) : Out :=
  .next (if unitsRun s h && ((s.hearth h).copyAt i).started then creditCopy s h i else s)

/-- Moves elements of entry i until flue f publishes a slot. -/
def moveToPublish : Nat → State → Nat → Nat → Nat → BitVec 32 → State
  | 0, s, _, _, _, _ => s
  | n + 1, s, h, i, f, t =>
    let s := moveMany 1 s h i
    if unitsRun s h && ((s.hearth h).flue f).tail == t then moveToPublish n s h i f t else s

/-- UNIT_SLOT_PUBLISH: the producer of flue f fills and publishes its next slot (R126). -/
def execUnitSlotPublish (h f : Nat) (s : State) : Out :=
  .next <|
    let x := s.hearth h
    if !unitsRun s h then s
    else match (List.range x.act.copyq.length).find? fun i =>
        (x.copyAt i).started && (x.copyAt i).produces && (x.copyAt i).fd.toNat == f with
      | some i => moveToPublish (x.flue f).slotBytes s h i f (x.flue f).tail
      | none => s

/-- An entry whose next element is read through the on-chip map (R161). -/
def CopyCmd.readsMap (c : CopyCmd) : Bool :=
  c.started && ((c.op == 0x61 && (tdesc c.tdb).space == 1) || (c.produces && (tdesc c.tda).space == 1))

/-- The command that produces into flue n, when one has started. -/
def producerOf (l : List CopyCmd) (n : Nat) : Option Nat :=
  (l.find? fun c => c.started && c.produces && c.fd.toNat == n).map (·.uid)

/-- A stopped producer ends under DROP: the slot it had claimed becomes free (R136). -/
def Hearth.dropProducer (x : Hearth) (n : Nat) : Hearth :=
  x.setFlue n { x.flue n with
    claim := (x.flue n).slot.setWidth 32, active := false, stopped := false, drop := false, sofs := 0 }

/-- The stopped copy commands as they go on at resume: a producer as its record stands (R136), the others as their
entries do (R168); with DROP a command ends without a completion, begun or not (R167). -/
def resumeCopies (x : Hearth) : Hearth :=
  let x := (List.range 32).foldl (fun x n =>
    let f := x.flue n
    if f.stopped && (f.unit == 1 || f.unit == 2) then
      if f.drop then
        let q := x.act.copyq.filter fun c => producerOf x.act.copyq n != some c.uid
        { x with act := { x.act with copyq := q } }.dropProducer n
      else
        let i := (x.act.copyq.findIdx? fun c => some c.uid == producerOf x.act.copyq n).getD x.act.copyq.length
        let c := x.copyAt i
        let x := x.modCopyAt i fun c => { c with
          elem := f.elem, sub := BitVec.ofNat 11 (bits f.cmpl.toNat 0 2), ctgt := BitVec.ofNat 21 (bits f.cmpl.toNat 2 21)
          cval := f.cval }
        let r := x.flue c.fs.toNat
        let pos := BitVec.ofNat 32 f.aux.toNat
        let x := if f.unit = 2 ∧ pos ≠ r.read then x.setFlue c.fs.toNat { r with read := pos, head := earliest r.head pos } else x
        x.setFlue n { x.flue n with stopped := false }
    else x) x
  let q := (x.act.copyq.filter (!·.drop)).map fun c => { c with stopped := false }
  { x with act := { x.act with
      copyq := q, cpast := [], taken := x.act.taken.filter fun t => t.2 == 0 || q.any fun c => c.who == t.2 } }

/-! ### Barriers and WAITW (R174, R180-R182) -/

/-- The address and checks of R174. -/
def scratchOperand (s : State) (base : Reg) (ofs : BitVec 21) (size : Nat) (k : Nat → Res) : Res :=
  let x := (s.reg base).toNat + ofs.toNat
  req s (x + size ≤ scratchSize) .scratchRange (BitVec.ofNat 64 x) <|
    req s (x % size == 0) .align (BitVec.ofNat 64 x) (k x)

def execBarinit (g : Guard) (base : Reg) (ofs : BitVec 21) (s : State) : Out :=
  aInstr g s <| scratchOperand s base ofs 16 fun x => engineStore s x (List.replicate 16 0)

def execBararm (g : Guard) (base : Reg) (s2 : Src) (ofs : BitVec 21) (s : State) : Out :=
  aInstr g s <| scratchOperand s base ofs 16 fun x =>
    let n := sextNat 40 (s.src s2).toNat
    if poisoned s.me x 16 then poisonTrap s 2 (poisonOfs s.me x 16)
    else if n = 0 then .done s else engineStore s x (barrierBytes ((readBarrier s.me.scratch x).arm n))

/-- What the executing engine watches, if it waits at a WAITW or BARWAIT. -/
def State.watch (s : State) : Option Watch := match s.eng with | .a => s.me.watchA | .x => s.me.watchX
def State.setWatch (s : State) (w : Option Watch) : State :=
  s.setMe (match s.eng with | .a => { s.me with watchA := w } | .x => { s.me with watchX := w })

/-- WAITW and BARWAIT: at the first attempt the word as it stands decides, `now`; then every write to it is observed
until one ends the wait (R181, R182). -/
def observe (s : State) (d : Reg) (w : Watch) (now : Option Word) : Res :=
  match s.watch with
  | some o =>
    match o.met with
    | some v => .done ((s.setWatch none).setReg d v)
    | none => .wait s false
  | none =>
    match now with
    | some v => .done (s.setReg d v)
    | none => .wait (s.setWatch (some w)) false

/-- BARWAIT writes word 0 as it stood at the flip, when PENDING was 0 (R172). -/
def execBarwait (g : Guard) (d : Reg) (base : Reg) (s2 : Src) (ofs : BitVec 21) (s : State) : Out :=
  aInstr g s <| scratchOperand s base ofs 16 fun x =>
    let b := readBarrier s.me.scratch x
    let flip (b : Barrier) : Word := BitVec.ofNat 64 (leNat ((barrierBytes { b with pending := 0 }).take 8))
    if poisoned s.me x 16 then poisonTrap s 2 (poisonOfs s.me x 16)
    else observe s d { addr := x, bar := true, cmp := s.src s2 }
      (if b.phase == (s.src s2).getLsbD 0 then none else some (flip b))

def execWaitw (g : Guard) (c : WaitCond) (d : Reg) (base : Reg) (s2 : Src) (ofs : BitVec 21) (s : State) : Out :=
  common g s <| scratchOperand s base ofs 8 fun x =>
    if poisoned s.me x 8 then poisonTrap s 2 (poisonOfs s.me x 8)
    else
      let w := BitVec.ofNat 64 (s.me.readScratch x 8)
      observe s d { addr := x, cond := c, cmp := s.src s2 } (if waitMet c w (s.src s2) then some w else none)

end Sys2Proof.Machine
end

