-- ==== Sys2Proof/Machine/Memory.lean ====
section
/-!
DEFINITION. The memory instructions (10 R240-R245, 11 R256-R258, 12 R279), the loading of a window table (R229-R231), and
the fetches and atomics that a home slice answers (R247).
-/
set_option autoImplicit false

namespace Sys2Proof.Machine

/-! ### Window tables (R227-R231) -/

/-- The guest frames that an entry covers. -/
def WinEnt.frames (e : WinEnt) : List Nat :=
  (List.range ((e.gbase + winBytes e.size - 1) / frameSize - e.gbase / frameSize + 1)).map (e.gbase / frameSize + ·)

/-- An entry with its NR and REP bits set from the stage-2 entries that it covers (R231). -/
def summarise (s : State) (part : Nat) (e : BitVec 128) : BitVec 128 :=
  let fs := (winEnt e).frames.filterMap (s.stage2 part)
  let b := e &&& ~~~0x60#128
  let b := if fs.any (·.nr) then b ||| 0x20#128 else b
  if fs.any (·.replicated) then b ||| 0x40#128 else b

/-- Summary bits follow a change of stage 2 in every live table of a partition (R231). -/
def refreshWindows (s : State) (part : Nat) : State :=
  { s with hearths := s.hearths.map fun p =>
      if s.ownerOf p.1 = some part then (p.1, { p.2 with win := p.2.win.map fun w => (w.1, summarise s part w.2) }) else p }

/-- The checks of R229 on entry n alone: an invalid entry zero but for NR and REP, a valid one aligned. -/
def winAlone (e : BitVec 128) : Bool :=
  let w := winEnt e
  let n := winBytes w.size
  if w.size = 0 then (e &&& ~~~0x60#128) == 0 else w.vbase % n == 0 && w.gbase % n == 0

/-- The reserved bits of an entry are zero (R227). -/
def winReserved (e : BitVec 128) : Bool :=
  e.extractLsb' 7 9 == 0 && e.extractLsb' 48 32 == 0 && e.extractLsb' 110 18 == 0

/-- The checks of R229 between two valid entries. -/
def winPair (a b : WinEnt) : Bool :=
  if a.size = 0 ∨ b.size = 0 then true
  else if a.size = b.size then a.vbase != b.vbase
  else
    let big := if b.size < a.size then a else b
    let small := if b.size < a.size then b else a
    if big.hit small.vbase then small.gbase == big.gbase + (small.vbase - big.vbase) else true

/-- R229: the number of the first entry that fails, or the table that the image loads. -/
def checkWindows (img : List (BitVec 128)) : Except Nat (Tbl (BitVec 128)) :=
  let bad := (List.range img.length).find? fun n =>
    let e := img.getD n 0
    !(winReserved e && winAlone e) || (List.range n).any fun m => !winPair (winEnt (img.getD m 0)) (winEnt e)
  match bad with
  | some n => .error n
  | none => .ok ((List.range img.length).filterMap fun n =>
      if (winEnt (img.getD n 0)).size = 0 then none else some (n, img.getD n 0))

/-- The 256 entries of a 4 KiB image. -/
def windowImage (l : List Byte) : List (BitVec 128) :=
  (List.range 256).map fun n => BitVec.ofNat 128 (leNat ((l.drop (16 * n)).take 16))

/-- Loads a checked table into a hearth of a partition and invalidates its instruction caches (R243). -/
def loadWindows (s : State) (h part : Nat) (t : Tbl (BitVec 128)) : State :=
  let t := t.map fun w => (w.1, summarise s part w.2)
  s.modHearth h fun x =>
    { x with win := t, winBad := [], act := { x.act with ae := { x.act.ae with icache := [] }, xe := { x.act.xe with icache := [] } } }

/-- The read of step 2 of R243. -/
def readWindowImage (s : State) (part gpa : Nat) : Except FaultCode (List Byte × State) :=
  let die := dieOf s.cur
  match s.stage2 part (gpa / frameSize) with
  | none => .error .windowPerm
  | some e =>
    if e.remote && s.lostTo part e.peer.toNat then .error .linkLost
    else if e.nr then .error .nonresident
    else if e.remote && !s.peerUp part e.peer.toNat then .error .linkLost
    else if !e.away die && !frameOk (e.readAt die gpa / frameSize) then .error .machineCheck
    else .ok (readGuest s die e gpa 4096)

/-- The reads of a window image's 64 lines (R15-R17): none where the image cannot be read, which faults at once. -/
def imageAsks (s : State) (part gpa : Nat) : List (Nat × Path) :=
  match s.stage2 part (gpa / frameSize), readWindowImage s part gpa with
  | some e, .ok _ => (List.range 64).map fun i => (gpa + 64 * i, e.readPath s s.cur part (gpa + 64 * i))
  | _, _ => []

/-- Commands of the active context that translate device virtual addresses (R243 step 4): those of the copy queue and
the bellows and memory-form TSTs. An MRG translates none, and WINLD does not wait for it (DESIGN CHOICE, log 107). -/
def Hearth.translating (x : Hearth) : Bool :=
  !x.act.copyq.isEmpty || !x.act.blowq.isEmpty
    || x.matq.any fun c => match c.instr with | .tstMemory _ _ _ _ _ => true | _ => false

/-- Steps 4 and 5 of R243, with the table that step 3 has checked; it is kept over the wait. -/
def winldEnd (s : State) (part : Nat) (t : Tbl (BitVec 128)) : Res :=
  if s.me.translating then .wait (s.setMe { s.me with winld := some t }) false else .done (loadWindows s s.cur part t)

/-- The poisoned line of a window image, at its host address (R358). -/
def windowPoison (s : State) (part gpa : Nat) : Option Nat :=
  match s.stage2 part (gpa / frameSize) with
  | none => none
  | some e =>
    let at_ := e.readAt (dieOf s.cur) gpa
    if e.away (dieOf s.cur) then none else s.poison.find? fun p => p < at_ + 4096 && at_ < p + 64

def execWinld (g : Guard) (s1 : Reg) (s : State) : Out :=
  privileged g .s s <|
    let a := s.reg s1
    let part := s.guestOf s.cur
    match s.me.winld with
    | some t => winldEnd (if s.me.translating then s else s.setMe { s.me with winld := none }) part t
    | none => req s (a.toNat % 4096 == 0) .align a <|
      match askAll s s.cur .image (imageAsks s part a.toNat) with
      | (false, s) => .wait s false
      | (true, s) => match readWindowImage s part a.toNat with
      | .error .machineCheck =>
        let (s, i) := logFrame s s.cur (badPlace s (dieOf s.cur) part a.toNat)
        .trap s .machineCheck (BitVec.ofNat 64 i)
      | .error c => .trap s c a
      | .ok (l, s) =>
        match windowPoison s part a.toNat with
        | some src => poisonTrap s 0 src
        | none =>
        match checkWindows (windowImage l) with
        | .error n => .trap s .windowConflict (a + BitVec.ofNat 64 (16 * n))
        | .ok t => winldEnd s part t

/-! ### Loads and stores (R241, R242, R249, R250) -/

/-- The checks of R241 on a naturally aligned access of n bytes. -/
def memReq (s : State) (a : Word) (n : Nat) (need : Need) (k : Trn → Res) : Res :=
  req s (a.toNat % n == 0) .align a <|
    match translate s s.cur need a with
    | .error c => trapTrn s c a
    | .ok t => k t

/-- An access that has not completed keeps what its issue translated and checked. -/
def keepIssue (i : Issue) : Res → Res
  | .wait s b => .wait (s.setMe { s.me with issue := some i }) b
  | r => r

/-- An access of the A engine is translated and checked once, at its issue (R233, R241): an access that waits goes on
under the entry that it met then. -/
def issueReq (s : State) (a : Word) (n : Nat) (need : Need) (k : State → Issue → Res) : Res :=
  match s.me.issue with
  | some i => keepIssue i (k (s.setMe { s.me with issue := none }) i)
  | none => memReq s a n need fun t =>
      let i : Issue := { dva := a, gpa := t.gpa, part := t.part, ent := t.ent }
      keepIssue i (k s i)

/-- An access through the phase cache issues once its line has an entry: an implicit boundary comes before its checks
count (R252, R253), and it is translated again after one that it has waited for. -/
def cachedReq (s : State) (a : Word) (n : Nat) (need : Need) (k : State → Issue → Res) : Res :=
  let anew (s : State) : Res := memReq s a n need fun t =>
    let i : Issue := { dva := a, gpa := t.gpa, part := t.part, ent := t.ent }
    withRoom s (lineNo t.gpa) fun s => keepIssue i (k s i)
  match s.me.issue with
  | none => anew s
  | some i =>
    let s := s.setMe { s.me with issue := none }
    if i.lost || !s.me.needsRoom (lineNo i.gpa) then keepIssue i (k s i) else anew s

/-- The poisoned words of a hearth's phase cache, of 1,024 lines; the instruction caches' stand above them (R358). -/
def phaseBad (x : Hearth) : List Nat := x.cacheBad.filter (· < 16384)

def execLdg (g : Guard) (w : Width) (d : Reg) (m : MemOp) (s : State) : Out :=
  let n := widthBytes w
  aInstr g s <| cachedReq s (s.memAddr m) n .read fun s i =>
    let die := dieOf s.cur
    let (vis, s) := visibleHeld s i.gpa n
    let x := s.me
    let got := (List.range n).map fun k => loadByte x vis (i.gpa + k)
    if i.lost then .trap s .linkLost i.dva
    else if i.poison.isSome then poisonTrap s 1 (4 * i.poison.getD 0) (some (sliceOf (i.ent.readAt die (lineNo i.gpa))))
    else if got.all (·.isSome) then
      let v := leNat (got.map (·.getD 0))
      match meetWord (phaseBad x) s with
      | (some w, s) => poisonTrap s 4 (4 * w)
      | (none, s) => .done ((s.setMe (markObserved x s.eng vis i.gpa n)).setReg d (extendWidth w v))
    else if x.fetch.isSome then .wait s false
    else
      let src := i.ent.readAt die (lineNo i.gpa)
      if poisonedCopy s die i.ent (lineNo i.gpa) 64 then poisonTrap s 0 src
      else .wait (s.setMe { s.me with fetch := some (lineNo i.gpa), fetchPath := i.ent.readPath s s.cur i.part (lineNo i.gpa) }) false

/-- STG and STM differ in what translation allows (R236, R237). -/
def storeInstr (i : Instr) (g : Guard) (need : Need) (w : Width) (m : MemOp) (s3 : Src) (s : State) : Out :=
  let n := widthBytes w
  aInstr g s <| cachedReq s (s.memAddr m) n need fun s t =>
    lateData s i (.done (holdStore s t.gpa (leBytes n (s.src s3).toNat)))

def execStg (g : Guard) (w : Width) (m : MemOp) (s3 : Src) (s : State) : Out := storeInstr (.stg g w m s3) g .write w m s3 s
def execStm (g : Guard) (w : Width) (m : MemOp) (s3 : Src) (s : State) : Out := storeInstr (.stm g w m s3) g .multicast w m s3 s

/-! ### PHASE and FENCE (R253, R257, R258) -/

def execPhase (g : Guard) (s : State) : Out :=
  common g s <|
    let (s, ok) := boundary s s.cur s.eng
    if ok then .done s else .wait s false

def scopeNo : Scope → Nat | .hearth => 0 | .die => 1 | .package => 2 | .system => 3

/-- Whether a write to the scratchpad of hearth t lies within a scope, seen from hearth h. -/
def hearthWithin (n h t : Nat) : Bool := t == h || 2 ≤ n || (n == 1 && dieOf t == dieOf h)
/-- Whether a line homed in slice i does. -/
def sliceWithin (n h i : Nat) : Bool := n == 3 || (n == 2 && i < 64) || (n == 1 && i < 64 && i / 32 == dieOf h)

/-- A command of the copy queue that a FENCE still waits for: it has elements to move, a flue to fill, a completion
within the scope, or a write within the scope that has not landed. -/
def CopyCmd.fenced (c : CopyCmd) (n h : Nat) : Bool :=
  c.elem.toNat < c.total || c.produces
    || (c.sub != 0 && hearthWithin n h (targetHearth h (c.op == 0x61 || c.op == 0x63) (tdesc c.tda)))

/-- Operations of hearth h in slice i that a FENCE of scope n waits for: AMOs and copy writes to lines within the scope.
An AMO's one indivisible access falls under the scope as its write does (R386); ACC is in the ember tile (log 20). -/
def WOp.fenced (op : WOp) (n h i : Nat) : Bool :=
  op.src == h && (match op.kind with | .amo .. | .copy _ => sliceWithin n h i | _ => false)

def fenceHolds (s : State) (n : Nat) : Bool :=
  let x := s.me
  match s.eng with
  | .a =>
    !(x.act.copyq.any fun c => c.fenced n s.cur) && x.act.mergeq.isEmpty && x.act.blowq.isEmpty
      && !(s.ocm.any fun m => m.src == s.cur && hearthWithin n s.cur (m.addr.toNat / 2 ^ 22))
      && !(s.slices.any fun p => p.2.inq.any (·.fenced n s.cur p.1) || p.2.wq.any (·.fenced n s.cur p.1))
  | .x => x.matq.isEmpty

def execFence (g : Guard) (rs : Scope) (s : State) : Out :=
  common g s (if fenceHolds s (scopeNo rs) then .done s else .wait s false)

/-! ### AMO (R279) -/

/-- The new word of an AMO on n-byte words (R279). -/
def amoWord (op : AmoOp) (wide : Bool) (old v c : Nat) : Nat :=
  let t : DType := if wide then .i64 else .i32
  let u : DType := if wide then .n64 else .n32
  match op with
  | .add => (old + v) % 2 ^ tyBits t
  | .and => old &&& v
  | .or => old ||| v
  | .xor => old ^^^ v
  | .smin => minMax t false old v
  | .smax => minMax t true old v
  | .umin => minMax u false old v
  | .umax => minMax u true old v
  | .xchg => v
  | .cas => if old = c then v else old
  | .fadd => addEnc .f32 ⟨.rne, false⟩ 0 old v
  | .fmin => minMax .f32 false old v
  | .fmax => minMax .f32 true old v

def execAmo (g : Guard) (op : AmoOp) (wide nr : Bool) (d : Reg) (base : Reg) (s2 : Src) (s3 : Reg) (ofs : BitVec 24)
    (s : State) : Out :=
  let n := if wide then 8 else 4
  aInstr g s <|
    match s.ctx.amo with
    | .got v => .done ((s.setCtx { s.ctx with amo := .none }).setReg d v)
    | .sent _ => .wait s false
    | .none =>
      let a := s.reg base + ofs.signExtend 64
      memReq s a n .both fun t => lateData s (.amo g op wide nr d base s2 s3 ofs) <|
        let cut (w : Word) : Word := BitVec.ofNat 64 (w.toNat % 2 ^ (8 * n))
        let uid := s.uid + 1
        let s := sendOp { s with uid := uid }
          { kind := .amo op wide (if nr then none else some uid) (t.gpa % 64) (cut (s.src s2)) (cut (s.reg s3))
            part := t.part, src := s.cur, ctxid := s.ctx.ctxid, gline := lineNo t.gpa }
        if nr then .done s else .wait (s.setCtx { s.ctx with amo := .sent uid }) false

/-! ### PGREQ and RESQ (R244, R245) -/

/-- The requests that hold a place of a hob: the first for each frame, which the others join (R234, R244). -/
def heldPlaces (l : List HobReq) : List HobReq :=
  l.foldl (fun a r => if a.any fun q => q.part == r.part && q.g == r.g then a else a ++ [r]) []

/-- The request for a frame is posted to a die's hob, or joins the one already being served; none when the hob's places
are full (R244). -/
def postRequest (s : State) (die part g : Nat) (replica : Bool) (waiter : Option Nat) : Option State :=
  if (s.hobReqs.any fun r => r.part == part && r.g == g)
      || ((heldPlaces s.hobReqs).filter (·.die == die)).length < 256 then
    let s := s.setStage2 part g fun e => { e with pend := true }
    some { s with hobReqs := s.hobReqs ++ [{ part := part, g := g, die := die, replica := replica, waiter := waiter }] }
  else none

/-- Whether a request has nothing to do on a die. -/
def requestDone (e : S2Ent) (die : Nat) (replica : Bool) : Bool :=
  !e.nr && (!replica || e.repOn die || (!e.remote && e.frame.toNat / 2 ^ 21 == die))

def pgreqInstr (g : Guard) (replica : Bool) (d s1 : Reg) (nowait : Bool) (s : State) : Out :=
  aInstr g s <|
    let a := s.reg s1
    let die := dieOf s.cur
    match s.me.pg with
    | .served st => .done ((s.setMe { s.me with pg := .none }).setReg d st)
    | .posted => .wait s false
    | .place part g =>
      match postRequest s die part g replica (some s.cur) with
      | some s => .wait (s.setMe { s.me with pg := .posted }) false
      | none => .wait s false
    | .none =>
      let perm := 192 ≤ s.cur || match lookupWin s.me.win a with | some e => !replica || e.r | none => true
      req s perm .windowPerm a <|
        match translate s s.cur .any a with
        | .error c => trapTrn s c a
        | .ok t =>
          let g := t.gpa / frameSize
          if requestDone t.ent die replica then .done (s.setReg d 0)
          else match postRequest s die t.part g replica (if nowait then none else some s.cur) with
            | some s => if nowait then .done (s.setReg d 1) else .wait (s.setMe { s.me with pg := .posted }) false
            | none =>
              if nowait then .done (s.setReg d 4) else .wait (s.setMe { s.me with pg := .place t.part g }) false

def execPgreq (g : Guard) (d : Reg) (s1 : Reg) (nowait : Bool) (s : State) : Out := pgreqInstr g false d s1 nowait s
def execPgreqR (g : Guard) (d : Reg) (s1 : Reg) (nowait : Bool) (s : State) : Out := pgreqInstr g true d s1 nowait s

/-- RESQ's word (R245). The FRAME of a frame with NR set is no home copy on a die, so that LOCAL is 0 (DESIGN CHOICE,
log 108). -/
def resqWord (s : State) (h : Nat) (a : Word) : Nat :=
  let b (c : Bool) (n : Nat) : Nat := if c then 2 ^ n else 0
  match lookupWin (s.hearth h).win a with
  | none => 0
  | some e =>
    let part := s.guestOf h
    let gpa := e.gbase + (a.toNat - e.vbase)
    let die := dieOf h
    1 + b e.r 1 + b e.w 2 + b e.x 3 + 16 * e.size +
      match s.stage2 part (gpa / frameSize) with
      | none => 0
      | some f =>
        b true 6 + b f.nr 7 + b f.hasReplica 8
          + b (f.repOn die || (!f.remote && !f.nr && f.frame.toNat / 2 ^ 21 == die)) 9
          + b f.remote 10 + b (f.remote && !s.peerUp part f.peer.toNat) 11 + b f.pend 12

def execResq (g : Guard) (d : Reg) (s1 : Reg) (s : State) : Out :=
  aInstr g s (.done (s.setReg d (BitVec.ofNat 64 (resqWord s s.cur (s.reg s1)))))

/-! ### FETCH_RETURN (R247) -/

/-- FETCH_RETURN: the line that an LDG of hearth h waits for enters the phase cache, as its slice or replica holds it
now and after every published write of the hearth to it, under the entry that the load met at its issue (R233); the
hearth's other writes need not have landed (log 78). Or the answer of a returning AMO arrives. -/
def execFetchReturn (h : Nat) (s : State) : Out :=
  .next <|
    let x := s.hearth h
    if s.pw.cur != 0 || gatedAt s h then s
    else match x.fetch with
    | some line =>
      let clear := s.modHearth h fun x => { x with fetch := none }
      match x.issue with
      | none => clear
      | some i =>
        if !x.fetchPath.rings.isEmpty || (anyOp s fun op => op.src == h && op.gline == line && op.kind == .store) then s
        else if i.lost || poisonedCopy s (dieOf h) i.ent line 64 then clear
        else
          match copyWordPoison s (dieOf h) i.ent line with
          | (some (_, w), s) => s.modHearth h fun x => { x with fetch := none, issue := some { i with poison := some w } }
          | (none, s) =>
            let (l, s) := readGuest s (dieOf h) i.ent line 64
            let (fresh, s) := meetWord (phaseBad x) s
            s.modHearth h fun x => { x with
              fetch := none, pcache := tput x.pcache line (BitVec.ofNat 512 (leNat l)), cacheBad := x.cacheBad.filter fun w => fresh != some w }
    | none =>
      match x.act.amo with
      | .sent uid =>
        match s.replies.find? fun r => r.uid == uid && r.path.rings.isEmpty with
        | some r =>
          { s.modCtx h fun c => { c with amo := .got r.value } with replies := s.replies.filter fun r => r.uid != uid }
        | none => s
      | _ => s

end Sys2Proof.Machine
end

