-- ==== Sys2Proof/Machine/Slices.lean ====
section
/-!
DEFINITION. The home slices (12 R265-R269, R276, R279-R285): the write queue, the damper, and ordered sequences.
-/
set_option autoImplicit false

namespace Sys2Proof.Machine

/-! ### Combining (R276) -/

/-- One lane of combine. -/
def combineLane (op : AccOp) (t : DType) (p q : Nat) : Nat :=
  match op with
  | .add => if t = .f32 then addEnc .f32 ⟨.rne, false⟩ 0 p q else (p + q) % 2 ^ tyBits t
  | .smin | .umin | .fmin => minMax t false p q
  | .smax | .umax | .fmax => minMax t true p q

def combine (op : AccOp) (t : DType) (p q : LineWord) : LineWord :=
  let w := tyBits t
  BitVec.ofNat 512 ((List.range (512 / w)).foldl (fun a i =>
    a + combineLane op t (bits p.toNat (w * i) w) (bits q.toNat (w * i) w) * 2 ^ (w * i)) 0)

/-! ### The write queue (R265-R267) -/

def Slice.conf (x : Slice) (p : Nat) : SliceCfg := tget {} x.cfg p
/-- Entries of the shared pool (R266). -/
def Slice.pool (x : Slice) : Nat := 256 - (x.cfg.map fun c => c.2.rsvq.toNat).foldl (· + ·) 0
def Slice.busy (x : Slice) (c : WClass) : Nat := (x.wq.filter (·.cls == c)).length

/-- The class of the entry that the slice grants an unforced operation of a partition, if one of the 256 is free. -/
def Slice.entryFor (x : Slice) (p : Nat) : Option WClass :=
  if 256 ≤ (x.wq.filter (·.cls != .forced)).length then none
  else if (x.wq.filter fun o => o.cls == .reserved && o.part == p).length < (x.conf p).rsvq.toNat then some .reserved
  else if x.busy .shared < x.pool then some .shared
  else none

/-- The entry into which an ACC merges: it holds addends of the same SUB and TYPE for the line. -/
def Slice.mergeAt (x : Slice) (op : WOp) : Option Nat :=
  match op.kind with
  | .acc o t _ => x.wq.findIdx? fun e => e.line == op.line && (match e.kind with
    | .acc o' t' _ => o == o' && t == t'
    | _ => false)
  | _ => none

def mergeOps (a b : WOp) : WOp :=
  match a.kind, b.kind with
  | .acc o t v, .acc _ _ w => { a with kind := .acc o t (combine o t v w), more := b.src :: (a.more ++ b.more) }
  | _, _ => a

/-- Two published stores to different bytes, or two ACCs: nothing orders them (R255, R280). -/
def unordered (a b : WOp) : Bool :=
  match a.kind, b.kind with
  | .store, .store => !(a.bytes.any fun p => b.bytes.any fun q => p.1 == q.1)
  | .acc .., .acc .. => true
  | _, _ => false

/-- Two operations that must be granted in the order in which they came: of one sender to one line, but for those that
nothing orders, and ordered contributions to one line (R255, R279, R280, R283). -/
def sameOrder (a b : WOp) : Bool :=
  a.line == b.line && ((a.src == b.src && !unordered a b)
    || (match a.kind, b.kind with | .acco .., .acco .. => true | _, _ => false))

/-- WRITE_QUEUE_GRANT: request i at the input of slice n gets an entry, or merges (R267). -/
def execWriteQueueGrant (rs i : Nat) (s : State) : Out :=
  .next <|
    let x := s.slice rs
    match x.inq[i]? with
    | none => s
    | some op =>
      if !op.path.rings.isEmpty || (x.inq.take i).any (sameOrder op) || (s.pw.cur ≠ 0) then s
      else match x.mergeAt op with
        | some j => s.setSlice rs { x with inq := ldel x.inq i, wq := lmod x.wq j (mergeOps · op) }
        | none => match x.entryFor op.part with
          | none => s
          | some c => s.setSlice rs { x with inq := ldel x.inq i, wq := x.wq ++ [{ op with cls := c, grant := s.dcc }] }

/-! ### Landing (R246, R251, R265) -/

/-- The word condition of a parked task holds (R299): its word is in this package, in a resident frame. -/
def parkHolds (s : State) (t : Task) : Bool :=
  match s.stage2 t.part (t.eaddr / frameSize) with
  | some e => !e.remote && !e.nr && waitMet (match t.cond with | 0 => .eq | 1 => .ne | 2 => .ge | _ => .lt)
      (BitVec.ofNat 64 (mrd s.mem (e.home t.eaddr) 8)) t.cmp
  | none => false

/-- Parked tasks whose condition a landing has satisfied (R299). -/
def noteParked (s : State) : State :=
  { s with fb := { s.fb with tasks := s.fb.tasks.map fun t =>
      if t.st = .parked ∧ t.event = 1 ∧ !t.met ∧ parkHolds s t then { t with met := true } else t } }

/-- A byte that software writes at a guest address of partition p: BADTAIL of a queue descriptor is W1C (R8, R303), so
that a 1 there clears the bit and a 0 leaves it (log 90). -/
def softByte (s : State) (p gpa : Nat) (old new : Byte) : Byte :=
  let hit (v : Vf) : Bool :=
    v.part == some p && v.qtbase.toNat ≤ gpa && gpa < v.qtbase.toNat + 64 * v.qtn.toNat && (gpa - v.qtbase.toNat) % 64 == 0x10
  if s.vfs.any fun v => hit v.2 then (new &&& 0xF7#8) ||| (old &&& ~~~new &&& 8#8) else new

/-- Bytes land on a line: in the home copy and in every other copy of this package, in one step (R237). A write of the
whole line clears its poison mark (R358). -/
def landBytes (s : State) (op : WOp) (l : List (Nat × Byte)) : State :=
  let e := (s.stage2 op.part (op.gline / frameSize)).getD {}
  let at_ := (if e.remote then [] else [op.line]) ++ s.copiesOf op.part e op.gline
  let l := l.map fun b => (b.1, softByte s op.part (op.gline + b.1) (mget s.mem (op.line + b.1)) b.2)
  let put (m : Memory) (a : Nat) : Memory := l.foldl (fun m b => mput m (a + b.1) b.2) m
  noteParked { s with
    mem := at_.foldl put s.mem
    poison := if l.length = 64 then s.poison.filter fun a => !at_.contains a else s.poison }

def lineBytes (v : LineWord) : List (Nat × Byte) := (List.range 64).map fun i => (i, v.extractLsb' (8 * i) 8)
def readLineAt (s : State) (a : Nat) : LineWord := BitVec.ofNat 512 (leNat (mbytes s.mem a 64))

/-- A hearth's fetched bytes of a line are dropped when its own AMO, ACC, ACCO or copy write lands there (R251). -/
def dropFetched (s : State) (h gline : Nat) : State :=
  if h < 192 then s.modHearth h fun x => { x with
    pcache := tdel x.pcache gline, held := x.held.filter fun d => !(d.sent && lineNo d.gpa == gline) } else s

/-- A copy command in a context learns that one of its writes has landed. -/
def Ctx.copyLanded (c : Ctx) (uid n : Nat) : Ctx :=
  { c with copyq := c.copyq.map fun k => if k.uid = uid then { k with sent := k.sent - 1, landed := k.landed + n } else k }

def copyLanded (s : State) (h uid n : Nat) : State :=
  s.modHearth h fun x => { x with act := x.act.copyLanded uid n, ina := x.ina.copyLanded uid n }

/-- An AMO that meets a poisoned line or SRAM word of its slice raises MACHINE_CHECK in its context, and is not applied
(R358, log 80). -/
def amoPoison (s : State) (op : WOp) (reply : Option Nat) (array : Byte) (loc : Nat) (slice : Option Nat) : State :=
  let clear (c : Ctx) : Ctx := if reply.any fun u => c.amo == .sent u then { c with amo := .none } else c
  if op.src < 192 then
    poisonFault (s.modHearth op.src fun x => { x with act := clear x.act, ina := clear x.ina }) op.src array loc 0 none none slice
  else s

/-- A combined line is poisoned when what it was combined with was, in HBM or in its slice's SRAM (R358, log 80). -/
def landCombined (s : State) (n : Nat) (op : WOp) (v : LineWord) : State :=
  let (bad, s) := slicePoison s n
  { landBytes s op (lineBytes v) with
    poison := if bad.isSome ∧ !s.poison.contains op.line then op.line :: s.poison else s.poison }

/-- What a granted operation of slice n does when it lands. A peer's lines are not in this package: what the peer
answers is a free value (log 8). -/
def landOp (s : State) (n : Nat) (op : WOp) : State :=
  let remote := 64 ≤ n
  let landWhole (s : State) : State := if op.bytes.length = 64 ∧ !remote then cleanSlice s n else s
  match op.kind with
  | .fill to_ =>
    let (l, s) : List (Nat × Byte) × State :=
      if !op.bytes.isEmpty then (op.bytes, s)
      else if remote then (let (b, s) := freeBytes s 64; ((List.range 64).map fun i => (i, b.getD i 0), s))
      else (lineBytes (readLineAt s op.line), s)
    let (word, s) := if op.bytes.isEmpty && !remote then slicePoison s n else (none, s)
    let bad := op.bytes.isEmpty && (s.poison.contains op.line || word.isSome)
    { s with mem := l.foldl (fun m b => mput m (to_ + b.1) b.2) s.mem
             poison := if bad then to_ :: s.poison.filter (· != to_) else s.poison.filter (· != to_) }
  | .store => landWhole (landBytes s op op.bytes)
  | .copy uid => dropFetched (copyLanded (landWhole (landBytes s op op.bytes)) op.src uid op.bytes.length) op.src op.gline
  | .amo o wide reply ofs v c =>
    let (bad, s) := if remote then (none, s) else slicePoison s n
    if bad.isSome then amoPoison s op reply 1 (4 * bad.getD 0) (some n)
    else if !remote && s.poison.contains op.line then amoPoison s op reply 0 op.line none
    else
    let n := if wide then 8 else 4
    let (old, s) := if remote then (let (w, s) := s.freeWord; (w.toNat % 2 ^ (8 * n), s)) else (mrd s.mem (op.line + ofs) n, s)
    let new := leBytes n (amoWord o wide old v.toNat c.toNat)
    let s := if remote then s else landBytes s op ((List.range n).map fun i => (ofs + i, new.getD i 0))
    let s := dropFetched s op.src op.gline
    match reply with
    | some uid => { s with replies := s.replies ++
        [{ uid := uid, value := BitVec.ofNat 64 old, part := op.part, path := pathBack op.src (answerDie n op.port) }] }
    | none => s
  | .acc o t v =>
    let s := if remote then s else landCombined s n op (combine o t (readLineAt s op.line) v)
    (op.src :: op.more).foldl (fun s h => dropFetched s h op.gline) s
  | .acco _ t v =>
    let s := if remote then s else landCombined s n op (combine .add t (readLineAt s op.line) v)
    dropFetched s op.src op.gline

/-! ### Ordered sequences (R281-R285) -/

def Slice.keyRec (x : Slice) (p : Nat) (k : BitVec 16) : Option KeyRec :=
  x.keys.find? fun r => r.part == p && r.key == k
def Slice.modKey (x : Slice) (p : Nat) (k : BitVec 16) (f : KeyRec → KeyRec) : Slice :=
  { x with keys := x.keys.map fun r => if r.part = p ∧ r.key = k then f r else r }

/-- Indices that have arrived for a key and a line, and those of them that wait in the reorder buffer. -/
def Slice.arrived (x : Slice) (p : Nat) (k : BitVec 16) (line : Nat) : List Nat :=
  match x.pairs.find? fun q => q.part == p && q.key == k && q.line == line with
  | some q => q.arrived
  | none => []
def Slice.waiting (x : Slice) (p : Nat) (k : BitVec 16) (line : Nat) : List Nat :=
  (x.rob.filter fun m => m.part == p && m.key == k && m.line == line).map (·.index)

/-- Every index below i is settled for the key and line (R283): the ranges below i cover [0, i), no contribution below i
waits, and each range still open has a contribution at or past the end of its part below i. -/
def Slice.settledBelow (x : Slice) (r : KeyRec) (line i : Nat) : Bool :=
  let arr := x.arrived r.part r.key line
  let below := r.ranges.filter fun g => g.lo < i
  let cover := below.foldl (fun n g => n + (min (g.lo + g.n) i - g.lo)) 0
  cover == i && !((x.waiting r.part r.key line).any (· < i))
    && below.all fun g => g.closed || arr.any (fun j => g.lo ≤ j && j < g.lo + g.n && min (g.lo + g.n) i ≤ j + 1)

/-- A contribution that can be applied now. -/
def Slice.canApply (x : Slice) (m : AccoMsg) : Bool :=
  match x.keyRec m.part m.key with
  | some r => x.settledBelow r m.line m.index
  | none => false

/-- An applied contribution goes to the write queue; nothing merges with it. -/
def AccoMsg.toOp (m : AccoMsg) : WOp :=
  { kind := .acco m.key m.ty m.value, part := m.part, src := m.src, ctxid := m.ctxid, gline := m.gline, line := m.line }

/-- Applies what the reorder buffer can apply, at most n contributions. -/
def Slice.frontier : Nat → Slice → Slice
  | 0, x => x
  | n + 1, x =>
    match x.rob.findIdx? x.canApply with
    | none => x
    | some i => Slice.frontier n { x with rob := ldel x.rob i, inq := x.inq ++ (x.rob[i]?.map AccoMsg.toOp).toList }

def WOp.ofKey (op : WOp) (p : Nat) (k : BitVec 16) : Bool :=
  op.part == p && (match op.kind with | .acco k' _ _ => k' == k | _ => false)

/-- A key whose closed ranges cover its span and none of whose contributions is pending retires (R285). -/
def Slice.retire (x : Slice) : Slice :=
  let out (r : KeyRec) : Bool :=
    r.ranges.all (·.closed) && r.ranges.foldl (fun n g => n + g.n) 0 == r.span
      && !(x.rob.any fun m => m.part == r.part && m.key == r.key) && !(x.accoq.any fun m => m.part == r.part && m.key == r.key)
      && !(x.inq.any (·.ofKey r.part r.key)) && !(x.wq.any (·.ofKey r.part r.key))
  let gone := x.keys.filter out
  { x with keys := x.keys.filter fun r => !out r
           pairs := x.pairs.filter fun q => !(gone.any fun r => r.part == q.part && r.key == q.key) }

/-- A contribution arrives: the pair takes note of its index. -/
def Slice.note (x : Slice) (m : AccoMsg) : Slice :=
  if x.pairs.any fun q => q.part == m.part && q.key == m.key && q.line == m.line then
    { x with pairs := x.pairs.map fun q =>
        if q.part = m.part ∧ q.key = m.key ∧ q.line = m.line then { q with arrived := m.index :: q.arrived } else q }
  else { x with pairs := x.pairs ++ [{ part := m.part, key := m.key, line := m.line, arrived := [m.index] }] }

/-- OPERATION_LANDING: entry i of slice n lands, after every entry for its line that was granted before it. -/
def execOperationLanding (rs i : Nat) (s : State) : Out :=
  .next <|
    let x := s.slice rs
    match x.wq[i]? with
    | none => s
    | some op =>
      if (x.wq.take i).any (fun o => o.line == op.line) || s.pw.cur ≠ 0 then s
      else (landOp (s.setSlice rs { x with wq := ldel x.wq i }) rs op).modSlice rs Slice.retire

/-- A peer takes contribution i at its input into its reorder buffer, or applies one that it has taken: which and when
is the peer's (log 8). -/
def peerTakes (x : Slice) (i : Nat) : Slice :=
  match x.accoq[i]? with
  | some m => { x with accoq := ldel x.accoq i, rob := x.rob ++ [m] }
  | none =>
    let k := i - x.accoq.length
    { x with rob := ldel x.rob k, inq := x.inq ++ (x.rob[k]?.map AccoMsg.toOp).toList }

/-- The answer to a contribution that slice n has taken starts on its way (R284). -/
def tookAcco (s : State) (n : Nat) (m : Option AccoMsg) : State :=
  match m with
  | some m => { s with acks := s.acks ++
      [{ uid := m.uid, part := m.part, path := pathBack m.src (answerDie n m.port) }] }
  | none => s

/-- ACCO_ARRIVAL: contribution i at the input of slice n is applied, or taken by the reorder buffer, or waits (R283). -/
def execAccoArrival (rs i : Nat) (s : State) : Out :=
  .next <|
    let x := s.slice rs
    if s.pw.cur ≠ 0 then s
    else if (x.accoq[i]?).any fun m => !m.path.rings.isEmpty then s
    else if 64 ≤ rs then tookAcco (s.setSlice rs (peerTakes x i)) rs x.accoq[i]?
    else match x.accoq[i]? with
      | none => s
      | some m =>
        let y := { x with accoq := ldel x.accoq i }
        if (y.note m).canApply m then
          tookAcco (s.setSlice rs (Slice.frontier 512 { y.note m with inq := y.inq ++ [m.toOp] })) rs m
        else if x.rob.length < 512 then
          tookAcco (s.setSlice rs (Slice.frontier 512 { y.note m with rob := y.rob ++ [m] })) rs m
        else s

/-- A key record that a partition may still take, of 256: one of its reserved ones, else a shared one (R285). -/
def Slice.keyRoom (x : Slice) (p : Nat) : Bool :=
  let mine (q : Nat) : Nat := (x.keys.filter (·.part == q)).length
  let extra := (x.keys.map (·.part)).eraseDups.foldl (fun n q => n + (mine q - (x.conf q).rsvs.toNat)) 0
  x.keys.length < 256 && (mine p < (x.conf p).rsvs.toNat || extra < 256 - (x.cfg.map fun c => c.2.rsvs.toNat).foldl (· + ·) 0)

def rangesMeet (g : SeqRange) (lo n : Nat) : Bool := g.lo < lo + n && lo < g.lo + g.n

/-- A slice acknowledges a record: the answer starts on its way back. -/
def ackSeq (s : State) (m : SeqMsg) (rejected : Bool) : State :=
  { s with acks := s.acks ++ [{ uid := m.uid, rejected := rejected, part := m.part
                                path := pathBack m.src (answerDie m.slice m.port) }] }

/-- Counts an acknowledgement that has arrived. -/
def countAck (l : List SeqAck) (m : SeqAns) : List SeqAck :=
  l.map fun a => if a.uid = m.uid then { a with left := a.left - 1, rejected := a.rejected || m.rejected } else a

/-- The i-th record on its way to slice n. -/
def State.seqMsg (s : State) (n i : Nat) (isOpen : Bool) : Option SeqMsg :=
  match s.seqMsgs[i]? with
  | some m => if m.slice = n ∧ m.isOpen = isOpen then some m else none
  | none => none

/-- SEQ_OPEN_RECORD (R281): the slice accepts, rejects, or waits for a free record. -/
def execSeqOpenRecord (rs i : Nat) (s : State) : Out :=
  .next <| match s.seqMsg rs i true with
    | none => s
    | some m =>
      let x := s.slice rs
      let gone := { s with seqMsgs := ldel s.seqMsgs i }
      if s.pw.cur ≠ 0 || !m.path.rings.isEmpty then s
      else match x.keyRec m.part m.key with
        | some r =>
          if r.span ≠ m.span ∨ r.ranges.any (rangesMeet · m.lo m.n) then ackSeq gone m true
          else ackSeq (gone.setSlice rs (x.modKey m.part m.key fun r =>
            { r with ranges := r.ranges ++ [{ uid := m.uid, src := m.src, lo := m.lo, n := m.n }] })) m false
        | none =>
          if !x.keyRoom m.part then s
          else ackSeq (gone.setSlice rs { x with
            keys := x.keys ++ [{ part := m.part, key := m.key, span := m.span
                                 ranges := [{ uid := m.uid, src := m.src, lo := m.lo, n := m.n }] }] })
            m false

/-- A range is closed: its indices that have not arrived are settled (R283, R285). -/
def Slice.closeRange (x : Slice) (p : Nat) (k : BitVec 16) (lo n : Nat) : Slice :=
  (Slice.frontier 512 (x.modKey p k fun r =>
    { r with ranges := r.ranges.map fun g => if g.lo = lo ∧ g.n = n then { g with closed := true } else g })).retire

/-- SEQ_CLOSE_RECORD (R285). -/
def execSeqCloseRecord (rs i : Nat) (s : State) : Out :=
  .next <| match s.seqMsg rs i false with
    | none => s
    | some m =>
      if s.pw.cur ≠ 0 || !m.path.rings.isEmpty then s
      else ackSeq ({ s with seqMsgs := ldel s.seqMsgs i }.modSlice rs (·.closeRange m.part m.key m.lo m.n)) m false

/-- A range is voided (R286): its unapplied contributions are discarded and its indices settled. The answer counts the
contributions of this package's slices. -/
def voidRange (s : State) (p : Nat) (k : BitVec 16) (lo n : Nat) : State × Nat :=
  let hit (m : AccoMsg) : Bool := m.part == p && m.key == k && lo ≤ m.index && m.index < lo + n
  let count := s.slices.foldl (fun c q => c + (q.2.rob.filter hit).length + (q.2.accoq.filter hit).length) 0
  let forget (x : Slice) (q : SeqPair) : SeqPair :=
    if q.part = p ∧ q.key = k then
      { q with arrived := q.arrived.filter fun j => !(x.rob.any fun m => hit m && m.line == q.line && m.index == j) }
    else q
  let drop (x : Slice) : Slice :=
    let y := { x with rob := x.rob.filter fun m => !hit m, accoq := x.accoq.filter fun m => !hit m }
    { y with pairs := x.pairs.map (forget x) }.closeRange p k lo n
  ({ s with slices := s.slices.map fun q => (q.1, drop q.2)
            seqMsgs := s.seqMsgs.filter fun m => !(m.part == p && m.key == k && m.lo == lo && m.n == n) }, count)

/-! ### The damper (R268, R269) -/

def accOp (m : AccMsg) : WOp :=
  { kind := .acc m.op m.ty m.value, part := m.part, src := m.src, gline := m.gline, line := m.line, port := m.port }

/-- The damper's answer to a message starts on its way back. -/
def answerAcc (s : State) (n : Nat) (m : AccMsg) (accept : Bool) : State :=
  { s with answers := s.answers ++
      [{ uid := m.uid, accept := accept, part := m.part, path := pathBack m.src (answerDie n m.port) }] }

/-- An accepted message takes an entry or merges; an unforced one may wait for an entry at the input. -/
def acceptAcc (s : State) (n : Nat) (m : AccMsg) : State :=
  let x := s.slice n
  let op := accOp m
  let x := match x.mergeAt op with
    | some j => { x with wq := lmod x.wq j (mergeOps · op) }
    | none =>
      if m.force then { x with wq := x.wq ++ [{ op with cls := .forced, grant := s.dcc }] }
      else { x with inq := x.inq ++ [op] }
  answerAcc (s.setSlice n x) n m true

/-- DAMPER_DECISION: message i at slice n. Forced messages that have arrived are taken in the order of their arrival, in
which the rings leave them (`Turn.slice`). A peer's damper answers freely (log 8). -/
def execDamperDecision (rs i : Nat) (s : State) : Out :=
  .next <|
    let x := s.slice rs
    match x.accq[i]? with
    | none => s
    | some m =>
      let t := s.setSlice rs { x with accq := ldel x.accq i }
      let tok := tget 0 x.tokens m.part
      if s.pw.cur ≠ 0 || !m.path.rings.isEmpty then s
      else if 64 ≤ rs then
        let (b, t) := t.freeBit
        if m.force || b then acceptAcc t rs m else answerAcc t rs m false
      else if m.force then
        if ((x.accq.take i).any (fun k => k.force && k.path.rings.isEmpty) || 8 ≤ x.busy .forced) && (x.mergeAt (accOp m)).isNone then s
        else acceptAcc t rs m
      else if 0 < tok then acceptAcc (t.modSlice rs fun y => { y with tokens := tput y.tokens m.part (tok - 1) }) rs m
      else if x.busy .shared ≤ x.sht.toNat then acceptAcc t rs m
      else answerAcc t rs m false

/-- DAMPER_WINDOW: at a window start every partition's tokens are TOK. -/
def execDamperWindow (s : State) : Out :=
  .next <|
    if s.dcc.toNat % 1024 = 0 then
      { s with slices := s.slices.map fun q => (q.1, { q.2 with tokens := q.2.cfg.map fun c => (c.1, c.2.tok.toNat) }) }
    else s

end Sys2Proof.Machine
end

