-- ==== Sys2Proof/Machine/Regions.lean ====
section
/-!
DEFINITION. How the firebox reaches partition memory (13 R398), and regions: making one live, budgets and retirement
(R288-R290).
-/
set_option autoImplicit false

namespace Sys2Proof.Machine

/-! ### Reaching partition memory (R398) -/

/-- What the firebox finds at a range of guest physical memory: usable, waiting for residency, or out of reach. -/
inductive Reach where
  | ok | waits | bad
  deriving DecidableEq, Repr

/-- The guest frames of a range. -/
def framesOf (gpa n : Nat) : List Nat :=
  (List.range ((gpa + n - 1) / frameSize - gpa / frameSize + 1)).map (gpa / frameSize + ·)

def reachFrame (s : State) (part g : Nat) : Reach :=
  match s.stage2 part g with
  | none => .bad
  | some e =>
    if e.remote || !frameOk e.frame.toNat then .bad
    else if e.nr then (if s.fb.unread.contains (part, g) then .bad else .waits)
    else .ok

def reach (s : State) (part gpa n : Nat) : Reach :=
  if n = 0 then .ok
  else
    let l := (framesOf gpa n).map (reachFrame s part)
    if l.contains .bad then .bad else if l.contains .waits then .waits else .ok

/-- Untranslatable: beyond the array, invalid, or REMOTE. -/
def translatable (s : State) (part gpa n : Nat) : Bool :=
  n == 0 || (gpa + n ≤ 2 ^ 46 && (framesOf gpa n).all fun g => match s.stage2 part g with
    | some e => !e.remote
    | none => false)

/-- Posts the residency requests of a range, merging with those already pending. -/
def askFrames (s : State) (part gpa n : Nat) : State :=
  (framesOf gpa n).foldl (fun s g =>
    if reachFrame s part g == .waits && !(s.hobReqs.any fun r => r.part == part && r.g == g) then
      (postRequest s 0 part g false none).getD s
    else s) s

/-- What a read or a use of an item gives. -/
inductive Fb (α : Type) where
  | ok (v : α)
  | wait (s : State)
  | bad (gpa : Nat)

def fbRead (s : State) (part gpa n : Nat) : Fb (List Byte) :=
  match reach s part gpa n with
  | .ok => .ok ((readGpa s part gpa n).getD [])
  | .waits => .wait (askFrames s part gpa n)
  | .bad => .bad gpa

/-- The little-endian number of the n bytes at offset o. -/
def field (l : List Byte) (o n : Nat) : Nat := leNat ((l.drop o).take n)

/-! ### Regions (R288-R290) -/

def State.region (s : State) (part gpa : Nat) : Option Region :=
  s.fb.regions.find? fun r => r.part == part && r.gpa == gpa

def State.modRegion (s : State) (part gpa : Nat) (f : Region → Region) : State :=
  { s with fb := { s.fb with regions := s.fb.regions.map fun r => if r.part = part ∧ r.gpa = gpa then f r else r } }

/-- The live regions from one up to its root. -/
def pathGo (s : State) (part : Nat) : Nat → Nat → List Region
  | 0, _ => []
  | n + 1, gpa =>
    match s.region part gpa with
    | none => []
    | some r => r :: (if r.level = 1 then [] else pathGo s part n r.parent)

def regionPath (s : State) (part gpa : Nat) : List Region := pathGo s part 8 gpa

/-- Every region of a path has room. -/
def pathRoom (s : State) (part gpa : Nat) (f : Region → Bool) : Bool := (regionPath s part gpa).all f

/-- Changes the charges of every region of a path; its RO fields are to be written for a launch. -/
def chargePath (s : State) (part gpa launch : Nat) (f : Region → Region) : State :=
  (regionPath s part gpa).foldl (fun s r => s.modRegion part r.gpa fun r => { f r with dirty := some launch }) s

/-- The pending-launch pool has room for one more entry (R290): the path's budgets and the partition's share. -/
def plRoom (s : State) (part gpa : Nat) : Bool :=
  pathRoom s part gpa fun r => decide (r.plu < (if r.level = 1 then min r.ple (s.part part).ple else r.ple))

/-- A region control block's fields (R288). -/
structure Rcb where
  parent : Nat
  ovr : Nat
  hcap : Nat
  ple : Nat
  ea : Nat
  sqa : Nat
  prio : Nat
  handler : Nat
  propagate : Bool
  winimg : Nat
  faults : Nat
  reserved : Bool

def rcbOf (l : List Byte) : Rcb :=
  let w (o : Nat) : Nat := field l o 8
  { parent := bits (w 0) 0 46, ovr := bits (w 8) 0 7, hcap := bits (w 0x10) 0 8, ple := bits (w 0x10) 8 14
    ea := bits (w 0x10) 22 8, sqa := bits (w 0x10) 30 5, prio := bits (w 0x10) 35 4, handler := bits (w 0x18) 0 46
    propagate := bits (w 0x18) 46 1 == 1, winimg := bits (w 0x20) 0 46, faults := w 0x48
    reserved := bits (w 0) 46 18 == 0 && bits (w 8) 7 57 == 0 && bits (w 0x10) 39 25 == 0 && bits (w 0x18) 47 17 == 0
      && bits (w 0x20) 46 18 == 0 && w 0x28 == 0 && w 0x30 == 0 && w 0x38 == 0 }

def Rcb.gives (r : Rcb) (i : Nat) : Bool := bits r.ovr i 1 == 1

/-- The values that a block gives lie in their ranges (R288). -/
def Rcb.inRange (r : Rcb) : Bool :=
  (!r.gives 0 || (1 ≤ r.hcap && r.hcap ≤ 192)) && (!r.gives 1 || r.ple ≤ 8192)
    && (!r.gives 2 || (1 ≤ r.ea && r.ea ≤ 128)) && (!r.gives 3 || r.sqa ≤ 16)

/-- The effective values of a region below a parent; none for a root's (R289). FAULTS goes on from the block's own. -/
def effective (r : Rcb) (part gpa : Nat) (up : Option Region) : Region :=
  let p : Region := up.getD {}
  { part := part, gpa := gpa, parent := r.parent, level := (match up with | some p => p.level + 1 | none => 1)
    hcap := if r.gives 0 then r.hcap else p.hcap, ple := if r.gives 1 then r.ple else p.ple
    ea := if r.gives 2 then r.ea else p.ea, sqa := if r.gives 3 then r.sqa else p.sqa
    prio := if r.gives 4 then r.prio else p.prio, handler := if r.gives 5 then r.handler else p.handler
    propagate := if r.gives 5 then r.propagate else p.propagate, winimg := if r.gives 6 then r.winimg else p.winimg
    faults := BitVec.ofNat 64 r.faults }

/-- The checks of R289 on one region to be made live. -/
def regionOk (s : State) (part : Nat) (b : Rcb) (r : Region) : Bool :=
  b.reserved && (r.level != 1 || b.ovr == 127) && b.inRange && r.level ≤ 8 && r.gpa % 256 == 0
    && r.winimg % 4096 == 0 && translatable s part r.winimg 4096
    && (r.handler == 0 || (r.handler % 128 == 0 && translatable s part r.handler 128))

/-- The first 80 bytes of a block as they are to stand: RO fields that its frame has not taken yet count (R398). -/
def rcbBytes (s : State) (part gpa : Nat) (l : List Byte) : List Byte :=
  match s.fb.owed.find? fun o => o.part == part && o.gpa == gpa + 0x40 with
  | some o => l.take 0x40 ++ o.bytes
  | none => l

/-- The blocks from a region up to the first live region or the registered root: innermost first. -/
def climb (s : State) (part : Nat) : Nat → Nat → Fb (List (Nat × Rcb) × Option Region)
  | 0, gpa => .bad gpa
  | n + 1, gpa =>
    match s.region part gpa with
    | some r => .ok ([], some r)
    | none =>
      if !translatable s part gpa 256 then .bad gpa
      else match fbRead s part gpa 80 with
        | .wait s => .wait s
        | .bad a => .bad a
        | .ok l =>
          let b := rcbOf (rcbBytes s part gpa l)
          if gpa = (s.part part).root.toNat then .ok ([(gpa, b)], none)
          else if b.parent = 0 then .bad gpa
          else match climb s part n b.parent with
            | .ok (bs, top) => .ok ((gpa, b) :: bs, top)
            | r => r

/-- Makes the chain live from the top down; none when a region of it is refused, which leaves all as they were. -/
def makeChain (s : State) (part : Nat) (top : Option Region) : List (Nat × Rcb) → Option (List Region)
  | [] => some []
  | (g, b) :: rest =>
    let r := effective b part g top
    if regionOk s part b r then (makeChain s part (some r) rest).map (r :: ·) else none

/-- A region becomes live with its ancestors (R289). -/
def makeLive (s : State) (part gpa : Nat) : Fb State :=
  match climb s part 8 gpa with
  | .wait s => .wait s
  | .bad a => .bad a
  | .ok (bs, top) =>
    match makeChain s part top bs.reverse with
    | none => .bad gpa
    | some rs => .ok { s with fb := { s.fb with
        regions := s.fb.regions ++ rs.map fun r => { r with dirty := some 0 }
        owed := s.fb.owed.filter fun o => !(rs.any fun r => r.part == o.part && r.gpa + 0x40 == o.gpa) } }

/-- The RO fields of a region's block (R288), 0x40 to 0x4F. -/
def roBytes (r : Region) (rstate : Nat) : List Byte :=
  leBytes 8 (r.run + 2 ^ 8 * r.plu + 2 ^ 22 * r.squ + 2 ^ 27 * rstate) ++ leBytes 8 r.faults.toNat

/-- The firebox's own writes, which may satisfy the condition of a parked task (R299). -/
def fbWrite (s : State) (part gpa : Nat) (l : List Byte) : State := noteParked (writeGpa s part gpa l)

/-- A write that waits for its frame where that is not resident (R398); what can no longer be reached is dropped. -/
def writeOrOwe (s : State) (part gpa : Nat) (l : List Byte) : State :=
  let s : State := { s with fb := { s.fb with owed := s.fb.owed.filter fun o => !(o.part == part && o.gpa == gpa) } }
  match reach s part gpa l.length with
  | .ok => fbWrite s part gpa l
  | .waits =>
    let s := askFrames s part gpa l.length
    { s with fb := { s.fb with owed := s.fb.owed ++ [{ part := part, gpa := gpa, bytes := l }] } }
  | .bad => s

/-- RSTATE of a live region: 3 while a task of its subtree belongs to a launch that is being aborted, else 2 while one
belongs to a launch whose queue is drained, else 1 (DESIGN CHOICE, log 51). -/
def rstateOf (s : State) (r : Region) : Nat :=
  let tasks := s.fb.tasks.filter fun t => t.part == r.part && (regionPath s t.part t.region).any (·.gpa == r.gpa)
  if tasks.any fun t => (tget {} s.fb.launches t.launch).aborting then 3
  else if tasks.any fun t => (tget {} s.fb.launches t.launch).draining then 2
  else 1

/-- The RO fields of a live region's block, with its RSTATE. -/
def writeRo (s : State) (r : Region) : State := fbWrite s r.part (r.gpa + 0x40) (roBytes r (rstateOf s r))

/-- Regions of which a launch's tasks hold RSTATE are to be written again. -/
def markRegions (s : State) (launch : Nat) : State :=
  (s.fb.tasks.filter (·.launch == launch)).foldl (fun s t => chargePath s t.part t.region launch id) s

/-- Regions whose subtree holds no task that has not ended retire (R289): RSTATE returns to 0, at once or once the
block's frame can be written (R398). -/
def retireRegions (s : State) : State :=
  let used := s.fb.tasks.flatMap fun t =>
    (regionPath s t.part t.region ++ if t.rsv then regionPath s t.part t.eaddr else []).map fun r => (r.part, r.gpa)
  let gone := s.fb.regions.filter fun r => !used.contains (r.part, r.gpa) && !r.dlock
  let s : State := { s with fb := { s.fb with
    regions := s.fb.regions.filter fun r => used.contains (r.part, r.gpa) || r.dlock } }
  gone.foldl (fun s r => writeOrOwe s r.part (r.gpa + 0x40) (roBytes r 0)) s

/-- Writes what is owed. -/
def serveOwed (s : State) : State := s.fb.owed.foldl (fun s o => writeOrOwe s o.part o.gpa o.bytes) s

/-- The fault domain of a region (R291): the first region with a handler that contains, from the region upward. -/
def domainOf (s : State) (part gpa : Nat) : Option Region :=
  (regionPath s part gpa).find? fun r => !r.propagate && r.handler != 0

/-- Counts a fault handed to a domain. -/
def countFault (s : State) (r : Region) (launch : Nat) : State :=
  s.modRegion r.part r.gpa fun r => { r with faults := satInc r.faults, dirty := some launch }

end Sys2Proof.Machine
end

