-- ==== Sys2Proof/Machine/Embers.lean ====
section
/-!
DEFINITION. The ember tile and the A engine's accumulates and ordered sequences (12 R271-R275, R280-R287).
-/
set_option autoImplicit false

namespace Sys2Proof.Machine

/-! ### Entries (R271-R273) -/

def Ctx.ember (c : Ctx) (n : Nat) : Ember := tget {} c.embers n
def Ctx.setEmber (c : Ctx) (n : Nat) (e : Ember) : Ctx := { c with embers := tput c.embers n e }
/-- Entries not free. -/
def Ctx.emberCount (c : Ctx) : Nat := (c.embers.filter fun p => p.2.state != .free).length
/-- The entry of a line. -/
def Ctx.emberOf (c : Ctx) (line : BitVec 42) : Option Nat :=
  (c.embers.find? fun p => p.2.state != .free && p.2.line == line).map (·.1)

/-- Where a message for a line of the hearth goes. -/
inductive AccDest where
  /-- To a slice: the guest line, the line there, and the partition. -/
  | to (slice gline line part : Nat)
  /-- Its peer is lost (R239). -/
  | lost
  /-- It does not translate now: the entry stays held (log 40). -/
  | nowhere

def accDest (s : State) (h : Nat) (dva : Word) : AccDest :=
  if 192 ≤ h then match untranslated dva with
    | .ok _ => .to (sliceOf dva.toNat) (lineNo dva.toNat) (lineNo dva.toNat) hostPart
    | .error _ => .nowhere
  else match lookupWin (s.hearth h).win dva, s.ownerOf h with
  | some e, some p =>
    let gpa := e.gbase + (dva.toNat - e.vbase)
    match s.stage2 p (gpa / frameSize) with
    | none => .nowhere
    | some f =>
      if f.remote then
        if s.peerUp p f.peer.toNat then
          .to (64 + f.peer.toNat) (lineNo gpa) (f.frame.toNat * frameSize + lineNo gpa % frameSize) p
        else .lost
      else if f.nr || !frameOk f.frame.toNat then .nowhere
      else .to (sliceOf (f.home gpa)) (lineNo gpa) (lineNo (f.home gpa)) p
  | _, _ => .nowhere

/-- A context of a hearth: the active one, or the stopped one beside a handler. -/
def State.half (s : State) (h : Nat) (ina : Bool) : Ctx := if ina then (s.hearth h).ina else (s.hearth h).act
def State.modHalf (s : State) (h : Nat) (ina : Bool) (f : Ctx → Ctx) : State :=
  s.modHearth h fun x => if ina then { x with ina := f x.ina } else { x with act := f x.act }

/-- The line marked "send" of R273 for entry n of a context, held or new. An entry bound for a lost peer is discarded
and counted (R239, R286). -/
def sendEmber (s : State) (h : Nat) (ina : Bool) (n : Nat) : State :=
  let e := (s.half h ina).ember n
  match accDest s h ((e.line ++ 0#6).setWidth 64) with
  | .nowhere => s.modHalf h ina fun c => c.setEmber n { e with state := .held }
  | .lost => s.modHalf h ina fun c => { c.setEmber n {} with embdrop := satInc c.embdrop }
  | .to slice gline line part =>
    let uid := s.uid + 1
    let s := ({ s with uid := uid } : State).modSlice slice fun x => { x with accq := x.accq ++
      [{ part := part, src := h, uid := uid, gline := gline, line := line, op := e.op, ty := e.ty, value := e.value
         force := e.ref == 64, port := if 64 ≤ slice then s.portFor part (slice - 64) gline else 0
         path := if 64 ≤ slice then pathToPort h (s.portFor part (slice - 64) gline) else pathTo h (slice / 32) slice }] }
    s.modHalf h ina fun c => c.setEmber n { e with state := .inflight, uid := uid }

/-- The words of an ember entry in the image (R271): its value, and its tag. -/
def emberPlaces (n : Nat) : List (Nat × Nat) := [(0x8000 + 64 * n, 64), (0xA000 + 8 * n, 8)]

/-- Sends a held entry. One with a poisoned word raises MACHINE_CHECK in its context while that runs, and stays held
(R358). -/
def sendSound (s : State) (h : Nat) (ina : Bool) (n : Nat) : State :=
  match badIn (s.half h ina).bad (emberPlaces n) with
  | none => sendEmber s h ina n
  | some w =>
    if !ina && [.running, .handler, .ending].contains (s.hearth h).run then poisonFault s h 3 (4 * w) 0 none none else s

/-- Sends every held entry of a context (R274, R275). -/
def sendHeld (s : State) (h : Nat) (ina : Bool) : State :=
  (s.half h ina).embers.foldl (fun s p => if p.2.state == .held then sendSound s h ina p.1 else s) s

/-- An answer at the entry that waits for it (R273). -/
def answerEmber (uid : Nat) (accept : Bool) (e : Ember) : Ember :=
  if e.state = .inflight ∧ e.uid = uid then
    if accept then {} else { e with state := .held, ref := e.ref + 1 }
  else e

def Ctx.answer (c : Ctx) (uid : Nat) (accept : Bool) : Ctx :=
  { c with embers := c.embers.map fun p => (p.1, answerEmber uid accept p.2) }

/-- ACC_ANSWER: answer i reaches its sender, in whichever half its context lies (R273, R286). -/
def execAccAnswer (i : Nat) (s : State) : Out :=
  .next <| match s.answers[i]? with
    | none => s
    | some a =>
      if s.pw.cur ≠ 0 || !a.path.rings.isEmpty then s
      else
        { s with answers := ldel s.answers i
                 hearths := s.hearths.map fun p => (p.1, { p.2 with
                   act := p.2.act.answer a.uid a.accept, ina := p.2.ina.answer a.uid a.accept }) }

/-- A hearth whose context runs, stands stopped, or ends, and counts this tick (R261, R322, R353, R357): not one that is
being saved or aborted. -/
def resident (s : State) (h : Nat) : Bool :=
  ([.running, .stopping, .stopped, .handler, .ending].contains (s.hearth h).run) && s.pw.cur == 0 && !gatedAt s h

/-- EMBER_RETRY_TICK (R274): the running contexts, and the stopped context beside a handler (R322). -/
def execEmberRetryTick (s : State) : Out :=
  .next <|
    if s.dcc.toNat % 256 ≠ 0 then s
    else s.hearths.foldl (fun s p =>
      if !resident s p.1 then s
      else
        let s := sendHeld s p.1 false
        if (s.hearth p.1).run == .handler then sendHeld s p.1 true else s) s

/-! ### ACC (R273, R278, R280) -/

/-- Checks 1 and 2 of R278. -/
def addendReq (s : State) (a o : Word) (k : LineWord → Res) : Res :=
  req s (a.toNat % 64 == 0) .align a <|
    req s (o.toNat + 64 ≤ scratchSize) .scratchRange o <| req s (o.toNat % 64 == 0) .align o <|
      if poisoned s.me o.toNat 64 then poisonTrap s 2 (poisonOfs s.me o.toNat 64)
      else k (BitVec.ofNat 512 (s.me.readScratch o.toNat 64))

/-- A free entry: the lowest (log 41). -/
def Ctx.freeEmber (c : Ctx) : Option Nat := (List.range 128).find? fun n => (c.ember n).state == .free

/-- The words of the tile that an ACC on a line reads: the tags, the allowance, and the value of the line's entry. -/
def emberReads (c : Ctx) (line : BitVec 42) : List (Nat × Nat) :=
  (0xA000, 0x408) :: ((c.emberOf line).map fun n => (0x8000 + 64 * n, 64)).toList

/-- R273 for the addend x of an ACC that has passed its checks. An entry with another operation is sent once, and then
waits for its retry ticks. -/
def accGo (op : AccOp) (ty : DType) (a : Word) (x : LineWord) (s : State) : Res :=
  let line : BitVec 42 := a.extractLsb' 6 42
  match badIn s.ctx.bad (emberReads s.ctx line) with
  | some w => poisonTrap s 3 (4 * w)
  | none =>
  match s.ctx.emberOf line with
  | some n =>
    let e := s.ctx.ember n
    if e.state = .inflight then .wait s false
    else if e.op ≠ op ∨ e.ty ≠ ty then
      if s.ctx.accSent then .wait s false
      else .wait (sendEmber (s.setCtx { s.ctx with accSent := true }) s.cur false n) false
    else
      let s := s.setCtx { s.ctx.setEmber n { e with value := combine op ty e.value x } with accSent := false }
      .done (sendEmber s s.cur false n)
  | none =>
    if s.ctx.ea ≤ s.ctx.emberCount then .wait s false
    else match s.ctx.freeEmber with
      | none => .wait s false
      | some n =>
        let e : Ember := { state := .held, op := op, ty := ty, line := line, value := x }
        let s := s.setCtx { s.ctx.setEmber n e with accSent := false, bad := (emberPlaces n).foldl (fun l p => cleanWords l p.1 p.2) s.ctx.bad }
        .done (sendEmber s s.cur false n)

/-- ACC. One that waits keeps the translation and the addend of its issue (R273, R278). -/
def execAcc (g : Guard) (op : AccOp) (m : MemOp) (s3 : Reg) (ty : DType) (_rnd : Rnd) (s : State) : Out :=
  aInstr g s <|
    match s.me.issue with
    | some i => keepIssue i (accGo op ty i.dva i.data (s.setMe { s.me with issue := none }))
    | none =>
      let a := s.memAddr m
      addendReq s a (s.reg s3) fun x =>
        memReq s a 64 .write fun t =>
          keepIssue { dva := a, gpa := t.gpa, part := t.part, ent := t.ent, data := x } (accGo op ty a x s)

/-! ### FLUSHE (R275) -/

/-- Whether an ACC that a hearth issued has not landed. -/
def accPending (s : State) (h : Nat) : Bool :=
  anyOp s fun op => (match op.kind with | .acc .. => true | _ => false) && (op.src == h || op.more.contains h)

/-- One round of FLUSHE on the active context: what is held is sent; the answer says whether all has landed. -/
def flushEmbers (s : State) (h : Nat) : State × Bool :=
  let s := sendHeld s h false
  (s, (s.hearth h).act.emberCount == 0 && !accPending s h)

def execFlushe (g : Guard) (s : State) : Out :=
  aInstr g s <|
    let (s, ok) := flushEmbers s s.cur
    if ok then .done s else .wait s false

/-! ### Sequences (R281-R285) -/

def Ctx.seq (c : Ctx) (q : Nat) : SeqSlot := tget {} c.seqs q
def Ctx.setSeq (c : Ctx) (q : Nat) (x : SeqSlot) : Ctx := { c with seqs := tput c.seqs q x }

/-- A charge of one open sequence slot on the region's path, and its release (R290). -/
def launchOf (s : State) (c : Ctx) : Nat :=
  match s.fb.tasks.find? fun t => t.part == c.part && t.gpa == c.task with | some t => t.launch | none => 0
def chargeSeq (s : State) (c : Ctx) : State :=
  chargePath s c.part c.region (launchOf s c) fun r => { r with squ := r.squ + 1 }
def freeSeq (s : State) (c : Ctx) : State :=
  chargePath s c.part c.region (launchOf s c) fun r => { r with squ := r.squ - 1 }

/-- The peers to which contributions may have gone through the ports of PORTS (R284, R285); a lost peer has voided them.
-/
def peersOf (s : State) (part : Nat) (ports : BitVec 12) : List Nat :=
  (s.part part).routes.filterMap fun r =>
    if r.2.ports &&& ports ≠ 0 ∧ !s.lostTo part r.1 then some r.1 else none

/-- Sends a record of a slot to every slice of the package, a close also to the peers in PORTS, and awaits the
acknowledgements. -/
def sendSeq (s : State) (h : Nat) (isOpen : Bool) (q : Nat) (x : SeqSlot) : State :=
  let uid := s.uid + 1
  let dests := List.range 64 ++ if isOpen then [] else (peersOf s (s.hearth h).act.part x.ports).map (64 + ·)
  let port (i : Nat) : Nat := if i < 64 then 0 else s.portFor (s.hearth h).act.part (i - 64) 0
  let m (i : Nat) : SeqMsg :=
    { isOpen := isOpen, src := h, slice := i, part := (s.hearth h).act.part, uid := uid, key := x.key, span := x.span.toNat
      lo := x.lo.toNat, n := x.count.toNat, port := port i
      path := if i < 64 then pathTo h (i / 32) i else pathToPort h (port i) }
  let s : State := { s with uid := uid, seqMsgs := s.seqMsgs ++ dests.map m
                            seqAcks := s.seqAcks ++ [{ uid := uid, left := dests.length }] }
  s.modCtx h fun c => { c with seqWait := some { uid := uid, slot := q, stage := if isOpen then .opening else .closing } }

def State.seqAck (s : State) (uid : Nat) : SeqAck := (s.seqAcks.find? (·.uid == uid)).getD {}
def State.endSeq (s : State) (h uid : Nat) : State :=
  { s.modCtx h fun c => { c with seqWait := none } with seqAcks := s.seqAcks.filter (·.uid != uid) }

/-- The slot is closed once every slice has acknowledged. -/
def closeSlotOf (s : State) (h q : Nat) : State :=
  let c := (s.hearth h).act
  freeSeq (s.modCtx h fun c => c.setSeq q { c.seq q with opened := false }) c

/-- A contribution of slot q of a context has not been taken by its slice (R284). -/
def untaken (s : State) (c : Ctx) (q : Nat) : Bool :=
  s.slices.any fun p => p.2.accoq.any fun m => m.part == c.part && m.ctxid == c.ctxid && m.slot == q

/-- One round of closing slot q (R285): closed already; step 1, until its contributions are taken; or its records are
sent and awaited. -/
def closeRound (s : State) (h q : Nat) : State × Bool :=
  let c := (s.hearth h).act
  match c.seqWait with
  | some w =>
    if w.stage = .closing then
      if (s.seqAck w.uid).left = 0 then (closeSlotOf (s.endSeq h w.uid) h w.slot, true) else (s, false)
    else (s, true)
  | none =>
    if !(c.seq q).opened then (s, true)
    else if let some w := badIn c.bad [seqPlace q] then (poisonFault s h 3 (4 * w) 0 none none, false)
    else if untaken s c q then (s, false)
    else (sendSeq s h false q (c.seq q), false)

/-- A rejected open: the ranges that slices accepted are withdrawn, and the charge is released (log 23). -/
def withdrawOpen (s : State) (h : Nat) (w : SeqWait) (x : SeqSlot) : State :=
  let c := (s.hearth h).act
  let s := (s.endSeq h w.uid)
  let drop (y : Slice) : Slice :=
    let y := y.modKey c.part x.key fun r =>
      { r with ranges := r.ranges.filter fun g => g.uid != w.uid }
    { y with keys := y.keys.filter fun r => !r.ranges.isEmpty }
  let s : State := { s with slices := s.slices.map fun p => (p.1, drop p.2) }
  freeSeq s c

/-- A SEQOPEN under way that will not run on: its records, and the ranges that slices accepted, go (log 23). -/
def cancelOpen (s : State) (h : Nat) : State :=
  match (s.hearth h).act.seqWait with
  | some { uid := u, slot := _, stage := .opening } =>
    let c := (s.hearth h).act
    let s := s.endSeq h u
    let drop (y : Slice) : Slice :=
      let ks := y.keys.map fun r => { r with ranges := r.ranges.filter fun g => g.uid != u }
      { y with keys := ks.filter fun r => !r.ranges.isEmpty }
    let s : State := { s with
      slices := s.slices.map fun (p : Nat × Slice) => (p.1, drop p.2)
      seqMsgs := s.seqMsgs.filter fun (m : SeqMsg) => m.uid != u }
    freeSeq s c
  | _ => s.modCtx h fun c => { c with seqWait := none }

def execSeqopen (g : Guard) (s1 s2 s3 : Reg) (q : BitVec 4) (s : State) : Out :=
  let k := q.toNat
  let x : SeqSlot := { key := (s.reg s1).setWidth 16, lo := (s.reg s2).setWidth 32, count := (s.reg s3).setWidth 32
                       span := (s.reg s1).extractLsb' 32 32, opened := true }
  aInstr g s <|
    match s.ctx.seqWait with
    | some { uid := u, slot := n, stage := .opening } =>
      let a := s.seqAck u
      if a.left ≠ 0 then .wait s false
      else if a.rejected then
        .trap (withdrawOpen s s.cur { uid := u, slot := n, stage := .opening } x) .seqState (q.setWidth 64)
      else
        let s := s.endSeq s.cur u
        .done ((s.setCtx (s.ctx.setSeq k x)).cleanImage (seqPlace k).1 32)
    | _ =>
      let (s, closed) := closeRound s s.cur k
      if !closed then .wait s false
      else
        req s (x.span != 0 && x.count != 0 && x.lo.toNat + x.count.toNat ≤ x.span.toNat) .seqState (q.setWidth 64) <|
          if !pathRoom s s.ctx.part s.ctx.region (fun r => r.squ < r.sqa) then .wait s false
          else .wait (sendSeq (chargeSeq s s.ctx) s.cur true k x) false

/-- Every slice has retired a key (R285); a peer in PORTS answers freely (log 8). -/
def keyRetired (s : State) (p : Nat) (x : SeqSlot) : Bool × State :=
  let here := s.slices.all fun i => (i.2.keyRec p x.key).isNone
  if x.ports = 0 then (here, s)
  else
    let (b, s) := s.freeBit
    (here && b, s)

def execSeqclose (g : Guard) (q : BitVec 4) (wait : Bool) (s : State) : Out :=
  let k := q.toNat
  aInstr g s <|
    let retire (s : State) : Res :=
      let (b, s) := keyRetired s s.ctx.part (s.ctx.seq k)
      if b then .done (s.setCtx { s.ctx with seqWait := none })
      else .wait (s.setCtx { s.ctx with seqWait := some { slot := k, stage := .retiring } }) false
    match s.ctx.seqWait with
    | some { uid := _, slot := _, stage := .retiring } => retire s
    | w =>
      if w.isNone && !(s.ctx.seq k).opened then .done s
      else
        let (s, closed) := closeRound s s.cur k
        if !closed then .wait s false else if wait then retire s else .done s

/-! ### ACCO (R278, R284) -/

/-- A contribution of a slot goes to its line's slice; to a peer, over the port of its line, which PORTS records, and
the first with the slot's open record (R284, R350). -/
def sendAcco (s : State) (t : Trn) (q : Nat) (x : SeqSlot) (i : Nat) (ty : DType) (v : LineWord) : State :=
  let uid := s.uid + 1
  let m : AccoMsg := { part := t.part, src := s.cur, uid := uid, ctxid := s.ctx.ctxid, slot := q, key := x.key, index := i
                       gline := lineNo t.gpa, ty := ty, value := v }
  let s := s.setCtx { s.ctx with acco := some uid }
  let s := { s with uid := uid }
  if t.ent.remote then
    let port := s.portFor t.part t.ent.peer.toNat (lineNo t.gpa)
    let opens := if x.ports = 0 then some (x.span.toNat, x.lo.toNat, x.count.toNat) else none
    let s := s.setCtx (s.ctx.setSeq q { s.ctx.seq q with ports := (s.ctx.seq q).ports ||| (1#12 <<< port) })
    s.modSlice (64 + t.ent.peer.toNat) fun y =>
      let at_ := t.ent.frame.toNat * frameSize + lineNo t.gpa % frameSize
      { y with accoq := y.accoq ++ [{ m with opens := opens, port := port, path := pathToPort s.cur port, line := at_ }] }
  else
    let hpa := lineNo (t.ent.home t.gpa)
    s.modSlice (sliceOf hpa) fun y => { y with accoq := y.accoq ++ [{ m with line := hpa, path := pathToSlice s.cur hpa }] }

def execAcco (g : Guard) (base : Reg) (s2 : Reg) (s3 : Src) (ty : DType) (_rnd : Rnd) (ofs : BitVec 20) (q : BitVec 4)
    (s : State) : Out :=
  aInstr g s <|
    match s.ctx.acco with
    | some uid =>
      if (s.slices.any fun p => p.2.accoq.any (·.uid == uid)) || s.acks.any (·.uid == uid) then .wait s false
      else .done (s.setCtx { s.ctx with acco := none })
    | none =>
      let a := s.reg base + ofs.signExtend 64
      let i := (s.src s3).toNat
      let k := q.toNat
      addendReq s a (s.reg s2) fun v =>
        if let some w := badIn s.ctx.bad [seqPlace k] then poisonTrap s 3 (4 * w)
        else
        let x := s.ctx.seq k
        req s (x.opened && x.lo.toNat ≤ i && i < x.lo.toNat + x.count.toNat && !(x.issued && i ≤ x.last.toNat)) .seqState
          (q.setWidth 64) <|
          memReq s a 64 .write fun t =>
            let x := { x with last := BitVec.ofNat 32 i, issued := true }
            .wait (sendAcco (s.setCtx (s.ctx.setSeq k x)) t k x i ty v) false

end Sys2Proof.Machine
end

