-- ==== Sys2Proof/Machine/Vector.lean ====
section
/-!
DEFINITION. The vector instructions (08 R188-R201) and the deferral queue (04 R92, R93).
-/
set_option autoImplicit false

namespace Sys2Proof.Machine

/-! ### Loads, stores and moves (R188-R190) -/

/-- A scratchpad store of several pieces as one access: tail words publish after it (R127, R189). -/
def storePieces (s : State) (l : List (Nat × List Byte)) : Res :=
  match s.me.storeAll l with
  | .ok x => .done (s.setMe x)
  | .error n => .trap s .flueOverrun (BitVec.ofNat 64 n)

/-- Bytes of 64 elements (R188). -/
def vecBytes (t : DType) : Nat := 8 * tyBits t
def vecAlign (t : DType) : Nat := max 1 (tyBits t / 8)

/-- VLD (R189), one access as a whole: R158 promises each element only (DESIGN CHOICE, log 100). -/
def execVld (g : Guard) (d : Reg) (m : MemOp) (ty : DType) (s : State) : Out :=
  xInstr g s fun mask => scratchReq s (s.scratchAddr m) (vecBytes ty) (vecAlign ty) fun a =>
    if poisoned s.me a (vecBytes ty) then poisonTrap s 2 (poisonOfs s.me a (vecBytes ty))
    else
      let l := mbytes s.me.scratch a (vecBytes ty)
      .done (s.setCtx ((List.range 64).foldl (fun c j =>
        if mask.getLsbD j then c.setLane d j (fillLane ty (packedElem (tyBits ty) l j)) else c) s.ctx))

/-- The pieces that VST writes: one for each masked element, or each byte that holds a masked nibble. -/
def storePlan (x : Hearth) (t : DType) (m : Word) (a : Nat) (e : List Nat) : List (Nat × List Byte) :=
  if t = .i4 then
    (List.range 32).filterMap fun i =>
      let lo := m.getLsbD (2 * i)
      let hi := m.getLsbD (2 * i + 1)
      let old := (mget x.scratch (a + i)).toNat
      if lo || hi then
        some (a + i, [BitVec.ofNat 8 ((if lo then e.getD (2 * i) 0 % 16 else old % 16)
          + 16 * (if hi then e.getD (2 * i + 1) 0 % 16 else old / 16))])
      else none
  else
    let n := tyBits t / 8
    (List.range 64).filterMap fun j => if m.getLsbD j then some (a + n * j, leBytes n (e.getD j 0)) else none

/-- VST (R189), whose pieces are written as one access, as VLD reads (DESIGN CHOICE, log 100). -/
def execVst (g : Guard) (m : MemOp) (s3 : VSrc) (ty : DType) (s : State) : Out :=
  xInstr g s fun mask => scratchReq s (s.scratchAddr m) (vecBytes ty) (vecAlign ty) fun a =>
    lateData s (.vst g m s3 ty) <| readVs s [(tyBits ty, s3)] none fun l used =>
      match storePieces s (storePlan s.me ty mask a (l.getD 0 [])) with
      | .done s => .done (s.setMe (commitReads s.me used))
      | r => r

/-- An instruction whose lanes are elements of a type: each masked lane's element from the elements of the sources. -/
def laneOp (g : Guard) (s : State) (d : VSrc) (t : DType) (ops : List (Nat × VSrc)) (f : Nat → List Nat → Nat) : Out :=
  xInstr g s fun m => vectorOp s d m (tyBits t) (fillLane t) ops fun ls =>
    ((List.range 64).map fun j => f j (ls.map (·.getD j 0)), id)

def execVmov (g : Guard) (d s1 : VSrc) (ty : DType) (s : State) : Out :=
  laneOp g s d ty [(tyBits ty, s1)] fun _ e => e.getD 0 0

def execVbcst (g : Guard) (d : VSrc) (s1 : Src) (ty : DType) (s : State) : Out :=
  laneOp g s d ty [] fun _ _ => s.srcBits ty s1

/-- Lanes moved whole: 32 bits each. -/
def wholeLanes (s : State) (d : VSrc) (m : Word) (ops : List VSrc) (f : Nat → List (List Nat) → Nat) : Res :=
  vectorOp s d m 32 (BitVec.ofNat 32) (ops.map fun o => (32, o)) fun ls => ((List.range 64).map fun j => f j ls, id)

def execVperm (g : Guard) (d s1 s2 : VSrc) (s : State) : Out :=
  xInstr g s fun m => wholeLanes s d m [s1, s2] fun j ls =>
    let i := (ls.getD 1 []).getD j 0
    if i < 64 then (ls.getD 0 []).getD i 0 else 0

/-- VSEL reads the predicate stack whatever its guard. -/
def execVsel (g : Guard) (d s1 s2 : VSrc) (s : State) : Out :=
  match s.es.preds with
  | [] => xInstr .always s fun _ => .trap s .pstackUnder s.pc
  | top :: _ => xInstr g s fun m => wholeLanes s d m [s1, s2] fun j ls =>
      (ls.getD (if top.getLsbD j then 0 else 1) []).getD j 0

def execVidx (g : Guard) (d : VSrc) (s1 s2 : Src) (ty : DType) (s : State) : Out :=
  laneOp g s d ty [] fun j _ => ((s.src s1).toNat + j * (s.src s2).toNat) % 2 ^ 32

/-! ### Compares and counts (R191) -/

/-- VCMP. The checks and the wait of a flue source come before PSTACK_OVER (DESIGN CHOICE, log 79). -/
def execVcmp (g : Guard) (c : Cond) (s1 s2 : VSrc) (ty : DType) (s : State) : Out :=
  xInstr g s fun m => readVs s [(tyBits ty, s1), (tyBits ty, s2)] none fun ls used =>
    let r := (List.range 64).foldl (fun (r : Word) j =>
      if m.getLsbD j && compareTy c ty ((ls.getD 0 []).getD j 0) ((ls.getD 1 []).getD j 0) then r ||| (1#64 <<< j) else r) 0
    match pushPred s r with
    | .done s => .done (s.setMe (commitReads s.me used))
    | r => r

/-- VCNT reads the predicate stack whatever its guard. -/
def execVcnt (g : Guard) (d : Reg) (s : State) : Out :=
  match s.es.preds with
  | [] => xInstr .always s fun _ => .trap s .pstackUnder s.pc
  | top :: _ => xInstr g s fun _ => .done (s.setReg d (BitVec.ofNat 64 (popcount top)))

/-! ### Arithmetic (R192-R194) -/

/-- The elements of the masked lanes in ascending order, each with its draw under SR (R110), and the generator after. -/
def drawLanes (sr : Bool) (m seed : Word) (f : Nat → Nat → Nat) : List Nat × Word :=
  (List.range 64).foldl (fun (acc : List Nat × Word) j =>
    if m.getLsbD j then
      let (seed, u) := if sr then srDraw acc.2 else (acc.2, 0)
      (acc.1 ++ [f j u], seed)
    else (acc.1 ++ [0], acc.2)) ([], seed)

def setSeed (seed : Word) (s : State) : State := s.setCtx { s.ctx with srseed := seed }

/-- A lane instruction that rounds: `f` gives the encoding from the sources' elements and the draw. -/
def roundOp (g : Guard) (s : State) (d : VSrc) (t : DType) (rnd : Rnd) (ops : List (Nat × VSrc))
    (f : List Nat → Nat → Nat) : Out :=
  xInstr g s fun m => vectorOp s d m (tyBits t) (fillLane t) ops fun ls =>
    let (l, seed) := drawLanes (rnd == .sr) m s.ctx.srseed fun j u => f (ls.map (·.getD j 0)) u
    (l, setSeed seed)

/-- The lane arithmetic of R192: an exact value for a floating-point type, an exact integer otherwise. -/
def arith (g : Guard) (s : State) (d : VSrc) (t : DType) (r : RndSat) (ops : List VSrc)
    (fv : List Val → Val) (fi : List Int → Int) : Out :=
  roundOp g s d t r.rnd (ops.map fun o => (tyBits t, o)) fun e u =>
    if isFlt t then roundTo t r.rnd r.sat u (fv (e.map (valueOf t))) else narrow t r.sat (fi (e.map (tyInt t)))

def vAt (l : List Val) (i : Nat) : Val := l.getD i .nan
def iAt (l : List Int) (i : Nat) : Int := l.getD i 0

def execVadd (g : Guard) (d s1 s2 : VSrc) (ty : DType) (r : RndSat) (s : State) : Out :=
  arith g s d ty r [s1, s2] (fun v => Val.add r.rnd (vAt v 0) (vAt v 1)) fun i => iAt i 0 + iAt i 1
def execVsub (g : Guard) (d s1 s2 : VSrc) (ty : DType) (r : RndSat) (s : State) : Out :=
  arith g s d ty r [s1, s2] (fun v => Val.add r.rnd (vAt v 0) (vAt v 1).flip) fun i => iAt i 0 - iAt i 1
def execVmul (g : Guard) (d s1 s2 : VSrc) (ty : DType) (r : RndSat) (s : State) : Out :=
  arith g s d ty r [s1, s2] (fun v => (vAt v 0).mul (vAt v 1)) fun i => iAt i 0 * iAt i 1
def execVfma (g : Guard) (d s1 s2 s3 : VSrc) (ty : DType) (r : RndSat) (s : State) : Out :=
  arith g s d ty r [s1, s2, s3] (fun v => Val.add r.rnd ((vAt v 0).mul (vAt v 1)) (vAt v 2))
    fun i => iAt i 0 * iAt i 1 + iAt i 2
def execVfms (g : Guard) (d s1 s2 s3 : VSrc) (ty : DType) (r : RndSat) (s : State) : Out :=
  arith g s d ty r [s1, s2, s3] (fun v => Val.add r.rnd ((vAt v 0).mul (vAt v 1)) (vAt v 2).flip)
    fun i => iAt i 0 * iAt i 1 - iAt i 2

def execVmin (g : Guard) (d s1 s2 : VSrc) (ty : DType) (s : State) : Out :=
  laneOp g s d ty [(tyBits ty, s1), (tyBits ty, s2)] fun _ e => minMax ty false (e.getD 0 0) (e.getD 1 0)
def execVmax (g : Guard) (d s1 s2 : VSrc) (ty : DType) (s : State) : Out :=
  laneOp g s d ty [(tyBits ty, s1), (tyBits ty, s2)] fun _ e => minMax ty true (e.getD 0 0) (e.getD 1 0)

/-- R193: the sign bit cleared or inverted. -/
def signOp (t : DType) (neg : Bool) (e : Nat) : Nat :=
  if (valueOf t e).isNan then canonNan t
  else
    let top := 2 ^ (tyBits t - 1)
    if neg then (if top ≤ e then e - top else e + top) else e % top

def execVabs (g : Guard) (d s1 : VSrc) (ty : DType) (sat : Bool) (s : State) : Out :=
  laneOp g s d ty [(tyBits ty, s1)] fun _ e =>
    if isFlt ty then signOp ty false (e.getD 0 0) else narrow ty sat ((tyInt ty (e.getD 0 0)).natAbs : Int)
def execVneg (g : Guard) (d s1 : VSrc) (ty : DType) (sat : Bool) (s : State) : Out :=
  laneOp g s d ty [(tyBits ty, s1)] fun _ e =>
    if isFlt ty then signOp ty true (e.getD 0 0) else narrow ty sat (-(tyInt ty (e.getD 0 0)))

def isInf : Val → Bool | .inf _ => true | _ => false

/-- The elementary functions (R194): SAT turns an infinite result into ±MAX unless the operand is infinite (log 16). -/
def elementary (f : Val → Val) (g : Guard) (d s1 : VSrc) (ty : DType) (r : RndSat) (s : State) : Out :=
  roundOp g s d ty r.rnd [(tyBits ty, s1)] fun e u =>
    let a := valueOf ty (e.getD 0 0)
    roundTo ty r.rnd (r.sat && !(isInf a && isInf (f a))) u (f a)

def execVrcp (g : Guard) (d s1 : VSrc) (ty : DType) (r : RndSat) (s : State) : Out := elementary rcpVal g d s1 ty r s
def execVrsq (g : Guard) (d s1 : VSrc) (ty : DType) (r : RndSat) (s : State) : Out := elementary rsqVal g d s1 ty r s
def execVexp2 (g : Guard) (d s1 : VSrc) (ty : DType) (r : RndSat) (s : State) : Out := elementary exp2ValOf g d s1 ty r s
def execVlog2 (g : Guard) (d s1 : VSrc) (ty : DType) (r : RndSat) (s : State) : Out := elementary log2ValOf g d s1 ty r s

/-! ### Logical operations and shifts (R195) -/

def bitLanes (f : Nat → Nat → Nat) (g : Guard) (d s1 s2 : VSrc) (ty : DType) (s : State) : Out :=
  laneOp g s d ty [(tyBits ty, s1), (tyBits ty, s2)] fun _ e => f (e.getD 0 0) (e.getD 1 0)

def execVand (g : Guard) (d s1 s2 : VSrc) (ty : DType) (s : State) : Out := bitLanes (· &&& ·) g d s1 s2 ty s
def execVor (g : Guard) (d s1 s2 : VSrc) (ty : DType) (s : State) : Out := bitLanes (· ||| ·) g d s1 s2 ty s
def execVxor (g : Guard) (d s1 s2 : VSrc) (ty : DType) (s : State) : Out := bitLanes (· ^^^ ·) g d s1 s2 ty s

/-- A shift by the amount of R195: from a lane, or broadcast. -/
def shiftLanes (f : DType → Int → Nat → Int) (g : Guard) (d s1 : VSrc) (n : VAmt) (ty : DType) (s : State) : Out :=
  let w := tyBits ty
  let go (more : List (Nat × VSrc)) (amt : List Nat → Nat) : Out :=
    laneOp g s d ty ((w, s1) :: more) fun _ e => wrap w (f ty (tyInt ty (e.getD 0 0)) (amt e))
  match n with
  | .reg r => go [] fun _ => s.srcBits ty (.reg r)
  | .imm i => go [] fun _ => s.srcBits ty (.imm i)
  | .v r => go [(w, .v r)] fun e => e.getD 1 0
  | .f r => go [(w, .f r)] fun e => e.getD 1 0

def execVshl (g : Guard) (d s1 : VSrc) (n : VAmt) (ty : DType) (s : State) : Out := shiftLanes shiftL g d s1 n ty s
def execVshr (g : Guard) (arith : Bool) (d s1 : VSrc) (n : VAmt) (ty : DType) (s : State) : Out :=
  shiftLanes (if arith then shiftA else shiftR) g d s1 n ty s

/-! ### Conversion and quantisation (R196, R197) -/

def execVcvt (g : Guard) (d s1 : VSrc) (ty src : DType) (r : RndSat) (s : State) : Out :=
  roundOp g s d ty r.rnd [(tyBits src, s1)] fun e u => roundTo ty r.rnd r.sat u (valueOf src (e.getD 0 0))

/-- The quotient of R197. -/
def quotient (x e b : Nat) : Val :=
  if e = 255 ∨ !isNormalF32 b then .nan else (valueOf .f32 x).mul ((scaleOf e).mul (valueOf .f32 b)).recip

def execVqnt (g : Guard) (d s1 : VSrc) (s2 s3 : Reg) (ty : DType) (r : RndSat) (s : State) : Out :=
  roundOp g s d ty r.rnd [(32, s1)] fun e u =>
    roundTo ty r.rnd r.sat u (quotient (e.getD 0 0) ((s.reg s2).toNat % 256) ((s.reg s3).toNat % 2 ^ 32))

/-! ### The histogram unit (R198, R199) -/

def Ctx.bin (c : Ctx) (i : Nat) : BitVec 32 := tget 0 c.bins i

def execVhistCount (g : Guard) (s1 : VSrc) (ty : DType) (s : State) : Out :=
  xInstr g s fun m => readVs s [(tyBits ty, s1)] none fun ls used =>
    let c := (List.range 64).foldl (fun (c : Ctx) j =>
      if m.getLsbD j then
        let b := histBin ty ((ls.getD 0 []).getD j 0)
        { c with bins := tput c.bins b (c.bin b + 1) }
      else c) s.ctx
    .done (s.setMe (commitReads { s.me with act := c } used))

def execVhistClear (g : Guard) (s : State) : Out := xInstr g s fun _ => .done ((s.setCtx { s.ctx with bins := [] }).cleanImage 0x1400 0x400)

def execVhistRead (g : Guard) (d : VSrc) (q : BitVec 2) (s : State) : Out :=
  xInstr g s fun m => wholeLanes s d m [] fun j _ => (s.ctx.bin (64 * q.toNat + j)).toNat

/-- P of R199. -/
def topExponent : DType → Nat
  | .i16 => 15 | .i8 => 7 | .n8 => 8 | .i4 => 3 | .bf16 => 128 | .f16 => 16 | .e4 => 9 | .e5 => 16 | _ => 0

/-- The least b whose cumulative count reaches t. -/
def reachBin (c : Ctx) (t : Nat) : Nat → Nat → Nat → Nat
  | 0, b, _ => b
  | k + 1, b, acc => if t ≤ acc + (c.bin b).toNat then b else reachBin c t k (b + 1) (acc + (c.bin b).toNat)

def execScaleq (g : Guard) (d : Reg) (s1 : Src) (ty : DType) (s : State) : Out :=
  xInstr g s fun _ =>
    let p := min (s.src s1).toNat 65536
    let n := (List.range 256).foldl (fun a i => a + (s.ctx.bin i).toNat) 0
    let e := if n = 0 then 127
      else min (reachBin s.ctx (max 1 (cdiv (p * n) 65536)) 255 0 0 + 1 - topExponent ty) 254
    .done (s.setReg d (BitVec.ofNat 64 e))

/-! ### Reductions and scans (R200, R201, R117, R118) -/

/-- The identities of R117. -/
def redIdentity (op : RedOp) (t : DType) : Nat :=
  let w := tyBits t
  match op with
  | .add => if isFlt t then 2 ^ (w - 1) else 0
  | .min => if isFlt t then canonNan t else wrap w (tyMax t)
  | .max => if isFlt t then canonNan t else wrap w (tyMin t)
  | .and => 2 ^ w - 1
  | .or | .xor => 0

/-- One node, with its draw. -/
def redNode (op : RedOp) (t : DType) (r : RndSat) (u : Nat) (a b : Nat) : Nat :=
  match op with
  | .add => addEnc t r u a b
  | .min => minMax t false a b
  | .max => minMax t true a b
  | .and => a &&& b
  | .or => a ||| b
  | .xor => a ^^^ b

/-- One level of the tree: pairs of neighbours in ascending order. -/
def treeLevel (f : Nat → Nat → Nat → Nat) (sr : Bool) : List Nat → Word → List Nat × Word
  | a :: b :: r, seed =>
    let (seed, u) := if sr then srDraw seed else (seed, 0)
    let (l, seed) := treeLevel f sr r seed
    (f u a b :: l, seed)
  | l, seed => (l, seed)

def treeReduce (f : Nat → Nat → Nat → Nat) (sr : Bool) : Nat → List Nat → Word → Nat × Word
  | 0, l, seed => (l.getD 0 0, seed)
  | k + 1, l, seed =>
    let (l, seed) := treeLevel f sr l seed
    treeReduce f sr k l seed

/-- VRED (R117, R200). With every lane excluded it does not run, and D keeps its value (R36, R49; DEDUCED, log 99). -/
def execVred (g : Guard) (op : RedOp) (d : Reg) (s1 : VSrc) (ty : DType) (r : RndSat) (s : State) : Out :=
  xInstr g s fun m => readVs s [(tyBits ty, s1)] none fun ls used =>
    let l := (List.range 64).map fun j => if m.getLsbD j then (ls.getD 0 []).getD j 0 else redIdentity op ty
    let (v, seed) := treeReduce (redNode op ty r) (r.rnd == .sr) 6 l s.ctx.srseed
    let w := if isFlt ty then BitVec.ofNat 64 v else resultTy ty (v : Int)
    .done ((setSeed seed (s.setMe (commitReads s.me used))).setReg d w)

def scanOp : Combine → RedOp | .add => .add | .min => .min | .max => .max

/-- The scan of R118 from lane j on: `prev` is the output lane before. -/
def scanGo (op : RedOp) (t : DType) (r : RndSat) (m : Word) (l : List Nat) : Nat → Nat → Nat → Word → List Nat × Word
  | 0, _, _, seed => ([], seed)
  | k + 1, j, prev, seed =>
    let on := m.getLsbD j
    let (seed, u) := if on && r.rnd == .sr then srDraw seed else (seed, 0)
    let x := l.getD j 0
    let v :=
      if j = 0 then (if !on then redIdentity op t else if isFlt t && (valueOf t x).isNan then canonNan t else x)
      else redNode op t r u prev (if on then x else redIdentity op t)
    let (out, seed) := scanGo op t r m l k (j + 1) v seed
    (v :: out, seed)

def execVscan (g : Guard) (op : Combine) (d s1 : VSrc) (ty : DType) (r : RndSat) (s : State) : Out :=
  xInstr g s fun m => vectorOp s d m (tyBits ty) (fillLane ty) [(tyBits ty, s1)] fun ls =>
    let (l, seed) := scanGo (scanOp op) ty r m (ls.getD 0 []) 64 0 0 s.ctx.srseed
    (l, setSeed seed)

/-! ### Deferral (R92, R93) -/

/-- The record of a deferred lane (R92). -/
def deferRecord (c : Ctx) (v n : Nat) (tag : Word) (j : Nat) : List Byte :=
  ((List.range 4).flatMap fun i => leBytes 4 (if i < n then (c.vlane (BitVec.ofNat 5 (v + i)) j).toNat else 0))
    ++ leBytes 4 ((tag.toNat + j) % 2 ^ 32) ++ List.replicate 12 0

def execDefer (g : Guard) (v : Reg) (n : BitVec 5) (s3 : Reg) (s : State) : Out :=
  xInstr g s fun m =>
    let c := s.ctx
    let k := popcount m
    let lanes := (List.range 64).filter fun j => m.getLsbD j
    req s (c.defCount.toNat + k ≤ c.defCap.toNat) .deferFull (c.defBase.setWidth 64) <|
      let pieces := (List.range k).map fun i =>
        (c.defBase.toNat + 32 * ((c.defHead.toNat + c.defCount.toNat + i) % c.defCap.toNat),
         deferRecord c v.toNat n.toNat (s.reg s3) (lanes.getD i 0))
      match storePieces s pieces with
      | .done s => .done (s.setCtx { s.ctx with defCount := c.defCount + BitVec.ofNat 12 k })
      | r => r

/-- The index of the record that a DRAIN takes as its j-th, and HEAD after j records: HEAD itself is reduced only as it
moves (R93). -/
def Ctx.drainIdx (c : Ctx) (j : Nat) : Nat := if j = 0 then c.defHead.toNat else (c.defHead.toNat + j) % c.defCap.toNat

def execDrain (g : Guard) (d : Reg) (v : Reg) (n : BitVec 5) (final : Bool) (s : State) : Out :=
  xInstr g s fun _ =>
    let c := s.ctx
    let count := c.defCount.toNat
    let take := if 64 ≤ count then 64 else if final then count else 0
    let at_ (j : Nat) : Nat := c.defBase.toNat + 32 * c.drainIdx j
    let words (j : Nat) : List (Nat × Nat) := [(at_ j, 4 * n.toNat), (at_ j + 16, 4)]
    match ((List.range take).flatMap words).find? fun w => poisoned s.me w.1 w.2 with
    | some w => poisonTrap s 2 (poisonOfs s.me w.1 w.2)
    | none =>
      let c' := (List.range 64).foldl (fun (c : Ctx) j => (List.range (n.toNat + 1)).foldl (fun (c : Ctx) i =>
        let a := at_ j + (if i = n.toNat then 16 else 4 * i)
        c.setLane (BitVec.ofNat 5 (v.toNat + i)) j (if j < take then BitVec.ofNat 32 (mrd s.me.scratch a 4) else 0)) c) c
      let c' := { c' with
        defHead := BitVec.ofNat 11 (c.drainIdx take)
        defCount := BitVec.ofNat 12 (count - take) }
      .done ((s.setCtx c').setReg d (BitVec.ofNat 64 take))

end Sys2Proof.Machine
end

