-- ==== Sys2Proof/Machine/MatrixOps.lean ====
section
/-!
DEFINITION. Tiles, accumulators, and what each matrix command does in its last cycle (09 R203-R221).
-/
set_option autoImplicit false

namespace Sys2Proof.Machine

/-! ### Tiles and accumulators (R66, R203, R204) -/

/-- A tile's configuration, unpacked. -/
structure Tile where
  no : Nat
  ty : DType
  rows : Nat
  cols : Nat
  planes : Nat
  set : Bool
  deriving DecidableEq, Repr

def Ctx.tile (c : Ctx) (t : Reg) : Tile :=
  let v := (tget 0 c.tcfg t.toNat).toNat
  { no := t.toNat, ty := DType.ofCode (BitVec.ofNat 4 (bits v 0 4)), rows := bits v 7 7, cols := bits v 16 12
    planes := bits v 28 4, set := v != 0 }

def Tile.elemBits (t : Tile) : Nat := if t.ty = .bp then t.planes else tyBits t.ty
/-- The row size in bytes (R66). -/
def Tile.rowBytes (t : Tile) : Nat := t.cols * t.elemBits / 8
def Tile.bytes (t : Tile) : Nat := t.rows * t.rowBytes
def Tile.elems (t : Tile) : Nat := t.rows * t.cols
def Tile.rowAddr (t : Tile) (i : Nat) : Nat := 16384 * t.no + 256 * i

/-- The encoding of element (i, k) of a tile that is not bit-plane. -/
def Ctx.tileElem (c : Ctx) (t : Tile) (i k : Nat) : Nat :=
  if t.ty = .i4 then bits (mget c.t (t.rowAddr i + k / 2)).toNat (4 * (k % 2)) 4
  else mrd c.t (t.rowAddr i + k * (tyBits t.ty / 8)) (tyBits t.ty / 8)

/-- The value of an element of a bit-plane tile from its first p planes (R111, R112). -/
def Ctx.tileBp (c : Ctx) (t : Tile) (p i k : Nat) : Int :=
  bpElem (fun b => mget c.t (t.rowAddr i + k / 64 * (8 * t.planes) + b)) p (k % 64)

/-- An element of a tile; with the last one of a 4-byte word of the image, in ascending order, that word is written
whole (R358). -/
def Ctx.setTileElem (c : Ctx) (t : Tile) (i k v : Nat) : Ctx :=
  let last := (k + 1) * tyBits t.ty
  let c := if last % 32 = 0 then { c with bad := cleanWords c.bad (0x10000 + t.rowAddr i + last / 8 - 4) 4 } else c
  if t.ty = .i4 then
    let a := t.rowAddr i + k / 2
    let old := (mget c.t a).toNat
    { c with t := mput c.t a (BitVec.ofNat 8 (if k % 2 = 0 then v % 16 + 16 * (old / 16) else old % 16 + 16 * (v % 16))) }
  else { c with t := mwr c.t (t.rowAddr i + k * (tyBits t.ty / 8)) (tyBits t.ty / 8) v }

def Ctx.acc (c : Ctx) (m : Reg) (i j : Nat) : Nat := (tget 0 c.m (4096 * m.toNat + 64 * i + j)).toNat
def Ctx.setAcc (c : Ctx) (m : Reg) (i j v : Nat) : Ctx := 
  { c with m := tput c.m (4096 * m.toNat + 64 * i + j) (BitVec.ofNat 32 v)
           bad := cleanWords c.bad (0x30000 + 4 * (4096 * m.toNat + 64 * i + j)) 4 }

/-- The rows, of n, that a mask selects. -/
def maskRows (m : Word) (n : Nat) : List Nat := (List.range n).filter fun i => m.getLsbD i

/-! ### Products (R116-R119, R217-R219) -/

/-- A column list of a row of A with the dense position of each entry (R218; the identity for MMA). -/
abbrev Cols := List (Nat × Nat)

/-- One element of a floating-point accumulation: chunks of 8 dense positions in ascending order, each rounded once. -/
def dotFlt (acc : Nat) (n : Nat) (cols : Cols) (a b : Nat → Val) : Nat :=
  (List.range (cdiv n 8)).foldl (fun acc ch =>
    let ps := (cols.filter fun p => p.2 / 8 == ch).map fun p => (a p.1).mul (b p.2)
    roundTo .f32 .rne false 0 (Val.sum false (valueOf .f32 acc :: ps))) acc

/-- One element of an integer accumulation, modulo 2^32. -/
def dotInt (acc : Nat) (cols : Cols) (a b : Nat → Int) : Nat :=
  wrap 32 (sextNat 32 acc + cols.foldl (fun (s : Int) p => s + a p.1 * b p.2) 0)

/-- Types of a floating-point or integer operand tile (R217). -/
def wide16 : DType → Bool | .bf16 | .f16 => true | _ => false
def fp8 : DType → Bool | .e4 | .e5 => true | _ => false
def smallInt : DType → Bool | .i8 | .n8 | .i4 => true | _ => false
def mmaTile (t : Tile) : Bool := t.set && (wide16 t.ty || fp8 t.ty || smallInt t.ty)
def mmaPair (a b : DType) : Bool := (wide16 a && a == b) || (fp8 a && fp8 b) || (smallInt a && smallInt b)

/-- The dense columns of row i of A: themselves, or by the metadata tile (R218). -/
def denseCols (a : Tile) : Cols := (List.range a.cols).map fun k => (k, k)
def sparseCols (c : Ctx) (t : Tile) (n i : Nat) : Cols :=
  (List.range t.cols).map fun k => (k, 64 * (k / n) + c.tileElem t i k % 64)

/-- MMA and MMAS: D plus A times the transpose of B on the selected rows. -/
def multiply (c : Ctx) (mask : Word) (m : Reg) (a b : Tile) (cols : Nat → Cols) : Ctx :=
  (maskRows mask a.rows).foldl (fun r i => (List.range b.rows).foldl (fun r j =>
    r.setAcc m i j (if isFlt a.ty then
        dotFlt (c.acc m i j) b.cols (cols i) (fun k => valueOf a.ty (c.tileElem a i k))
          fun k => valueOf b.ty (c.tileElem b j k)
      else dotInt (c.acc m i j) (cols i) (fun k => tyInt a.ty (c.tileElem a i k))
          fun k => tyInt b.ty (c.tileElem b j k))) r) c

/-- MMAB (R219). -/
def multiplyPlanes (c : Ctx) (mask : Word) (m : Reg) (p : Nat) (a b : Tile) : Ctx :=
  (maskRows mask a.rows).foldl (fun r i => (List.range b.rows).foldl (fun r j =>
    r.setAcc m i j (dotInt (c.acc m i j) (denseCols a) (fun k => c.tileBp a p i k)
      fun k => tyInt .i8 (c.tileElem b j k))) r) c

def sparsityN : Sparsity → Nat | .n8 => 8 | .n16 => 16 | .n32 => 32

/-! ### The commands' last cycle (R206) -/

/-- Rows of a TST source, as bytes; an unselected row is zeros (R213). -/
def tstRows (c : Ctx) (src : TSrc) (r : TstRect) (mask : Word) : List (List Byte) :=
  match src with
  | .tile t =>
    let v := c.tile t
    (List.range v.rows).map fun i =>
      if mask.getLsbD i then mbytes c.t (v.rowAddr i) v.rowBytes else List.replicate v.rowBytes 0
  | .acc m =>
    (List.range r.arows.toNat).map fun i =>
      if mask.getLsbD i then (List.range r.acols.toNat).flatMap fun j => leBytes 4 (c.acc m i j)
      else List.replicate (4 * r.acols.toNat) 0

/-- The bytes of a TST source. -/
def tstSize (c : Ctx) (src : TSrc) (r : TstRect) : Nat :=
  match src with
  | .tile t => (c.tile t).bytes
  | .acc _ => 4 * r.arows.toNat * r.acols.toNat

/-- The slots of a TLD that have not been freed since its entry: the first of them and their number. -/
def tldRest (p : Flue) (c : MatCmd) : BitVec 32 × Nat :=
  let had := c.data.length / p.slotBytes
  (c.pos - BitVec.ofNat 32 (c.slots - had), c.slots - had)

/-- TLD: bytes of the slots just below position `pos`, those taken before their slots were freed and the others as they
stand, go to the selected rows (R206, R214). -/
def loadTile (x : Hearth) (c : MatCmd) (t f : Reg) : Hearth :=
  let v := x.act.tile t
  let p := x.flue (x.act.primary f.toNat)
  let data := c.data ++ x.slotsFrom p (tldRest p c).1 (tldRest p c).2
  let mem := (maskRows c.mask v.rows).foldl (fun m i =>
    mwrite m (v.rowAddr i) ((data.drop (i * v.rowBytes)).take v.rowBytes)) x.act.t
  let bad := (maskRows c.mask v.rows).foldl (fun b i => cleanWords b (0x10000 + v.rowAddr i) v.rowBytes) x.act.bad
  { x with act := { x.act with t := mem, bad := bad } }.autoRelease f.toNat c.pos

/-- The poisoned scratchpad word that a TLD reads in its slots (R358). -/
def tldPoison (x : Hearth) (c : MatCmd) : Option Nat :=
  match c.instr with
  | .tld _ _ f =>
    let p := x.flue (x.act.primary f.toNat)
    c.bad <|> x.slotsBad p (tldRest p c).1 (tldRest p c).2
  | _ => none

/-- The flue form of TST: its slots are written and published (R215). -/
def storeFlue (x : Hearth) (c : MatCmd) (f : Reg) (src : TSrc) (r : TstRect) : Hearth :=
  let p := x.flue f.toNat
  let sb := p.slotBytes
  let l := (tstRows x.act src r c.mask).flatten
  let x := (List.range c.slots).foldl (fun x i =>
    let b := (l.drop (i * sb)).take sb
    x.writeScratch (p.slotAddr (c.pos + BitVec.ofNat 32 i)) (b ++ List.replicate (sb - b.length) 0)) x
  (x.publish f.toNat c.slots).setResident f.toNat c.pos c.slots

/-- MRD (R220). -/
def readAcc (c : Ctx) (mask : Word) (col : Bool) (d m : Reg) (r : Nat) : Ctx :=
  (maskRows mask 64).foldl (fun c j =>
    c.setLane d j (BitVec.ofNat 32 (if col then c.acc m j r else c.acc m r j))) c

/-- MCVT (R221), drawing from the state that stood when the command entered. -/
def convertAcc (c : Ctx) (cmd : MatCmd) (t m : Reg) (ty : DType) (r : RndSat) : Ctx :=
  let v := c.tile t
  let sc := valueOf .f32 (cmd.val.toNat % 2 ^ 32)
  ((maskRows cmd.mask v.rows).foldl (fun (acc : Ctx × Word) i => (List.range v.cols).foldl (fun (acc : Ctx × Word) j =>
    let (seed, u) := if r.rnd = .sr then srDraw acc.2 else (acc.2, 0)
    (acc.1.setTileElem v i j (roundTo v.ty r.rnd r.sat u ((valueOf ty (c.acc m i j)).mul sc)), seed)) acc) (c, cmd.seed)).1

/-- What a command does to the hearth in its last cycle; the memory form of TST is not among them. -/
def matEffect (x : Hearth) (c : MatCmd) : Hearth :=
  let k := x.act
  match c.instr with
  | .tld _ t f => loadTile x c t f
  | .tstFlue _ f src _ r => storeFlue x c f src r
  | .mzero _ m => { x with act := (maskRows c.mask 64).foldl (fun k i =>
      (List.range 64).foldl (fun k j => k.setAcc m i j 0) k) k }
  | .mma _ m a b | .mmaStamped _ m a b _ =>
    { x with act := multiply k c.mask m (k.tile a) (k.tile b) fun _ => denseCols (k.tile a) }
  | .mmas _ n m a b t | .mmasStamped _ n m a b t _ =>
    { x with act := multiply k c.mask m (k.tile a) (k.tile b) fun i => sparseCols k (k.tile (t.setWidth 5)) (sparsityN n) i }
  | .mmab _ p m a b | .mmabStamped _ p m a b _ =>
    { x with act := multiplyPlanes k c.mask m p.toNat (k.tile a) (k.tile b) }
  | .mrd _ col d m _ => { x with act := readAcc k c.mask col d m c.val.toNat }
  | .mcvt _ t m _ ty r => { x with act := convertAcc k c t m ty r }
  | _ => x

/-- Cycles that a command occupies (R206). -/
def occupancy (k : Ctx) (c : MatCmd) : Nat :=
  let mm (a b : Reg) (n : Nat) : Nat :=
    let kc := if wide16 (k.tile a).ty then 64 else 128
    cdiv ((k.tile a).rows * (k.tile b).cols * n) kc
  match c.instr with
  | .tld _ t _ => cdiv (k.tile t).bytes 256
  | .tstFlue _ _ src _ r | .tstMemory _ src _ _ r => cdiv (tstSize k src r) 256
  | .mma _ _ a b | .mmaStamped _ _ a b _ => mm a b 1
  | .mmas _ n _ a b _ | .mmasStamped _ n _ a b _ _ =>
    let kc := if wide16 (k.tile a).ty then 64 else 128
    cdiv ((k.tile a).rows * (k.tile b).cols * max (sparsityN n) 16) (64 * kc)
  | .mmab _ p _ a _ | .mmabStamped _ p _ a _ _ => cdiv ((k.tile a).rows * p.toNat * (k.tile a).cols) 1024
  | .mcvt _ t _ _ _ _ => (k.tile t).rows
  | _ => 1

end Sys2Proof.Machine
end

