-- ==== Sys2Proof/Machine/Matrix.lean ====
section
/-!
DEFINITION. The matrix instructions at issue (09 R205, R211-R223) and the array's steps.
-/
set_option autoImplicit false

namespace Sys2Proof.Machine

/-! ### Issue -/

def reqTile (s : State) (c : Bool) (n : Nat) (k : Res) : Res := req s c .tileShape (BitVec.ofNat 64 n) k

/-- Check 1 of R212. -/
def reqFixed (s : State) (k : Res) : Res :=
  req s (match s.ownerOf s.cur with | some p => (s.part p).fixclk | none => false) .stampClock 0 k

/-- A guard-slot guard of the X engine binds when the instruction is issued, and the engine waits in place of the
command (R90, R205); `w` are its flue needs: `k` runs once it has resolved true. -/
def matGuard (s : State) (g : Guard) (w : StallOn) (k : State → Res) : Res :=
  match g with
  | .slot n =>
    match s.ctx.xbind with
    | some (_, some true) => k (s.setCtx { s.ctx with xbind := none })
    | some (_, some false) => .done (s.setCtx { s.ctx with xbind := none })
    | some (_, none) => waitOn s w
    | none =>
      match s.ctx.gstate n.toNat with
      | .empty => .trap s .guardMisuse (n.setWidth 64)
      | .isTrue => k s
      | .isFalse => .done s
      | .pending => waitOn (s.setCtx { s.ctx with xbind := some (n.toNat, none) }) w
  | _ => k s

/-- The binding is kept while the engine waits on the queue or a flue. -/
def keepBind (g : Guard) (s : State) : State :=
  match g with
  | .slot n => s.setCtx { s.ctx with xbind := some (n.toNat, some true) }
  | _ => s

/-- Steps 2 and 3 of R205: the guard, a free entry, then the flue condition `flue`, which `reads` and `dest` give as the
full slots to read and the free slots to write: its wait stalls the execute side while the rest holds (R207). -/
def enterQueue (s : State) (g : Guard) (flue : Bool) (reads : List (Nat × Nat)) (dest : Option (Nat × Nat))
    (k : State → Res) : Res :=
  let w : StallOn := { entry := true, reads := reads, dest := dest }
  matGuard s g w fun s => if 4 ≤ s.me.matq.length || !flue then waitOn (keepBind g s) w else k s

def pushMat (s : State) (c : MatCmd) : State := s.setMe { s.me with matq := s.me.matq ++ [c] }

def execTld (g : Guard) (t : Reg) (f : Reg) (s : State) : Out :=
  xInstr g s fun m =>
    let v := s.ctx.tile t
    let p := s.ctx.flue (s.ctx.primary f.toNat)
    let n := cdiv v.bytes p.slotBytes
    reqTile s v.set v.no <| reqFlue s ((s.ctx.flue f.toNat).opened && n ≤ p.slots) f <|
      enterQueue s g (n ≤ s.ctx.fullSlots f.toNat && !(s.ctx.taken.any fun q => q.1 == f.toNat)) [(f.toNat, n)] none fun s =>
        let fl := s.ctx.flue f.toNat
        let pos := fl.read + BitVec.ofNat 32 n
        let s := s.setMe (s.me.setFlue f.toNat { fl with read := pos })
        .done (pushMat s { instr := .tld g t f, mask := m, pos := pos, slots := n })

/-- The source check of TST (R215): a configured tile, or a rectangle within an accumulator. -/
def tstSource (s : State) (src : TSrc) (r : TstRect) (k : Res) : Res :=
  match src with
  | .tile t => reqTile s (s.ctx.tile t).set t.toNat k
  | .acc m => reqTile s (1 ≤ r.arows.toNat && r.arows.toNat ≤ 64 && 1 ≤ r.acols.toNat && r.acols.toNat ≤ 64) m.toNat k

def execTstFlue (g : Guard) (f : Reg) (rs : TSrc) (ty : DType) (r : TstRect) (s : State) : Out :=
  xInstr g s fun m =>
    let fl := s.ctx.flue f.toNat
    let n := cdiv (tstSize s.ctx rs r) fl.slotBytes
    tstSource s rs r <|
      reqFlue s (fl.opened && !fl.fork && fl.kind == 0 && fl.fed != 1 && n ≤ fl.slots) f <|
      enterQueue s g (n ≤ s.ctx.freeSlots f.toNat) [] (some (f.toNat, n)) fun s =>
        let fl := s.ctx.flue f.toNat
        let s := s.setMe (s.me.setFlue f.toNat { fl with fed := 2, claim := fl.claim + BitVec.ofNat 32 n })
        .done (pushMat s { instr := .tstFlue g f rs ty r, mask := m, pos := fl.claim, slots := n })

/-- The X engine stays at a command (step 4 of R205). -/
def stayAt (s : State) (c : MatCmd) : Res := .stay ((pushMat s c).setEs { s.es with hold := true })

/-- Check 4 of R212: the descriptor of a memory-form TST. -/
def tstDesc (c : Ctx) (src : TSrc) (ty : DType) (r : TstRect) (d : TDesc) : Bool :=
  d.valid && d.space != 1 && !d.badScale &&
    (match src with
     | .tile t =>
       let v := c.tile t
       d.ty == v.ty.code.toNat && d.planes == v.planes && d.count == v.elems
     | .acc _ => d.ty == ty.code.toNat && d.count == r.arows.toNat * r.acols.toNat)

def execTstMemory (g : Guard) (rs : TSrc) (ty : DType) (td : BitVec 6) (r : TstRect) (s : State) : Out :=
  xInstr g s fun m =>
    let img := s.ctx.desc td.toNat
    let d := tdesc img
    tstSource s rs r <| req s (tstDesc s.ctx rs ty r d) .tdesc (td.setWidth 64) <|
      req s (d.isBp || d.isI4 || d.base % d.unitBytes == 0) .align (BitVec.ofNat 64 d.base) <|
      enterQueue s g true [] none fun s => stayAt s { instr := .tstMemory g rs ty td r, mask := m, td := img }

def execMzero (g : Guard) (m : Reg) (s : State) : Out :=
  xInstr g s fun mask => enterQueue s g true [] none fun s => .done (pushMat s { instr := .mzero g m, mask := mask })

/-- An instruction that enters the queue, stamped or not (R222, R223): a stamp that has passed, or lies 2^31 or more
ahead, is missed at entry; else it names the tick at that distance. -/
def enterMul (s : State) (g : Guard) (mask : Word) (i : Instr) (st : Option Stamp) : Res :=
  let stamp := st.map fun st => (s.reg st.reg + st.ofs.signExtend 64).setWidth 32
  enterQueue s g true [] none fun s =>
    match stamp with
    | none => .done (pushMat s { instr := i, mask := mask })
    | some v =>
      let ahead := v - s.dcc.setWidth 32
      req s (0 < ahead.toInt) .schedMiss (v.setWidth 64) <|
        stayAt s { instr := i, mask := mask, stamp := some (s.dcc + ahead.setWidth 64) }

/-- Check 2 of MMA (R217). -/
def mmaShape (s : State) (a b : Tile) (k : Res) : Res :=
  reqTile s (mmaTile a) a.no <| reqTile s (mmaTile b) b.no <|
    reqTile s (mmaPair a.ty b.ty && a.cols == b.cols) b.no k

/-- Check 2 of MMAS (R218): own shapes first, then agreement. That the metadata tile is neither A nor B counts among its
own shape (DESIGN CHOICE, log 105). -/
def mmasShape (s : State) (n : Nat) (a b t : Tile) (k : Res) : Res :=
  reqTile s (mmaTile a) a.no <| reqTile s (mmaTile b && b.cols % 64 == 0) b.no <|
    reqTile s (t.set && t.ty == .n8 && t.no != a.no && t.no != b.no) t.no <|
    reqTile s (mmaPair a.ty b.ty && a.cols == b.cols * n / 64) b.no <|
    reqTile s (t.rows == a.rows && t.cols == b.cols * n / 64) t.no k

/-- Check 2 of MMAB (R219). -/
def mmabShape (s : State) (p : Nat) (a b : Tile) (k : Res) : Res :=
  reqTile s (a.set && a.ty == .bp && p ≤ a.planes) a.no <| reqTile s (b.set && b.ty == .i8) b.no <|
    reqTile s (a.cols == b.cols) b.no k

def execMma (g : Guard) (m a b : Reg) (s : State) : Out :=
  xInstr g s fun mask => mmaShape s (s.ctx.tile a) (s.ctx.tile b) <| enterMul s g mask (.mma g m a b) none

def execMmaStamped (g : Guard) (m a b : Reg) (st : Stamp) (s : State) : Out :=
  xInstr g s fun mask => reqFixed s <| mmaShape s (s.ctx.tile a) (s.ctx.tile b) <|
    enterMul s g mask (.mmaStamped g m a b st) (some st)

def execMmas (g : Guard) (n : Sparsity) (m a b : Reg) (mt : BitVec 3) (s : State) : Out :=
  xInstr g s fun mask =>
    mmasShape s (sparsityN n) (s.ctx.tile a) (s.ctx.tile b) (s.ctx.tile (mt.setWidth 5)) <|
      enterMul s g mask (.mmas g n m a b mt) none

def execMmasStamped (g : Guard) (n : Sparsity) (m a b : Reg) (mt : BitVec 3) (st : Stamp) (s : State) : Out :=
  xInstr g s fun mask => reqFixed s <|
    mmasShape s (sparsityN n) (s.ctx.tile a) (s.ctx.tile b) (s.ctx.tile (mt.setWidth 5)) <|
      enterMul s g mask (.mmasStamped g n m a b mt st) (some st)

def execMmab (g : Guard) (p : BitVec 4) (m a b : Reg) (s : State) : Out :=
  xInstr g s fun mask => mmabShape s p.toNat (s.ctx.tile a) (s.ctx.tile b) <| enterMul s g mask (.mmab g p m a b) none

def execMmabStamped (g : Guard) (p : BitVec 4) (m a b : Reg) (st : Stamp) (s : State) : Out :=
  xInstr g s fun mask => reqFixed s <| mmabShape s p.toNat (s.ctx.tile a) (s.ctx.tile b) <|
    enterMul s g mask (.mmabStamped g p m a b st) (some st)

def execMrd (g : Guard) (col : Bool) (d : Reg) (m : Reg) (s2 : Src) (s : State) : Out :=
  xInstr g s fun mask =>
    req s ((s.src s2).toNat < 64) .tileShape (s.src s2) <|
      enterQueue s g true [] none fun s => .done (pushMat s { instr := .mrd g col d m s2, mask := mask, val := s.src s2 })

/-- The generator's state after n draws. -/
def srAdvance : Nat → Word → Word
  | 0, w => w
  | n + 1, w => srAdvance n (srDraw w).1

/-- MCVT: under SR the draws are taken when the command enters (R221). -/
def execMcvt (g : Guard) (t : Reg) (m : Reg) (s2 : Reg) (ty : DType) (r : RndSat) (s : State) : Out :=
  xInstr g s fun mask =>
    let v := s.ctx.tile t
    reqTile s (v.set && v.rows ≤ 64 && v.cols ≤ 64 && v.ty != .bp) v.no <| enterQueue s g true [] none fun s =>
      let seed := s.ctx.srseed
      let sc := if s2 = 0 then 0x3F800000 else s.reg s2
      let n := (maskRows mask v.rows).length * v.cols
      let s := if r.rnd = .sr then setSeed (srAdvance n seed) s else s
      .done (pushMat s { instr := .mcvt g t m s2 ty r, mask := mask, val := sc, seed := seed })

/-! ### The array's steps (R206, R222) -/

def Hearth.modMat (x : Hearth) (f : MatCmd → MatCmd) : Hearth := { x with matq := lmod x.matq 0 f }

/-- The head starts: this tick is the first it occupies. -/
def startHead (s : State) (h : Nat) : State :=
  let s := s.modHearth h fun x => x.modMat fun c => { c with due := false, started := true, left := occupancy x.act c - 1 }
  match (s.hearth h).matq with
  | c :: _ => if c.left = 0 then s.pushDue (.matrixCommandEnd h) else s
  | [] => s

/-- The X instruction at which the engine stays completes (R205 step 4). -/
def releaseHold (s : State) (h : Nat) : State :=
  let was := (s.cur, s.eng)
  let s := { s with cur := h, eng := .x }
  let s := if s.es.hold then finish (.done (s.setEs { s.es with hold := false })) else s
  { s with cur := was.1, eng := was.2 }

/-- The X engine goes on in the tick after the start of the stamped command at which it stays (R222). -/
def settleHold (s : State) (h : Nat) : State :=
  let x := s.hearth h
  let gone := match x.matq.getLast? with
    | none => true
    | some c => c.started && c.stamp.isSome
  if x.act.xe.hold && gone then releaseHold s h else s

/-- MATRIX_COMMAND_START: the head, not stamped, starts in the tick that the counter has marked for it. -/
def execMatrixCommandStart (h : Nat) (s : State) : Out :=
  .next <| match (s.hearth h).matq with
    | c :: _ => if c.due && !c.started && c.stamp.isNone && !(s.hearth h).stalled then startHead s h else s
    | [] => s

/-- STAMPED_START: the head starts in the tick of its stamp. -/
def execStampedStart (h : Nat) (s : State) : Out :=
  .next <| match (s.hearth h).matq with
    | c :: _ =>
      if c.due && !c.started && c.stamp == some s.dcc && !(s.hearth h).stalled then startHead s h
      else s
    | [] => s

/-- Ends the head command: its entry is free from the X engine's attempts of the tick of its last cycle on (DESIGN
CHOICE, log 104). -/
def popMat (s : State) (h : Nat) : State :=
  s.modHearth h fun x => { x with matq := x.matq.drop 1, trel := x.trel.map (· - 1) }

/-- The pieces of a memory-form TST: each selected element with its bytes and its linear number. -/
def tstUnits (c : Ctx) (src : TSrc) (r : TstRect) (mask : Word) (d : TDesc) : List (Nat × List Byte) :=
  let rows := tstRows c src r (BitVec.allOnes 64)
  let perRow := match src with | .tile t => (c.tile t).cols | .acc _ => r.acols.toNat
  (List.range rows.length).flatMap fun i =>
    if mask.getLsbD i then
      (List.range (perRow / d.unitElems)).map fun k =>
        (i * perRow + k * d.unitElems, ((rows.getD i []).drop (k * d.unitBytes)).take d.unitBytes)
    else []

/-- One element of a memory-form TST (R215): none while an implicit boundary is not complete (R252). -/
def tstElem (s : State) (h : Nat) (d : TDesc) (e : Nat) (l : List Byte) : Except (State × FaultCode) (Option State) :=
  let a := d.unitAddr e
  if d.space = 2 then .ok (some (storeAt s h a l))
  else
    (piecesOf a l.length).foldl (fun r p =>
      match r with
      | .ok (some s) =>
        match translate s h .write (BitVec.ofNat 64 p.1) with
        | .error c => .error (s, c)
        | .ok t =>
          let x := s.hearth h
          if x.needsRoom (lineNo t.gpa) then .ok none
          else
            let d : Held := { eng := .x, no := x.heldNo, gpa := t.gpa
                              bytes := (List.range p.2).map fun i => l.getD (p.1 - a + i) 0 }
            .ok (some (s.setHearth h { x with held := x.held ++ [d], heldNo := x.heldNo + 1 }))
      | r => r) (.ok (some s))

/-- Writes the elements from the n-th on. -/
def tstGo (h : Nat) (d : TDesc) : List (Nat × List Byte) → State → State × Bool
  | [], s => (s, true)
  | (e, l) :: r, s =>
    match (if (s.hearth h).act.xe.inBoundary then implicitBoundary s h .x else (s, true)) with
    | (s, false) => (s, false)
    | (s, true) =>
    match tstElem s h d e l with
    | .ok (some s) => tstGo h d r (s.modHearth h fun x => x.modMat fun c => { c with elem := c.elem + 1 })
    | .ok none => ((implicitBoundary s h .x).1, false)
    | .error (s, c) => (unitFault s h c (BitVec.ofNat 64 (d.unitAddr e)) 1 none none, false)

/-- A matrix command that ends has read its tiles, accumulators or slots, with their words that were poisoned in the
hearth `x` as it stood (R358). -/
def matrixPoison (s : State) (h : Nat) (x : Hearth) (c : MatCmd) : State :=
  match badIn x.act.bad (matrixPlaces c.instr) with
  | some w => poisonFault s h 3 (4 * w) 1 none none
  | none => match tldPoison x c with
    | some a => poisonFault s h 2 a 1 none none
    | none => s

/-- MATRIX_COMMAND_END: the head's last cycle. -/
def execMatrixCommandEnd (h : Nat) (s : State) : Out :=
  .next <| match (s.hearth h).matq with
    | [] => s
    | c :: _ =>
      if !c.started || c.left ≠ 0 || !unitsRun s h then s
      else match c.instr with
        | .tstMemory _ src _ _ r =>
          let d := tdesc c.td
          let (s, done) := tstGo h d ((tstUnits (s.hearth h).act src r c.mask d).drop c.elem) s
          if done then matrixPoison (releaseHold (popMat s h) h) h (s.hearth h) c else s
        | _ => matrixPoison (popMat (s.modHearth h fun x => matEffect x c) h) h (s.hearth h) c

/-- What elapses of the matrix array in one tick of an ungated hearth (R206, R207, R222, R223). -/
def matTick (s : State) (h : Nat) : State :=
  let s := settleHold s h
  let x := s.hearth h
  let late := x.matq.find? fun c => !c.started && (match c.stamp with
    | some v => v.toNat ≤ s.dcc.toNat
    | none => false)
  let head? := x.matq.head?
  match late with
  | some c =>
    if c.stamp = some s.dcc ∧ head? = some c ∧ !x.stalled then
      (s.setHearth h (x.modMat fun c => { c with due := true })).pushDue (.stampedStart h)
    else takeFault s h { code := .schedMiss, addr := ((c.stamp.getD 0).setWidth 32).setWidth 64, src := 1 }
  | none =>
    match head? with
    | none => s
    | some c =>
      if x.stalled then s
      else if c.started then
        let s := s.setHearth h (x.modMat fun c => { c with left := c.left - 1 })
        if c.left ≤ 1 then s.pushDue (.matrixCommandEnd h) else s
      else if c.stamp.isNone then (s.setHearth h (x.modMat fun c => { c with due := true })).pushDue (.matrixCommandStart h)
      else s

/-- The queue at a stop (R208): the command at which the X engine waits is withdrawn, and the others run to their end,
with the poison that they meet (R318, R358). -/
def drainMatrix (s : State) (h : Nat) : State :=
  let x := s.hearth h
  let q := if x.act.xe.hold then x.matq.dropLast else x.matq
  let s := q.foldl (fun s c => matrixPoison (s.modHearth h fun x => matEffect x c) h (s.hearth h) c)
    (s.setHearth h { x with matq := [] })
  s.modHearth h fun x =>
    { x with stall := false, stallOn := {}, trel := none, act := { x.act with xbind := none, xe := { x.act.xe with hold := false } } }

end Sys2Proof.Machine
end

