-- ==== Sys2Proof/Machine/Units.lean ====
section
/-!
DEFINITION. The merge unit (06 R148-R150) and the bellows (R151-R155).
-/
set_option autoImplicit false

namespace Sys2Proof.Machine

/-! ### Issue -/

def complNo : Compl → BitVec 2 | .none => 0 | .signal => 1 | .barrier => 2

/-- The command in progress counts among the four (log 76). -/
def execMrg (g : Guard) (e : UnitEnd) (c : Combine) (dropz : Bool) (fd f1 f2 : Reg) (ty : DType) (r : RndSat)
    (s : State) : Out :=
  aInstr g s <| reqFlue s (s.ctx.producible fd 3) fd <| reqFlue s (s.ctx.isOpen f1) f1 <|
    reqFlue s (s.ctx.isOpen f2) f2 <| reqTarget s e.compl e.tgt.toNat <| bindGuard s g fun held =>
      if 4 ≤ s.ctx.mergeq.length then .wait s false
      else
        let m : MergeCmd := { fd := fd, f1 := f1, f2 := f2, combine := c, dropz := dropz, ty := ty, rs := r
                              sub := complNo e.compl, tgt := e.tgt
                              cval := (if e.compl = .signal then s.reg e.val else 0), g := keptGuard g held
                              held := held }
        .done (s.setCtx { s.ctx with mergeq := s.ctx.mergeq ++ [m] })

/-- The command in progress counts among the four (log 76). -/
def execBlow (g : Guard) (e : UnitEnd) (fd : Reg) (s1 s2 : Reg) (s : State) : Out :=
  aInstr g s <| reqFlue s (s.ctx.producible fd 5) fd <| reqFlue s ((s.reg s2).toNat < 2 ^ 32) fd <|
    reqTarget s e.compl e.tgt.toNat <| bindGuard s g fun held =>
      if 4 ≤ s.ctx.blowq.length then .wait s false
      else
        let b : BlowCmd := { fd := fd, hdr := s.reg s1, first := s.reg s1, count := (s.reg s2).toNat, sub := complNo e.compl, tgt := e.tgt
                             cval := (if e.compl = .signal then s.reg e.val else 0), g := keptGuard g held
                             held := held }
        .done (s.setCtx { s.ctx with blowq := s.ctx.blowq ++ [b] })

/-- Credits published bytes under BARRIER, or writes the SIGNAL. -/
def unitCredit (s : State) (h : Nat) (sub : BitVec 2) (tgt : BitVec 21) (n : Nat) : State :=
  if sub = 2 then creditAt s h tgt.toNat n fun s o => poisonFault s h 2 o 3 none none else s
def unitSignal (s : State) (h : Nat) (sub : BitVec 2) (tgt : BitVec 21) (v : Word) : State :=
  if sub = 1 then writeSignal s h tgt.toNat v else s

/-! ### The merge unit (R149) -/

def endIdx : BitVec 32 := 0xFFFFFFFF

/-- A pair as it stands in scratchpad: index, value, and its address. -/
structure Pair where
  idx : BitVec 32
  val : BitVec 32
  addr : Nat

/-- The next pair of input flue f at byte offset o of the slot at READ. -/
def nextPair (x : Hearth) (f o : Nat) : Option Pair :=
  if !x.act.mayTake 0 f then none
  else (unitBytesAt x f o 8).map fun l =>
    { idx := BitVec.ofNat 32 (leNat (l.take 4)), val := BitVec.ofNat 32 (leNat (l.drop 4))
      addr := (x.flue (x.act.primary f)).slotAddr (x.flue f).read + o }

/-- The index is an end marker, or valid and above the last. -/
def Pair.good (p : Pair) (prev : Option (BitVec 32)) : Bool :=
  p.idx == endIdx || (p.idx.toNat < 2 ^ 31 && (match prev with | some q => q.toNat < p.idx.toNat | none => true))

/-- combine of R149, with the generator's state before and after. -/
def combineVals (c : Combine) (ty : DType) (r : RndSat) (seed : Word) (a b : Nat) : Nat × Word :=
  match c with
  | .add =>
    match ty with
    | .f32 =>
      if r.rnd = .sr then
        let (seed, u) := srDraw seed
        (addEnc .f32 r u a b, seed)
      else (addEnc .f32 r 0 a b, seed)
    | t => (addEnc t r 0 a b, seed)
  | .min => (minMax ty false a b, seed)
  | .max => (minMax ty true a b, seed)

def zeroVal (ty : DType) (v : Nat) : Bool := v == 0 || (ty == .f32 && v == 0x80000000)

def Hearth.modMerge (x : Hearth) (f : MergeCmd → MergeCmd) : Hearth :=
  { x with act := { x.act with mergeq := lmod x.act.mergeq 0 f } }

/-- Emits a pair into D: none when there is no room. -/
def emitPair (s : State) (h : Nat) (c : MergeCmd) (i v : BitVec 32) : Option State :=
  match produce (s.hearth h) c.fd.toNat ((leBytes 4 i.toNat ++ leBytes 4 v.toNat).map fun b => (b, false)) with
  | none => none
  | some (x, done, _) =>
    some (unitCredit (s.setHearth h x) h c.sub c.tgt done)

/-- The merge unit records its progress as it goes (R126): the pairs emitted, the input offsets and the last indices. -/
def mergeProgress (x : Hearth) : Hearth :=
  match x.act.mergeq with
  | c :: _ =>
    let p (o : Option (BitVec 32)) : Nat := match o with | some v => v.toNat | none => 0
    let f := x.flue c.fd.toNat
    x.setFlue c.fd.toNat { f with
      elem := BitVec.ofNat 64 c.cnt, aux := BitVec.ofNat 64 (c.o1 + 2 ^ 16 * c.o2)
      prev := BitVec.ofNat 64 (p c.prev1 + 2 ^ 32 * p c.prev2), slot := if f.sofs = 0 then f.claim.setWidth 64 else f.slot }
  | [] => x

/-- Reads past the pair of an input. -/
def passFirst (x : Hearth) (c : MergeCmd) (p : Pair) : Hearth :=
  let (x, o) := unitAdvance x 0 c.f1.toNat (c.o1 + 8)
  x.modMerge fun m => { m with o1 := o, prev1 := some p.idx }
def passSecond (x : Hearth) (c : MergeCmd) (p : Pair) : Hearth :=
  let (x, o) := unitAdvance x 0 c.f2.toNat (c.o2 + 8)
  x.modMerge fun m => { m with o2 := o, prev2 := some p.idx }

/-- Frees an input slot past its end marker. -/
def passEnd (x : Hearth) (f : Nat) : Hearth :=
  let x := x.consume f 1
  { x with act := { x.act with taken := tdel x.act.taken f } }

/-- MERGE_END: the end marker with the count, the last slot, the completion. -/
def mergeEnd (s : State) (h : Nat) (c : MergeCmd) : State :=
  match emitPair s h c endIdx (BitVec.ofNat 32 c.cnt) with
  | none => s
  | some s =>
    let f := c.fd.toNat
    let x := s.hearth h
    let n := (x.flue f).sofs.toNat
    let x := if n = 0 then x else x.closeSlot f
    let x := passEnd (passEnd x c.f1.toNat) c.f2.toNat
    let x := x.setFlue f { x.flue f with active := false }
    let s := s.setHearth h { x with act := { x.act with mergeq := x.act.mergeq.drop 1 } }
    unitSignal (unitCredit s h c.sub c.tgt n) h c.sub c.tgt c.cval

/-- One step of the head command on the pairs p of S1 and q of S2. -/
def mergeStep (s : State) (h : Nat) (c : MergeCmd) (p q : Pair) : State :=
  if p.idx = endIdx ∧ q.idx = endIdx then mergeEnd s h c
  else if p.idx.toNat < q.idx.toNat then
    match emitPair s h c p.idx p.val with
    | none => s
    | some s => s.modHearth h fun x => (passFirst x c p).modMerge fun m => { m with cnt := c.cnt + 1 }
  else if q.idx.toNat < p.idx.toNat then
    match emitPair s h c q.idx q.val with
    | none => s
    | some s => s.modHearth h fun x => (passSecond x c q).modMerge fun m => { m with cnt := c.cnt + 1 }
  else
    let (v, seed) := combineVals c.combine c.ty c.rs (s.hearth h).act.mseed p.val.toNat q.val.toNat
    let drop := c.dropz && zeroVal c.ty v
    match (if drop then some s else emitPair s h c p.idx (BitVec.ofNat 32 v)) with
    | none => s
    | some s => s.modHearth h fun x =>
      let x := { x with act := { x.act with mseed := seed } }
      let x := passSecond (passFirst x c p) c q
      if drop then x else x.modMerge fun m => { m with cnt := c.cnt + 1 }

/-- MERGE_EMIT: one pair of the head command. -/
def execMergeEmit (h : Nat) (s : State) : Out :=
  .next <|
    let x := s.hearth h
    match x.act.mergeq with
    | [] => s
    | c :: _ =>
      if !unitsRun s h || c.held then s
      else if let some w := badIn x.act.bad [flueRecord c.fd, flueRecord c.f1, flueRecord c.f2] then
        poisonFault s h 3 (4 * w) 3 none (some c.fd.toNat)
      else
        let fl := x.flue c.fd.toNat
        let x := if c.started then x else
          (x.setFlue c.fd.toNat { fl with
            active := true, unit := 3, sofs := 0, faddr := 0, cmpl := 0, cval := 0, qent := 0 }).modMerge fun m =>
              { m with started := true }
        let s := s.setHearth h (mergeProgress x)
        match nextPair x c.f1.toNat c.o1, nextPair x c.f2.toNat c.o2 with
        | some p, some q =>
          let fault (a : Nat) : State := poisonFault s h 2 (poisonOfs x a 8) 3 none (some c.fd.toNat)
          if poisoned x p.addr 8 then fault p.addr
          else if poisoned x q.addr 8 then fault q.addr
          else if !p.good c.prev1 then unitFault s h .flueState (BitVec.ofNat 64 p.addr) 3 none (some c.fd.toNat)
          else if !q.good c.prev2 then unitFault s h .flueState (BitVec.ofNat 64 q.addr) 3 none (some c.fd.toNat)
          else (mergeStep s h { c with started := true } p q).modHearth h fun x =>
            if (x.act.mergeq.head?.map (·.started)).getD false then mergeProgress x else x
        | _, _ => s

/-! ### The bellows (R152-R155) -/

def crcStep : Nat → BitVec 32 → BitVec 32
  | 0, c => c
  | n + 1, c => crcStep n (if c.getLsbD 0 then (c >>> 1) ^^^ 0x82F63B78#32 else c >>> 1)

/-- CRC-32C (R153). -/
def crc32c (l : List Byte) : BitVec 32 :=
  ~~~ l.foldl (fun c b => crcStep 8 (c ^^^ b.setWidth 32)) (BitVec.allOnes 32)

/-- The code lengths of the extension. -/
def codeLengths (ext : List Byte) : List Nat :=
  (List.range 256).map fun i => bits (ext.getD (i / 2) 0).toNat (4 * (i % 2)) 4

/-- R153: a complete code, a single symbol of length 1, or, for no expanded bytes, no symbol. -/
def lengthsOk (ls : List Nat) (elen : Nat) : Bool :=
  let used := ls.filter (· != 0)
  (used.foldl (fun a n => a + 2 ^ (15 - n)) 0 == 2 ^ 15) || used == [1] || (used.isEmpty && elen == 0)

/-- Symbols by length, then by number. -/
def symbolsOf (ls : List Nat) : List Nat :=
  ((List.range 15).map (· + 1)).flatMap fun n => (List.range 256).filter fun i => ls.getD i 0 == n

/-- What reading one symbol gives. -/
inductive Sym where
  | ok (v : Nat) (rest : List Bool)
  | short
  | bad

/-- The canonical code, bit by bit (R153): `first` is the first code of the present length, `idx` its symbol's place. -/
def readSym (ls syms : List Nat) : Nat → Nat → Nat → Nat → Nat → List Bool → Sym
  | 0, _, _, _, _, _ => .bad
  | _ + 1, _, _, _, _, [] => .short
  | k + 1, n, code, first, idx, b :: r =>
    let code := 2 * code + (if b then 1 else 0)
    let cnt := (ls.filter (· == n)).length
    if code < first + cnt then .ok (syms.getD (idx + (code - first)) 0) r
    else if n = 1 ∧ (ls.filter (· != 0)) = [1] then .bad
    else readSym ls syms k (n + 1) code (2 * (first + cnt)) (idx + cnt) r

/-- Expands n symbols: the bytes and the bits left, or the fault with its LENK. -/
def huffGo (ls syms : List Nat) : Nat → List Bool → List Byte → Except (FaultCode × Nat) (List Byte × List Bool)
  | 0, bs, acc => .ok (acc.reverse, bs)
  | n + 1, bs, acc =>
    match readSym ls syms 15 1 0 0 0 bs with
    | .ok v r => huffGo ls syms n r (BitVec.ofNat 8 v :: acc)
    | .short => .error (.bellowsLen, 1)
    | .bad => .error (.bellowsCode, 0)

def bitsOf (l : List Byte) : List Bool := l.flatMap fun b => (List.range 8).map fun i => b.getLsbD i

/-- The bytes that step 6 of R154 has written when n symbols have been expanded, or the stream has failed. -/
def huffPour (ls syms : List Nat) : Nat → List Bool → List Byte
  | 0, _ => []
  | n + 1, bs =>
    match readSym ls syms 15 1 0 0 0 bs with
    | .ok v r => BitVec.ofNat 8 v :: huffPour ls syms n r
    | _ => []

/-- The bytes that step 6 of R154 writes into the claimed slots, whether or not a later check fails. -/
def poured (codec elen : Nat) (body : List Byte) : List Byte :=
  if codec = 0 then body.take elen
  else
    let ls := codeLengths (body.take 128)
    if lengthsOk ls elen then huffPour ls (symbolsOf ls) elen (bitsOf (body.drop 128)) else []

/-- Steps 5-8 of R154 on the bytes after the header. -/
def expand (codec elen : Nat) (crc : BitVec 32) (body : List Byte) : Except (FaultCode × Nat) (List Byte) :=
  let out : Except (FaultCode × Nat) (List Byte) :=
    if codec = 0 then
      if elen = 0 then .ok []
      else if body.length < elen then .error (.bellowsLen, 1)
      else if elen < body.length then .error (.bellowsLen, 2)
      else .ok body
    else
      let ls := codeLengths (body.take 128)
      if !lengthsOk ls elen then .error (.bellowsCode, 0)
      else if elen = 0 then .ok []
      else match huffGo ls (symbolsOf ls) elen (bitsOf (body.drop 128)) [] with
        | .error e => .error e
        | .ok (l, rest) => if 8 ≤ rest.length then .error (.bellowsLen, 2) else .ok l
  match out with
  | .error e => .error e
  | .ok l => if crc32c l = crc then .ok l else .error (.bellowsCrc, 0)

def Hearth.modBlow (x : Hearth) (f : BlowCmd → BlowCmd) : Hearth :=
  { x with act := { x.act with blowq := lmod x.act.blowq 0 f } }

/-- The faults of the bellows' own checks, of which the record holds what R155 lists and nothing else (R377). -/
def blowCode : FaultCode → Bool
  | .bellowsCrc | .bellowsLen | .bellowsCode => true
  | _ => false

/-- A bellows fault (R155): the record holds LENK, and the address where a translation fault stopped production (R123).
-/
def blowFault (s : State) (h : Nat) (c : BlowCmd) (code : FaultCode) (lenk : Nat) (a : Word) : State :=
  let s := s.modHearth h fun x =>
    x.setFlue c.fd.toNat { x.flue c.fd.toNat with lenk := BitVec.ofNat 2 lenk, faddr := if blowCode code then 0 else a }
  unitFault s h code a 3 none (some c.fd.toNat)

/-- Reads memory for the bellows, then continues. -/
def blowRead (s : State) (h : Nat) (c : BlowCmd) (a : Word) (n : Nat) (k : State → List Byte → State) : State :=
  match askAll s h (.unit 0) (virtualAsks s h a.toNat n) with
  | (false, s) => s
  | (true, t) => match readVirtual t h 0 false a.toNat n with
    | .ok l s => k s (l.map (·.1))
    | .wait => s
    | .fault s code at_ => blowFault s h c code 0 (BitVec.ofNat 64 at_)
    | .poison s ar loc n => poisonFault s h ar loc 3 none (some c.fd.toNat) n

/-- The head command ends with its completion. -/
def blowEnd (s : State) (h : Nat) (c : BlowCmd) : State :=
  let s := s.modHearth h fun x =>
    let x := x.setFlue c.fd.toNat { x.flue c.fd.toNat with active := false }
    { x with act := { x.act with blowq := x.act.blowq.drop 1 } }
  unitSignal s h c.sub c.tgt c.cval

/-- The head command of the bellows of a hearth whose units run; it reads its flue's record (R123, R358). -/
def blowHead (s : State) (h : Nat) (k : BlowCmd → State) : Out :=
  .next <| match (s.hearth h).act.blowq with
    | [] => s
    | c :: _ =>
      if !unitsRun s h || c.held then s
      else match badIn (s.hearth h).act.bad [flueRecord c.fd] with
        | some w => poisonFault s h 3 (4 * w) 3 none (some c.fd.toNat)
        | none => k c

/-- A block before the one at which a resumed command goes on (R136): only its header is read, for the place of the
next. -/
def blowPass (s : State) (h : Nat) (c : BlowCmd) : State :=
  blowRead s h c c.hdr 16 fun s l =>
    s.modHearth h fun x => x.modBlow fun b =>
      { b with idx := b.idx + 1, hdr := b.hdr + 16 + BitVec.ofNat 64 (leNat ((l.drop 8).take 4)) }

/-- BELLOWS_BLOCK_START: steps 1 and 2 for the present block; a command without blocks ends at once. -/
def execBellowsBlockStart (h : Nat) (s : State) : Out :=
  blowHead s h fun c =>
    if c.phase ≠ .idle then s
    else if c.count ≤ c.idx then blowEnd s h c
    else if c.idx < c.goal then blowPass s h c
    else
      let fl := (s.hearth h).flue c.fd.toNat
      let pos := if c.slots = 0 then fl.claim else c.pos
      let s := s.modHearth h fun x =>
        (x.setFlue c.fd.toNat { fl with active := true, unit := 5, slot := pos.setWidth 64, sofs := 0, qent := 0
                                        elem := BitVec.ofNat 64 c.idx, lenk := 0, faddr := 0, cmpl := 0, cval := 0 }).modBlow fun b =>
          { b with started := true, pos := pos }
      blowRead s h c c.hdr 16 fun s l =>
        let codec := (l.getD 2 0).toNat
        let elen := leNat ((l.drop 4).take 4)
        let clen := leNat ((l.drop 8).take 4)
        if leNat (l.take 2) ≠ 0x5A6C ∨ 1 < codec ∨ l.getD 3 0 ≠ 0 ∨ fl.slots < cdiv elen fl.slotBytes
            ∨ (codec = 1 ∧ clen < 128) then blowFault s h c .bellowsCode 0 c.hdr
        else s.modHearth h fun x => x.modBlow fun b =>
          { b with phase := .header, codec := codec, elen := elen, clen := clen
                   crc := BitVec.ofNat 32 (leNat ((l.drop 12).take 4)) }

/-- BELLOWS_CLAIM: step 3. Slots that a stopped attempt claimed are counted in. -/
def execBellowsClaim (h : Nat) (s : State) : Out :=
  blowHead s h fun c =>
    let x := s.hearth h
    let fl := x.flue c.fd.toNat
    let n := cdiv c.elen fl.slotBytes
    if c.phase ≠ .header ∨ x.act.freeSlots c.fd.toNat + c.slots < n then s
    else s.setHearth h ((x.setFlue c.fd.toNat { fl with claim := c.pos + BitVec.ofNat 32 n }).modBlow fun b =>
      { b with phase := .claimed, slots := n })

/-- Writes bytes into the slots from a position on. -/
def pourSlots (x : Hearth) (f : Nat) (pos : BitVec 32) (l : List Byte) : Hearth :=
  let fl := x.flue f
  let sb := fl.slotBytes
  (List.range (cdiv l.length sb)).foldl (fun x i =>
    x.writeScratch (fl.slotAddr (pos + BitVec.ofNat 32 i)) ((l.drop (i * sb)).take sb)) x

/-- Writes bytes into n slots from a position, zero-filling the last. -/
def fillSlots (x : Hearth) (f : Nat) (pos : BitVec 32) (n : Nat) (l : List Byte) : Hearth :=
  let fl := x.flue f
  let sb := fl.slotBytes
  (List.range n).foldl (fun x i =>
    let b := (l.drop (i * sb)).take sb
    x.writeScratch (fl.slotAddr (pos + BitVec.ofNat 32 i)) (b ++ List.replicate (sb - b.length) 0)) x

/-- BELLOWS_BLOCK_PUBLISH: steps 4-9. -/
def execBellowsBlockPublish (h : Nat) (s : State) : Out :=
  blowHead s h fun c =>
    if c.phase ≠ .claimed then s
    else blowRead s h c (c.hdr + 16) c.clen fun s body =>
      match expand c.codec c.elen c.crc body with
      | .error (code, lenk) =>
        blowFault (s.modHearth h fun x => pourSlots x c.fd.toNat c.pos (poured c.codec c.elen body)) h c code lenk c.hdr
      | .ok l =>
        let s := s.modHearth h fun x =>
          let x := fillSlots x c.fd.toNat c.pos c.slots l
          (x.publish c.fd.toNat c.slots).modBlow fun b =>
            { b with phase := .idle, idx := c.idx + 1, hdr := c.hdr + 16 + BitVec.ofNat 64 c.clen, slots := 0 }
        let s := unitCredit s h c.sub c.tgt c.elen
        if c.idx + 1 = c.count then blowEnd s h c else s

/-! ### Resume (R136) -/

/-- The merge and bellows heads as they go on at resume, as their records stand: with DROP the command ends; a block
starts again at step 1, the one that ELEM names (R136, R155). A record that a fault of the bellows' own checks has left
without CMPL leaves the command its completion (log 77). -/
def resumeUnits (x : Hearth) : Hearth :=
  (List.range 32).foldl (fun x n =>
    let f := x.flue n
    if !f.stopped then x
    else if f.unit = 3 then
      if f.drop then
        let q := x.act.mergeq.drop 1
        { x with act := { x.act with mergeq := q, taken := x.act.taken.filter fun t => t.2 != 0 } }.dropProducer n
      else
        let last (old : Option (BitVec 32)) (v : Nat) : Option (BitVec 32) :=
          if (match old with | some o => o.toNat | none => 0) = v then old else some (BitVec.ofNat 32 v)
        (x.setFlue n { f with stopped := false }).modMerge fun m => { m with
          cnt := f.elem.toNat, o1 := bits f.aux.toNat 0 16, o2 := bits f.aux.toNat 16 16
          prev1 := last m.prev1 (bits f.prev.toNat 0 32), prev2 := last m.prev2 (bits f.prev.toNat 32 32)
          sub := BitVec.ofNat 2 f.cmpl.toNat, tgt := BitVec.ofNat 21 (f.cmpl.toNat / 4), cval := f.cval }
    else if f.unit = 5 then
      if f.drop then { x with act := { x.act with blowq := x.act.blowq.drop 1 } }.dropProducer n
      else
        let pos := f.slot.setWidth 32
        (x.setFlue n { f with stopped := false }).modBlow fun b =>
          let b := { b with phase := .idle, pos := pos, slots := (f.claim - pos).toNat }
          let b := if f.elem.toNat = b.idx then b else { b with idx := 0, hdr := b.first, goal := f.elem.toNat }
          if b.bare && f.cmpl == 0 && f.cval == 0 then b
          else { b with sub := BitVec.ofNat 2 f.cmpl.toNat, tgt := BitVec.ofNat 21 (f.cmpl.toNat / 4), cval := f.cval }
    else x) (resumeCopies x)

end Sys2Proof.Machine
end

