-- ==== Sys2Proof/Machine/Context.lean ====
section
/-!
DEFINITION. Starting engines (02 R30, 03 R54), stopping a hearth's units (14 R317, 06 R135, 07 R168), the frame block
(R319), and going on after a stop (R323).
-/
set_option autoImplicit false

namespace Sys2Proof.Machine

/-! ### Starting -/

/-- An engine starts at a slot (R30): its ORD is that of the slot's line, when the line can be read. One that a pending
request has stopped at a YIELD stays stopped at its resume slot, with its clamp record (R95); with no request pending
its clamp ends where it goes on at the loop's RESTART slot (R96). -/
def startEngine (s : State) (h : Nat) (e : Eng) (slot : Word) : State :=
  let ord := match readLine s h (lineOf slot) with
    | .ok (w, _) => some (linkOrd w)
    | .error _ => none
  s.modCtx h fun c =>
    let x := c.es e
    let clamp := match x.clamp with
      | some n => if x.stopped && !(s.hearth h).pending && slot == (x.loop n).restart then none else some n
      | none => none
    c.setEs e { x with pc := slot, line := none, buf := 0, ord := ord, done := false, sret := none
                       stopped := x.stopped && (s.hearth h).pending && slot == x.pc
                       slipWait := false, slipPass := false, hold := false, clamp := clamp, icache := []
                       imp := x.imp.filter (· == slot) }

/-- An engine of a context that resumes (R96): one that had stopped at a YIELD starts at the loop's RESTART slot with
CLAMPED cleared, whatever is requested since. -/
def EngState.resumed (x : EngState) : EngState :=
  if x.stopped then
    { x with stopped := false, clamp := x.clamp.filter fun n => x.pc != (x.loop n).restart }
  else x

/-- A context that resumes, from an image or from its half (R96, R355). -/
def Ctx.resumed (c : Ctx) : Ctx := { c with ae := c.ae.resumed, xe := c.xe.resumed }

/-- An engine that starts as if it had executed DONE has no ORD (R30). -/
def startDone (s : State) (h : Nat) (e : Eng) : State :=
  s.modCtx h fun c =>
    c.setEs e { c.es e with line := none, buf := 0, ord := none, done := true, sret := none, stopped := false
                            slipWait := false, slipPass := false, hold := false, icache := [] }

/-- An engine that starts as if it had executed SRET with a target (R322). -/
def startSret (s : State) (h : Nat) (e : Eng) (t : Word) : State :=
  s.modCtx h fun c =>
    c.setEs e { c.es e with line := none, buf := 0, ord := none, done := false, sret := some t, stopped := false
                            slipWait := false, slipPass := false, hold := false, icache := [] }

/-- No address of guest memory: a handler has no task of its own and charges no region (R322). -/
def noGpa : Nat := 2 ^ 46

/-- The context of a fresh dispatch before its arguments (R54). -/
def Ctx.fresh (ctxid : Word) : Ctx :=
  { slipw := 0xFFF, ctxid := ctxid, srseed := nonzeroSeed freshSrSeed (ctxid ^^^ freshSrSeed)
    mseed := nonzeroSeed freshMSeed (ctxid ^^^ freshMSeed) }

/-- Argument words in a1-a8 and k1-k8 (R54). -/
def Ctx.args (c : Ctx) (l : List Word) : Ctx :=
  (List.range 8).foldl (fun c i =>
    (c.setReg .a (BitVec.ofNat 5 (i + 1)) (l.getD i 0)).setReg .x (BitVec.ofNat 5 (i + 1)) (l.getD i 0)) c

/-! ### Stopping (R317) -/

/-- CMPL of a producer record (R123). -/
def cmplWord (sub tgt : Nat) : Word := BitVec.ofNat 64 (sub + 4 * tgt)

/-- A copy command in progress records itself (R135, R168). -/
def recordCopy (x : Hearth) (i : Nat) : Hearth :=
  let c := x.copyAt i
  if !c.started then x
  else if c.produces && !earlierProducer x i c.fd.toNat then
    let x := beginRecord x i
    let f := x.flue c.fd.toNat
    (x.setFlue c.fd.toNat { f with
      stopped := true, unit := f.kind, qent := BitVec.ofNat 6 i, elem := c.elem, faddr := c.faddr
      slot := if f.sofs = 0 then f.claim.setWidth 64 else f.slot
      cmpl := cmplWord c.sub.toNat c.ctgt.toNat, cval := c.cval }).modCopyAt i fun c => { c with stopped := true }
  else x.modCopyAt i fun c => { c with stopped := true }

/-- The merge unit's command in progress records itself. -/
def recordMerge (x : Hearth) : Hearth :=
  match x.act.mergeq with
  | c :: _ =>
    if !c.started then x
    else
      let x := mergeProgress x
      x.setFlue c.fd.toNat { x.flue c.fd.toNat with
        stopped := true, unit := 3, cmpl := cmplWord c.sub.toNat c.tgt.toNat, cval := c.cval }
  | [] => x

/-- The bellows' command in progress records itself: it starts its present block again, in the slots that the block has
claimed, or the next to be claimed (R136, R155). After a fault of its own checks the record has no completion (R377). -/
def recordBlow (x : Hearth) : Hearth :=
  match x.act.blowq with
  | c :: _ =>
    if !c.started then x
    else
      let f := x.flue c.fd.toNat
      let own := x.fault.any fun r => blowCode r.code && r.flue == some c.fd.toNat
      let slot := if c.phase = .idle ∧ c.slots = 0 then f.claim else c.pos
      (x.setFlue c.fd.toNat { f with
        active := true, stopped := true, unit := 5, elem := BitVec.ofNat 64 c.idx, slot := slot.setWidth 64
        cmpl := (if own then 0 else cmplWord c.sub.toNat c.tgt.toNat), cval := if own then 0 else c.cval }).modBlow
          fun b => { b with bare := own }
  | [] => x

/-- Steps 3, 4 and 6 of R317: the units record themselves, the matrix queue drains, and what the engines wait for is
left. A PGREQ's request stays posted without its waiter (R244). -/
def stopUnits (s : State) (h : Nat) : State :=
  let s := settleHold s h
  let s := drainMatrix s h
  let x := s.hearth h
  let x := recordBlow (recordMerge ((List.range x.act.copyq.length).foldl recordCopy x))
  let s := s.setHearth h { x with
    fetch := none, asks := [], issue := none, winld := none, watchA := none, watchX := none, pg := .none, parkW := none, act := { x.act with accSent := false } }.breakOff
  { s with hobReqs := s.hobReqs.map fun r => if r.waiter = some h then { r with waiter := none } else r }

/-- The engine whose TRAP a stop records takes the end-of-slot step of the TRAP (R97); at a chain's end it stays at the
TRAP itself (log 31). -/
def trapStep (x : Hearth) : Hearth :=
  match x.fault with
  | some f =>
    if f.code = .trap then
      let e : Eng := if f.src = 0 then .a else .x
      match endOfSlot e x.pending x.act with
      | (c, .ok t) => { x with act := c.setEs e { c.es e with pc := t } }
      | (_, .error _) => x
    else x
  | none => x

/-- The frame block of a stop (R319). -/
def frameOf (s : State) (h : Nat) (kind : BitVec 2) : Frame :=
  let x := s.hearth h
  let f := x.fault.getD { code := .illegalOp }
  let b : Frame := { kind := kind, adone := x.act.ae.done, xdone := x.act.xe.done, smode := x.mode == .s, fdcc := s.dcc
                     aslot := x.act.ae.pc, xslot := x.act.xe.pc
                     spend := match x.req with | some r => r.kind == .save | none => false }
  match x.fault with
  | none => b
  | some _ => { b with
    code := FaultCode.code f.code, src := f.src, dual := f.dual, faddr := f.addr
    qent := BitVec.ofNat 6 (f.qent.getD 0), qv := f.qent.isSome, flue := BitVec.ofNat 5 (f.flue.getD 0), fv := f.flue.isSome }

/-! ### Going on -/

/-- A context that comes to a hearth: the marks of its loads and queue entries on held stores name none of that
hearth's, since all of its own are published (R56, R250). -/
def Ctx.unmarked (c : Ctx) : Ctx :=
  { c with ae := { c.ae with seen := 0 }, xe := { c.xe with seen := 0 }
           xq := c.xq.map fun q => { q with mark := 0 }, aq := c.aq.map fun q => { q with mark := 0 } }

/-- The active context of a hearth goes on at the slots named, its units with it (R323, R136, R168). An instruction that
a new slot leaves out is no longer awaited (log 11). -/
def goOn (s : State) (h : Nat) (mode : Mode) (aslot xslot : Word) : State :=
  let moved := aslot != (s.hearth h).act.ae.pc
  let s := if moved then cancelOpen s h else s
  let x := s.hearth h
  let f := x.act.frame
  let c := { x.act with
    frame := { f with kind := 0, code := 0 }, amo := (if moved then .none else x.act.amo)
    acco := if moved then none else x.act.acco }
  let s := s.setHearth h (resumeUnits { x with act := c, run := .running, mode := mode, fault := none, serves := .none })
  let s := if f.adone then startDone s h .a else startEngine s h .a aslot
  let s := if f.xdone then startDone s h .x else startEngine s h .x xslot
  if f.adone && f.xdone then (s.modHearth h fun x => { x with run := .ending }).pushDue (.taskEnd h) else s

/-- The context that a hearth holds for its task, active or beside a handler. -/
def Hearth.taskCtx (x : Hearth) : Ctx := if x.serves == .stopped then x.ina else x.act

/-- The task has executed DONE on both engines, or a handler's DONE has ended it (R315, R324). -/
def Hearth.ended (x : Hearth) : Bool := (x.taskCtx.ae.done && x.taskCtx.xe.done) || x.taskCtx.failed

/-- The hearth that holds a task's context: the active one, or the stopped one that a handler serves. -/
def State.hearthOf (s : State) (part task : Nat) : Option Nat :=
  (s.hearths.find? fun p => p.2.run != .free && s.ownerOf p.1 == some part &&
    (match p.2.serves with
     | .stopped => p.2.ina.task == task
     | .none => p.2.act.task == task
     | .deadlock _ _ => false)).map (·.1)

end Sys2Proof.Machine
end

