-- ==== Sys2Proof/Machine/Events.lean ====
section
/-!
DEFINITION. The event ring of the hypervisor channel (15 R349), and the hob's service of residency and replica requests
(10 R234, R235, 15 R347).
-/
set_option autoImplicit false

namespace Sys2Proof.Machine

/-! ### Events (R336, R349) -/

def eventBytes (ty status : Nat) (tag : Word) (d0 d1 : Nat) : List Byte :=
  [BitVec.ofNat 8 ty, BitVec.ofNat 8 status] ++ leBytes 6 0 ++ leBytes 8 tag.toNat ++ leBytes 8 d0 ++ leBytes 8 d1

/-- Held events go to the ring while it has room. -/
def drainEvents : Nat → State → State
  | 0, s => s
  | n + 1, s =>
    match s.ch.events with
    | [] => s
    | e :: r =>
      if 256 ≤ (s.ch.evtail - s.ch.evhead).toNat then s
      else drainEvents n { s with
        host := mwrite s.host (s.ch.evbase.toNat + 32 * (s.ch.evtail.toNat % 256)) e
        ch := { s.ch with events := r, evtail := s.ch.evtail + 1 } }

def postEvent (s : State) (ty status : Nat) (tag : Word) (d0 d1 : Nat) : State :=
  drainEvents 1 { s with ch := { s.ch with events := s.ch.events ++ [eventBytes ty status tag d0 d1] } }

/-- A queue fault (R398): cause 1 queue descriptor, 2 packet, 3 LCMPL, 4 completion record. -/
def queueFault (s : State) (vf q cause gpa : Nat) : State :=
  postEvent s 5 0 (s.vf vf).handle (q + 4096 * cause) gpa

/-! ### Residency and replicas (R234, R235, R347) -/

/-- A request ends with a status. -/
def endRequest (s : State) (i : Nat) (st : Word) : State :=
  match s.hobReqs[i]? with
  | none => s
  | some r =>
    let s := { s with hobReqs := ldel s.hobReqs i }
    let s := match r.waiter with
      | some h => s.modHearth h fun x => if x.pg == .posted then { x with pg := .served st } else x
      | none => if st = 3 then { s with fb := { s.fb with unread := (r.part, r.g) :: s.fb.unread } } else s
    if s.hobReqs.any fun q => q.part == r.part && q.g == r.g then s
    else s.setStage2 r.part r.g fun e => { e with pend := false }

/-- Bytes of a backing slot: its 4 KiB header and the ciphertext of the frame (R347). -/
def backSlot : Nat := 0x201000

/-- `n` free values as bytes. -/
def freeSpan (idx n : Nat) : List Byte :=
  ((List.range ((n + 7) / 8)).flatMap fun i => leBytes 8 (Config.freeWord (idx + i)).toNat).take n

/-- What a backing slot's header says in clear: the guest frame number and the version (R347); the header's layout, the
IV and the additional data of the tag are the model's (log 42). -/
def slotClear (g version : Nat) : List Byte := leBytes 8 g ++ leBytes 8 version
def slotIv (g version : Nat) : List Byte := leBytes 8 version ++ leBytes 4 (g + 1)

/-- The bytes of the backing slot of a frame under the partition key. -/
def sealedSlot (key : BitVec 256) (g version : Nat) (plain : List Byte) : List Byte :=
  let c := gcmStream key (slotIv g version) plain
  slotClear g version ++ gcmTag key (slotIv g version) (slotClear g version) c ++ List.replicate 4064 0 ++ c

/-- The bytes of a frame that the hob accepts from its backing slot: the slot has the frame's number, the current
version and a good tag (R347). -/
def backing (s : State) (part g : Nat) : Option (List Byte) :=
  let p := s.part part
  let version := tget 0 p.versions g
  match p.pkey with
  | none => none
  | some key =>
    let l := mbytes s.host (p.backBase.toNat + g * backSlot) backSlot
    if (g + 1) * backSlot ≤ p.backLen.toNat && l.take 16 == slotClear g version then
      gcmOpen key (slotIv g version) (slotClear g version) (l.drop 4096) ((l.drop 16).take 16)
    else none

/-- A frame of the partition's allotment for a frame that becomes resident: its old one if it is still free. -/
def pickFrame (free : List Nat) (old : Nat) : Option Nat := if free.contains old then some old else free.head?

/-- The hob of a die as a sender of operations. -/
def hobSrc (die : Nat) : Nat := 512 + die

/-- The hob's copies for a request that have not landed. -/
def fillsPending (s : State) (r : HobReq) : Bool :=
  anyOp s fun op => op.src == hobSrc r.die && op.part == r.part && op.gline / frameSize == r.g

/-- The hob copies a frame line by line into host frame f, line k through `slice k` as an operation on `line k` (R235,
R265): `bytes k` are its bytes, or none where the slice gives the line as it stands. -/
def copyFrame (s : State) (r : HobReq) (f : Nat) (slice : Nat → Nat) (line : Nat → Nat)
    (bytes : Nat → List (Nat × Byte)) : State :=
  (List.range (frameSize / 64)).foldl (fun s k =>
    s.modSlice (slice k) fun x => { x with inq := x.inq ++ [{
      kind := .fill (f * frameSize + 64 * k), part := r.part, src := hobSrc r.die, gline := r.g * frameSize + 64 * k
      line := line k, bytes := bytes k
      path := if slice k < 64 then pathTo (hobSrc r.die) (slice k / 32) (slice k)
        else pathToPort (hobSrc r.die) (s.portFor r.part (slice k - 64) (r.g * frameSize + 64 * k)) }] }) s

/-- Takes a frame out of a partition's free ones for request i. -/
def takeFrame (s : State) (i part f : Nat) : State :=
  ({ s with hobReqs := lmod s.hobReqs i fun r => { r with frame := some f } } : State).modPart part fun p =>
    { p with freeFrames := p.freeFrames.filter (· != f) }

/-- A frame becomes resident: NR goes in stage 2 before it goes in the live tables (R234). -/
def clearNr (s : State) (part g : Nat) (f : S2Ent → S2Ent) : State :=
  let s := refreshWindows (s.setStage2 part g fun e => { f e with nr := false }) part
  { s with fb := { s.fb with unread := s.fb.unread.filter (· != (part, g)) } }

/-- RESIDENCY_SERVE: the hob serves request i (R234): it fills a frame from the backing, and once every line has landed
it clears NR. -/
def execResidencyServe (i : Nat) (s : State) : Out :=
  .next <| match s.hobReqs[i]? with
    | none => s
    | some r =>
      if s.pw.cur ≠ 0 || (s.part r.part).busyFrames.contains r.g then s
      else match s.stage2 r.part r.g with
        | none => endRequest s i 3
        | some e =>
          if !e.nr then (if requestDone e r.die r.replica then endRequest s i 0 else s)
          else if e.remote then (if s.peerUp r.part e.peer.toNat then clearNr s r.part r.g id else endRequest s i 3)
          else match r.frame with
            | some f =>
              if fillsPending s r then s
              else clearNr { s with hobReqs := lmod s.hobReqs i fun r => { r with frame := none } } r.part r.g fun e =>
                { e with frame := BitVec.ofNat 25 f }
            | none =>
              if s.hobReqs.any fun q => q.part == r.part && q.g == r.g && q.frame.isSome then s
              else match backing s r.part r.g with
                | none => endRequest s i 3
                | some plain =>
                  match pickFrame (s.part r.part).freeFrames e.frame.toNat with
                  | none => s
                  | some f =>
                    let at_ (k : Nat) : Nat := f * frameSize + 64 * k
                    copyFrame (takeFrame s i r.part f) r f (fun k => sliceOf (at_ k)) at_ fun k =>
                      (List.range 64).map fun b => (b, plain.getD (64 * k + b) 0)

/-- Held stores of a partition's hearths to a frame are published early (R234, R235). -/
def publishFrame (s : State) (part g : Nat) : State :=
  s.hearths.foldl (fun s p =>
    if s.ownerOf p.1 = some part then publishHeld s p.1 fun d => d.gpa / frameSize == g else s) s

/-- An operation to a guest frame has been sent and has not landed. -/
def frameOps (s : State) (part g : Nat) : Bool := anyOp s fun op => op.part == part && op.gline / frameSize == g

/-- An operation to a guest frame has not landed, or an access that a hearth has translated has not ended. -/
def frameUsed (s : State) (part g : Nat) : Bool :=
  frameOps s part g || s.hearths.any fun p => (p.2.issue.any fun i => i.part == part && i.gpa / frameSize == g)
    || p.2.parkW.any fun k => p.2.act.part == part && k.gpa / frameSize == g

/-- An access to a guest frame has not ended: one of these, or an addend or a contribution on its way. -/
def frameBusy (s : State) (part g : Nat) : Bool :=
  frameUsed s part g
    || (s.slices.any fun p => (p.2.accq.any fun m => m.part == part && m.gline / frameSize == g)
      || p.2.accoq.any (fun m => m.part == part && m.gline / frameSize == g)
      || p.2.rob.any fun m => m.part == part && m.gline / frameSize == g)

/-- REPLICA_BUILD (R235): request i gets a frame of its die and the frame's live tables their REP; held stores are
published, and the lines copied; once every copy has landed, and no access translated before is still under way (log
54), the replica is read. A request for which no frame is free is declined. -/
def execReplicaBuild (i : Nat) (s : State) : Out :=
  .next <| match s.hobReqs[i]? with
    | none => s
    | some r =>
      match s.stage2 r.part r.g with
      | none => s
      | some e =>
        if s.pw.cur ≠ 0 || !r.replica then s
        else if e.nr then
          -- an eviction has begun: the replica is given up
          match r.frame with
          | some f =>
            if fillsPending s r then s
            else
              let s : State := { s with hobReqs := lmod s.hobReqs i fun r => { r with frame := none } }
              (s.modPart r.part fun p => { p with freeFrames := p.freeFrames ++ [f] }).setStage2 r.part r.g fun e =>
                { e with building := false }
          | none => s
        else match r.frame with
          | some f =>
            if frameUsed s r.part r.g then s
            else
              let n := BitVec.ofNat 23 f
              let s := s.setStage2 r.part r.g fun e =>
                if r.die = 0 then { e with repd0 := true, rframe0 := n, building := false }
                else { e with repd1 := true, rframe1 := n, building := false }
              endRequest (refreshWindows s r.part) i 0
          | none =>
            if requestDone e r.die true then endRequest s i 0
            else if e.building then s
            else match (s.part r.part).freeFrames.find? fun f => f / 2 ^ 21 == r.die with
              | none => endRequest s i 2
              | some f =>
                let s := takeFrame s i r.part f
                let s := refreshWindows (s.setStage2 r.part r.g fun e => { e with building := true }) r.part
                let s := publishFrame s r.part r.g
                let line (k : Nat) : Nat := e.home (r.g * frameSize + 64 * k)
                copyFrame s r f (fun k => if e.remote then 64 + e.peer.toNat else sliceOf (line k)) line fun _ => []

/-- The replicas of a frame in this package end: no access reads them any more, and their frames are given up. -/
def dropReplicas (s : State) (part g : Nat) : State :=
  match s.stage2 part g with
  | none => s
  | some e =>
    let gone := [0, 1].filterMap fun d => if e.repOn d then some (g, e.rframe d) else none
    let s := s.setStage2 part g fun e => { e with repd0 := false, repd1 := false, rframe0 := 0, rframe1 := 0 }
    refreshWindows (s.modPart part fun p => { p with leaving := p.leaving ++ gone }) part

/-- Replica frames given up become free once every access that was translated to their guest frame has ended (R236 steps
2 and 3). -/
def freeLeaving (s : State) (part : Nat) : State :=
  let (stay, go) := (s.part part).leaving.partition fun f => frameUsed s part f.1
  if go.isEmpty then s
  else s.modPart part fun p => { p with leaving := stay, freeFrames := p.freeFrames ++ go.map (·.2) }

end Sys2Proof.Machine
end

