-- ==== Sys2Proof/Machine/Image.lean ====
section
/-!
DEFINITION. The register image of a context (03 R52): reading and writing it by aligned 8-byte words, with the layouts of
R80-R82, R123, R162, R167, R271, R272, R282 and R319.
-/
set_option autoImplicit false

namespace Sys2Proof.Machine

/-- A bit field of a record: the record's word at `off`, bits [lo + w - 1 : lo]. -/
structure Fld (α : Type) where
  off : Nat
  lo : Nat
  w : Nat
  get : α → Nat
  set : α → Nat → α

def fldWord {α : Type} (fs : List (Fld α)) (x : α) (o : Nat) : Nat :=
  (fs.filter (·.off == o)).foldl (fun a f => a + f.get x % 2 ^ f.w * 2 ^ f.lo) 0

def setFldWord {α : Type} (fs : List (Fld α)) (x : α) (o v : Nat) : α :=
  (fs.filter (·.off == o)).foldl (fun x f => f.set x (bits v f.lo f.w)) x

def natBool (n : Nat) : Bool := n % 2 == 1

/-! ### Layouts -/

def loopFlds : List (Fld Loop) := [
  ⟨0, 0, 32, fun l => l.remain.toNat, fun l v => { l with remain := BitVec.ofNat 32 v }⟩,
  ⟨0, 32, 1, fun l => l.active.toNat, fun l v => { l with active := natBool v }⟩,
  ⟨0, 33, 1, fun l => l.pipe.toNat, fun l v => { l with pipe := natBool v }⟩,
  ⟨0, 34, 5, fun l => l.cntReg.toNat, fun l v => { l with cntReg := BitVec.ofNat 5 v }⟩,
  ⟨0, 39, 5, fun l => l.doneReg.toNat, fun l v => { l with doneReg := BitVec.ofNat 5 v }⟩,
  ⟨8, 0, 64, fun l => l.start.toNat, fun l v => { l with start := BitVec.ofNat 64 v }⟩,
  ⟨16, 0, 64, fun l => l.stop.toNat, fun l v => { l with stop := BitVec.ofNat 64 v }⟩,
  ⟨24, 0, 64, fun l => l.restart.toNat, fun l v => { l with restart := BitVec.ofNat 64 v }⟩]

/-- A flue's own fields (R123); TAIL and CLAIM of a second reader read 0 and ignore writes. -/
def flueFlds1 : List (Fld Flue) := [
  ⟨0, 0, 21, fun f => f.base.toNat, fun f v => { f with base := BitVec.ofNat 21 v }⟩,
  ⟨0, 21, 4, fun f => f.ss.toNat, fun f v => { f with ss := BitVec.ofNat 4 v }⟩,
  ⟨0, 25, 4, fun f => f.cc.toNat, fun f v => { f with cc := BitVec.ofNat 4 v }⟩,
  ⟨0, 29, 3, fun f => f.kind.toNat, fun f v => { f with kind := BitVec.ofNat 3 v }⟩,
  ⟨0, 32, 1, fun f => f.restart.toNat, fun f v => { f with restart := natBool v }⟩,
  ⟨0, 33, 1, fun f => f.auto.toNat, fun f v => { f with auto := natBool v }⟩,
  ⟨0, 34, 1, fun f => f.opened.toNat, fun f v => { f with opened := natBool v }⟩,
  ⟨0, 35, 1, fun f => f.fork.toNat, fun f v => { f with fork := natBool v }⟩,
  ⟨0, 36, 1, fun f => f.forked.toNat, fun f v => { f with forked := natBool v }⟩,
  ⟨0, 37, 5, fun f => f.peer.toNat, fun f v => { f with peer := BitVec.ofNat 5 v }⟩,
  ⟨0, 42, 2, fun f => f.fed.toNat, fun f v => { f with fed := BitVec.ofNat 2 v }⟩,
  ⟨0x08, 0, 32, fun f => f.head.toNat, fun f v => { f with head := BitVec.ofNat 32 v }⟩,
  ⟨0x08, 32, 32, fun f => f.read.toNat, fun f v => { f with read := BitVec.ofNat 32 v }⟩,
  ⟨0x10, 0, 32, fun f => if f.fork then 0 else f.tail.toNat, fun f v => if f.fork then f else { f with tail := BitVec.ofNat 32 v }⟩,
  ⟨0x10, 32, 32, fun f => if f.fork then 0 else f.claim.toNat,
    fun f v => if f.fork then f else { f with claim := BitVec.ofNat 32 v }⟩,
  ⟨0x18, 0, 32, fun f => f.mark0.toNat, fun f v => { f with mark0 := BitVec.ofNat 32 v }⟩,
  ⟨0x18, 32, 32, fun f => f.mark1.toNat, fun f v => { f with mark1 := BitVec.ofNat 32 v }⟩,
  ⟨0x20, 0, 32, fun f => f.mark2.toNat, fun f v => { f with mark2 := BitVec.ofNat 32 v }⟩,
  ⟨0x20, 32, 32, fun f => f.mark3.toNat, fun f v => { f with mark3 := BitVec.ofNat 32 v }⟩,
  ⟨0x28, 0, 8, fun f => f.mmode.toNat, fun f v => { f with mmode := BitVec.ofNat 8 v }⟩]

/-- The producer record (R123). -/
def flueFlds2 : List (Fld Flue) := [
  ⟨0x30, 0, 1, fun f => f.active.toNat, fun f v => { f with active := natBool v }⟩,
  ⟨0x30, 1, 1, fun f => f.drop.toNat, fun f v => { f with drop := natBool v }⟩,
  ⟨0x30, 2, 1, fun f => f.stopped.toNat, fun f v => { f with stopped := natBool v }⟩,
  ⟨0x30, 3, 3, fun f => f.unit.toNat, fun f v => { f with unit := BitVec.ofNat 3 v }⟩,
  ⟨0x30, 6, 6, fun f => f.qent.toNat, fun f v => { f with qent := BitVec.ofNat 6 v }⟩,
  ⟨0x30, 12, 2, fun f => f.lenk.toNat, fun f v => { f with lenk := BitVec.ofNat 2 v }⟩,
  ⟨0x38, 0, 64, fun f => f.elem.toNat, fun f v => { f with elem := BitVec.ofNat 64 v }⟩,
  ⟨0x40, 0, 32, fun f => f.slot.toNat, fun f v => { f with slot := BitVec.ofNat 64 v }⟩,
  ⟨0x40, 32, 32, fun f => f.sofs.toNat, fun f v => { f with sofs := BitVec.ofNat 64 v }⟩,
  ⟨0x48, 0, 64, fun f => f.aux.toNat, fun f v => { f with aux := BitVec.ofNat 64 v }⟩,
  ⟨0x50, 0, 64, fun f => f.prev.toNat, fun f v => { f with prev := BitVec.ofNat 64 v }⟩,
  ⟨0x58, 0, 64, fun f => f.faddr.toNat, fun f v => { f with faddr := BitVec.ofNat 64 v }⟩,
  ⟨0x60, 0, 23, fun f => f.cmpl.toNat, fun f v => { f with cmpl := BitVec.ofNat 64 v }⟩,
  ⟨0x68, 0, 64, fun f => f.cval.toNat, fun f v => { f with cval := BitVec.ofNat 64 v }⟩]

def flueFlds : List (Fld Flue) := flueFlds1 ++ flueFlds2

/-- A copy-queue entry (R167); VALID is the entry's presence, and ELEM counts elements or indices. An entry with a guard
slot in G is held on it (R91). -/
def copyFlds : List (Fld CopyCmd) := [
  ⟨0, 0, 8, fun c => c.op.toNat, fun c v => { c with op := BitVec.ofNat 8 v }⟩,
  ⟨0, 8, 11, fun c => c.sub.toNat, fun c v => { c with sub := BitVec.ofNat 11 v }⟩,
  ⟨0, 19, 5, fun c => c.g.toNat, fun c v => { c with g := BitVec.ofNat 5 v, held := 16 ≤ v }⟩,
  ⟨0, 25, 1, fun c => c.started.toNat, fun c v => { c with started := natBool v }⟩,
  ⟨0, 26, 1, fun c => c.stopped.toNat, fun c v => { c with stopped := natBool v }⟩,
  ⟨0, 27, 1, fun c => c.drop.toNat, fun c v => { c with drop := natBool v }⟩,
  ⟨0, 32, 6, fun c => c.ta.toNat, fun c v => { c with ta := BitVec.ofNat 6 v }⟩,
  ⟨0, 38, 6, fun c => c.tb.toNat, fun c v => { c with tb := BitVec.ofNat 6 v }⟩,
  ⟨0, 44, 5, fun c => c.fd.toNat, fun c v => { c with fd := BitVec.ofNat 5 v }⟩,
  ⟨0, 49, 5, fun c => c.fs.toNat, fun c v => { c with fs := BitVec.ofNat 5 v }⟩,
  ⟨8, 0, 64, fun c => c.count.toNat, fun c v => { c with count := BitVec.ofNat 64 v }⟩,
  ⟨0x10, 0, 64, fun c => if c.isIndexed then c.elem.toNat / c.sub1 else c.elem.toNat,
    fun c v => { c with elem := BitVec.ofNat 64 (if c.isIndexed then v * c.sub1 else v) }⟩,
  ⟨0x18, 0, 64, fun c => c.cval.toNat, fun c v => { c with cval := BitVec.ofNat 64 v }⟩,
  ⟨0x20, 0, 21, fun c => c.ctgt.toNat, fun c v => { c with ctgt := BitVec.ofNat 21 v }⟩,
  ⟨0x20, 21, 8, fun c => c.chrt.toNat, fun c v => { c with chrt := BitVec.ofNat 8 v }⟩,
  ⟨0x28, 0, 40, fun c => c.credit.toNat, fun c v => { c with credit := BitVec.ofNat 40 v }⟩,
  ⟨0x30, 0, 64, fun c => c.faddr.toNat, fun c v => { c with faddr := BitVec.ofNat 64 v }⟩]

def frameFlds : List (Fld Frame) := [
  ⟨0, 0, 8, fun f => f.code.toNat, fun f v => { f with code := BitVec.ofNat 8 v }⟩,
  ⟨0, 8, 3, fun f => f.src.toNat, fun f v => { f with src := BitVec.ofNat 3 v }⟩,
  ⟨0, 11, 2, fun f => f.kind.toNat, fun f v => { f with kind := BitVec.ofNat 2 v }⟩,
  ⟨0, 13, 1, fun f => f.adone.toNat, fun f v => { f with adone := natBool v }⟩,
  ⟨0, 14, 1, fun f => f.xdone.toNat, fun f v => { f with xdone := natBool v }⟩,
  ⟨0, 15, 1, fun f => f.smode.toNat, fun f v => { f with smode := natBool v }⟩,
  ⟨0, 16, 1, fun f => f.dual.toNat, fun f v => { f with dual := natBool v }⟩,
  ⟨0x08, 0, 64, fun f => f.faddr.toNat, fun f v => { f with faddr := BitVec.ofNat 64 v }⟩,
  ⟨0x10, 0, 64, fun f => f.fdcc.toNat, fun f v => { f with fdcc := BitVec.ofNat 64 v }⟩,
  ⟨0x18, 0, 64, fun f => f.aslot.toNat, fun f v => { f with aslot := BitVec.ofNat 64 v }⟩,
  ⟨0x20, 0, 64, fun f => f.xslot.toNat, fun f v => { f with xslot := BitVec.ofNat 64 v }⟩,
  ⟨0x28, 0, 6, fun f => f.qent.toNat, fun f v => { f with qent := BitVec.ofNat 6 v }⟩,
  ⟨0x28, 6, 1, fun f => f.qv.toNat, fun f v => { f with qv := natBool v }⟩,
  ⟨0x28, 7, 5, fun f => f.flue.toNat, fun f v => { f with flue := BitVec.ofNat 5 v }⟩,
  ⟨0x28, 12, 1, fun f => f.fv.toNat, fun f v => { f with fv := natBool v }⟩,
  ⟨0x30, 0, 1, fun f => f.spend.toNat, fun f v => { f with spend := natBool v }⟩]

def EState.code : EState → Nat | .free => 0 | .held => 1 | .inflight => 2
def EState.ofCode (n : Nat) : EState := match n with | 1 => .held | 2 => .inflight | _ => .free

/-- An ember tag (R272). -/
def tagFlds : List (Fld Ember) := [
  ⟨0, 0, 2, fun e => e.state.code, fun e v => { e with state := EState.ofCode v }⟩,
  ⟨0, 2, 7, fun e => e.ref.toNat, fun e v => { e with ref := BitVec.ofNat 7 v }⟩,
  ⟨0, 9, 3, fun e => (AccOp.code e.op).toNat, fun e v => { e with op := AccOp.ofCode (BitVec.ofNat 3 v) }⟩,
  ⟨0, 12, 4, fun e => (DType.code e.ty).toNat, fun e v => { e with ty := DType.ofCode (BitVec.ofNat 4 v) }⟩,
  ⟨0, 16, 42, fun e => e.line.toNat, fun e v => { e with line := BitVec.ofNat 42 v }⟩]

/-- A sequence slot (R282). -/
def seqFlds : List (Fld SeqSlot) := [
  ⟨0, 0, 16, fun q => q.key.toNat, fun q v => { q with key := BitVec.ofNat 16 v }⟩,
  ⟨0, 16, 1, fun q => q.opened.toNat, fun q v => { q with opened := natBool v }⟩,
  ⟨0, 17, 1, fun q => q.issued.toNat, fun q v => { q with issued := natBool v }⟩,
  ⟨8, 0, 32, fun q => q.lo.toNat, fun q v => { q with lo := BitVec.ofNat 32 v }⟩,
  ⟨8, 32, 32, fun q => q.count.toNat, fun q v => { q with count := BitVec.ofNat 32 v }⟩,
  ⟨0x10, 0, 32, fun q => q.last.toNat, fun q v => { q with last := BitVec.ofNat 32 v }⟩,
  ⟨0x10, 32, 32, fun q => q.span.toNat, fun q v => { q with span := BitVec.ofNat 32 v }⟩,
  ⟨0x18, 0, 12, fun q => q.ports.toNat, fun q v => { q with ports := BitVec.ofNat 12 v }⟩,
  ⟨0x18, 16, 16, fun q => q.voidcnt.toNat, fun q v => { q with voidcnt := BitVec.ofNat 16 v }⟩]

def GState.code : GState → Nat | .empty => 0 | .pending => 1 | .isFalse => 2 | .isTrue => 3
def GState.ofCode (n : Nat) : GState := match n with | 1 => .pending | 2 => .isFalse | 3 => .isTrue | _ => .empty

/-! ### Control state (R80, R81) -/

/-- Entry i of a predicate stack, 0 the bottom. -/
def predEntryAt (l : List Word) (i : Nat) : Word := if i < l.length then l.getD (l.length - 1 - i) 0 else 0

/-- A stack from a depth and its entries. A depth above 16 counts as 16 (DESIGN CHOICE, log 81). -/
def predsOf (d : Nat) (f : Nat → Word) : List Word := ((List.range (min d 16)).map f).reverse

def controlWord (c : Ctx) (e : Eng) (o : Nat) : Nat :=
  let x := c.es e
  if o < 0x40 then (tget 0 x.b (o / 8)).toNat
  else if o < 0xC0 then fldWord loopFlds (x.loop ((o - 0x40) / 32)) ((o - 0x40) % 32)
  else if o = 0xC0 then
    x.preds.length + (match e with
      | .a => (List.range 16).foldl (fun a i => a + (if (predEntryAt x.preds i).getLsbD 0 then 2 ^ (16 + i) else 0)) 0
      | .x => 0)
  else if o = 0xC8 then
    x.nest.length + (List.range 4).foldl (fun a j => a + x.nest.reverse.getD j 0 % 4 * 2 ^ (4 + 2 * j)) 0
  else if o = 0xD0 then (match x.clamp with | some n => 1 + 2 * (n % 4) | none => 0)
  else if e = .x ∧ o = 0xD8 then c.defHead.toNat
  else if e = .x ∧ 0x100 ≤ o ∧ o < 0x180 then (predEntryAt x.preds ((o - 0x100) / 8)).toNat
  else 0

/-- Writes a word of an engine's control state. While CLAMPED is 0 the clamp record keeps no loop number and reads 0,
and an NACT above 4 counts as 4; a write of an X predicate entry at or above DEPTH is discarded (DESIGN CHOICE, log 81).
-/
def setControlWord (c : Ctx) (e : Eng) (o v : Nat) : Ctx :=
  let x := c.es e
  if o < 0x40 then c.setEs e { x with b := tput x.b (o / 8) (BitVec.ofNat 64 v) }
  else if o < 0xC0 then
    let n := (o - 0x40) / 32
    c.setEs e (x.setLoop n (setFldWord loopFlds (x.loop n) ((o - 0x40) % 32) v))
  else if o = 0xC0 then
    c.setEs e { x with preds := predsOf (bits v 0 5) fun i => match e with
      | .a => predEntry (natBool (v / 2 ^ (16 + i)))
      | .x => predEntryAt x.preds i }
  else if o = 0xC8 then
    c.setEs e { x with nest := ((List.range (min (bits v 0 3) 4)).map fun j => bits v (4 + 2 * j) 2).reverse }
  else if o = 0xD0 then c.setEs e { x with clamp := if natBool v then some (bits v 1 2) else none }
  else if e = .x ∧ o = 0xD8 then { c with defHead := BitVec.ofNat 11 v }
  else if e = .x ∧ 0x100 ≤ o ∧ o < 0x180 then
    let i := (o - 0x100) / 8
    if i < x.preds.length then c.setEs e { x with preds := lset x.preds (x.preds.length - 1 - i) (BitVec.ofNat 64 v) } else c
  else c

/-! ### Group 10 (R82) -/

/-- Word i of a queue's eight entries: the entry, or past the count the word that stands there, which is the last that
software wrote or the entry that a lowered count has dropped (DESIGN CHOICE, log 82). -/
def queueWord (l : List QEnt) (rest : Tbl Word) (i : Nat) : Nat :=
  match l[i]? with | some q => q.val.toNat | none => (tget 0 rest i).toNat

/-- Writes word i of a queue's eight entries: the entries and the words past the count. -/
def setQueueWord (l : List QEnt) (rest : Tbl Word) (i v : Nat) : List QEnt × Tbl Word :=
  if i < l.length then (lmod l i fun q => { q with val := BitVec.ofNat 64 v }, rest)
  else (l, if v % 2 ^ 64 = 0 then tdel rest i else tput rest i (BitVec.ofNat 64 v))

/-- Writes a queue's count: the words that stand past the old count become entries, and entries past the new one words.
A count above 8 counts as 8 (DESIGN CHOICE, log 82). -/
def setQueueCount (l : List QEnt) (rest : Tbl Word) (n : Nat) : List QEnt × Tbl Word :=
  let n := min n 8
  let more := (List.range (n - l.length)).map fun k => ({ val := tget 0 rest (l.length + k) } : QEnt)
  let past := (List.range 8).foldl (fun (r : Tbl Word) i =>
    if i < n then tdel r i
    else match l[i]? with
      | some q => if q.val = 0 then tdel r i else tput r i q.val
      | none => r) rest
  ((l ++ more).take n, past)

/-- Commands held on a guard slot. -/
def Ctx.heldOn (c : Ctx) (n : Nat) : Nat :=
  (c.copyq.filter fun x => x.held && x.g.toNat == 16 + n).length
    + (c.mergeq.filter fun x => x.held && x.g.toNat == 16 + n).length
    + (c.blowq.filter fun x => x.held && x.g.toNat == 16 + n).length

def guardWord (c : Ctx) (o : Nat) : Nat :=
  if o = 0 then (List.range 16).foldl (fun a n => a + (c.gstate n).code * 4 ^ n) 0
  else if o = 8 ∨ o = 0x10 then (List.range 8).foldl (fun a i => a + c.heldOn (o - 8 + i) % 256 * 256 ^ i) 0
  else if 0x40 ≤ o ∧ o < 0x80 then queueWord c.xq c.xrest ((o - 0x40) / 8)
  else if o = 0x80 then c.xq.length
  else if 0xC0 ≤ o ∧ o < 0x100 then queueWord c.aq c.arest ((o - 0xC0) / 8)
  else if o = 0x100 then c.aq.length
  else 0

/-- Writes a word of group 10. Commands held on a slot whose state is written stay held (DESIGN CHOICE, log 82). -/
def setGuardWord (c : Ctx) (o v : Nat) : Ctx :=
  let x (p : List QEnt × Tbl Word) : Ctx := { c with xq := p.1, xrest := p.2 }
  let a (p : List QEnt × Tbl Word) : Ctx := { c with aq := p.1, arest := p.2 }
  if o = 0 then (List.range 16).foldl (fun c n => c.setGstate n (GState.ofCode (v / 4 ^ n % 4))) c
  else if 0x40 ≤ o ∧ o < 0x80 then x (setQueueWord c.xq c.xrest ((o - 0x40) / 8) v)
  else if o = 0x80 then x (setQueueCount c.xq c.xrest (bits v 0 4))
  else if 0xC0 ≤ o ∧ o < 0x100 then a (setQueueWord c.aq c.arest ((o - 0xC0) / 8) v)
  else if o = 0x100 then a (setQueueCount c.aq c.arest (bits v 0 4))
  else c

/-! ### Groups 13, 14, 15 -/

/-- Entry e of the copy-queue residue, and its VALID (R167). -/
def Ctx.copyCell (c : Ctx) (e : Nat) : CopyCmd × Bool :=
  match c.copyq[e]? with
  | some k => (k, true)
  | none => tget ({}, false) c.cpast e

def copyWord (c : Ctx) (o : Nat) : Nat :=
  let k := c.copyCell (o / 64)
  fldWord copyFlds k.1 (o % 64) + (if o % 64 = 0 ∧ k.2 then 2 ^ 24 else 0)

/-- A command with the descriptors that its numbers name now. -/
def Ctx.described (c : Ctx) (k : CopyCmd) : CopyCmd := { k with tda := c.desc k.ta.toNat, tdb := c.desc k.tb.toNat }

/-- The entries past the last command that have become valid join the queue. A new command gets a number that no issue
gives. -/
def Ctx.absorbCopies : Nat → Ctx → Ctx
  | 0, c => c
  | n + 1, c =>
    match tget ({}, false) c.cpast c.copyq.length with
    | (k, true) =>
      let k := if k.uid = 0 then { c.described k with uid := (c.copyq.map (·.uid)).foldl max (2 ^ 64) + 1 } else k
      Ctx.absorbCopies n { c with copyq := c.copyq ++ [k], cpast := tdel c.cpast c.copyq.length }
    | _ => c

/-- Writes a word of an entry. Commands stand before the first entry whose VALID is 0; what stands behind it is kept for
the time when that one becomes valid (R167). -/
def setCopyWord (c : Ctx) (o v : Nat) : Ctx :=
  let e := o / 64
  let (k, was) := c.copyCell e
  let n := setFldWord copyFlds k (o % 64) v
  let n := if n.ta = k.ta ∧ n.tb = k.tb then n else c.described n
  let valid := if o % 64 = 0 then natBool (v / 2 ^ 24) else was
  if e < c.copyq.length then
    if valid then { c with copyq := lset c.copyq e n }
    else { c with
      copyq := c.copyq.take e
      cpast := (List.range (c.copyq.length - e - 1)).foldl (fun t i =>
        tput t (e + 1 + i) (c.copyq.getD (e + 1 + i) {}, true)) (tput c.cpast e (n, false)) }
  else Ctx.absorbCopies 64 { c with cpast := tput c.cpast e (n, valid) }

def sysGroupWord (c : Ctx) (o : Nat) : Nat :=
  if o < 0x400 then ((c.sysWord (o / 8)).getD 0).toNat
  else if o < 0x800 then
    (tget 0 c.bins ((o - 0x400) / 4)).toNat + 2 ^ 32 * (tget 0 c.bins ((o - 0x400) / 4 + 1)).toNat
  else if 0xC00 ≤ o ∧ o < 0xC40 then fldWord frameFlds c.frame (o - 0xC00)
  else 0

/-- A restore writes every field of the context's system registers; an on-chip map write acts as a MOVS does (R63). -/
def setSysGroupWord (c : Ctx) (raw : Bool) (o v : Nat) : Ctx :=
  if o < 0x400 then
    let n := o / 8
    if raw && n == 0x002 then { c with ctxid := BitVec.ofNat 64 v }
    else if raw && n == 0x013 then
      { c with defBase := BitVec.ofNat 21 v, defCap := BitVec.ofNat 12 (v / 2 ^ 32), defCount := BitVec.ofNat 12 (v / 2 ^ 48) }
    else match c.writeSys n (BitVec.ofNat 64 v) with
      | .ok c => c
      | .error _ => c
  else if o < 0x800 then
    let i := (o - 0x400) / 4
    { c with bins := tput (tput c.bins i (BitVec.ofNat 32 v)) (i + 1) (BitVec.ofNat 32 (v / 2 ^ 32)) }
  else if 0xC00 ≤ o ∧ o < 0xC40 then { c with frame := setFldWord frameFlds c.frame (o - 0xC00) v }
  else c

def emberWord (c : Ctx) (o : Nat) : Nat :=
  if o < 0x2000 then bits (c.ember (o / 64)).value.toNat (8 * (o % 64)) 64
  else if o < 0x2400 then fldWord tagFlds (c.ember ((o - 0x2000) / 8)) 0
  else if o = 0x2400 then c.ea % 256 + 256 * (c.emberCount % 256)
  else if 0x2800 ≤ o ∧ o < 0x2A00 then fldWord seqFlds (c.seq ((o - 0x2800) / 32)) ((o - 0x2800) % 32)
  else 0

def setEmberWord (c : Ctx) (raw : Bool) (o v : Nat) : Ctx :=
  if o < 0x2000 then
    let e := c.ember (o / 64)
    let lo := 8 * (o % 64)
    let old := e.value.toNat
    c.setEmber (o / 64) { e with value := BitVec.ofNat 512 (old - bits old lo 64 * 2 ^ lo + v % 2 ^ 64 * 2 ^ lo) }
  else if o < 0x2400 then
    let n := (o - 0x2000) / 8
    c.setEmber n (setFldWord tagFlds (c.ember n) 0 v)
  else if o = 0x2400 then (if raw then { c with ea := v % 256 } else c)
  else if 0x2800 ≤ o ∧ o < 0x2A00 then
    let q := (o - 0x2800) / 32
    c.setSeq q (setFldWord seqFlds (c.seq q) ((o - 0x2800) % 32) v)
  else c

/-! ### The image (R52) -/

/-- Base and size of each group's place. -/
def groupPlace : List (Nat × Nat) := [
  (0x00000, 0x100), (0x00100, 0x100), (0x00200, 0x100), (0x00400, 0x400), (0x04000, 0x1000), (0x05000, 0x1000),
  (0x10000, 0x10000), (0x20000, 0x10000), (0x30000, 0x8000), (0x38000, 0x8000), (0x00800, 0x200), (0x02000, 0x2000),
  (0x06000, 0x1000), (0x07000, 0x1000), (0x01000, 0x1000), (0x08000, 0x4000)]

/-- The group that holds an image offset. -/
def groupOf (o : Nat) : Option Nat := groupPlace.findIdx? fun g => g.1 ≤ o && o < g.1 + g.2

/-- The aligned 8-byte word at an image offset. -/
def Ctx.word (c : Ctx) (o : Nat) : Nat :=
  match groupOf o with
  | some 0 => (c.reg .a (BitVec.ofNat 5 (o / 8))).toNat
  | some 1 => controlWord c .a (o - 0x100)
  | some 2 => if o < 0x280 then (c.reg .x (BitVec.ofNat 5 ((o - 0x200) / 8))).toNat else 0
  | some 3 => controlWord c .x (o - 0x400)
  | some 4 | some 5 =>
    let i := (o - 0x4000) / 4
    (tget 0 c.v i).toNat + 2 ^ 32 * (tget 0 c.v (i + 1)).toNat
  | some 6 | some 7 => mrd c.t (o - 0x10000) 8
  | some 8 | some 9 =>
    let i := (o - 0x30000) / 4
    (tget 0 c.m i).toNat + 2 ^ 32 * (tget 0 c.m (i + 1)).toNat
  | some 10 => guardWord c (o - 0x800)
  | some 11 => bits (c.desc ((o - 0x2000) / 128)).toNat (8 * ((o - 0x2000) % 128)) 64
  | some 12 => fldWord flueFlds (c.flue ((o - 0x6000) / 128)) ((o - 0x6000) % 128)
  | some 13 => copyWord c (o - 0x7000)
  | some 14 => sysGroupWord c (o - 0x1000)
  | some 15 => emberWord c (o - 0x8000)
  | _ => 0

/-- The fields of an aligned word of a tensor descriptor; its other bits are reserved, read 0 and ignore writes (R9,
R162). -/
def descMask (o : Nat) : Nat :=
  match o with
  | 0 | 0x70 => 2 ^ 48 - 1
  | 0x08 => 0xFFFF
  | 0x68 => 0xFFFFFFFF0000FFFF
  | 0x78 => 0
  | _ => 2 ^ 64 - 1

/-- Writes an aligned word: in a restore (`raw`), or as software does. -/
def Ctx.setWord (c : Ctx) (raw : Bool) (o v : Nat) : Ctx :=
  match groupOf o with
  | some 0 => c.setReg .a (BitVec.ofNat 5 (o / 8)) (BitVec.ofNat 64 v)
  | some 1 => setControlWord c .a (o - 0x100) v
  | some 2 => if o < 0x280 then c.setReg .x (BitVec.ofNat 5 ((o - 0x200) / 8)) (BitVec.ofNat 64 v) else c
  | some 3 => setControlWord c .x (o - 0x400) v
  | some 4 | some 5 =>
    let i := (o - 0x4000) / 4
    { c with v := tput (tput c.v i (BitVec.ofNat 32 v)) (i + 1) (BitVec.ofNat 32 (v / 2 ^ 32)) }
  | some 6 | some 7 => { c with t := mwr c.t (o - 0x10000) 8 v }
  | some 8 | some 9 =>
    let i := (o - 0x30000) / 4
    { c with m := tput (tput c.m i (BitVec.ofNat 32 v)) (i + 1) (BitVec.ofNat 32 (v / 2 ^ 32)) }
  | some 10 => setGuardWord c (o - 0x800) v
  | some 11 =>
    let n := (o - 0x2000) / 128
    let at_ := (o - 0x2000) % 128
    let lo := 8 * at_
    let old := (c.desc n).toNat
    { c with td := tput c.td n (BitVec.ofNat 1024 (old - bits old lo 64 * 2 ^ lo + (v &&& descMask at_) * 2 ^ lo)) }
  | some 12 =>
    let n := (o - 0x6000) / 128
    c.setFlue n (setFldWord flueFlds (c.flue n) ((o - 0x6000) % 128) v)
  | some 13 => setCopyWord c (o - 0x7000) v
  | some 14 => setSysGroupWord c raw (o - 0x1000) v
  | some 15 => setEmberWord c raw (o - 0x8000) v
  | _ => c

/-- Bytes of the image from an offset. -/
def Ctx.imageBytes (c : Ctx) (o n : Nat) : List Byte :=
  (List.range n).map fun i => BitVec.ofNat 8 (c.word ((o + i) / 8 * 8) / 256 ^ ((o + i) % 8))

/-- Bytes written to the image, word by word; 4-byte words written whole lose their poison (R358). -/
def Ctx.writeImage (c : Ctx) (raw : Bool) (o : Nat) (l : List Byte) : Ctx :=
  if l.isEmpty then c
  else
    let c := { c with bad := c.bad.filter fun w => 4 * w < o || o + l.length < 4 * w + 4 }
    (List.range ((o + l.length - 1) / 8 - o / 8 + 1)).foldl (fun c k =>
    let w := (o / 8 + k) * 8
    let old := c.word w
    let v := leNat ((List.range 8).map fun i =>
      if o ≤ w + i ∧ w + i < o + l.length then l.getD (w + i - o) 0 else BitVec.ofNat 8 (old / 256 ^ i))
    c.setWord raw w v) c

/-- The bytes of a register group, and a context with one restored (R331). -/
def Ctx.groupBytes (c : Ctx) (g : Nat) : List Byte :=
  match groupPlace[g]? with
  | some (a, n) => c.imageBytes a n
  | none => []
def Ctx.restoreGroup (c : Ctx) (g : Nat) (l : List Byte) : Ctx :=
  match groupPlace[g]? with
  | some (a, n) => c.writeImage true a (l.take n)
  | none => c

end Sys2Proof.Machine
end

