-- ==== Sys2Proof/Machine/Ocm.lean ====
section
/-!
DEFINITION. Writes that arrive over the on-chip map, and reads through it (07 R159-R161, 03 R52, R63).
-/
set_option autoImplicit false

namespace Sys2Proof.Machine

/-- The register groups that bytes of an image reach. -/
def groupsOf (o n : Nat) : List Nat :=
  ((List.range n).filterMap fun i => groupOf (o + i)).eraseDups

/-- A fault of an on-chip map write at the hearth that makes it (R160). -/
def ocmFault (s : State) (m : OcmMsg) (code : FaultCode) : State :=
  takeFault s m.src { code := code, addr := m.addr.setWidth 64, src := 2 }

/-- The context engine is writing an image from the inactive half (R160, R328). -/
def halfBusy (x : Hearth) : Bool := x.out.isSome

/-- Whether a write into a group has to wait: matrix commands for groups 6-9 (R63), a named tile's TCFG (R66), and the
generator that a merge command draws from (R397). -/
def groupWaits (x : Hearth) (o n : Nat) : Bool :=
  (groupsOf o n).any fun g =>
    (6 ≤ g && g ≤ 9 && !x.matq.isEmpty)
      || (g == 14 && (List.range n).any fun i =>
          let w := (o + i - 0x1000) / 8
          (0x20 ≤ w && w ≤ 0x27 && x.tileBusy (w - 0x20)) || (w == 0x15 && !x.act.mergeq.isEmpty))

/-- The head words of the kind 4 flues whose hold_min differs from that of an earlier context (R127). -/
def syncHeads (old : Ctx) (x : Hearth) : Hearth := (List.range 32).foldl (fun x p => x.syncHead p (old.holdMin p)) x

/-- A write to a register image (R160): the inactive one, or open groups of the active one. -/
def writeImageAt (s : State) (m : OcmMsg) (w o : Nat) : State :=
  let x := s.hearth w
  let active := 0x300000 ≤ o
  let i := o % 0x100000
  let n := m.bytes.length
  if !m.smode then ocmFault s m .privilege
  else if active && (groupsOf i n).any (fun g => !x.act.regopen.getLsbD g) then ocmFault s m .ocmClosed
  else if active then
    if groupWaits x i n then s
    else
      let y := { x with act := x.act.writeImage false i m.bytes }
      s.setHearth w (if (groupsOf i n).contains 12 then syncHeads x.act y else y)
  else if halfBusy x then s
  else
    let y := { x with ina := x.ina.writeImage false i m.bytes }
    s.setHearth w (if x.serves = .stopped ∧ (groupsOf i n).contains 12 then (syncHeads x.ina y.flip).flip else y)

/-- A payload, SIGNAL or credit that a copy command sent lands in a scratchpad (R161, R169, R172); of its payload the
command learns. -/
def landOcm (s : State) (m : OcmMsg) (w o : Nat) : State :=
  match m.kind with
  | .data => copyLanded (storeAt s w o m.bytes) m.src m.uid m.bytes.length
  | .signal => storeAt s w o m.bytes
  | .credit => creditAt s w o (leNat m.bytes) fun s k => poisonFault s m.src 2 k 2 none none (some w)

/-- OCM_WRITE (R160): the oldest write that `src` has under way to the window lands; a write to a register image is one
that software in S mode makes (log 27). -/
def execOcmWrite (m : OcmMsg) (s : State) : Out :=
  .next <|
    let w := m.addr.toNat / 2 ^ 22
    let o := m.addr.toNat % 2 ^ 22
    let same (q : OcmMsg) : Bool := q.src == m.src && q.addr.toNat / 2 ^ 22 == w
    if s.pw.cur ≠ 0 then s
    else match s.ocm.find? same with
    | some q =>
      if q ≠ m || !m.path.rings.isEmpty then s
      else
        let s := { s with ocm := s.ocm.erase m }
        if windowOk s m.src w then landOcm s m w o else ocmFault (copyLanded s m.src m.uid 0) m .windowPerm
    | none =>
      let y := s.hearth m.src
      if o < 0x200000 || 192 ≤ m.src || gatedAt s m.src || !(y.run == .running || y.run == .handler) || m.smode != (y.mode == .s) then s
      else if windowOk s m.src w then writeImageAt s m w o
      else ocmFault s m .windowPerm

/-- A read of n bytes of a register image by software of hearth h (R160): what the words hold goes to the reader (log
27). A poisoned word raises MACHINE_CHECK (R358). -/
def readImageAt (s : State) (h a n : Nat) : State :=
  let w := a / 2 ^ 22
  let o := a % 2 ^ 22
  let active := 0x300000 ≤ o
  let i := o % 0x100000
  let x := s.hearth w
  let c := if active then x.act else x.ina
  let fault (code : FaultCode) : State := takeFault s h { code := code, addr := BitVec.ofNat 64 a, src := 2 }
  if !windowOk s h w then fault .windowPerm
  else if (s.hearth h).mode != .s then fault .privilege
  else if (s.ocm.any fun m => m.src == h && m.addr.toNat / 2 ^ 22 == w) || (!active && halfBusy x) then s
  else match c.bad.find? fun p => 4 * p < i + n && i < 4 * p + 4 with
    | some p => poisonFault s h 3 (4 * p) 2 none none
    | none => s.modHearth h fun x => { x with mapped := c.imageBytes i n }

/-- OCM_READ (R161): the next element of copy entry i of hearth h, read through the map; or the read of a register image
that software makes. -/
def execOcmRead (h : Nat) (t : OcmFrom) (s : State) : Out :=
  .next <| match t with
    | .entry i => if unitsRun s h && ((s.hearth h).copyAt i).readsMap then moveMany 1 s h i else s
    | .image a n =>
      let y := s.hearth h
      let o := a.toNat % 2 ^ 22
      if 192 ≤ h || s.pw.cur ≠ 0 || gatedAt s h || !(y.run == .running || y.run == .handler)
          || o < 0x200000 || 2 ^ 20 < o % 2 ^ 20 + n then s
      else readImageAt s h a.toNat n

end Sys2Proof.Machine
end

