-- ==== Sys2Proof/Machine/Firebox.lean ====
section
/-!
DEFINITION. Task records, acceptance, dependencies, the ends of tasks and launches, aborts (13 R290-R295, R301, R302, R307,
R308, R398), and the headers of context-store slots (14 R326).
-/
set_option autoImplicit false

namespace Sys2Proof.Machine

/-! ### Task records (R292) -/

structure Rec where
  entryA : Word
  entryX : Word
  region : Nat
  ops : Nat
  nop : Nat
  opmode : Nat
  nsucc : Nat
  succ : Nat
  cmpl : Nat
  pendc : Nat
  cancel : Bool
  tstate : Nat
  args : List Word
  reserved : Bool

def recOf (l : List Byte) : Rec :=
  let w (o : Nat) : Nat := field l o 8
  { entryA := BitVec.ofNat 64 (w 0), entryX := BitVec.ofNat 64 (w 8), region := bits (w 0x10) 0 46
    ops := bits (w 0x18) 0 46, nop := bits (w 0x18) 46 4, opmode := bits (w 0x20) 0 16, nsucc := bits (w 0x20) 16 16
    succ := bits (w 0x28) 0 46, cmpl := bits (w 0x30) 0 46, pendc := bits (w 0x38) 0 16, cancel := bits (w 0x38) 16 1 == 1
    tstate := bits (w 0x38) 18 2, args := (List.range 8).map fun i => BitVec.ofNat 64 (w (0x40 + 8 * i))
    reserved := bits (w 0x10) 46 18 == 0 && bits (w 0x18) 50 14 == 0 && bits (w 0x20) 32 32 == 0
      && bits (w 0x28) 46 18 == 0 && bits (w 0x30) 46 18 == 0 && bits (w 0x38) 20 44 == 0 }

/-- Operand n's mode (R292). -/
def Rec.mode (r : Rec) (n : Nat) : Nat := bits r.opmode (2 * n) 2

/-- The fields of a record to be accepted (R292, R311). -/
def Rec.ok (r : Rec) : Bool :=
  r.reserved && r.tstate == 0 && r.nop ≤ 8 && r.nsucc ≤ 4096 && (List.range 8).all fun n => r.mode n != 3

def succList (l : List Byte) (n : Nat) : List Nat := (List.range n).map fun i => field l (8 * i) 8

/-- A record whose fields and translations allow acceptance (R398). -/
def checkRecord (s : State) (part gpa : Nat) : Fb Rec :=
  if !translatable s part gpa 128 then .bad gpa
  else match fbRead s part gpa 128 with
    | .wait s => .wait s
    | .bad a => .bad a
    | .ok l =>
      let r := recOf l
      if !r.ok || !translatable s part r.ops (128 * r.nop) || !translatable s part r.succ (8 * r.nsucc)
          || (r.cmpl != 0 && !translatable s part r.cmpl 32) then .bad gpa
      else match fbRead s part r.succ (8 * r.nsucc) with
        | .wait s => .wait s
        | .bad a => .bad a
        | .ok sl => if (succList sl r.nsucc).all fun g => translatable s part g 128 then .ok r else .bad gpa

/-! ### Tasks and launches -/

def State.taskOf (s : State) (part gpa : Nat) : Option Task := s.fb.tasks.find? fun t => t.part == part && t.gpa == gpa
def State.modTask (s : State) (part gpa : Nat) (f : Task → Task) : State :=
  { s with fb := { s.fb with tasks := s.fb.tasks.map fun t => if t.part = part ∧ t.gpa = gpa then f t else t } }
def State.launch (s : State) (n : Nat) : Launch := tget {} s.fb.launches n
def State.modLaunch (s : State) (n : Nat) (f : Launch → Launch) : State :=
  if thas s.fb.launches n then { s with fb := { s.fb with launches := tput s.fb.launches n (f (s.launch n)) } } else s
def queueKey (vf q : Nat) : Nat := vf * 4096 + q
def State.queue (s : State) (vf q : Nat) : Queue := tget {} s.fb.queues (queueKey vf q)
def State.modQueue (s : State) (vf q : Nat) (f : Queue → Queue) : State :=
  { s with fb := { s.fb with queues := tput s.fb.queues (queueKey vf q) (f (s.queue vf q)) } }

/-- A task's end is waiting to be served. -/
def ending (s : State) (part gpa : Nat) : Bool := s.fb.ends.any fun e => e.part == part && e.gpa == gpa

def pushEnd (s : State) (part gpa : Nat) (st : EndStatus) : State :=
  if ending s part gpa then s else { s with fb := { s.fb with ends := s.fb.ends ++ [{ part := part, gpa := gpa, status := st }] } }

/-- Writes bits of a record's word at 0x38 that only the firebox writes (R292), where the record can be reached. -/
def modState (s : State) (part gpa : Nat) (f : Nat → Nat) : State :=
  if reach s part (gpa + 0x38) 8 == .ok then
    fbWrite s part (gpa + 0x38) (leBytes 8 (f (readGpaNat s part (gpa + 0x38) 8)))
  else s
def setTstate (s : State) (part gpa n : Nat) : State :=
  modState s part gpa fun w => w - bits w 18 2 * 2 ^ 18 + n * 2 ^ 18

/-! ### Placement (R295) -/

/-- The place of the home slice of a line on its die (R297). -/
def slicePlace (hpa : Nat) : Nat × (Nat × Nat) :=
  let i := sliceOf hpa % 32
  (sliceOf hpa / 32, 3 * (i % 16) / 4, if i < 16 then 0 else 7)

/-- The place of an operand's first element: none when it cannot be placed. -/
def operandPlace (s : State) (part : Nat) (win : Tbl (BitVec 128)) (d : TDesc) : Option (Nat × (Nat × Nat)) :=
  if d.space = 0 then
    match lookupWin win (BitVec.ofNat 64 (d.unitAddr 0)) with
    | none => none
    | some e =>
      let gpa := e.gbase + (d.unitAddr 0 - e.vbase)
      match s.stage2 part (gpa / frameSize) with
      | some f => if f.remote || f.nr || !frameOk f.frame.toNat then none else some (slicePlace (f.home gpa))
      | none => none
  else
    let h := d.unitAddr 0 / 2 ^ 22
    if h < 192 then some (dieOf h, h % 96 / 8, h % 8) else none

/-- The die and the place of a task (R295); `die` is the launching hearth's. Items that are not resident are waited for
(R398); an operand that cannot be placed, by an unreadable image too, is passed over. -/
def placeTask (s : State) (part : Nat) (winimg : Nat) (r : Rec) (die : Nat) : Fb (Nat × Option (Nat × Nat)) :=
  match fbRead s part r.ops (128 * r.nop) with
  | .wait s => .wait s
  | o =>
    let ops : List (Nat × TDesc) := match o with
      | .ok l => (List.range r.nop).map fun n => (n, tdesc (BitVec.ofNat 1024 (leNat ((l.drop (128 * n)).take 128))))
      | _ => []
    let plain := ops.filter fun o => o.2.space == 0
    let writes := plain.filter fun o => r.mode o.1 == 1 || r.mode o.1 == 2
    let onchip := ops.filter fun o => o.2.space == 1
    match if plain.isEmpty then .ok [] else fbRead s part winimg 4096 with
    | .wait s => .wait s
    | w =>
      let win : Tbl (BitVec 128) := match w with
        | .ok l => (match checkWindows (windowImage l) with | .ok t => t | .error _ => [])
        | _ => []
      .ok (match (writes ++ plain ++ onchip).findSome? fun o => operandPlace s part win o.2 with
        | some (d, p) => (d, some p)
        | none => (die, none))

/-! ### Becoming ready, cancellation (R293, R295) -/

/-- Where a task that becomes ready is to be placed; of a record that cannot be read, the launching hearth's die. -/
def placeReady (s : State) (t : Task) : Fb (Nat × Option (Nat × Nat)) :=
  match fbRead s t.part t.gpa 128 with
  | .ok l => placeTask s t.part (match s.region t.part t.region with | some r => r.winimg | none => 0) (recOf l) t.ldie
  | .wait s => .wait s
  | .bad _ => .ok (t.ldie, none)

/-- A task becomes ready: its age starts, that of a parked task with its event (R296, R300). -/
def Task.ripen (t : Task) (now : Nat) : Task :=
  if t.ripe then t else { t with ripe := true, age := (if t.st = .parked then t.metFor else 0), order := now }

/-- A task becomes ready now, and its die and place are chosen (R295). While an item that decides its place waits for
residency, so does its dispatch, but not its age (R296, R398). -/
def becomeReady (s : State) (t : Task) : State :=
  let now := s.dcc.toNat
  match placeReady s t with
  | .ok (die, place) =>
    s.modTask t.part t.gpa fun t => { t.ripen now with st := .ready, die := die, place := place, look := false, ripe := false }
  | .wait s => s.modTask t.part t.gpa fun t => { t.ripen now with look := true }
  | .bad _ => s

/-- An accepted task that its record's word makes ready or cancelled (R293). -/
def settleTask (s : State) (part gpa : Nat) : State :=
  match s.taskOf part gpa with
  | none => s
  | some t =>
    if t.st ≠ .accepted ∧ t.st ≠ .ready ∨ t.cont.isSome then s
    else match fbRead s part (gpa + 0x38) 8 with
      | .ok l =>
        let w := leNat l
        if bits w 16 1 = 1 then pushEnd s part gpa .cancelled
        else if t.st = .accepted ∧ bits w 0 16 = 0 then becomeReady s t
        else s.modTask part gpa fun t => { t with look := false }
      | .wait s => s.modTask part gpa fun t => { t with look := true }
      | .bad _ => s

/-- Tasks whose readiness waits for an item (R398). -/
def serveReady (s : State) : State :=
  (s.fb.tasks.filter fun t => t.look && !ending s t.part t.gpa).foldl (fun s t =>
    if t.st = .parked then becomeReady s t else settleTask s t.part t.gpa) s

/-! ### Aborting a launch (R308) -/

/-- The held embers and open ranges of a discarded context: the state with the ranges voided, and the two counts. -/
def discardCounts (s : State) (c : Ctx) : State × Nat × Nat :=
  let ranges := (List.range 16).filter fun q => (c.seq q).opened
  let (s, n) := ranges.foldl (fun (a : State × Nat) q =>
    let x := c.seq q
    let (s, k) := voidRange a.1 c.part x.key x.lo.toNat x.count.toNat
    (freeSeq s c, a.2 + k + x.voidcnt.toNat)) (s, 0)
  (s, c.emberCount, n)

/-- The image header (R326). -/
def imageHeader (im : Image) : List Byte :=
  leBytes 8 (0x6C48 + 2 ^ 16 + im.state.toNat * 2 ^ 24 + (if im.discard then 2 ^ 26 else 0)) ++ leBytes 8 im.ctxid.toNat
    ++ leBytes 8 im.task ++ leBytes 8 im.region ++ leBytes 8 im.lasth ++ leBytes 8 im.sdcc.toNat

/-- Slot i of a partition's context store. -/
def slotBase (p : Part) (i : Nat) : Nat := p.csbase + i * 0x280000

/-- The image of a slot changes, and its header in the slot with it. -/
def setImage (s : State) (part i : Nat) (im : Image) : State :=
  writeOrOwe (s.modPart part fun p => { p with images := tput p.images i im }) part (slotBase (s.part part) i + 0x240000)
    (imageHeader im)

/-- A saved image is discarded, or its restore has ended: its slot is free, and its header says so (R308, R327). -/
def discardImage (s : State) (part slot : Nat) : State :=
  if thas (s.part part).images slot then
    (setImage s part slot { tget {} (s.part part).images slot with state := 0, discard := false }).modPart part fun p =>
      { p with images := tdel p.images slot }
  else s

/-- The reservation that a woken LAUNCHW holds is released (R301). -/
def dropReserve (s : State) (t : Task) : State :=
  if t.rsv then
    (chargePath s t.part t.eaddr t.launch fun r => { r with plu := r.plu - 1 }).modTask t.part t.gpa fun t =>
      { t with rsv := false }
  else s

def abortTask (s : State) (t : Task) : State :=
  let s := dropReserve s t
  match t.st with
  | .accepted | .ready => pushEnd s t.part t.gpa (if t.cont.isSome then .aborted else .cancelled)
  | .parked => pushEnd s t.part t.gpa .aborted
  | .dispatched =>
    match s.hearthOf t.part t.gpa with
    | some h => s.pushDue (.preemptRequest h .abort)
    | none => s
  | .saved =>
    match t.slot with
    | none => pushEnd s t.part t.gpa .aborted
    | some i =>
      let im := tget {} (s.part t.part).images i
      if im.state = 1 then setImage s t.part i { im with discard := true }
      else
      let (s, e, v) := discardCounts s im.ctx
      let s := s.modTask t.part t.gpa fun t => { t with edisc := t.edisc + e, voids := t.voids + v }
      pushEnd (discardImage s t.part i) t.part t.gpa .aborted

/-- An abort of one launch, with the fault that caused it when there is one. -/
def abortLaunch (s : State) (n : Nat) (fcode : BitVec 8) (faddr : Word) : State :=
  if !thas s.fb.launches n then s
  else
    let s := if (s.launch n).aborting then s else markRegions s n
    let s := s.modLaunch n fun l =>
      { l with draining := true, aborting := true, fcode := (if l.fcode = 0 then fcode else l.fcode)
               faddr := if l.fcode = 0 then faddr else l.faddr }
    (s.fb.tasks.filter fun t => t.launch == n && !ending s t.part t.gpa).foldl abortTask s

def nonresidentCode : BitVec 8 := FaultCode.code .nonresident

/-! ### Acceptance (R301, R304, R311) -/

/-- Accepts a checked record into a launch: its region becomes live, TSTATE becomes 1, and an entry is charged where it
takes one. -/
def acceptTask (s : State) (part gpa : Nat) (r : Rec) (launch vf q die : Nat) (entry : Bool) : State :=
  let t : Task := { part := part, vf := vf, q := q, gpa := gpa, region := r.region, launch := launch, ldie := die, die := die, entry := entry }
  let s := setTstate s part gpa 1
  let s : State := { s with fb := { s.fb with tasks := s.fb.tasks ++ [t] } }
  s.modLaunch launch fun l => { l with live := l.live + 1, ntask := l.ntask + 1 }

def chargeEntry (s : State) (part region launch : Nat) : State :=
  chargePath s part region launch fun r => { r with plu := r.plu + 1 }
def freeEntry (s : State) (part region launch : Nat) : State :=
  chargePath s part region launch fun r => { r with plu := r.plu - 1 }

/-! ### Dependencies (R293) -/

/-- A predecessor's end or TREL at one successor: the decrement, or CANCEL in its place. -/
def notifySucc (s : State) (part gpa : Nat) (cancel : Bool) : State :=
  let s := modState s part gpa fun w =>
    if cancel then w - bits w 16 1 * 2 ^ 16 + 2 ^ 16
    else if bits w 0 16 = 0 then w - bits w 17 1 * 2 ^ 17 + 2 ^ 17
    else w - 1
  settleTask s part gpa

/-- Releases those of a task's successors whose records can be reached; the others wait for residency, each for itself,
and the answer is false while one does. A record out of reach aborts the launch (R398). -/
def releaseList (s : State) (t : Task) (cancel : Bool) (gs : List Nat) : State × Bool :=
  let left := gs.filter fun g => reach s t.part g 128 == .waits
  let s := gs.foldl (fun s g => match reach s t.part g 128 with
    | .ok => notifySucc s t.part g cancel
    | .waits => askFrames s t.part g 128
    | .bad => abortLaunch s t.launch nonresidentCode (BitVec.ofNat 64 g)) s
  (s.modTask t.part t.gpa fun t => { t with succs := some left }, left.isEmpty)

/-- Releases the successors of a task; the answer is false while an item waits for residency. A list out of reach aborts
the launch (R398). -/
def releaseSuccs (s : State) (t : Task) (cancel : Bool) : State × Bool :=
  match t.succs with
  | some gs => releaseList s t cancel gs
  | none =>
    match fbRead s t.part t.gpa 128 with
    | .wait s => (s, false)
    | .bad a => (abortLaunch s t.launch nonresidentCode (BitVec.ofNat 64 a), true)
    | .ok l =>
      let r := recOf l
      match fbRead s t.part r.succ (8 * r.nsucc) with
      | .wait s => (s, false)
      | .bad a => (abortLaunch s t.launch nonresidentCode (BitVec.ofNat 64 a), true)
      | .ok sl => releaseList s t cancel (succList sl r.nsucc)

/-- The same once: a task whose successors have all been released releases none again (R314, R315 step 4). -/
def releaseOnce (s : State) (t : Task) (cancel : Bool) : State × Bool :=
  if t.treled then (s, true)
  else
    let (s, ok) := releaseSuccs s t cancel
    (if ok then s.modTask t.part t.gpa fun t => { t with treled := true } else s, ok)

/-! ### Ends and completion records (R294) -/

def EndStatus.code : EndStatus → Nat | .done => 1 | .aborted => 2 | .cancelled => 3 | .failed => 4

def completion (s : State) (status : Nat) (fcode : BitVec 8) (ntask edisc voids : Nat) (faddr : Word) : List Byte :=
  let cap (n : Nat) : Nat := min n (2 ^ 32 - 1)
  leBytes 8 (status + 16 * fcode.toNat + 2 ^ 32 * (ntask % 2 ^ 32)) ++ leBytes 8 (cap edisc + 2 ^ 32 * cap voids)
    ++ leBytes 8 s.dcc.toNat ++ leBytes 8 faddr.toNat

/-- Writes a completion record: false while its frame waits for residency; out of reach it is not written, and event
type 5 is posted (R398). -/
def writeRecord (s : State) (part vf q gpa : Nat) (l : List Byte) : State × Bool :=
  match reach s part gpa 32 with
  | .ok => (fbWrite s part gpa l, true)
  | .waits => (askFrames s part gpa 32, false)
  | .bad => (queueFault s vf q 4 gpa, true)

/-- The entries that a task holds in the pending-launch pool are freed (R301, R315 step 5). -/
def freeEntries (s : State) (t : Task) : State :=
  let s := dropReserve s t
  if t.entry then (freeEntry s t.part t.region t.launch).modTask t.part t.gpa fun t => { t with entry := false } else s

/-- The last steps of a task's end: its record's TSTATE, its launch's counts. -/
def removeTask (s : State) (t : Task) (st : EndStatus) : State :=
  let s := setTstate s t.part t.gpa 3
  let s := chargePath s t.part t.region t.launch id
  let s := s.modLaunch t.launch fun l =>
    { l with live := l.live - 1, aborted := l.aborted || st == .aborted, failed := l.failed || st == .failed
             cancelled := l.cancelled || st == .cancelled, edisc := l.edisc + t.edisc, voids := l.voids + t.voids
             fcode := (if l.fcode = 0 then t.fcode else l.fcode), faddr := if l.fcode = 0 then t.faddr else l.faddr }
  { s with fb := { s.fb with
      tasks := s.fb.tasks.filter fun u => !(u.part == t.part && u.gpa == t.gpa)
      ends := s.fb.ends.filter fun e => !(e.part == t.part && e.gpa == t.gpa) } }

/-- Step 6 of R315, and step 7 after it: false while the record or its target waits for residency. Of a task record that
can no longer be read no completion record is written, and event type 5 names it (R398). -/
def recordEnd (s : State) (t : Task) (st : EndStatus) : State × Bool :=
  match fbRead s t.part t.gpa 128 with
  | .wait s => (s, false)
  | .bad _ => (removeTask (queueFault s t.vf t.q 4 t.gpa) t st, true)
  | .ok l =>
    let cmpl := (recOf l).cmpl
    let (s, ok) := if cmpl = 0 then (s, true) else
      writeRecord s t.part t.vf t.q cmpl (completion s (EndStatus.code st) t.fcode 1 t.edisc t.voids t.faddr)
    (if ok then removeTask s t st else s, ok)

/-- Serves one end, steps 4 to 7 of R315 in their order: false while an item of it waits, which holds back nothing
before it (R398). -/
def tryEnd (s : State) (e : EndRec) : State × Bool :=
  match s.taskOf e.part e.gpa with
  | none => ({ s with fb := { s.fb with ends := s.fb.ends.erase e } }, true)
  | some t =>
    let (s, ok) := releaseOnce s t (e.status != .done)
    if !ok then (s, false)
    else
      let s := freeEntries s ((s.taskOf e.part e.gpa).getD t)
      recordEnd s ((s.taskOf e.part e.gpa).getD t) e.status

/-- Serves one of the waiting ends, if one can be served. -/
def serveOne (s : State) : State × Bool :=
  s.fb.ends.foldl (fun (a : State × Bool) e => if a.2 then a else tryEnd a.1 e) (s, false)

/-- Each end is served once; an end may cancel or abort further tasks. -/
def serveEnds : Nat → State → State
  | 0, s => s
  | n + 1, s =>
    let (s, ok) := serveOne s
    if ok then serveEnds n s else s

def Launch.status (l : Launch) : Nat :=
  if l.aborted then 2 else if l.failed then 4 else if l.cancelled then 3 else 1

/-- A launch without live tasks ends: its record, its interrupt (R294, R343); its queue is idle from now on (R305). -/
def endLaunch (s : State) (n : Nat) (l : Launch) : State :=
  let (s, ok) := writeRecord s l.part l.vf l.q l.lcmpl
    (completion s l.status l.fcode l.ntask l.edisc l.voids l.faddr)
  if !ok then s
  else
    let s := if thas s.fb.queues (queueKey l.vf l.q) then s.modQueue l.vf l.q fun q => { q with idleSince := s.dcc } else s
    { s with fb := { s.fb with
        launches := tdel s.fb.launches n, msix := if l.irq then s.fb.msix ++ [(l.vf, l.vec)] else s.fb.msix } }

def serveLaunches (s : State) : State :=
  (s.fb.launches.filter fun p => p.2.live == 0).foldl (fun s p => endLaunch s p.1 p.2) s

/-! ### Teardown's end (R307) -/

/-- The descriptor of a queue: 64 bytes at QTBASE + 64 q (R303, R342). -/
def queueDesc (s : State) (vf q : Nat) : Nat := (s.vf vf).qtbase.toNat + 64 * q

/-- CLOSED is set once every task of the queue's launches has ended. -/
def serveClosed (s : State) : State :=
  s.fb.queues.foldl (fun s (p : Nat × Queue) =>
    let vf := p.1 / 4096
    let q := p.1 % 4096
    if p.2.tdown == 0 || p.2.tdown == 3 || s.fb.launches.any (fun l => l.2.vf == vf && l.2.q == q) then s
    else match (s.vf vf).part with
      | none => s
      | some part =>
        match reach s part (queueDesc s vf q) 64 with
        | .ok =>
          let a := queueDesc s vf q + 0x10
          let w := readGpaNat s part a 8
          (fbWrite s part a (leBytes 8 (w - bits w 2 1 * 4 + 4))).modQueue vf q fun x => { x with tdown := 3 }
        | .waits => askFrames s part (queueDesc s vf q) 64
        | .bad => s) s

/-! ### Waiters for a pending-launch entry, and stalls (R301, R302) -/

def effPrio (s : State) (t : Task) : Nat :=
  (match s.region t.part t.region with | some r => r.prio | none => 0) + min 4 (t.age / 17000000)

/-- R296: the higher effective priority, then the earlier, then the lower GPA. -/
def before (s : State) (t u : Task) : Bool :=
  let p := effPrio s t
  let q := effPrio s u
  q < p || (p == q && (t.order < u.order || (t.order == u.order && t.gpa < u.gpa)))

def insertTask (s : State) (t : Task) : List Task → List Task
  | [] => [t]
  | u :: r => if before s t u then t :: u :: r else u :: insertTask s t r
def sortTasks (s : State) (l : List Task) : List Task := l.foldr (insertTask s) []

def waiters (s : State) : List Task :=
  s.fb.tasks.filter fun t => t.st == .parked && t.event == 2 && !t.met && !ending s t.part t.gpa

/-- A waiter whose whole path has room is woken with an entry reserved; its record's region stands in EADDR. -/
def wakeWaiter (s : State) (t : Task) : State :=
  match makeLive s t.part t.eaddr with
  | .ok s' =>
    if plRoom s' t.part t.eaddr then
      let s := chargeEntry s' t.part t.eaddr t.launch
      let s := s.modTask t.part t.gpa fun t => { t with rsv := true, met := true }
      match s.taskOf t.part t.gpa with
      | some t => becomeReady s t
      | none => s
    else s
  | .wait s => s
  | .bad _ => s

def serveWaiters (s : State) : State := (sortTasks s (waiters s)).foldl wakeWaiter s

/-- A task's region lies in the subtree of another. -/
def inSubtree (s : State) (part region top : Nat) : Bool := (regionPath s part region).any (·.gpa == top)

/-- Regions on whose own PLE a waiter waits. -/
def blockedOn (s : State) (t : Task) : List Nat :=
  match makeLive s t.part t.eaddr with
  | .ok s' => ((regionPath s' t.part t.eaddr).filter fun r =>
      decide ((if r.level = 1 then min r.ple (s.part t.part).ple else r.ple) ≤ r.plu)).map (·.gpa)
  | _ => []

/-- Successor entries for a record among the tasks of a region that are themselves waiting (log 36). -/
def stuckPreds (s : State) (part top gpa : Nat) : Nat :=
  ((s.fb.tasks.filter fun t => t.part == part && inSubtree s part t.region top && !t.treled
      && (t.st == .accepted || t.st == .parked)).map fun t =>
    match fbRead s part t.gpa 128 with
    | .ok l =>
      let r := recOf l
      (match fbRead s part r.succ (8 * r.nsucc) with
       | .ok sl => ((succList sl r.nsucc).filter (· == gpa)).length
       | _ => 0)
    | _ => 0).foldl (· + ·) 0

/-- A task keeps its region from stalling (R302): one that is about to become ready, with PENDC 0 or woken, does too. -/
def keepsGoing (s : State) (top : Nat) (t : Task) : Bool :=
  match t.st with
  | .dispatched | .ready | .saved => true
  | .parked => t.event != 2 || t.met
  | .accepted =>
    match fbRead s t.part (t.gpa + 0x38) 8 with
    | .ok l => bits (leNat l) 0 16 = 0 || stuckPreds s t.part top t.gpa < bits (leNat l) 0 16
    | _ => false

/-- Some task waits on a region's own PLE, and no task of its subtree is known to go on. -/
def stuckRegion (s : State) (part top : Nat) : Bool :=
  (waiters s).any (fun t => t.part == part && (blockedOn s t).contains top)
    && !s.fb.tasks.any fun t => t.part == part && inSubtree s part t.region top && (keepsGoing s top t || ending s part t.gpa)

/-- The records and SUCC lists by which a region is judged: those of the tasks of its subtree that wait. -/
def stallItems (s : State) (part top : Nat) : List (Nat × Nat) :=
  (s.fb.tasks.filter fun t => t.part == part && inSubtree s part t.region top && (t.st == .accepted || t.st == .parked)).flatMap fun t =>
    (t.gpa, 128) :: match fbRead s t.part t.gpa 128 with
      | .ok l => [((recOf l).succ, 8 * (recOf l).nsucc)]
      | _ => []

/-- The firebox has what it needs to judge a region: none of these waits for residency (R398). -/
def judged (s : State) (part top : Nat) : Bool := (stallItems s part top).all fun i => reach s part i.1 i.2 != .waits
def askStall (s : State) (part top : Nat) : State := (stallItems s part top).foldl (fun s i => askFrames s part i.1 i.2) s

def stalled (s : State) (part top : Nat) : Bool := stuckRegion s part top && judged s part top

/-- Tasks parked with EVENT 2 in a region. -/
def parkedIn (s : State) (part top : Nat) : List Task :=
  (waiters s).filter fun t => t.part == part && (blockedOn s t).contains top

/-- A LAUNCH_DEADLOCK handler of the region is running, or its end is being served. -/
def inDeadlock (s : State) (part gpa : Nat) : Bool := (s.region part gpa).any (·.dlock)

/-- Stalls that have not been raised, of every region on whose own PLE a task waits, live or not; what is not resident
is asked for. -/
def raiseStalls (s : State) : State :=
  (((waiters s).flatMap fun t => (blockedOn s t).map fun g => (t.part, g)).eraseDups).foldl (fun s r =>
    if stuckRegion s r.1 r.2 && !judged s r.1 r.2 then askStall s r.1 r.2
    else if !inDeadlock s r.1 r.2 && stalled s r.1 r.2 && !s.due.contains (.launchDeadlock r.1 r.2) then
      s.pushDue (.launchDeadlock r.1 r.2)
    else s) s

/-- Once a LAUNCH_DEADLOCK handler has ended, PLE is read again and the waiters are served; a region that is still
stalled has the launches of its stalled tasks aborted (R302). The read waits for its frame; out of reach it changes
nothing. -/
def serveReread (s : State) : State :=
  s.fb.regions.foldl (fun s r =>
    if !r.reread then s
    else match fbRead s r.part r.gpa 64 with
      | .wait s => s
      | x =>
        let s := match x with
          | .ok l => s.modRegion r.part r.gpa fun q => { q with ple := if (rcbOf l).gives 1 then (rcbOf l).ple else q.ple }
          | _ => s
        let s := serveWaiters s
        if stuckRegion s r.part r.gpa && !judged s r.part r.gpa then askStall s r.part r.gpa
        else
        let s := if stalled s r.part r.gpa then
            (parkedIn s r.part r.gpa).foldl (fun s t => abortLaunch s t.launch 0x30 (BitVec.ofNat 64 r.gpa)) s
          else s
        s.modRegion r.part r.gpa fun q => { q with dlock := false, reread := false }) s

/-! ### The RO fields of regions (R288, R398) -/

def syncRegions (s : State) : State :=
  s.fb.regions.foldl (fun s r =>
    match r.dirty with
    | none => s
    | some n =>
      match reach s r.part (r.gpa + 0x40) 16 with
      | .ok => (writeRo s r).modRegion r.part r.gpa fun r => { r with dirty := none }
      | .waits => askFrames s r.part (r.gpa + 0x40) 16
      | .bad =>
        (abortLaunch s n nonresidentCode (BitVec.ofNat 64 r.gpa)).modRegion r.part r.gpa fun r => { r with dirty := none }) s

/-- Everything that the firebox does of itself after a change (R293, R294, R301, R302). -/
def settle (s : State) : State :=
  let s := serveReread s
  let s := serveEnds (s.fb.tasks.length + s.fb.ends.length) s
  let s := serveClosed (serveLaunches s)
  let s := serveReady (serveWaiters s)
  let s := retireRegions s
  raiseStalls (serveOwed (syncRegions s))

end Sys2Proof.Machine
end

