-- ==== Sys2Proof/Machine/Tasks.lean ====
section
/-!
DEFINITION. The instructions by which a task launches, parks, releases its successors and ends (13 R309-R315), a handler's
return (04 R98, 14 R323), and the end of a task (R315).
-/
set_option autoImplicit false

namespace Sys2Proof.Machine

/-! ### Freeing a hearth -/

/-- A context whose commands, flues and queues are discarded. -/
def Ctx.withoutCommands (c : Ctx) : Ctx := { c with copyq := [], mergeq := [], blowq := [], flues := [], taken := [] }

/-- What a context leaves in its register half when its hearth is freed: the registers, and nothing under way (R315). -/
def Ctx.vacated (c : Ctx) : Ctx :=
  { c.withoutCommands with xq := [], aq := [], defCount := 0, embers := [], seqs := [], amo := .none, acco := none
                           accSent := false, seqWait := none, xbind := none
                           ae := { c.ae with slipWait := false }, xe := { c.xe with slipWait := false } }

/-- A hearth that its context has left: the halves keep their registers; an image under way, scratchpad, tags, poison,
the window table and FFRAME stay (R53, R157, R320). -/
def Hearth.cleared (x : Hearth) : Hearth :=
  { halfH1 := x.halfH1, act := x.act.vacated, ina := x.ina, win := x.win, scratch := x.scratch, tags := x.tags
    poison := x.poison, cacheBad := x.cacheBad, winBad := x.winBad, heldNo := x.heldNo, out := x.out, mapped := x.mapped, ffaddr := x.ffaddr, latch := x.latch }

/-- The context that stands preloaded on a hearth: in the inactive half, after the swap in the active one (R328). -/
def Hearth.preCtx (x : Hearth) : Ctx := if x.run == .free then x.act else x.ina

/-- The image preloaded into the inactive half of a hearth is given up: its slot is as it was (R328), and RUN is
released (R290). -/
def dropPre (s : State) (h : Nat) : State :=
  match (s.hearth h).pre, s.ownerOf h with
  | some i, some p =>
    let c := (s.hearth h).preCtx
    let s := chargePath s c.part c.region (launchOf s c) fun r => { r with run := r.run - 1 }
    let im := tget {} (s.part p).images i
    let s := if im.state = 3 then setImage s p i { im with state := 2 } else s
    s.modHearth h fun x => { x with pre := none }
  | _, _ => s.modHearth h fun x => { x with pre := none }

/-- The context-store slot that a request has reserved is free again (R324, R327). -/
def freeReserve (s : State) (h : Nat) : State :=
  match (s.hearth h).req, s.ownerOf h with
  | some { kind := _, slot := some i, left := _ }, some p =>
    s.modPart p fun x => { x with images := if (tget {} x.images i).state = 0 then tdel x.images i else x.images }
  | _, _ => s

/-- A hearth is left by its context, whose reservation and preload go with it. -/
def vacate (s : State) (h : Nat) : State :=
  let s := dropPre (freeReserve s h) h
  s.setHearth h (s.hearth h).cleared

/-- Frees a hearth: its context is discarded, and RUN is released on the region's path (R290). -/
def freeHearth (s : State) (h : Nat) (c : Ctx) : State :=
  vacate (chargePath s c.part c.region (launchOf s c) fun r => { r with run := r.run - 1 }) h

/-! ### Launching (R311, R312) -/

/-- The task on whose behalf the executing hearth runs: for a fault handler the served one, for a LAUNCH_DEADLOCK
handler none. -/
def launcherOf (s : State) : Option Task :=
  let x := s.me
  match x.serves with
  | .none => s.taskOf x.act.part x.act.task
  | .stopped => s.taskOf x.ina.part x.ina.task
  | .deadlock _ _ => none

/-- What becomes of a record that a task launches. -/
inductive Asked where
  | wait (s : State)
  | accepted (s : State)
  | refused (s : State)
  | full (region : Nat)

/-- A refusal releases the entry reserved for a re-run (R301). -/
def refuseLaunch (s : State) (u : Task) : Asked := .refused (settle (dropReserve s u))

/-- Accepts record `r` for the launcher `u`, on the entry reserved for it if there is one. -/
def takeRecord (s : State) (u : Task) (gpa : Nat) (r : Rec) (die : Nat) : State :=
  let s := if u.rsv then
      let s := if u.eaddr = r.region then s
        else chargeEntry (freeEntry s u.part u.eaddr u.launch) u.part r.region u.launch
      s.modTask u.part u.gpa fun t => { t with rsv := false }
    else chargeEntry s u.part r.region u.launch
  settle (settleTask (acceptTask s u.part gpa r u.launch u.vf u.q die true) u.part gpa)

def askLaunch (s : State) (t : Trn) : Asked :=
  match launcherOf s with
  | none => .refused s
  | some u =>
    if t.ent.remote then refuseLaunch s u
    else match checkRecord s t.part t.gpa with
      | .wait s => .wait s
      | .bad _ => refuseLaunch s u
      | .ok r =>
        match makeLive s t.part r.region with
        | .wait s => .wait s
        | .bad _ => refuseLaunch s u
        | .ok live =>
          if !inSubtree live t.part r.region u.region || (s.launch u.launch).draining || (s.part t.part).busyOp == 0x0E then refuseLaunch s u
          else if u.rsv || plRoom live t.part r.region then .accepted (takeRecord live u t.gpa r (dieOf s.cur))
          else .full r.region

/-- The checks and the boundary that LAUNCH and LAUNCHW share; `full` is what a spent pool makes of the instruction. -/
def launchBody (d s1 : Reg) (s : State) (full : State → Nat → Res) : Res :=
  memReq s (s.reg s1) 128 .read fun t =>
    let (s, ok) := boundary s s.cur s.eng
    if !ok then .wait s false
    else match askLaunch s t with
      | .wait s => .wait s false
      | .accepted s => .done (s.setReg d 0)
      | .refused s => .done (s.setReg d 2)
      | .full region => full s region

def execLaunch (g : Guard) (d : Reg) (s1 : Reg) (s : State) : Out :=
  aInstr g s (launchBody d s1 s fun s _ => .done (s.setReg d 1))

/-! ### Parking (R299, R312, R313) -/

/-- A mask of R299. -/
def maskOk (m : Word) : Bool := m &&& 0x0000FFFEFFFFFFFE#64 == m && popcount m ≤ 16

/-- The registers that a mask names, in ascending bit order: the engine and number of each. -/
def maskRegs (m : Word) : List (Eng × Reg) :=
  (List.range 48).filterMap fun i =>
    if m.getLsbD i then some (if i < 32 then (.a, BitVec.ofNat 5 i) else (.x, BitVec.ofNat 5 (i - 32))) else none

/-- Bytes as the A engine reads them at an instruction that makes no fetch: held stores, the phase cache, memory. -/
def peekBytes (s : State) (t : Trn) (n : Nat) : List Byte × State :=
  let (vis, s) := visibleHeld s t.gpa n
  let (m, s) := readGuest s (dieOf s.cur) t.ent t.gpa n
  ((List.range n).map fun i => (loadByte s.me vis (t.gpa + i)).getD (m.getD i 0), s)

/-- The X engine has finished, or waits in XGET on the empty xq: RESUMEX; none while it runs on. -/
def parkedX (s : State) : Option Word :=
  let c := s.ctx
  let x := c.xe
  if x.done then some 0
  else if x.line ≠ some (lineOf x.pc) || x.slipWait || x.hold then none
  else match decode .x (slotOf x.buf x.pc) with
    | .ok (.xget g _ _) =>
      if c.xq.isEmpty && (match guardMask g x.preds with | some m => runs .x false m | none => false) then some x.pc
      else none
    | _ => none

/-- The continuation record (R299); `ev`, `eaddr` and `cmp` are the words at 0x20, 0x28 and 0x30. -/
def continuation (c : Ctx) (resumeA resumeX mask ev eaddr cmp : Word) : List Byte :=
  let regs := (maskRegs mask).map fun r => c.reg r.1 r.2
  let w (v : Word) : List Byte := leBytes 8 v.toNat
  leBytes 8 c.task ++ w resumeA ++ w resumeX ++ w mask ++ w ev ++ w eaddr ++ w cmp ++ w 0
    ++ (List.range 16).flatMap (fun i => w (regs.getD i 0)) ++ w (c.slipw.setWidth 64) ++ w c.srseed ++ w c.ctxid ++ w c.mseed
    ++ List.replicate 32 0

/-- Operations of a hearth that have been sent and have not landed, merged into another's entry or over the on-chip map
too (R263). -/
def underWay (s : State) (h : Nat) : Bool := (anyOp s fun op => op.src == h || op.more.contains h) || s.ocm.any fun m => m.src == h

/-- A handler's half is discarded and the stopped context is active again (R323). Matrix commands that the handler still
has queued end unrun (DESIGN CHOICE, log 103). -/
def swapBack (s : State) (h : Nat) : State :=
  s.modHearth h fun x =>
    { x with act := x.ina, ina := {}, halfH1 := !x.halfH1, mode := .t, serves := .none, matq := [], stall := false
             stallOn := {}, fetch := none, asks := [], issue := none, winld := none, watchA := none, watchX := none, pg := .none
             trel := none, parkW := none }.breakOff

/-- The end of a LAUNCH_DEADLOCK handler: its hearth is free, and PLE is read again (R302). -/
def endDeadlock (s : State) (h part region : Nat) : State :=
  settle ((vacate s h).modRegion part region fun r => { r with reread := true })

/-- A PARK in a fault handler parks the served task: both halves are left, and what the stopped context still holds of
embers and open ranges goes as by an abort (DESIGN CHOICE, log 59). -/
def leaveServed (s : State) (h : Nat) : State :=
  if (s.hearth h).serves ≠ .stopped then s
  else
    let s := cancelOpen (swapBack s h) h
    let c := (s.hearth h).act
    let (s, e, v) := discardCounts s c
    s.modTask c.part c.task fun t => { t with edisc := t.edisc + e, voids := t.voids + v }

/-- The task that a PARK of a hearth's active context parks; a LAUNCH_DEADLOCK handler has none. -/
def Hearth.parked (x : Hearth) : Nat :=
  match x.serves with
  | .none => x.act.task
  | .stopped => x.ina.task
  | .deadlock _ _ => 0

/-- Step 8 of R313: the hearth is freed and the task parked. `child` is the region whose pool a LAUNCHW found spent. -/
def parkTask (s : State) (gpa : Nat) (ev cond : Nat) (eaddr : Nat) (cmp : Word) : State :=
  let h := s.cur
  match s.me.serves with
  | .deadlock part region => endDeadlock s h part region
  | _ =>
  let s := leaveServed s h
  let c := s.ctx
  let s := freeHearth s h c
  match s.taskOf c.part c.task with
  | none => s
  | some t =>
    let t := { t with st := .parked, cont := some gpa, event := ev, cond := cond, eaddr := eaddr, cmp := cmp
                      metFor := 0, age := 0, order := s.dcc.toNat }
    let t := { t with met := ev == 0 || (ev == 1 && parkHolds s t) }
    let s := s.modTask c.part c.task fun _ => t
    settle (if t.met then becomeReady s t else s)

/-- Steps 5 to 8 of R313 for a PARK that has passed its checks: it waits, with what it has read and translated, until
the hearth is quiet, and then writes the record and parks. -/
def parkGo (s : State) (p : ParkWait) : Res :=
  let stay (s : State) : Res := .wait (s.setMe { s.me with parkW := some p }) false
  match parkedX s with
  | none => stay s
  | some rx =>
    if !s.me.act.copyq.isEmpty || !s.me.matq.isEmpty then stay s
    else
      let (s, flushed) := flushEmbers s s.cur
      if !flushed then stay s
      else
        let (s, ok) := boundary s s.cur .a
        if !ok || underWay s s.cur then stay s
        else
          let s := noteParked (writeFrame s s.ctx.part ((s.stage2 s.ctx.part (p.gpa / frameSize)).getD p.ent) p.gpa (continuation { s.ctx with task := s.me.parked } p.resume rx p.mask p.ev p.eaddr p.cmp))
          .stay (parkTask s p.gpa (bits p.ev.toNat 0 2) (bits p.ev.toNat 2 2) (p.child.getD p.watch) p.cmp)

/-- PARK at continuation x, and the park of a LAUNCHW, whose event is the pool of region `child` (R312, R313): there the
event word that the continuation holds is replaced whole, its reserved bits untested (DESIGN CHOICE, log 91). -/
def parkAt (s : State) (x mask resume : Word) (child : Option Nat) : Res :=
  req s (x.toNat % 256 == 0) .align x <|
    match translate s s.cur .both x with
    | .error c => trapTrn s c x
    | .ok t =>
      let (l, s) := peekBytes s t 256
      let w (o : Nat) : Nat := field l o 8
      let evw := if child.isSome then 2 else w 0x20
      let ev := bits evw 0 2
      let c := s.ctx
      req s (maskOk mask && (child.isSome || ev < 2) && bits evw 4 60 == 0 && w 0x38 == 0
          && (List.range 4).all (fun i => w (0xE0 + 8 * i) == 0)
          && !((List.range 32).any fun n => (c.flue n).opened) && c.xq.isEmpty && c.aq.isEmpty && c.defCount == 0
          && !((List.range 16).any fun q => (c.seq q).opened) && isSlot resume) .parkState x <|
        let ea := BitVec.ofNat 64 (w 0x28)
        let cell (o : Nat) : Word := BitVec.ofNat 64 (if child.isSome then 0 else w o)
        let park (watch : Nat) : Res :=
          match c.heldSlots with
          | n :: _ => .trap s .guardMisuse (BitVec.ofNat 64 n)
          | [] => parkGo s { gpa := t.gpa, ent := t.ent, mask := mask, resume := resume, ev := BitVec.ofNat 64 evw
                             eaddr := cell 0x28, cmp := cell 0x30, watch := watch, child := child }
        if ev = 1 then
          match translate s s.cur .read ea with
          | .error code => trapTrn s code ea
          | .ok e => req s (ea.toNat % 8 == 0) .align ea (park e.gpa)
        else park 0

/-- A PARK, or the park of a LAUNCHW, that waits goes on; what else it does is `k` (R313). -/
def parkOr (s : State) (k : Res) : Res :=
  match s.me.parkW with
  | some p => parkGo (s.setMe { s.me with parkW := none }) p
  | none => k

def execPark (g : Guard) (s1 s2 : Reg) (b : Reg) (s : State) : Out :=
  aInstr g s (parkOr s (parkAt s (s.reg s1) (s.reg s2) (s.breg b) none))

def execLaunchw (g : Guard) (d : Reg) (s1 s2 s3 : Reg) (s : State) : Out :=
  aInstr g s (parkOr s (launchBody d s1 s fun s region => parkAt s (s.reg s2) (s.reg s3) s.pc (some region)))

/-- PARK_WAKE: a parked task whose condition a landing has satisfied becomes ready (R299); a word in a peer package is
watched there (log 8). -/
def execParkWake (part gpa : Nat) (s : State) : Out :=
  .next <| match s.taskOf part gpa with
    | none => s
    | some t =>
      let remote := match s.stage2 part (t.eaddr / frameSize) with | some e => e.remote | none => false
      if t.st = .parked ∧ t.event = 1 ∧ !ending s part gpa ∧ (t.met || parkHolds s t || remote) then
        becomeReady s { t with met := true }
      else s

/-! ### TREL (R314) -/

/-- TREL waits for the commands that both engines issued before it, which are those of the units, the matrix commands
counted, and whatever the hearth has sent, then releases the task's successors once. -/
def execTrel (g : Guard) (s : State) : Out :=
  aInstr g s <|
    let left := s.me.trel.getD s.me.matq.length
    let s := s.setMe { s.me with trel := some left }
    if !s.ctx.copyq.isEmpty || !s.ctx.mergeq.isEmpty || !s.ctx.blowq.isEmpty || left ≠ 0 then .wait s false
    else
      let (s, flushed) := flushEmbers s s.cur
      if !flushed then .wait s false
      else
        let (s, ok) := boundary s s.cur .a
        if !ok || underWay s s.cur then .wait s false
        else
          let s := s.setMe { s.me with trel := none }
          match launcherOf s with
          | none => .done s
          | some t =>
            if t.treled then .done s
            else
              let (s, ok) := releaseOnce s t false
              if ok then .done (settle s) else .wait s false

/-! ### DONE (R315) and SRET (R98, R323) -/

/-- What DONE in a fault handler leaves of the served context's commands (R315, R372, R377, log 37): its flues are
discarded, and with them every command on a flue; the command that met the fault and those held on a guard slot end too.
The other copies go on. -/
def withoutServed (c : Ctx) : Ctx :=
  let keep (i : Nat) : Bool := !(c.frame.qv && c.frame.qent.toNat == i)
  let q := (List.range c.copyq.length).filterMap fun i => if keep i then c.copyq[i]? else none
  { c with copyq := q.filter fun k => k.op == 0x61 && !k.held, mergeq := [], blowq := [], taken := []
           flues := c.flues.map fun f => (f.1, { f.2 with active := false, stopped := false, drop := false }) }

/-- DONE in a fault handler (R315): the handler's half goes, and steps 1 to 7 apply to the served context; its task will
end FAILED with the fault's code. -/
def failServed (s : State) (h : Nat) : State :=
  let s := cancelOpen (swapBack s h) h
  let c := (s.hearth h).act
  let s := s.modTask c.part c.task fun t => { t with fcode := c.frame.code, faddr := c.frame.faddr }
  let s := startDone (startDone s h .a) h .x
  (s.modHearth h fun x =>
    let x := resumeUnits { x with run := .ending, fault := none, act := withoutServed x.act }
    { x with act := { x.act with failed := true, amo := .none, acco := none } }).pushDue (.taskEnd h)

/-- A LAUNCH_DEADLOCK handler ends alone (R302): its hearth takes steps 1 to 3 of R315 (R254). -/
def endHandler (s : State) (h : Nat) : State :=
  let s := cancelOpen s h
  let s := startDone (startDone s h .a) h .x
  (s.modHearth h fun x => { x with run := .ending }.breakOff).pushDue (.taskEnd h)

/-- What follows a DONE of the executing engine (R315). -/
def afterDone (s : State) : State :=
  let h := s.cur
  let x := s.me
  match x.run, x.serves with
  | .handler, .stopped => failServed s h
  | .handler, .deadlock _ _ => endHandler s h
  | .running, _ =>
    if x.act.ae.done && x.act.xe.done then (s.setHearth h { x with run := .ending }).pushDue (.taskEnd h) else s
  | _, _ => s

/-- DONE (R91, R315): GUARD_MISUSE while a command is held on a slot of the executing context. What the context that a
handler serves holds there ends with it (DESIGN CHOICE, log 37). -/
def execDone (g : Guard) (s : State) : Out :=
  common g s <| match s.ctx.heldSlots with
    | n :: _ => .trap s .guardMisuse (BitVec.ofNat 64 n)
    | [] => .stay (afterDone (s.setEs { s.es with done := true }))

/-- Both engines of a handler have executed SRET (R98, R323). -/
def handlerReturn (s : State) (h : Nat) (ta tx : Word) : State :=
  match (s.hearth h).serves with
  | .deadlock _ _ => endHandler s h
  | _ => goOn (swapBack s h) h .t ta tx

def execSret (g : Guard) (b : Reg) (s : State) : Out :=
  privileged g .s s <|
    let t := s.breg b
    match s.me.mode with
    | .h => .jump s t
    | _ =>
      let s := s.setEs { s.es with sret := some t }
      match s.ctx.ae.sret, s.ctx.xe.sret with
      | some ta, some tx => .stay (handlerReturn s s.cur ta tx)
      | _, _ => .stay s

/-! ### TASK_END (R315) -/

/-- Steps 1 and 2: embers flushed, slots closed, commands ended, everything written landed. -/
def finishWork (s : State) (h : Nat) : State × Bool :=
  let (s, flushed) := flushEmbers s h
  let c := (s.hearth h).act
  let (s, closed) := match (List.range 16).find? fun q => (c.seq q).opened with
    | some q => ((closeRound s h q).1, false)
    | none => (s, c.seqWait.isNone)
  let x := s.hearth h
  if !flushed || !closed || !x.act.copyq.isEmpty || !x.act.mergeq.isEmpty || !x.act.blowq.isEmpty || !x.matq.isEmpty then
    (s, false)
  else
    let (s, ok) := boundary s h .a
    (s, ok && !underWay s h)

/-- Steps 4 and 5 of R315 for the context of a hearth: its task's successors are released, and the hearth is freed;
while an item of step 4 waits (R398), so does step 5. -/
def endContext (s : State) (h : Nat) (c : Ctx) : State :=
  let (s, ok) := match s.taskOf c.part c.task with
    | some t => releaseOnce s t c.failed
    | none => (s, true)
  if !ok then s
  else
    let lost := ((List.range 16).map fun q => (c.seq q).voidcnt.toNat).foldl (· + ·) 0
    let s := freeHearth s h c
    let s := s.modTask c.part c.task fun t => { t with voids := t.voids + lost }
    settle (pushEnd s c.part c.task (if c.failed then .failed else .done))

/-- TASK_END: one round of R315 for a hearth whose task has executed DONE. -/
def execTaskEnd (h : Nat) (s : State) : Out :=
  .next <|
    let x := s.hearth h
    if x.run ≠ .ending || !unitsRun s h then s
    else
      let (s, ok) := finishWork s h
      if !ok then s
      else
        let c := (s.hearth h).act
        match x.serves with
        | .deadlock part region => endDeadlock s h part region
        | _ => endContext s h c

end Sys2Proof.Machine
end

