-- ==== Sys2Proof/Machine/Placing.lean ====
section
/-!
DEFINITION. Choosing a task for a hearth, dispatch, and dispatch from a continuation (13 R296-R300).
-/
set_option autoImplicit false

namespace Sys2Proof.Machine

/-! ### Choosing (R296, R297, R345) -/

/-- The virtual function of a partition that is current (R345). -/
def currentVf (s : State) (part : Nat) : Nat := (s.part part).cur

/-- A launch may start (R306): it has started, or its queue's previous launch has ended, or started under OVERLAP. -/
def launchMayStart (s : State) (n : Nat) : Bool :=
  let l := s.launch n
  l.started || (match l.pred with
    | none => true
    | some p => !thas s.fb.launches p || (l.overlap && (s.launch p).started))

/-- Tasks in a die's ready pool of 4,096; the others are held in memory, with no difference for their dispatch (R295).
-/
def poolCount (s : State) (die : Nat) : Nat := min 4096 (s.fb.tasks.filter fun t => t.st == .ready && t.die == die).length

/-- A saved context whose image is complete, or a ready task, in the pool or held in memory (R295). -/
def startable (s : State) (t : Task) : Bool :=
  let st := match t.st with
    | .ready => true
    | .saved => (match t.slot with
      | some i => (tget {} (s.part t.part).images i).state == 2
      | none => false)
    | _ => false
  st && !ending s t.part t.gpa && t.vf == currentVf s t.part && !(s.vf t.vf).paused && launchMayStart s t.launch
    && pathRoom s t.part t.region fun r => r.run < r.hcap

/-- The free hearths of a partition on a die: no image is under way from or into their inactive halves (R53). -/
def freeHearths (s : State) (part die : Nat) : List Nat :=
  (List.range 192).filter fun h => dieOf h == die && s.ownerOf h == some part && (s.hearth h).run == .free
    && (s.hearth h).out.isNone && (s.hearth h).pre.isNone

/-- What the firebox reads to dispatch or resume a task: the record, the continuation, the window image, and the OPS
images once the record can be read (R298, R300). -/
def dispatchItems (s : State) (t : Task) : List (Nat × Nat) :=
  let image := (match s.region t.part t.region with | some r => r.winimg | none => 0, 4096)
  if t.st = .saved then [image]
  else (t.gpa, 128) :: t.cont.toList.map (·, 256) ++ image :: match fbRead s t.part t.gpa 128 with
    | .ok l => [((recOf l).ops, 128 * (recOf l).nop)]
    | _ => []

/-- An item of a task's dispatch waits for residency, and none before it is out of reach (R398). -/
def itemsWait (s : State) (t : Task) : Bool :=
  ((dispatchItems s t).map fun i => reach s t.part i.1 i.2).find? (· != .ok) == some .waits

/-- The startable tasks of a partition for the firebox of a die, in its order: the native ones, then those of the other
die where that die has no free hearth (R296). -/
def candidates (s : State) (part die : Nat) : List Task :=
  let all := sortTasks s (s.fb.tasks.filter fun t => t.part == part && startable s t)
  all.filter (·.die == die) ++ all.filter fun t => t.die != die && (freeHearths s part t.die).isEmpty

/-- The task that the firebox of a die dispatches next for a partition: one that waits for an item is passed by, and the
firebox goes on with the others (R296, R398). -/
def nextTask (s : State) (part die : Nat) : Option Task := (candidates s part die).find? (!itemsWait s ·)

/-- The items of the tasks that are passed by are asked for (R398). -/
def askPassed (s : State) (h : Nat) : State :=
  match s.ownerOf h with
  | some part =>
    if s.pw.cur ≠ 0 || s.pw.trans != .none || !(freeHearths s part (dieOf h)).contains h then s
    else ((candidates s part (dieOf h)).takeWhile (itemsWait s)).foldl (fun s t =>
      (dispatchItems s t).foldl (fun s i => askFrames s part i.1 i.2) s) s
  | none => s

/-- Distance of a hearth from a place on its die (R297). -/
def distance (h : Nat) (p : Nat × Nat) : Nat :=
  let d (a b : Nat) : Nat := (a - b) + (b - a)
  d (h % 96 / 8) p.1 + d (h % 8) p.2

/-- The hearth nearest a task's place; ties go to the lowest id. -/
def nearest (l : List Nat) (t : Task) (die : Nat) : Option Nat :=
  let cost (h : Nat) : Nat := match t.place with | some p => if t.die = die then distance h p else 0 | none => 0
  l.foldl (fun b h => match b with
    | none => some h
    | some g => if cost h < cost g then some h else some g) none

/-- The task that is placed on hearth h now. -/
def chosenFor (s : State) (h : Nat) : Option Task :=
  if s.pw.cur ≠ 0 || s.pw.trans != .none then none
  else match s.ownerOf h with
    | none => none
    | some part =>
      match nextTask s part (dieOf h) with
      | none => none
      | some t => if nearest (freeHearths s part (dieOf h)) t (dieOf h) = some h then some t else none

/-! ### Dispatch (R298) -/

/-- A dispatch or resume that runs nothing: the domain counts the fault, the task ends ABORTED and its launch is
aborted. -/
def failDispatch (s : State) (t : Task) (code : FaultCode) (addr : Word) : State :=
  let c := FaultCode.code code
  let s := match domainOf s t.part t.region with
    | some r => countFault s r t.launch
    | none => s
  let s := s.modTask t.part t.gpa fun t => { t with fcode := c, faddr := addr }
  let s := if t.st = .saved then s else pushEnd s t.part t.gpa .aborted
  settle (abortLaunch s t.launch c addr)

/-- The window table of a region's effective WINIMG, read and checked. -/
def windowsFor (s : State) (part winimg : Nat) (fail : FaultCode → Word → State) (k : Tbl (BitVec 128) → State) : State :=
  match fbRead s part winimg 4096 with
  | .wait s => s
  | .bad a => fail .nonresident (BitVec.ofNat 64 a)
  | .ok l =>
    match checkWindows (windowImage l) with
    | .error n => fail .windowConflict (BitVec.ofNat 64 (winimg + 16 * n))
    | .ok t => k t

/-- The descriptor images of a record, read and checked (R163, R165). -/
def operandsFor (s : State) (part : Nat) (r : Rec) (fail : FaultCode → Word → State) (k : Tbl (BitVec 1024) → State) : State :=
  match fbRead s part r.ops (128 * r.nop) with
  | .wait s => s
  | .bad a => fail .nonresident (BitVec.ofNat 64 a)
  | .ok l =>
    let ds := (List.range r.nop).map fun n => (n, BitVec.ofNat 1024 (leNat ((l.drop (128 * n)).take 128)))
    match ds.find? fun d => !(tdesc d.2).valid with
    | some (n, _) => fail .tdesc (BitVec.ofNat 64 n)
    | none => k ds

/-- RUN is charged on a task's path: its context comes to a register half (R290). -/
def chargeRun (s : State) (t : Task) : State := chargePath s t.part t.region t.launch fun r => { r with run := r.run + 1 }

/-- A task is dispatched or resumed: its launch has started (R306). -/
def taskStarts (s : State) (t : Task) : State :=
  let s := s.modLaunch t.launch fun l => { l with started := true }
  s.modTask t.part t.gpa fun t => { t with st := .dispatched, slot := none }

/-- A context starts on a free hearth: the table is loaded, RUN charged, and the halves swapped, so that the half that
was active keeps what it held (R53, R298). -/
def occupy (s : State) (h : Nat) (t : Task) (win : Tbl (BitVec 128)) (c : Ctx) : State :=
  let s := loadWindows s h t.part win
  let x := (s.hearth h).cleared
  let s := s.setHearth h { x with run := .running, mode := .t, halfH1 := !x.halfH1, act := c.unmarked, ina := x.act }
  taskStarts (chargeRun s t) t

/-- The fields of a context that name its task. -/
def Ctx.forTask (c : Ctx) (s : State) (t : Task) : Ctx :=
  { c with part := t.part, vf := t.vf, task := t.gpa, region := t.region, queue := t.q
           ea := match s.region t.part t.region with | some r => r.ea | none => 0 }

/-- Starts the engines; a slot of 0 is an engine that has executed DONE. -/
def startEngines (s : State) (h : Nat) (a x : Word) : State :=
  let s := if a = 0 then startDone s h .a else startEngine s h .a a
  let s := if x = 0 then startDone s h .x else startEngine s h .x x
  if a = 0 && x = 0 then (s.modHearth h fun y => { y with run := .ending }).pushDue (.taskEnd h) else s

def winimgOf (s : State) (t : Task) : Nat := match s.region t.part t.region with | some r => r.winimg | none => 0

def dispatchFresh (s : State) (h : Nat) (t : Task) : State :=
  let fail := failDispatch s t
  match fbRead s t.part t.gpa 128 with
  | .wait s => s
  | .bad a => fail .nonresident (BitVec.ofNat 64 a)
  | .ok l =>
    let r := recOf l
    windowsFor s t.part (winimgOf s t) fail fun win =>
      operandsFor s t.part r fail fun tds =>
        let id := s.fb.ctxid + 1
        let s : State := { s with fb := { s.fb with ctxid := id } }
        let c := (((Ctx.fresh id).args r.args).forTask s t)
        let s := occupy s h t win { c with td := tds }
        let s := setTstate s t.part t.gpa 2
        -- A starts at its entry slot whatever it is; only ENTRYX may be 0 (R292)
        let s := startEngine s h .a r.entryA
        if r.entryX = 0 then startDone s h .x else startEngine s h .x r.entryX

/-- DISPATCH: a fresh task is placed on hearth h. -/
def execDispatch (h : Nat) (s : State) : Out :=
  .next <| match chosenFor s h with
    | some t => if t.st = .ready ∧ t.cont.isNone then dispatchFresh (askPassed s h) h t else askPassed s h
    | none => askPassed s h

/-! ### Parked dispatch (R300) -/

/-- The registers that a continuation carries. -/
def Ctx.fromCont (c : Ctx) (l : List Byte) : Ctx :=
  let w (o : Nat) : Word := BitVec.ofNat 64 (field l o 8)
  let regs := maskRegs (w 0x18)
  let c := (List.range regs.length).foldl (fun c i =>
    match regs[i]? with
    | some r => c.setReg r.1 r.2 (w (0x40 + 8 * i))
    | none => c) c
  { c with slipw := (w 0xC0).setWidth 12, srseed := nonzeroSeed freshSrSeed (w 0xC8), ctxid := w 0xD0
           mseed := nonzeroSeed freshMSeed (w 0xD8) }

def dispatchParked (s : State) (h : Nat) (t : Task) (cont : Nat) : State :=
  let fail := failDispatch s t
  match fbRead s t.part t.gpa 128, fbRead s t.part cont 256 with
  | .ok l, .ok k =>
    let r := recOf l
    windowsFor s t.part (winimgOf s t) fail fun win =>
      operandsFor s t.part r fail fun tds =>
        let c := (((Ctx.fresh 0).args r.args).forTask s t).fromCont k
        let s := occupy s h t win { c with td := tds }
        let s := setTstate s t.part t.gpa 2
        let s := s.modTask t.part t.gpa fun t => { t with cont := none, met := false }
        startEngines s h (BitVec.ofNat 64 (field k 8 8)) (BitVec.ofNat 64 (field k 0x10 8))
  | .wait s, _ => s
  | _, .wait s => s
  | .bad a, _ => fail .nonresident (BitVec.ofNat 64 a)
  | _, .bad a => settle (abortLaunch s t.launch nonresidentCode (BitVec.ofNat 64 a))

/-- PARKED_DISPATCH: a task that was parked is placed on hearth h. -/
def execParkedDispatch (h : Nat) (s : State) : Out :=
  .next <| match chosenFor s h with
    | some t =>
      match t.cont with
      | some k => if t.st = .ready then dispatchParked (askPassed s h) h t k else askPassed s h
      | none => askPassed s h
    | none => askPassed s h

end Sys2Proof.Machine
end

