-- ==== Sys2Proof/Machine/Stops.lean ====
section
/-!
DEFINITION. Stops and their routes, handlers, pre-emption, saves, resumes and aborts (14 R317-R330, 04 R95, 13 R302), and
snapshots (R332, R333).
-/
set_option autoImplicit false

namespace Sys2Proof.Machine

/-! ### Aborts (R325) -/

/-- The start of an abort: the units end at element boundaries without completions, held stores are discarded, a
handler's half goes, and the entries in flight are still to be answered (R317). -/
def beginAbort (s : State) (h : Nat) : State :=
  let s := stopUnits s h
  let s := if (s.hearth h).serves == .stopped then swapBack s h else s
  let s := cancelOpen s h
  (s.modHearth h fun x => { x with run := .aborting, held := [], pcache := [], act := x.act.withoutCommands }).pushDue
    (.contextAbort h)

/-- An abort of the context on a hearth with the launch that it belongs to, for a fault (R291, R321). -/
def abortHere (s : State) (h : Nat) (code : BitVec 8) (addr : Word) : State :=
  let x := s.hearth h
  let c := if x.serves == .stopped then x.ina else x.act
  let n := launchOf s c
  let s := s.modTask c.part c.task fun t => { t with fcode := code, faddr := addr }
  let s := beginAbort s h
  settle (abortLaunch s n code addr)

/-- Both engines have stopped at a YIELD or finished, and not both finished (R95). -/
def atRest (x : Hearth) : Bool :=
  let r (g : EngState) : Bool := g.done || g.stopped
  r x.act.ae && r x.act.xe && !(x.act.ae.done && x.act.xe.done)

/-- A hearth counts this tick: the package runs, and its partition is not gated in it (R353, R357). -/
def counts (s : State) (h : Nat) : Bool := s.pw.cur == 0 && !gatedAt s h

/-- CONTEXT_ABORT (R325): an ABORT request takes effect, and the abort ends once no ember is in flight and everything
that the context has sent has landed (R263). -/
def execContextAbort (h : Nat) (s : State) : Out :=
  .next <|
    let x := s.hearth h
    if !counts s h then s
    else match x.run, x.req with
    | .aborting, _ =>
      let c := x.act
      if (c.embers.any fun p => p.2.state == .inflight) || underWay s h then s
      else
        let (s, e, v) := discardCounts s c
        match x.serves with
        | .deadlock part region =>
          settle ((vacate s h).modRegion part region fun r => { r with dlock := false, reread := false })
        | _ =>
          let s := freeHearth s h c
          let s := s.modTask c.part c.task fun t => { t with edisc := t.edisc + e, voids := t.voids + v }
          settle (if (s.taskOf c.part c.task).isSome then pushEnd s c.part c.task .aborted else s)
    | .running, some r | .handler, some r => if r.kind = .abort && (atRest x || r.left == 0) then beginAbort s h else s
    | .stopped, some r => if r.kind = .abort then beginAbort s h else s
    | _, _ => s

/-! ### Routing a fault (R321) -/

/-- A fault of a LAUNCH_DEADLOCK handler: the launches of the stalled region's parked tasks are aborted (R24). -/
def abortDeadlock (s : State) (h part region : Nat) (code : BitVec 8) (addr : Word) : State :=
  settle (beginAbort ((parkedIn s part region).foldl (fun s t => abortLaunch s t.launch code addr) s) h)

/-- The event of a MACHINE_CHECK, in whichever mode it was raised (R349). -/
def checkEvent (s : State) (h : Nat) (f : Frame) : State :=
  if f.code = FaultCode.code .machineCheck then
    postEvent s 4 0 (match s.ownerOf h with | some p => (s.part p).handle | none => 0) f.faddr.toNat 0
  else s

def routeFault (s : State) (h : Nat) : State :=
  let x := s.hearth h
  let f := x.act.frame
  let s := checkEvent s h f
  if f.smode then
    match x.serves with
    | .deadlock part region => abortDeadlock s h part region f.code f.faddr
    | _ => abortHere s h f.code f.faddr
  else if f.code = FaultCode.code .replicaWrite then s.pushDue (.replicaCollapse h)
  else if f.code = FaultCode.code .machineCheck then abortHere s h f.code f.faddr
  else match domainOf s x.act.part x.act.region with
    | some r => (countFault s r (launchOf s x.act)).pushDue (.handlerEntry h)
    | none => abortHere s h f.code f.faddr

/-- HEARTH_STOP (R317, R319, R321). A fault that meets a save whose engines have both stopped goes into the image with
KIND 2 (R325). -/
def execHearthStop (h : Nat) (s : State) : Out :=
  .next <|
    let x := s.hearth h
    if x.run ≠ .stopping || !counts s h then s
    else
      let late := atRest x && x.mode == .t && (match x.req with | some r => r.kind == .save | none => false)
      let s := stopUnits (s.modHearth h trapStep) h
      let f := frameOf s h (if late then 2 else 0)
      let s := s.modHearth h fun x => { x with act := { x.act with frame := f }, fault := none }
      if late then (s.modHearth h fun x => { x with run := .saving }).pushDue (.contextSave h)
      else routeFault (s.modHearth h fun x => { x with run := .stopped }) h

/-! ### Handlers (R320, R322) -/

/-- The registers of a handler: a1-a4 and, in a5-a8, ARG4-ARG7; k1-k8 are ARG0-ARG7. -/
def handlerArgs (c : Ctx) (a1 a2 a3 a4 : Word) (args : List Word) : Ctx :=
  let c := c.args args
  (((c.setReg .a 1 a1).setReg .a 2 a2).setReg .a 3 a3).setReg .a 4 a4

def handlerStart (s : State) (h : Nat) (r : Rec) (a x : Word) : State :=
  let s := if r.entryA = 0 then startSret s h .a a else startEngine s h .a r.entryA
  let s := if r.entryX = 0 then startSret s h .x x else startEngine s h .x r.entryX
  if r.entryA = 0 && r.entryX = 0 then handlerReturn s h a x else s

/-- FFRAME (R320). -/
def frameAddr (h : Nat) : Word := BitVec.ofNat 64 (h * 2 ^ 22 + 0x201C00)

def enterHandler (s : State) (h : Nat) (r : Rec) : State :=
  let s := dropPre s h
  let x := s.hearth h
  let old := x.act
  let f := old.frame
  let c := handlerArgs (Ctx.fresh old.ctxid) (frameAddr h) (f.code.setWidth 64) f.faddr old.ctxid r.args
  let b (v : Word) : Tbl Word := [(0, v)]
  let c := { c with part := old.part, vf := old.vf, ea := old.ea, task := noGpa, region := noGpa
                    ae := { c.ae with b := b f.aslot, seen := old.ae.seen }
                    xe := { c.xe with b := b f.xslot, seen := old.xe.seen } }
  let s := s.setHearth h { x with act := c, ina := old, halfH1 := !x.halfH1, mode := .s, run := .handler, serves := .stopped
                                  fault := none, ffaddr := frameAddr h }
  handlerStart s h r f.aslot f.xslot

/-- HANDLER_ENTRY (R322): a record that cannot be read aborts the launch with the original fault (R398). An image that
is still written from the inactive half is waited for (R53). Reserved fields of the record that are not zero are ignored
(DESIGN CHOICE, log 91). -/
def execHandlerEntry (h : Nat) (s : State) : Out :=
  .next <|
    let x := s.hearth h
    let f := x.act.frame
    if x.run ≠ .stopped ∨ f.smode ∨ f.code = 0 ∨ !counts s h ∨ x.out.isSome then s
    else match domainOf s x.act.part x.act.region with
      | none => abortHere s h f.code f.faddr
      | some d =>
        match fbRead s x.act.part d.handler 128 with
        | .wait s => s
        | .bad _ => abortHere s h f.code f.faddr
        | .ok l => enterHandler s h (recOf l)

/-! ### LAUNCH_DEADLOCK (R302) -/

/-- Without a handler to run, the launches of the stalled tasks are aborted (R291). -/
def abortStalled (s : State) (part region : Nat) : State :=
  settle ((parkedIn s part region).foldl (fun s t => abortLaunch s t.launch 0x30 (BitVec.ofNat 64 region)) s)

/-- The handler of domain d for a stall of region `top`: the domain counts the fault as it is handed over. -/
def deadlockHandler (s : State) (h : Nat) (d top : Region) (r : Rec) (n : Nat) (vf : Nat) : State :=
  let part := top.part
  let region := top.gpa
  let fail (_ : FaultCode) (_ : Word) : State := abortStalled (countFault s d 0) part region
  windowsFor s part top.winimg fail fun win =>
    operandsFor s part r fail fun tds =>
      let s := countFault s d 0
      let id := s.fb.ctxid + 1
      let s : State := { s with fb := { s.fb with ctxid := id } }
      let c := (Ctx.fresh id).args r.args
      let c := ((c.setReg .a 1 0x30).setReg .a 2 (BitVec.ofNat 64 region)).setReg .a 3 (BitVec.ofNat 64 n)
      let s := loadWindows s h part win
      let x := (s.hearth h).cleared
      let s := s.setHearth h { x with
        run := .handler, mode := .s, serves := .deadlock part region, halfH1 := !x.halfH1, ina := x.act
        act := { c with td := tds, part := part, vf := vf, ea := top.ea, task := noGpa, region := noGpa } }
      let s := s.modRegion part region fun r => { r with dlock := true }
      handlerStart s h r 0 0

/-- LAUNCH_DEADLOCK: a stalled region's fault domain gets a handler, outside every budget, on a free hearth. A region
that is not live becomes live for it. The handler reads the GTIME and STOLEN of the first parked task's function, and of
function 0 where there is none (DESIGN CHOICE, log 95). -/
def execLaunchDeadlock (part region : Nat) (s : State) : Out :=
  .next <| match makeLive s part region with
    | .wait t => t
    | .bad _ => s
    | .ok t =>
      if inDeadlock t part region || !stalled t part region || s.pw.cur != 0 || s.pw.trans != .none then s
      else match domainOf t part region with
        | none => abortStalled t part region
        | some d =>
          match fbRead t part d.handler 128 with
          | .wait t => t
          | .bad _ => abortStalled (countFault t d 0) part region
          | .ok l =>
            match freeHearths s part 0 ++ freeHearths s part 1 with
            | [] => s
            | h :: _ =>
              let ts := parkedIn t part region
              let vf := match ts with | u :: _ => u.vf | [] => 0
              deadlockHandler t h d ((t.region part region).getD {}) (recOf l) ts.length vf

/-! ### Pre-emption requests (R95, R324, R327) -/

/-- The lowest free slot of a partition's context store. -/
def freeSlot (p : Part) : Option Nat := (List.range p.csn).find? fun i => !thas p.images i

/-- A request recorded at a hearth; for a SAVE one slot is reserved. -/
def recordReq (s : State) (h : Nat) (k : ReqKind) : State :=
  match k with
  | .abort => (freeReserve s h).modHearth h fun x => { x with req := some { kind := .abort } }
  | .save =>
    match s.ownerOf h with
    | none => s
    | some p =>
      match freeSlot (s.part p) with
      | none => s
      | some i =>
        (s.modPart p fun x => { x with images := tput x.images i { reserved := true } }).modHearth h fun x =>
          { x with req := some { kind := .save, slot := some i } }

/-- What takes effect at once when both engines already rest. -/
def pushReq (s : State) (h : Nat) : State :=
  let x := s.hearth h
  match x.req with
  | none => s
  | some r =>
    if atRest x || (x.run == .stopped && r.kind == .abort) then
      s.pushDue (match r.kind with | .save => .contextSave h | .abort => .contextAbort h)
    else s

def execPreemptRequest (h : Nat) (k : ReqKind) (s : State) : Out :=
  .next <|
    let x := s.hearth h
    match x.run with
    | .running | .handler | .stopping | .stopped =>
      match x.serves, k with
      | .deadlock _ _, .save => s
      | _, _ =>
        if x.ended then s
        else match x.req, k with
        | some r, .save => if r.kind = .save then s else s
        | some r, .abort => if r.kind = .abort then s else pushReq (recordReq s h .abort) h
        | none, k => pushReq (recordReq s h k) h
    | .saving =>
      match k, x.req with
      | .abort, some { kind := _, slot := some i, left := _ } =>
        let p := (s.ownerOf h).getD 0
        setImage s p i { tget {} (s.part p).images i with discard := true }
      | .abort, some r => s.modHearth h fun x => { x with req := some { r with kind := .abort } }
      | _, _ => s
    | .banked =>
      match k with
      | .abort => beginAbort (recordReq s h .abort) h
      | .save =>
        let s := recordReq s h .save
        if (s.hearth h).pending then (s.modHearth h fun x => { x with run := .saving }).pushDue (.contextSave h) else s
    | _ => s

/-- PREEMPT_DEADLINE (R95, R325): the engines are stopped where they stand. -/
def execPreemptDeadline (h : Nat) (s : State) : Out :=
  .next <|
    let x := s.hearth h
    match x.run, x.req with
    | .running, some r | .handler, some r =>
      if r.left ≠ 0 then s
      else s.pushDue (match r.kind with | .save => .contextSave h | .abort => .contextAbort h)
    | _, _ => s

/-! ### Saves (R325, R326, R328-R330) -/

/-- The start of a save: the units stop and the matrix queue drains, the frame is written, held stores are sent. With a
handler running the stopped context is saved, with KIND 2, and the handler's half is discarded. -/
def beginSave (s : State) (h : Nat) : State :=
  let x := s.hearth h
  let s := stopUnits s h
  let s := if x.serves == .stopped then
      (swapBack s h).modHearth h fun x => { x with
        run := .saving, act := { x.act with frame := { x.act.frame with kind := 2, spend := true } } }
    else
      let src : BitVec 3 := if atRest x then 5 else 4
      let f := { frameOf (s.modHearth h fun x => { x with fault := none }) h 1 with src := src }
      s.modHearth h fun x => { x with run := .saving, act := { x.act with frame := f } }
  (boundary s h .a).1

/-- What the context still waits for before the halves swap (R261, R286). -/
def saveReady (s : State) (h : Nat) : Bool :=
  let c := (s.hearth h).act
  !underWay s h && !(c.embers.any fun p => p.2.state == .inflight) && (match c.amo with | .sent _ => false | _ => true)

/-- A fault raised since both engines stopped goes into the image, with KIND 2 (R318, R325). -/
def lateFault (s : State) (h : Nat) : State :=
  let x := s.hearth h
  if x.fault.isSome then
    let f := if x.act.frame.code = 0 then { frameOf s h 2 with spend := true } else x.act.frame
    s.modHearth h fun x => { x with fault := none, act := { x.act with frame := f } }
  else s

/-- Listed bytes of a context-store slot: register image, scratchpad, header (R326). -/
def slotCells (c : Ctx) (scratch : Memory) (header : List Byte) : Memory :=
  let regs : Memory := (List.range 0x8000).flatMap fun k =>
    let w := c.word (8 * k)
    if w = 0 then []
    else (List.range 8).filterMap fun i =>
      let b := BitVec.ofNat 8 (w / 256 ^ i)
      if b = 0 then none else some (8 * k + i, b)
  mwrite (regs ++ scratch.map fun p => (p.1 + 0x40000, p.2)) 0x240000 header

/-- Replaces a range of guest physical memory by listed bytes; frames that are not resident here are left. -/
def writeSparse (s : State) (part gpa n : Nat) (m : Memory) : State :=
  (framesOf gpa n).foldl (fun s g =>
    match s.stage2 part g with
    | none => s
    | some e =>
      if e.remote || e.nr then s
      else
        let lo := max gpa (g * frameSize)
        let len := min (gpa + n) ((g + 1) * frameSize) - lo
        let put (mem : Memory) (a : Nat) : Memory := mreplace mem a len (mslice m (lo - gpa) len a)
        let at_ := e.home lo :: s.copiesOf part e lo
        { s with mem := at_.foldl put s.mem, poison := at_.foldl (fun p a => cleanLines p a len) s.poison }) s

/-- The groups and blocks of the active context that a save to slot i writes: all of them unless the slot holds its last
image, and then those that have changed since, and blocks whose tag is another (R329, R330). -/
def dirtyParts (s : State) (h part i : Nat) : List Nat × List Nat :=
  let x := s.hearth h
  let whole := x.base.isNone || tget 0 (s.part part).holds i != x.act.ctxid
  ((List.range 16).filter fun g => whole || (x.base.map fun b => b.groupBytes g) != some (x.act.groupBytes g),
   (List.range 2048).filter fun b => whole || x.dirty.contains b || tget 0 x.tags b != x.act.ctxid)

/-- Tags of other hearths that name a context go from the blocks of its image that are rewritten (R330). -/
def clearTags (s : State) (h : Nat) (ctxid : Word) (blocks : List Nat) : State :=
  { s with hearths := s.hearths.map fun p =>
      if p.1 = h then p
      else (p.1, { p.2 with tags := p.2.tags.filter fun t => !(t.2 == ctxid && blocks.contains t.1) }) }

/-- The halves swap in one cycle (R53, R328 step 2): the outgoing context stands in the inactive half, its slot's STATE
is 1, FFRAME names its frame block (R320), and the hearth is free, or its preloaded context begins. Every scratchpad
block is handed over in this step (log 84): it takes the outgoing context's tag. -/
def swapOut (s : State) (h part i : Nat) : State :=
  let x := s.hearth h
  let c := x.act
  let (groups, blocks) := dirtyParts s h part i
  let im : Image := { state := 1, discard := (tget {} (s.part part).images i).discard, ctxid := c.ctxid, task := c.task
                      region := c.region, lasth := h, ctx := c, scratch := x.scratch, poison := x.poison }
  let s := clearTags (setImage s part i im) h c.ctxid blocks
  let s := s.modTask c.part c.task fun t => { t with st := .saved, slot := some i }
  s.setHearth h { x.cleared with
    act := if x.pre.isSome then x.ina else x.ina.vacated, ina := c, halfH1 := !x.halfH1, ffaddr := frameAddr h, pre := x.pre
    tags := (List.range 2048).map fun b => (b, c.ctxid), out := some { part := part, slot := i, groups := groups, blocks := blocks } }

/-- Bytes of a context-store slot. -/
def writeSlot (s : State) (part a : Nat) (l : List Byte) : State := writeSparse s part a l.length (mwrite [] 0 l)

/-- The image is written from the inactive half (R328 step 3): dirty groups and blocks, then STATE 2. The context stands
in neither half from now on, which releases RUN (R290). One that an ABORT has marked is discarded (R324). -/
def finishOut (s : State) (h : Nat) (o : OutImage) : State :=
  let base := slotBase (s.part o.part) o.slot
  match reach s o.part base 0x280000 with
  | .waits => askFrames s o.part base 0x280000
  | _ =>
    let im := tget {} (s.part o.part).images o.slot
    let s := o.groups.foldl (fun s g => match groupPlace[g]? with
      | some (a, _) => writeSlot s o.part (base + a) (im.ctx.groupBytes g)
      | none => s) s
    let s := o.blocks.foldl (fun s b => writeSlot s o.part (base + 0x40000 + 1024 * b) (mbytes im.scratch (1024 * b) 1024)) s
    let s := noteParked (setImage s o.part o.slot { im with state := 2, sdcc := s.dcc })
    let s := s.modPart o.part fun p => { p with holds := tput (p.holds.filter (·.2 != im.ctxid)) o.slot im.ctxid }
    let s := s.modHearth h fun x => { x with out := none }
    let s := chargePath s im.ctx.part im.ctx.region (launchOf s im.ctx) fun r => { r with run := r.run - 1 }
    let s := s.modTask o.part im.task fun t => { t with age := 0, order := s.dcc.toNat }
    if im.discard then
      match s.taskOf o.part im.task with
      | some t => settle (abortTask s t)
      | none => discardImage s o.part o.slot
    else s

/-! ### Resumes (R296, R298, R328, R330) -/

/-- Scratchpad after a restore: a block that carries another tag comes from the image. -/
def restoreScratch (x : Hearth) (im : Image) : Hearth :=
  let stale := (List.range 2048).filter fun b => tget 0 x.tags b != im.ctxid
  let take (x : Hearth) (b : Nat) : Hearth :=
    { x with scratch := mreplace x.scratch (b * 1024) 1024 (mslice im.scratch (b * 1024) 1024 (b * 1024))
             tags := tput x.tags b im.ctxid
             poison := (x.poison.filter fun p => p / 256 != b) ++ im.poison.filter fun p => p / 256 == b }
  stale.foldl take x

/-- The context in the active half goes on as its frame says (KIND 1), or enters its handler first (KIND 2). -/
def goOnFrame (s : State) (h : Nat) : State :=
  let f := (s.hearth h).act.frame
  if f.kind = 2 then
    routeFault (s.modHearth h fun x => { x with run := .stopped, act := { x.act with frame := { f with kind := 0 } } }) h
  else goOn s h .t f.aslot f.xslot

/-- A context goes on at another hearth than `old`, where it was saved: the completion targets in its own scratchpad go
with the scratchpad (R167, log 93). -/
def Ctx.rehome (c : Ctx) (old new : Nat) : Ctx :=
  { c with copyq := c.copyq.map fun k =>
      if k.chrt.toNat = old ∧ !k.toMap then { k with chrt := BitVec.ofNat 8 new } else k }

/-- A restored context goes on: its slot is free, and what it holds is what its image held (R327, R329). -/
def resumeFrom (s : State) (h part slot : Nat) (im : Image) : State :=
  let s := discardImage s part slot
  goOnFrame (s.modHearth h fun x =>
    { restoreScratch x im with base := some x.act, dirty := [], act := (x.act.rehome im.lasth h).resumed }) h

/-- A preloaded context begins (R328): its window table is loaded for it (R230). -/
def startPre (s : State) (h slot : Nat) : State :=
  let p := (s.ownerOf h).getD 0
  let im := tget {} (s.part p).images slot
  match s.fb.tasks.find? fun t => t.part == p && t.st == .saved && t.slot == some slot && !ending s t.part t.gpa with
  | none => dropPre s h
  | some t =>
    if im.state ≠ 3 || t.vf != currentVf s p || (s.vf t.vf).paused then dropPre s h
    else
      let fail (c : FaultCode) (a : Word) : State := failDispatch (dropPre s h) t c a
      windowsFor s p (winimgOf s t) fail fun win =>
        let s := loadWindows s h p win
        let s := s.modHearth h fun x => { x with run := .running, mode := .t, pre := none, act := x.act.unmarked }
        resumeFrom (taskStarts s t) h p slot im

/-- A context that bank-2 has stopped in its half goes on on its own hearth, with its window table loaded again (R230,
R355); a load that fails ends it as R298 gives. Where the entry was stopped before the context was (R356), its request
goes, and an engine that had stopped for it at a YIELD goes on. -/
def unbank (s : State) (h : Nat) : State :=
  let x := s.hearth h
  match x.run, x.req with
  | .saving, some { kind := .abort, slot := none, left := _ } => beginAbort s h
  | .banked, _ | .saving, some { kind := _, slot := none, left := _ } =>
    let c := x.act
    let s := s.modHearth h fun x => { x with run := .banked, req := none, act := x.act.resumed }.breakOff
    let fail (code : FaultCode) (a : Word) : State :=
      let s := match domainOf s c.part c.region with
        | some r => countFault s r (launchOf s c)
        | none => s
      abortHere s h (FaultCode.code code) a
    let winimg := match s.region c.part c.region with | some r => r.winimg | none => 0
    windowsFor s c.part winimg fail fun win => goOnFrame (loadWindows s h c.part win) h
  | _, some { kind := .save, slot := none, left := _ } =>
    [Eng.a, .x].foldl (fun s e =>
      let g := (s.hearth h).act.es e
      if g.stopped then startEngine s h e g.pc else s) (s.modHearth h fun x => { x with req := none })
  | _, _ => s

/-- CONTEXT_SAVE: writes out an image under way; else begins a save that takes effect, or swaps the halves of one whose
writes have all landed. A request without a slot is that of bank-2, whose image stays in its half (R355). -/
def execContextSave (h : Nat) (s : State) : Out :=
  .next <|
    let x := s.hearth h
    if !counts s h then s
    else match x.out, x.run, x.req with
    | some o, _, _ => finishOut s h o
    | none, .running, some r | none, .handler, some r =>
      if r.kind = .save && (atRest x || r.left == 0) then beginSave s h else s
    | none, .saving, some { kind := k, slot := i, left := _ } =>
      let (s, ok) := boundary s h .a
      let s := (List.range x.act.copyq.length).foldl (fun s k => creditCopy s h k) s
      if ok && saveReady s h then
        let s := lateFault s h
        match i with
        | some i =>
          let s := swapOut s h ((s.ownerOf h).getD 0) i
          match x.pre with
          | some j => if s.pw.trans == .none then startPre s h j else s
          | none => s
        | none => if k = .abort then beginAbort s h else s.modHearth h fun x => { x with run := .banked, req := none }
      else s
    | _, _, _ => s

/-- While the outgoing context runs on, the context engine restores the one that the firebox would place next into the
inactive half (R328 step 1): its slot's STATE is 3. -/
def preload (s : State) (h slot : Nat) : State :=
  let x := s.hearth h
  let leaving := (match x.req with | some { kind := .save, slot := some _, left := _ } => true | _ => false)
  let p := (s.ownerOf h).getD 0
  if x.run == .running && leaving && x.out.isNone && x.pre.isNone && counts s h && s.pw.trans == .none
      && (freeHearths s p (dieOf h)).isEmpty then
    match nextTask s p (dieOf h) with
    | some t =>
      if t.st = .saved ∧ t.slot = some slot then
        let im := tget {} (s.part p).images slot
        (setImage (chargeRun s t) p slot { im with state := 3 }).modHearth h fun x => { x with pre := some slot, ina := im.ctx }
      else s
    | none => s
  else s

/-- CONTEXT_RESUME: the saved context of a slot is the one placed on hearth h now, or is preloaded there, or begins
there preloaded; a context that bank-2 kept in its half goes on. -/
def execContextResume (h slot : Nat) (s : State) : Out :=
  .next <|
    let x := s.hearth h
    if x.run == .banked then (if counts s h && s.pw.trans == .none then unbank s h else s)
    else if x.run == .free && x.pre == some slot then (if counts s h && s.pw.trans == .none then startPre s h slot else s)
    else match chosenFor s h with
      | none => preload (askPassed s h) h slot
      | some t =>
        let s := askPassed s h
        if t.st ≠ .saved ∨ t.slot ≠ some slot then s
        else
          let im := tget {} (s.part t.part).images slot
          windowsFor s t.part (winimgOf s t) (failDispatch s t) fun win =>
            resumeFrom (occupy s h t win im.ctx) h t.part slot im

/-! ### SLIP_WAIT_END (R30) -/

/-- SLIP_WAIT_END: the wait ends once its condition no longer holds, which a change of SLIPW may bring about too (DESIGN
CHOICE, log 75); the engine then makes the entry with the checks of R27. -/
def execSlipWaitEnd (h : Nat) (e : Eng) (s : State) : Out :=
  .next <|
    let g := (s.hearth h).act.es e
    if !g.slipWait || !counts s h || slipHeld (s.hearth h).act e g.slipOrd then s
    else s.modCtx h fun c => c.setEs e { c.es e with slipWait := false, slipPass := true }

/-! ### Snapshots (R332, R333) -/

def execSnap (g : Guard) (d : Reg) (tag : BitVec 16) (s : State) : Out :=
  privileged g .s s <|
    let (s, t) := trigger s (some tag)
    .done (s.setReg d t)

/-- SNAPSHOT_LATCH: every block latches in the tick of the trigger; the occupancy of rings and ridge, whose packets in
passage the model does not hold, are free values (log 85). -/
def execSnapshotLatch (s : State) : Out :=
  .next <| match s.snap with
    | none => s
    | some t =>
      if s.dcc ≠ t.at_ then s
      else
        let latch (h : Nat) (x : Hearth) : Hearth := { x with latch :=
          { aslot := x.act.ae.pc, xslot := x.act.xe.pc, ctxid := x.act.ctxid, hstat := s.hstat h
            lines := x.cacheLines.length, embers := x.act.emberCount } }
        let (a, s) := s.freeWord
        let (b, s) := s.freeWord
        let (c, s) := s.freeWord
        { s with
          hearths := s.hearths.map fun p => (p.1, latch p.1 p.2)
          latched := { tick := t.at_, tag := t.tag, slices := (List.range 64).map fun i => (s.slice i).wq.length
                       fireboxes := [poolCount s 0, poolCount s 1], rings := [a, b], ridge := c }
          snap := none }

def execSnapshotPin (s : State) : Out := .next (trigger s none).1
def execSnapshotHostTrigger (s : State) : Out := .next (trigger s none).1

end Sys2Proof.Machine
end

