-- ==== Sys2Proof/Machine/Links.lean ====
section
/-!
DEFINITION. The fate of links, routes and peers (10 R236, R239, 01 R17, 15 R350), and the accesses of a peer package (R232,
R236, R237, R268, R281).
-/
set_option autoImplicit false

namespace Sys2Proof.Machine

/-! ### The collapse of replicas (R236) -/

/-- The guest frame of a device virtual address of a hearth. -/
def guestFrame (s : State) (h : Nat) (a : Word) : Option Nat :=
  (lookupWin (s.hearth h).win a).map fun e => (e.gbase + (a.toNat - e.vbase)) / frameSize

/-- Step 1 of a collapse, and step 3 where step 2 has nothing to wait for (R236); a replica that is being built is
waited for first. -/
def collapse (s : State) (part g : Nat) (e : S2Ent) : State :=
  if e.building then s else freeLeaving (dropReplicas s part g) part

/-- A collapse is not over: a replica is being built, or a frame given up is still in use. -/
def collapseWaits (s : State) (part g : Nat) (e : S2Ent) : Bool := e.building || (s.part part).leaving.any (·.1 == g)

/-- The peer's hob has not yet been asked for the collapse, has been asked, or has acknowledged it. -/
def askOf (s : State) (peer part g : Nat) : Option PeerAsk :=
  s.peerAsks.find? fun a => a.peer == peer && a.part == part && a.g == g

/-- REPLICA_COLLAPSE (R236): the replicas end at once; when the frame's multicasts have landed and the frames are free,
the context goes on at the faulting slot. For a REMOTE frame the peer's hob is asked, and its acknowledgement awaited;
with its peer unreachable the access raises LINK_LOST for the region's handler (R291, R321). -/
def execReplicaCollapse (h : Nat) (s : State) : Out :=
  .next <|
    let x := s.hearth h
    let f := x.act.frame
    if x.run ≠ .stopped ∨ f.code ≠ FaultCode.code .replicaWrite ∨ !counts s h then s
    else match s.ownerOf h, guestFrame s h f.faddr with
      | some p, some g =>
        match s.stage2 p g with
        | none => goOn s h .t f.aslot f.xslot
        | some e =>
          let peer := e.peer.toNat
          if e.remote && !s.peerUp p peer then
            let s := s.modCtx h fun c => { c with frame := { f with code := FaultCode.code .linkLost } }
            match domainOf s p x.act.region with
            | some r => (countFault s r (launchOf s x.act)).pushDue (.handlerEntry h)
            | none => abortHere s h (FaultCode.code .linkLost) f.faddr
          else
            let s := collapse s p g e
            if e.remote && (askOf s peer p g).isNone then
              { s with peerAsks := s.peerAsks ++ [{ peer := peer, part := p, g := g }] }
            else if (e.remote && !(askOf s peer p g).any (·.acked)) || collapseWaits s p g e then s
            else
              let s := { s with peerAsks := s.peerAsks.filter fun a => !(a.peer == peer && a.part == p && a.g == g) }
              goOn s h .t f.aslot f.xslot
      | _, _ => goOn s h .t f.aslot f.xslot

/-! ### Links and routes (R239, R350, R17) -/

/-- The routes that lead to a peer, and of them those that do not stand. -/
def routesTo (s : State) (peer : Nat) : List Nat := (s.parts.map (·.1)).filter fun p => (s.routeTo p peer).isSome
def cutTo (s : State) (peer : Nat) : List Nat := (routesTo s peer).filter fun p => !s.routed p peer

/-- LINK_DOWN (R239, R349): a peer to which a route no longer stands will be invalidated within 17,000 cycles. -/
def execLinkDown (port : Nat) (s : State) : Out :=
  .next <|
    if port < 12 && !s.fab.portDown.contains port then
      let was := s
      let s := { s with fab := { s.fab with portDown := port :: s.fab.portDown } }
      let cut := (List.range 256).filter fun peer => (cutTo s peer).any fun p => was.routed p peer
      let s := { s with fab := { s.fab with losing := cut.foldl (fun t p => tput t p 17000) s.fab.losing } }
      postEvent s 3 0 0 port 0
    else s

/-- PEER_RESET (R239). -/
def execPeerReset (peer : Nat) (s : State) : Out :=
  .next <|
    if peer < 256 then
      let s := s.parts.foldl (fun s p => s.modPart p.1 fun x =>
        { x with routes := x.routes.map fun r => if r.1 = peer then (r.1, { r.2 with up := false }) else r }) s
      let s := { s with fab := { s.fab with losing := tput s.fab.losing peer 17000 } }
      (List.range 12).foldl (fun s port =>
        if s.parts.any fun p => p.2.routes.any fun r => r.1 == peer && r.2.ports.getLsbD port then postEvent s 3 0 0 port 0
        else s) s
    else s

/-- Changes a context wherever it stands: in a half of a hearth, or in an image (R286). -/
def State.modCtxid (s : State) (ctxid : Word) (f : Ctx → Ctx) : State :=
  let g (c : Ctx) : Ctx := if c.ctxid = ctxid then f c else c
  { s with hearths := s.hearths.map fun p => (p.1, { p.2 with act := g p.2.act, ina := g p.2.ina })
           parts := s.parts.map fun p => (p.1, { p.2 with images := p.2.images.map fun i => (i.1, { i.2 with ctx := g i.2.ctx }) }) }

/-- A dropped store is counted in the context that sent it (R62, R239). -/
def countDropped (s : State) (ctxid : Word) : State := s.modCtxid ctxid fun c => { c with stdrop := satInc c.stdrop }

/-- A contribution that a lost peer has not applied is voided and counted in its slot (R286). -/
def voidAtPeer (s : State) (m : AccoMsg) : State :=
  s.modCtxid m.ctxid fun c => c.setSeq m.slot { c.seq m.slot with voidcnt := satInc (c.seq m.slot).voidcnt }

/-- The fate of an operation on its way to a lost peer (R239): stores and copy writes are dropped and counted; a
returning AMO runs again. -/
def loseOp (s : State) (op : WOp) : State :=
  match op.kind with
  | .store => countDropped s op.ctxid
  | .copy uid => countDropped (copyLanded s op.src uid op.bytes.length) op.ctxid
  | .amo _ _ (some uid) _ _ _ => s.modCtxid op.ctxid fun c => if c.amo = .sent uid then { c with amo := .none } else c
  | _ => s

/-- The fate of an ember's message on its way to a lost peer (R239, R286). -/
def loseEmber (s : State) (m : AccMsg) : State :=
  let drop (c : Ctx) : Ctx :=
    match c.embers.find? fun p => p.2.state == .inflight && p.2.uid == m.uid with
    | some (n, _) => { c.setEmber n {} with embdrop := satInc c.embdrop }
    | none => c
  { s with hearths := s.hearths.map fun p => (p.1, { p.2 with act := drop p.2.act, ina := drop p.2.ina }) }

/-- What remains of a peer's slice when the operations of some partitions are lost. -/
def Slice.without (x : Slice) (gone : List Nat) : Slice :=
  { x with inq := x.inq.filter (!gone.contains ·.part), wq := x.wq.filter (!gone.contains ·.part)
           accq := x.accq.filter (!gone.contains ·.part), accoq := x.accoq.filter (!gone.contains ·.part)
           rob := x.rob.filter (!gone.contains ·.part) }

/-- Frames of a peer lose their replicas here and become non-resident; replicas being built for them are given up. -/
def losePeerFrames (s : State) (part peer : Nat) : State :=
  let gs := (List.range (s.part part).s2.length).filter fun g => match s.stage2 part g with
    | some e => e.remote && e.peer.toNat == peer && e.replicated
    | none => false
  let s := gs.foldl (fun s g =>
    let back := s.hobReqs.filterMap fun r => if r.part = part ∧ r.g = g then r.frame else none
    let s := s.modPart part fun p => { p with freeFrames := p.freeFrames ++ back }
    let s : State := { s with hobReqs := s.hobReqs.map fun r => if r.part = part ∧ r.g = g then { r with frame := none } else r }
    (dropReplicas s part g).setStage2 part g fun e => { e with nr := true, building := false }) s
  refreshWindows s part

/-- The halves whose contexts translate by the hearth's present window table: the active one of a hearth that has a
context, and the stopped context beside its handler. A preloaded context, and one that is being saved, has the table of
its image (`loseImage`). -/
def Hearth.tabled (x : Hearth) : List Bool :=
  (if x.run == .free then [] else [false]) ++ if x.serves == .stopped then [true] else []

/-- Held stores, waiting loads and held embers that lead to a lost peer (R239): stores are dropped and counted, loads
end in LINK_LOST, and embers are discarded and counted. -/
def loseHeld (s : State) (part peer : Nat) : State :=
  s.hearths.foldl (fun s p =>
    if s.ownerOf p.1 ≠ some part then s
    else
      let away (e : S2Ent) : Bool := e.remote && e.peer.toNat == peer
      let bad (d : Held) : Bool := (s.stage2 part (d.gpa / frameSize)).any away
      let n := (p.2.held.filter fun d => !d.sent && bad d).length
      let s := s.modHearth p.1 fun x => { x with
        held := x.held.filter fun d => !bad d
        issue := x.issue.map fun i => if i.ent.away (dieOf p.1) && away i.ent then { i with lost := true } else i }
      let s := s.modHearth p.1 fun x => x.countLost n
      p.2.tabled.foldl (fun s ina => (s.half p.1 ina).embers.foldl (fun s m =>
        if m.2.state == .held && (match accDest s p.1 ((m.2.line ++ 0#6).setWidth 64) with | .lost => true | _ => false)
        then sendEmber s p.1 ina m.1 else s) s) s) s

/-- The held embers of a context that lead to a lost peer through a window table (R286). -/
def embersTo (s : State) (part peer : Nat) (win : Tbl (BitVec 128)) (c : Ctx) : List Nat :=
  (c.embers.filter fun m => m.2.state == .held
    && (lookupWin win ((m.2.line ++ 0#6).setWidth 64)).any fun e =>
      (s.stage2 part ((e.gbase + (m.2.line.toNat * 64 - e.vbase)) / frameSize)).any fun f => f.remote && f.peer.toNat == peer).map (·.1)

def Ctx.withoutEmbers (c : Ctx) (l : List Nat) : Ctx :=
  { c with embers := c.embers.filter fun m => !l.contains m.1, embdrop := satAdd c.embdrop l.length }

/-- The saved image of slot i loses its held embers that lead to a lost peer, by the window image of its region, and
counts them; the slot's bytes follow, those still to be written from the inactive half with the rest (R239, R286). One
whose window image cannot be read now loses them when it resumes. -/
def loseImage (s : State) (part peer i : Nat) (im : Image) : State :=
  let win : Tbl (BitVec 128) := match s.region part im.region with
    | some r => (match readGpa s part r.winimg 4096 with
      | some l => (match checkWindows (windowImage l) with | .ok t => t | .error _ => [])
      | none => [])
    | none => []
  let gone := embersTo s part peer win im.ctx
  if im.state = 0 ∨ gone.isEmpty then s
  else
    let c := im.ctx.withoutEmbers gone
    let s := s.modPart part fun p => { p with images := tput p.images i { im with ctx := c } }
    let again (o : OutImage) : OutImage := if o.slot = i then { o with groups := (o.groups ++ [14, 15]).eraseDups } else o
    let follow (p : Nat × Hearth) : Nat × Hearth :=
      if s.ownerOf p.1 ≠ some part then p
      else if p.2.pre = some i then
        (p.1, if p.2.run = .free then { p.2 with act := p.2.act.withoutEmbers gone } else { p.2 with ina := p.2.ina.withoutEmbers gone })
      else (p.1, { p.2 with out := p.2.out.map again })
    let s : State := { s with hearths := s.hearths.map follow }
    if im.state = 1 then s
    else [14, 15].foldl (fun s g => match groupPlace[g]? with
      | some (a, _) => writeSlot s part (slotBase (s.part part) i + a) (c.groupBytes g)
      | none => s) s

def loseImages (s : State) (part peer : Nat) : State :=
  (s.part part).images.foldl (fun s i => loseImage s part peer i.1 i.2) s

/-- Ranges that a lost peer has opened in this package's slices are voided (R286). -/
def voidPeer (s : State) (peer : Nat) (gone : List Nat) : State :=
  let ranges := s.slices.flatMap fun q => q.2.keys.flatMap fun r =>
    if gone.contains r.part then (r.ranges.filter (·.src == 256 + peer)).map fun g => (r.part, r.key, g.lo, g.n) else []
  let s : State := { s with seqMsgs := s.seqMsgs.filter fun m => !(m.src == 256 + peer && gone.contains m.part) }
  ranges.eraseDups.foldl (fun s r => (voidRange s r.1 r.2.1 r.2.2.1 r.2.2.2).1) s

/-- PEER_INVALIDATION (R239): for each route to the peer that does not stand, what was in flight over it ends. -/
def execPeerInvalidation (peer : Nat) (s : State) : Out :=
  .next <|
    if !(s.fab.losing.any fun p => p.1 == peer) then s
    else
      let gone := cutTo s peer
      let keys := gone.map (256 * · + peer)
      let s := { s with fab := { s.fab with
        losing := tdel s.fab.losing peer, lost := keys ++ s.fab.lost.filter fun k => !keys.contains k } }
      let x := s.slice (64 + peer)
      let s := s.setSlice (64 + peer) (x.without gone)
      let s := ((x.inq ++ x.wq).filter (gone.contains ·.part)).foldl loseOp s
      let s := ((x.accoq ++ x.rob).filter (gone.contains ·.part)).foldl voidAtPeer s
      let s := (x.accq.filter (gone.contains ·.part)).foldl loseEmber s
      let mine (m : SeqMsg) : Bool := m.slice == 64 + peer && gone.contains m.part
      let s := { s with seqAcks := (s.seqMsgs.filter mine).foldl (fun l m => countAck l { uid := m.uid }) s.seqAcks
                        seqMsgs := s.seqMsgs.filter fun m => !mine m }
      gone.foldl (fun s p => losePeerFrames (loseImages (loseHeld s p peer) p peer) p peer) (voidPeer s peer gone)

/-- LINK_UP (R350): the hob repeats the attestation of the routes that did not stand, and restores each that the peer
then grants. -/
def execLinkUp (port : Nat) (s : State) : Out :=
  .next <|
    if port < 12 then
      let was := s
      let n := s.free
      let back (p : Nat) (r : Nat × Route) : Nat × Route :=
        if r.2.ports.getLsbD port ∧ !was.routed p r.1 then (r.1, { r.2 with up := Config.peerAttests r.1 r.2.ppart n }) else r
      let s := { s with free := n + 1, fab := { s.fab with portDown := s.fab.portDown.filter (· != port) }
                        parts := s.parts.map fun (p : Nat × Part) => (p.1, { p.2 with routes := p.2.routes.map (back p.1) }) }
      let s := { s with fab := { s.fab with
        lost := s.fab.lost.filter fun k => !s.routed (k / 256) (k % 256)
        losing := s.fab.losing.filter fun q => !(cutTo s q.1).isEmpty } }
      postEvent s 3 0 0 port 1
    else s

/-- RIDGE_LINK_FAIL (R17): the hob of each die removes the link and logs it. -/
def execRidgeLinkFail (link : Nat) (s : State) : Out :=
  .next <|
    if link < 16 && s.fab.ridge.getLsbD link then
      let s := { s with fab := { s.fab with ridge := s.fab.ridge &&& ~~~(1#16 <<< link) } }
      let (s, i) := logError s 0 2 4 0 0 link 0
      postEvent s 4 0 0 i 0
    else s

/-- FLIT_CHECK_FAILURE (R17, R350): the link by which the packets of a link's number now cross resends the flit, and
nothing else changes. -/
def execFlitCheckFailure (link : Nat) (s : State) : Out :=
  .next <| match ridgeLink s.fab.ridge link with
    | some _ => { s with fab := { s.fab with resent := s.fab.resent + 1 } }
    | none => s

/-! ### Accesses from a peer package (R232, R236, R237, R281) -/

/-- A sequence record of a peer goes to every slice. -/
def peerRecord (s : State) (m : SeqMsg) : State :=
  { s with seqMsgs := s.seqMsgs ++ (List.range 64).map fun i => { m with slice := i } }

/-- What an access of a peer does to the entry that it meets. -/
def peerAccess (s : State) (peer part gpa : Nat) (a : PeerAccess) (e : S2Ent) : State :=
  let src := 256 + peer
  let g := gpa / frameSize
  let line := lineNo gpa
  let pieces (l : List Byte) : List (Nat × Byte) := (List.range l.length).map fun i => (gpa % 64 + i, l.getD i 0)
  match a with
  | .collapse => collapse s part g e
  | .collapsed => { s with peerAsks := s.peerAsks.map fun k =>
      if k.peer = peer ∧ k.part = part ∧ k.g = g then { k with acked := true } else k }
  | .update l =>
    if e.remote ∧ e.peer.toNat = peer ∧ gpa % 64 + l.length ≤ 64 then
      landBytes s { part := part, src := src, gline := line } (pieces l)
    else s
  | _ =>
    if e.remote || e.nr || !frameOk e.frame.toNat then s
    else
      let hpa := lineNo (e.home gpa)
      let i := sliceOf hpa
      match a with
      | .write l =>
        if 64 < gpa % 64 + l.length then s
        else sendOp s { kind := .store, part := part, src := src, gline := line, bytes := pieces l }
      | .accumulate op ty v force =>
        s.modSlice i fun y => { y with accq := y.accq ++ [{ part := part, src := src, gline := line, line := hpa, op := op
                                                            ty := ty, value := v, force := force }] }
      | .ordered ty k j v =>
        let uid := s.uid + 1
        ({ s with uid := uid } : State).modSlice i fun y =>
          { y with accoq := y.accoq ++ [{ part := part, src := src, uid := uid, key := k, index := j.toNat
                                          gline := line, line := hpa, ty := ty, value := v }] }
      | _ => s

/-- The package sleeps in bank-1 or bank-2, or enters one of them. -/
def shallow (s : State) : Bool :=
  s.pw.cur == 1 || s.pw.cur == 2 || s.pw.trans == .entering 1 || s.pw.trans == .entering 2

/-- REMOTE_ACCESS_ARRIVAL: the access is translated by the stage 2 of the partition that the route names; what does not
translate changes nothing here. The peer's senders have numbers from 256 up. A package that sleeps, or is on its way to
sleep, holds the access and wakes (R356). -/
def execRemoteAccessArrival (port peer part gpa : Nat) (a : PeerAccess) (s : State) : Out :=
  .next <|
    if 12 ≤ port || s.fab.portDown.contains port || !(s.part part).alive then s
    else if shallow s then
      ({ s with pw := { s.pw with peerHeld := s.pw.peerHeld ++ [.remoteAccessArrival port peer part gpa a] } } : State).pushDue
        (.wakePeerAccess port)
    else if s.pw.cur ≠ 0 then s
    else match a with
      | .openRecord k span lo n =>
        peerRecord { s with uid := s.uid + 1 } { isOpen := true, src := 256 + peer, part := part, uid := s.uid + 1, key := k, span := span.toNat
                                                 lo := lo.toNat, n := n.toNat }
      | .closeRecord k lo n => peerRecord s { isOpen := false, src := 256 + peer, part := part, key := k, lo := lo.toNat, n := n.toNat }
      | _ =>
        match s.stage2 part (gpa / frameSize) with
        | none => s
        | some e => peerAccess s peer part gpa a e

end Sys2Proof.Machine
end

