-- ==== Sys2Proof/Machine/Queues.lean ====
section
/-!
DEFINITION. Host queues: doorbells, hardware slots, launch packets, teardown (13 R303-R308, 15 R342, R343, R356).
-/
set_option autoImplicit false

namespace Sys2Proof.Machine

/-! ### Queue descriptors (R303) -/

/-- The fields of a queue descriptor that the firebox uses. Reserved fields that are not zero, and a TDOWN of 3, change
nothing (R9 and R303 name no effect: DESIGN CHOICE, log 86). -/
structure QDesc where
  ring : Nat
  logn : Nat
  prio : Nat
  nopre : Bool
  head : BitVec 32
  tdown : Nat

def qdesc (l : List Byte) : QDesc :=
  let w := field l 0 8
  { ring := bits w 0 46, logn := bits w 46 4, prio := bits w 50 4, nopre := bits w 54 1 == 1
    head := BitVec.ofNat 32 (field l 8 4), tdown := bits (field l 0x10 8) 0 2 }

/-- A queue's descriptor as it stands, without waiting. -/
def peekDesc (s : State) (vf q : Nat) : Option QDesc :=
  match (s.vf vf).part with
  | none => none
  | some p => (readGpa s p (queueDesc s vf q) 64).map qdesc

/-- A queue's descriptor waits for residency (R398). -/
def descWaits (s : State) (k : Nat) : Bool :=
  match (s.vf (k / 4096)).part with
  | none => false
  | some p => reach s p (queueDesc s (k / 4096) (k % 4096)) 64 == .waits

/-- The descriptors of some queues are asked for. -/
def askDescs (s : State) (l : List Nat) : State :=
  l.foldl (fun s k => match (s.vf (k / 4096)).part with
    | none => s
    | some p => askFrames s p (queueDesc s (k / 4096) (k % 4096)) 64) s

/-- A frame whose residency request was refused is asked for again by a later doorbell (R398). -/
def askAgain (s : State) (part gpa : Nat) : State :=
  { s with fb := { s.fb with unread := s.fb.unread.filter (· != (part, gpa / frameSize)) } }

/-- Some launch of the queue has not ended. -/
def queueBusy (s : State) (vf q : Nat) : Bool := s.fb.launches.any fun l => l.2.vf == vf && l.2.q == q

/-! ### Hardware slots (R305) -/

def freeQueueSlot (s : State) : Option Nat :=
  (List.range 256).find? fun i => !(s.fb.queues.any fun q => q.2.slotNo == some i)

/-- With every slot taken, the mapped queues whose descriptors decide which of them loses its slot, and are not
resident: the choice waits for them (R305, R398, log 110). -/
def rivalsWait (s : State) : List Nat :=
  if (freeQueueSlot s).isSome then []
  else (s.fb.queues.filter fun (q : Nat × Queue) =>
    q.2.slotNo.isSome && !queueBusy s (q.1 / 4096) (q.1 % 4096) && descWaits s q.1).map (·.1)

/-- The mapped queue that loses its slot: pre-emptible, without a launch, of the lowest QPRIO, and idle longest. -/
def victim (s : State) : Option (Nat × Queue) :=
  let prio (k : Nat) : Nat := match peekDesc s (k / 4096) (k % 4096) with | some d => d.prio | none => 0
  let ok (q : Nat × Queue) : Bool :=
    q.2.slotNo.isSome && !queueBusy s (q.1 / 4096) (q.1 % 4096)
      && (match peekDesc s (q.1 / 4096) (q.1 % 4096) with | some d => !d.nopre | none => true)
  (s.fb.queues.filter ok).foldl (fun (b : Option (Nat × Queue)) q => match b with
    | none => some q
    | some c => if prio q.1 < prio c.1 ∨ prio q.1 = prio c.1 ∧ q.2.idleSince.toNat < c.2.idleSince.toNat then some q else b) none

/-- Packets of a queue that have not been consumed. -/
def packetsLeft (s : State) (vf q : Nat) : Bool :=
  match peekDesc s vf q with
  | some d => d.head != (s.queue vf q).tail
  | none => false

/-- Maps a queue onto a slot: none when there is none for it. -/
def mapQueue (s : State) (vf q : Nat) : Option State :=
  let give (s : State) (i : Nat) : State := s.modQueue vf q fun x =>
    { x with slotNo := some i, heldSince := none, heldFor := 0, starved := false, idleSince := s.dcc }
  match freeQueueSlot s with
  | some i => some (give s i)
  | none =>
    match victim s with
    | none => none
    | some (k, v) =>
      let left := packetsLeft s (k / 4096) (k % 4096)
      let s := s.modQueue (k / 4096) (k % 4096) fun x =>
        { x with slotNo := none, heldSince := if left then some s.dcc else none, heldFor := 0 }
      v.slotNo.map (give s)

/-! ### Doorbells (R303, R343, R356) -/

/-- A doorbell whose descriptor cannot be read now waits; out of reach it is ignored, with event type 5 (R398). -/
def serveBell (s : State) (b : Bell) : State :=
  match (s.vf b.vf).part with
  | none => s
  | some part =>
    let a := queueDesc s b.vf b.q
    match fbRead s part a 64 with
    | .wait s => { s with fb := { s.fb with bells := s.fb.bells ++ [b] } }
    | .bad _ => queueFault s b.vf b.q 1 a
    | .ok l =>
      let d := qdesc l
      let x := s.queue b.vf b.q
      if 2 ^ d.logn < (b.tail - x.tail).toNat + (x.tail - d.head).toNat then
        let w := field l 0x10 8
        fbWrite s part (a + 0x10) (leBytes 8 (w - bits w 3 1 * 8 + 8))
      else if x.slotNo.isNone && !(rivalsWait s).isEmpty then
        let s := askDescs s (rivalsWait s)
        { s with fb := { s.fb with bells := s.fb.bells ++ [b] } }
      else
        let s := askAgain s part (d.ring + 64 * (d.head.toNat % 2 ^ d.logn))
        let s := s.modQueue b.vf b.q fun x =>
          { x with tail := b.tail, waiting := false, tdown := if d.tdown = 0 then 0 else x.tdown }
        let s := if d.tdown = 1 then s.pushDue (.teardownDrain b.vf b.q)
          else if d.tdown = 2 then s.pushDue (.teardownAbort b.vf b.q) else s
        if (s.queue b.vf b.q).slotNo.isSome then s
        else match mapQueue s b.vf b.q with
          | some s => s
          | none => s.modQueue b.vf b.q fun x =>
            { x with heldSince := if x.heldSince.isSome then x.heldSince else some s.dcc }

/-- The transfer entries written before a doorbell have completed (R343). -/
def bellReady (s : State) (b : Bell) : Bool :=
  let d := (b.tx - (s.vf b.vf).txhead).toNat
  d == 0 || 2 ^ 31 ≤ d

/-- Doorbells that need wait no longer are served, oldest first. -/
def serveBells (s : State) : State :=
  let l := s.fb.bells
  l.foldl (fun s b => if bellReady s b then serveBell s b else { s with fb := { s.fb with bells := s.fb.bells ++ [b] } })
    { s with fb := { s.fb with bells := [] } }

/-- A doorbell in the run state: behind the transfers and the doorbells before it. -/
def ringBell (s : State) (vf q : Nat) (tail : BitVec 32) : State :=
  let b : Bell := { vf := vf, q := q, tail := tail, tx := (s.vf vf).txtail }
  let s := match (s.vf vf).part with | some p => askAgain s p (queueDesc s vf q) | none => s
  if bellReady s b && !(s.fb.bells.any fun c => c.vf == vf && c.q == q) then serveBell s b
  else { s with fb := { s.fb with bells := s.fb.bells ++ [b] } }

/-- A trigger of R356 while the package sleeps or enters a banked state: it starts the wake, with its cause. A trigger
during the entry to bank-1 or bank-2 stops the entry and wakes at once; during the entry to bank-3 it takes effect once
the entry is complete. TARGET becomes 0, also where no write of it began the wake (DESIGN CHOICE, log 101). -/
def wakeBy (s : State) (src : Nat) : State :=
  let left (n : Nat) : Nat := match n with | 1 => 17000 | 2 => 680000 | _ => 51000000
  match s.pw.trans with
  | .waking _ => s
  | .entering b =>
    if b = 3 then { s with pw := { s.pw with wakesrc := BitVec.ofNat 8 src, target := 0 } }
    else ({ s with pw := { s.pw with wakesrc := BitVec.ofNat 8 src, target := 0, trans := .waking 0 } } : State).pushDue .wakeComplete
  | .none =>
    if s.pw.cur = 0 then s
    else { s with pw := { s.pw with wakesrc := BitVec.ofNat 8 src, target := 0, trans := .waking (left s.pw.cur.toNat) } }

/-- The package runs, with no transition under way. -/
def awake (s : State) : Bool := s.pw.cur == 0 && s.pw.trans == .none

/-- QUEUE_DOORBELL: a virtual function's doorbell is written (R303, R342). -/
def execQueueDoorbell (vf q : Nat) (tail : BitVec 32) (s : State) : Out :=
  .next <|
    let v := s.vf vf
    if !s.pw.ready || v.part.isNone || v.qtn.toNat ≤ q || 4096 ≤ q then s
    else if awake s then ringBell s vf q tail
    else
      let b : Bell := { vf := vf, q := q, tail := tail, tx := v.txtail }
      let s := { s with pw := { s.pw with held := s.pw.held ++ [b] } }
      let deep := s.pw.cur = 3 ∨ s.pw.trans = .entering 3
      if deep then s else wakeBy s 2

/-- Held notifies in the order in which they are served: QPRIO, then the oldest (R305). -/
def nextHeld (s : State) : Option Nat :=
  let prio (k : Nat) : Nat := match peekDesc s (k / 4096) (k % 4096) with | some d => d.prio | none => 0
  let age (q : Queue) : Nat := match q.heldSince with | some t => t.toNat | none => 0
  ((s.fb.queues.filter fun (q : Nat × Queue) => q.2.heldSince.isSome && q.2.slotNo.isNone).foldl
    (fun (b : Option (Nat × Queue)) q => match b with
      | none => some q
      | some c => if prio c.1 < prio q.1 ∨ prio q.1 = prio c.1 ∧ age q.2 < age c.2 then some q else b) none).map (·.1)

/-- The descriptors that decide the order of the held notifies, and the slot for the next one, and are not resident
(R305, R398, log 110). -/
def heldWait (s : State) : List Nat :=
  let l := (s.fb.queues.filter fun (q : Nat × Queue) => q.2.heldSince.isSome && q.2.slotNo.isNone && descWaits s q.1).map (·.1)
  if l.isEmpty && (nextHeld s).isSome then rivalsWait s else l

/-- HELD_NOTIFY_SERVE: the next held notify takes a slot (R305). -/
def execHeldNotifyServe (s : State) : Out :=
  .next <|
    if !awake s then s
    else if !(heldWait s).isEmpty then askDescs s (heldWait s)
    else match nextHeld s with
      | none => s
      | some k => (mapQueue s (k / 4096) (k % 4096)).getD s

/-- SLOT_STARVE: a notify held longer than STARVE is reported once, and stays held (R305, R349). -/
def execSlotStarve (vf q : Nat) (s : State) : Out :=
  .next <|
    let x := s.queue vf q
    if x.heldSince.isSome && !x.starved && s.ch.starve.toNat < x.heldFor then
      postEvent (s.modQueue vf q fun x => { x with starved := true }) 2 0 (s.vf vf).handle q 0
    else s

/-! ### Launch packets (R304, R306) -/

structure Packet where
  kind : Nat
  overlap : Bool
  tasks : Nat
  nt : Nat
  lcmpl : Nat
  vec : Nat
  irq : Bool
  reserved : Bool

def packetOf (l : List Byte) : Packet :=
  let w (o : Nat) : Nat := field l o 8
  { kind := bits (w 0) 0 2, overlap := bits (w 0) 2 1 == 1, tasks := bits (w 8) 0 46, nt := bits (w 0x10) 0 13
    lcmpl := bits (w 0x18) 0 46, vec := bits (w 0x20) 0 11, irq := bits (w 0x20) 11 1 == 1
    reserved := bits (w 0) 3 61 == 0 && bits (w 8) 46 18 == 0 && bits (w 0x10) 13 51 == 0 && bits (w 0x18) 46 18 == 0
      && bits (w 0x20) 12 52 == 0 && w 0x28 == 0 && w 0x30 == 0 && w 0x38 == 0 }

/-- HEAD moves past a packet. -/
def consume (s : State) (part vf q : Nat) (head : BitVec 32) : State :=
  fbWrite s part (queueDesc s vf q + 8) (leBytes 4 (head + 1).toNat)

/-- Accepts the records of a packet one after the other; the first that is refused refuses them all. -/
def acceptRecords (part vf q n : Nat) : List Nat → State → Fb State
  | [], s => .ok s
  | g :: r, s =>
    match checkRecord s part g with
    | .wait s => .wait s
    | .bad a => .bad a
    | .ok rec_ =>
      match makeLive s part rec_.region with
      | .wait s => .wait s
      | .bad a => .bad a
      | .ok s => acceptRecords part vf q n r (acceptTask s part g rec_ n vf q 0 false)

/-- The requests for residency that a packet's items wait for, on the state from which the acceptance starts afresh. -/
def keepRequests (s t : State) : State :=
  t.hobReqs.foldl (fun s r => s.storeStage2 r.part r.g) { s with hobReqs := t.hobReqs, parts := t.parts }

def takePacket (s : State) (part vf q : Nat) (d : QDesc) (p : Packet) : State :=
  if p.kind = 0 then consume s part vf q d.head
  else if !translatable s part p.lcmpl 32 then queueFault (consume s part vf q d.head) vf q 3 p.lcmpl
  else
    let n := s.fb.nextLaunch + 1
    let l : Launch := { part := part, vf := vf, q := q, lcmpl := p.lcmpl, irq := p.irq, vec := p.vec, overlap := p.overlap
                        pred := (s.queue vf q).last }
    let add (s : State) (l : Launch) : State :=
      ({ s with fb := { s.fb with nextLaunch := n, launches := tput s.fb.launches n l } } : State).modQueue vf q fun x =>
        { x with last := some n, idleSince := s.dcc }
    let gs := (List.range p.nt).map fun i => p.tasks + 128 * i
    let cancel : State :=
      settle (add (consume s part vf q d.head)
        { l with ntask := (if 1 ≤ p.nt ∧ p.nt ≤ 4096 then p.nt else 0), cancelled := true, started := true })
    if p.kind ≠ 1 ∨ !p.reserved ∨ p.nt = 0 ∨ 4096 < p.nt ∨ p.tasks % 128 ≠ 0 then cancel
    else match acceptRecords part vf q n gs (add s l) with
      | .wait t => keepRequests s t
      | .bad _ => cancel
      | .ok t => settle (gs.foldl (fun t g => settleTask t part g) (consume t part vf q d.head))

/-- A mapped queue has packets that it could consume now, at a priority. -/
def wantsTurn (s : State) (prio : Nat) (k : Nat) (q : Queue) : Bool :=
  q.slotNo.isSome && q.tdown == 0 && !q.waiting && packetsLeft s (k / 4096) (k % 4096)
    && (match peekDesc s (k / 4096) (k % 4096) with | some d => d.prio == prio | none => false)

/-- The slot whose turn it is among the queues of a priority: round-robin, one launch at a time (R306). -/
def turnOf (s : State) (prio : Nat) : Option Nat :=
  let slots := (s.fb.queues.filter fun q => wantsTurn s prio q.1 q.2).filterMap fun q => q.2.slotNo
  ((List.range 256).map fun k => (tget 255 s.fb.turns prio + 1 + k) % 256).find? slots.contains

/-- A queue has its turn, also when its packet has to wait for residency. -/
def tookTurn (s : State) (prio : Nat) (slot : Option Nat) : State :=
  { s with fb := { s.fb with turns := tput s.fb.turns prio (slot.getD 0) } }

/-- LAUNCH_PACKET: the packet at HEAD of a mapped queue is consumed in the queue's turn (R304, R306, R398). -/
def execLaunchPacket (vf q : Nat) (s : State) : Out :=
  .next <|
    let x := s.queue vf q
    match (s.vf vf).part with
    | none => s
    | some part =>
      if !awake s || x.slotNo.isNone || x.tdown ≠ 0 || x.waiting || (s.part part).busyOp = 0x0E then s
      else
        let stuck (s : State) (cause gpa : Nat) : State :=
          queueFault (s.modQueue vf q fun x => { x with waiting := true }) vf q cause gpa
        match fbRead s part (queueDesc s vf q) 64 with
        | .wait s => s
        | .bad _ => stuck s 1 (queueDesc s vf q)
        | .ok l =>
          let d := qdesc l
          if d.head = x.tail ∨ turnOf s d.prio ≠ x.slotNo then s
          else
            let s := tookTurn s d.prio x.slotNo
            let a := d.ring + 64 * (d.head.toNat % 2 ^ d.logn)
            match fbRead s part a 64 with
            | .wait s => s
            | .bad _ => stuck s 2 a
            | .ok k => takePacket s part vf q d (packetOf k)

/-! ### Teardown (R307, R308) -/

def queueLaunches (s : State) (vf q : Nat) : List Nat :=
  (s.fb.launches.filter fun l => l.2.vf == vf && l.2.q == q).map (·.1)

/-- What a DRAIN makes of one task: never dispatched, it ends CANCELLED. -/
def drainTask (s : State) (t : Task) : State :=
  let s := dropReserve s t
  match t.st with
  | .accepted | .ready => if t.cont.isNone then pushEnd s t.part t.gpa .cancelled else s
  | _ => s

/-- TEARDOWN_DRAIN (R307). -/
def execTeardownDrain (vf q : Nat) (s : State) : Out :=
  .next <|
    if (s.vf vf).part.isNone then s
    else
      let ls := queueLaunches s vf q
      let s := s.modQueue vf q fun x => { x with tdown := if x.tdown = 0 then 1 else x.tdown }
      let s := ls.foldl (fun s n => markRegions (s.modLaunch n fun l => { l with draining := true }) n) s
      settle ((s.fb.tasks.filter fun t => ls.contains t.launch).foldl drainTask s)

/-- TEARDOWN_ABORT (R308). -/
def execTeardownAbort (vf q : Nat) (s : State) : Out :=
  .next <|
    if (s.vf vf).part.isNone then s
    else
      let s := s.modQueue vf q fun x => { x with tdown := if x.tdown = 3 then 3 else 2 }
      settle ((queueLaunches s vf q).foldl (fun s n => abortLaunch s n 0 0) s)

end Sys2Proof.Machine
end

