-- ==== Sys2Proof/Machine/Sealed.lean ====
section
/-!
DEFINITION. Sealed images (14 R331).
-/
set_option autoImplicit false

namespace Sys2Proof.Machine

/-- A record of the stream: type, index, bytes. -/
structure SealRec where
  ty : Nat
  index : Nat
  body : List Byte

def SealRec.bytes (r : SealRec) : List Byte :=
  [BitVec.ofNat 8 r.ty, 0] ++ leBytes 2 r.index ++ leBytes 4 r.body.length ++ r.body

/-! ### Optional records (log 57) -/

def Combine.code : Combine → Nat | .add => 0 | .min => 1 | .max => 2
def Combine.ofCode (n : Nat) : Combine := match n with | 0 => .add | 1 => .min | _ => .max

/-- What a record of type 0x80 says of a merge command. -/
def mergeFlds : List (Fld MergeCmd) := [
  ⟨0, 0, 5, fun c => c.fd.toNat, fun c v => { c with fd := BitVec.ofNat 5 v }⟩,
  ⟨0, 5, 5, fun c => c.f1.toNat, fun c v => { c with f1 := BitVec.ofNat 5 v }⟩,
  ⟨0, 10, 5, fun c => c.f2.toNat, fun c v => { c with f2 := BitVec.ofNat 5 v }⟩,
  ⟨0, 15, 2, fun c => Combine.code c.combine, fun c v => { c with combine := Combine.ofCode v }⟩,
  ⟨0, 17, 1, fun c => c.dropz.toNat, fun c v => { c with dropz := natBool v }⟩,
  ⟨0, 18, 4, fun c => (DType.code c.ty).toNat, fun c v => { c with ty := DType.ofCode (BitVec.ofNat 4 v) }⟩,
  ⟨0, 22, 3, fun c => (Rnd.code c.rs.rnd).toNat, fun c v => { c with rs := { c.rs with rnd := Rnd.ofCode (BitVec.ofNat 3 v) } }⟩,
  ⟨0, 25, 1, fun c => c.rs.sat.toNat, fun c v => { c with rs := { c.rs with sat := natBool v } }⟩,
  ⟨0, 26, 2, fun c => c.sub.toNat, fun c v => { c with sub := BitVec.ofNat 2 v }⟩,
  ⟨0, 28, 21, fun c => c.tgt.toNat, fun c v => { c with tgt := BitVec.ofNat 21 v }⟩,
  ⟨0, 49, 5, fun c => c.g.toNat, fun c v => { c with g := BitVec.ofNat 5 v }⟩,
  ⟨0, 54, 1, fun c => c.held.toNat, fun c v => { c with held := natBool v }⟩,
  ⟨0, 55, 1, fun c => c.started.toNat, fun c v => { c with started := natBool v }⟩,
  ⟨8, 0, 64, fun c => c.cval.toNat, fun c v => { c with cval := BitVec.ofNat 64 v }⟩,
  ⟨0x10, 0, 64, fun c => c.cnt, fun c v => { c with cnt := v }⟩,
  ⟨0x18, 0, 32, fun c => c.o1, fun c v => { c with o1 := v }⟩,
  ⟨0x18, 32, 32, fun c => c.o2, fun c v => { c with o2 := v }⟩,
  ⟨0x20, 0, 32, fun c => (c.prev1.getD 0).toNat, fun c v => { c with prev1 := some (BitVec.ofNat 32 v) }⟩,
  ⟨0x20, 32, 32, fun c => (c.prev2.getD 0).toNat, fun c v => { c with prev2 := some (BitVec.ofNat 32 v) }⟩,
  ⟨0x28, 0, 1, fun c => c.prev1.isSome.toNat, fun c v => if v = 0 then { c with prev1 := none } else c⟩,
  ⟨0x28, 1, 1, fun c => c.prev2.isSome.toNat, fun c v => if v = 0 then { c with prev2 := none } else c⟩]

/-- What a record of type 0x81 says of a bellows command, with the header address of its first block; its present block
starts again (R136). -/
def blowFlds : List (Fld BlowCmd) := [
  ⟨0, 0, 5, fun c => c.fd.toNat, fun c v => { c with fd := BitVec.ofNat 5 v }⟩,
  ⟨0, 5, 2, fun c => c.sub.toNat, fun c v => { c with sub := BitVec.ofNat 2 v }⟩,
  ⟨0, 7, 21, fun c => c.tgt.toNat, fun c v => { c with tgt := BitVec.ofNat 21 v }⟩,
  ⟨0, 28, 5, fun c => c.g.toNat, fun c v => { c with g := BitVec.ofNat 5 v }⟩,
  ⟨0, 33, 1, fun c => c.held.toNat, fun c v => { c with held := natBool v }⟩,
  ⟨0, 34, 1, fun c => c.started.toNat, fun c v => { c with started := natBool v }⟩,
  ⟨0, 35, 1, fun c => c.bare.toNat, fun c v => { c with bare := natBool v }⟩,
  ⟨8, 0, 64, fun c => c.hdr.toNat, fun c v => { c with hdr := BitVec.ofNat 64 v }⟩,
  ⟨0x10, 0, 64, fun c => c.count, fun c v => { c with count := v }⟩,
  ⟨0x18, 0, 64, fun c => c.idx, fun c v => { c with idx := v }⟩,
  ⟨0x20, 0, 64, fun c => c.cval.toNat, fun c v => { c with cval := BitVec.ofNat 64 v }⟩,
  ⟨0x28, 0, 64, fun c => c.first.toNat, fun c v => { c with first := BitVec.ofNat 64 v }⟩]

/-- The bytes of n words of a record's fields, and the value that they give. -/
def fldBytes {α : Type} (fs : List (Fld α)) (n : Nat) (x : α) : List Byte :=
  (List.range n).flatMap fun i => leBytes 8 (fldWord fs x (8 * i))
def ofFldBytes {α : Type} (fs : List (Fld α)) (n : Nat) (x : α) (l : List Byte) : α :=
  (List.range n).foldl (fun x i => setFldWord fs x (8 * i) (field l (8 * i) 8)) x

/-- Residue of a context that lies in no register group: commands of the merge unit and the bellows, the flue heads
whose slot a unit is partway through, the bytes of an element that a copy command has taken from slots already freed,
how far a command in progress has come and what it has not credited, and which engines have stopped at a YIELD. -/
def residue (c : Ctx) : List SealRec :=
  ((List.range c.mergeq.length).map fun i => ({ ty := 0x80, index := i, body := fldBytes mergeFlds 6 (c.mergeq.getD i {}) } : SealRec))
    ++ (List.range c.blowq.length).map (fun i => { ty := 0x81, index := i, body := fldBytes blowFlds 6 (c.blowq.getD i {}) })
    ++ c.taken.map (fun t => { ty := 0x82, index := t.1, body := leBytes 8 t.2 })
    ++ ((List.range c.copyq.length).filterMap fun i =>
      let l := (c.copyq.getD i {}).got
      if l.isEmpty then none else some { ty := 0x83, index := i, body := l })
    ++ ((List.range c.copyq.length).filterMap fun i =>
      let k := c.copyq.getD i {}
      if k.started then some { ty := 0x84, index := i, body := leBytes 8 k.elem.toNat ++ leBytes 8 k.landed } else none)
    ++ [{ ty := 0x85, index := 0, body := [BitVec.ofNat 8 c.ae.stopped.toNat, BitVec.ofNat 8 c.xe.stopped.toNat] }]

/-- A context with the residue that a stream carries. -/
def Ctx.withResidue (c : Ctx) (rs : List SealRec) : Ctx :=
  let of (ty n : Nat) : List SealRec := rs.filter fun r => r.ty == ty && r.body.length == n
  let copyq := rs.foldl (fun q r =>
    if r.ty = 0x83 then lmod q r.index fun k => { k with got := r.body }
    else if r.ty = 0x84 ∧ r.body.length = 16 then
      lmod q r.index fun k => { k with elem := BitVec.ofNat 64 (field r.body 0 8), landed := field r.body 8 8 }
    else q) c.copyq
  let stopped (n : Nat) (b : Bool) : Bool := match (of 0x85 2).head? with
    | some r => r.body.getD n 0 != 0
    | none => b
  { c with ae := { c.ae with stopped := stopped 0 c.ae.stopped }, xe := { c.xe with stopped := stopped 1 c.xe.stopped }
           mergeq := (of 0x80 48).map fun r => ofFldBytes mergeFlds 6 {} r.body
           blowq := (of 0x81 48).map fun r => ofFldBytes blowFlds 6 {} r.body
           copyq := copyq
           taken := (of 0x82 8).foldl (fun t r => tput t r.index (field r.body 0 8)) [] }

/-- The records of an image: its header, the groups and blocks that are not all zero, and the residue. -/
def sealRecords (im : Image) : List SealRec :=
  let h := imageHeader im
  let head : SealRec := { ty := 1, index := 0, body := h ++ List.replicate (256 - h.length) 0 }
  let groups := (List.range 16).map fun g => ({ ty := 2, index := g, body := im.ctx.groupBytes g } : SealRec)
  let blocks := (List.range 2048).map fun b => ({ ty := 3, index := b, body := mbytes im.scratch (1024 * b) 1024 } : SealRec)
  head :: ((groups ++ blocks).filter fun r => r.body.any (· != 0)) ++ residue im.ctx

/-- The clear header. -/
def sealHeader (part : Nat) (ctxid seq : Word) (nrec : Nat) : List Byte :=
  [0x53, 0x5A, 1, 0, BitVec.ofNat 8 part, 0, 0, 0] ++ leBytes 8 ctxid.toNat ++ leBytes 8 seq.toNat ++ leBytes 4 nrec
    ++ List.replicate 36 0

def sealIv (seq : Word) : List Byte := leBytes 8 seq.toNat ++ [0, 0, 0, 0]

/-- SEALED_IMAGE_MAKE: the saved image of a slot is written to the host as ciphertext, under a sealing counter that is
used once. Made for an eviction or a migration it leaves the slot free; a fault dump leaves the image where it is. Which
of them it is made for is the chimney's to say: a free choice (log 57). -/
def execSealedImageMake (part slot : Nat) (haddr : Word) (s : State) : Out :=
  .next <|
    let p := s.part part
    let im := tget {} p.images slot
    match p.pkey with
    | none => s
    | some key =>
      if !p.alive || im.state ≠ 2 || !awake s then s
      else
        let seq := p.sealSeq + 1
        let rs := sealRecords im
        let head := sealHeader part im.ctxid seq rs.length
        let out := head ++ gcmSeal key (sealIv seq) head (rs.flatMap SealRec.bytes)
        let s : State := { s.modPart part (fun p => { p with sealSeq := seq }) with host := mwrite s.host haddr.toNat out }
        let (evict, s) := s.freeBit
        if evict then (discardImage s part slot).modTask part im.task fun t => { t with slot := none } else s

/-- Plaintext of ciphertext bytes that stand at offset o of the stream. -/
def gcmRange (key : BitVec 256) (iv : List Byte) (o : Nat) (c : List Byte) : List Byte :=
  let padded := List.replicate (o % 16) (0 : Byte) ++ c
  let ks := roundKeys (toBe 32 key.toNat)
  (((ctrGo ks (iv.map (·.toNat)) (2 + o / 16) (blocksOf (padded.map (·.toNat)))).take padded.length).drop (o % 16)).map
    (BitVec.ofNat 8)

/-- Reads n records from offset o of the ciphertext at a host address: the records and the ciphertext's length. -/
def readRecords (m : Memory) (a : Nat) (key : BitVec 256) (iv : List Byte) : Nat → Nat → List SealRec × Nat
  | 0, o => ([], o)
  | n + 1, o =>
    let h := gcmRange key iv o (mbytes m (a + o) 8)
    let len := field h 4 4
    let r : SealRec := { ty := field h 0 1, index := field h 2 2, body := gcmRange key iv (o + 8) (mbytes m (a + o + 8) len) }
    let (rs, e) := readRecords m a key iv n (o + 8 + len)
    (r :: rs, e)

/-- A record that a reader takes. -/
def SealRec.known (r : SealRec) : Bool :=
  (r.ty == 1 && r.index == 0 && r.body.length == 256)
    || (r.ty == 2 && (match groupPlace[r.index]? with | some g => r.body.length == g.2 | none => false))
    || (r.ty == 3 && r.index < 2048 && r.body.length == 1024)

/-- A restored copy command: its number is of this package, and the bytes moved and not yet credited follow from ELEM,
the record's open slot and the bytes credited (R168). -/
def CopyCmd.restored (k : CopyCmd) (f : Flue) (uid : Nat) : CopyCmd :=
  let moved := if k.produces then k.bytesDone + k.partDone f - f.sofs.toNat else k.bytesDone
  { k with uid := uid, landed := moved - k.credit.toNat }

/-- A context from its groups: engines stand at the frame's slots, finished or not as it says, and the copy commands are
this package's. The groups do not say which engine has stopped at a YIELD: where no record of the residue does, one that
has clamped and stands at the loop's RESTART slot is taken for it (log 57). -/
def ctxOfGroups (rs : List SealRec) (uid : Nat) : Ctx :=
  let c := (List.range 16).foldl (fun (c : Ctx) g =>
    match rs.find? fun r => r.ty == 2 && r.index == g with
    | some r => c.restoreGroup g r.body
    | none => c) {}
  let place (g : EngState) (a : Word) (done : Bool) : EngState :=
    { g with pc := a, done := done, stopped := match g.clamp with | some n => (g.loop n).restart == a | none => false }
  { c with ae := place c.ae c.frame.aslot c.frame.adone, xe := place c.xe c.frame.xslot c.frame.xdone
           copyq := (List.range c.copyq.length).filterMap fun i => c.copyq[i]?.map fun k =>
             k.restored (c.flue k.fd.toNat) (uid + i + 1) }

/-- The image that a stream's records give. The virtual function and queue are those of the context's task, if this
package has accepted it, else the partition's lowest function (log 57). -/
def imageOf (s : State) (part : Nat) (head : List Byte) (rs : List SealRec) : Image :=
  let c := (ctxOfGroups rs s.uid).withResidue rs
  let task := field head 0x10 8 % 2 ^ 46
  let region := field head 0x18 8 % 2 ^ 46
  let lowest := ((s.vfs.filter fun v => v.2.part == some part).map (·.1)).headD 0
  let (vf, q) := match s.taskOf part task with | some t => (t.vf, t.q) | none => (lowest, 0)
  let scratch := (rs.filter (·.ty == 3)).foldl (fun m r => mwrite m (1024 * r.index) r.body) []
  { state := 2, ctxid := BitVec.ofNat 64 (field head 8 8), task := task, region := region, lasth := field head 0x20 1
    sdcc := BitVec.ofNat 64 (field head 0x28 8), scratch := scratch
    ctx := { c with ctxid := BitVec.ofNat 64 (field head 8 8), part := part, vf := vf, task := task, region := region, queue := q } }

/-- A restored context resumes as its task (R331): the one that is saved, whose image in another slot it replaces, or,
where this package has not accepted the task, a task that is saved and belongs to no launch. -/
def adoptImage (s : State) (part slot : Nat) (im : Image) : State :=
  match s.taskOf part im.task with
  | some t =>
    let old := t.slot.filter fun i => i != slot
    if t.st = .saved ∧ old.all (fun i => (tget {} (s.part part).images i).state == 2) then
      let s := match old with | some i => discardImage s part i | none => s
      s.modTask part im.task fun t => { t with slot := some slot }
    else s
  | none =>
    let t : Task := { part := part, vf := im.ctx.vf, q := im.ctx.queue, gpa := im.task, region := im.region, st := .saved
                      slot := some slot, order := s.dcc.toNat }
    { s with fb := { s.fb with tasks := s.fb.tasks ++ [t] } }

/-- SEALED_IMAGE_RESTORE: a stream whose tag verifies and whose records are known goes into a free slot. No block of a
scratchpad then holds the context's image (R330). A partition that is being reclaimed takes none (R348). -/
def execSealedImageRestore (part slot : Nat) (haddr : Word) (s : State) : Out :=
  .next <|
    let p := s.part part
    match p.pkey with
    | none => s
    | some key =>
      if !p.alive || p.busyOp = 0x0E || p.csn ≤ slot || thas p.images slot || !awake s then s
      else
        let a := haddr.toNat
        let clear := mbytes s.host a 64
        if field clear 0 2 ≠ 0x5A53 ∨ field clear 2 1 ≠ 1 then s
        else
          let iv := sealIv (BitVec.ofNat 64 (field clear 16 8))
          let (rs, len) := readRecords s.host (a + 64) key iv (field clear 24 4) 0
          let tag := mbytes s.host (a + 64 + len) 16
          match gcmOpen key iv clear (mbytes s.host (a + 64) len) tag, rs.find? (·.ty == 1) with
          | some _, some h =>
            if rs.any fun r => r.ty < 0x80 && !r.known then s
            else match makeLive s part (field h.body 0x18 8 % 2 ^ 46) with
            | .wait t => t
            | live =>
              let s := match live with | .ok t => t | _ => s
              let im := imageOf s part h.body rs
              let s : State := { s with uid := s.uid + im.ctx.copyq.length }
              let s := noteParked (writeSparse s part (slotBase p slot) 0x280000 (slotCells im.ctx im.scratch (imageHeader im)))
              let s := s.modPart part fun p => { p with
                images := tput p.images slot im, holds := tput (p.holds.filter (·.2 != im.ctxid)) slot im.ctxid }
              let s := clearTags s nCores im.ctxid (List.range 2048)
              adoptImage s part slot im
          | _, _ => s

end Sys2Proof.Machine
end

