-- ==== Sys2Proof/Machine/Chimney.lean ====
section
/-!
DEFINITION. The chimney's commands (15 R334-R341, R345, R347-R350).
-/
set_option autoImplicit false

namespace Sys2Proof.Machine

/-! ### Command blocks (R336-R338) -/

/-- A command block as the hypervisor wrote it; `plain`: its reserved fields are 0 (R337). -/
structure Cmd where
  opc : Nat
  tag : Nat
  handle : Nat
  args : List Nat
  plain : Bool

def Cmd.arg (c : Cmd) (i : Nat) : Nat := c.args.getD i 0

def cmdAddr (s : State) : Nat := s.ch.crbase.toNat + 128 * (s.ch.crhead.toNat % 64)

/-- The block that the chimney takes next: none before bring-up, in a banked state, on an empty ring, or while 1,024
events are held (R349). -/
def cmdAt (s : State) : Option Cmd :=
  if !s.pw.ready || !awake s || s.ch.crhead == s.ch.crtail || 1024 ≤ s.ch.events.length then none
  else
    let w (o : Nat) : Nat := mrd s.host (cmdAddr s + o) 8
    some { opc := w 0 % 256, tag := w 8, handle := w 0x10, args := (List.range 9).map fun i => w (0x18 + 8 * i)
           plain := w 0 / 256 == 0 && w 0x60 / 256 == 0 && w 0x70 == 0 && w 0x78 == 0 }

/-- How a command ends: a status without any effect, an effect with the handle created, or one whose OUT the spec does
not state, an effect that goes on (PENDING), or not yet. -/
inductive Reply where
  | status (n : Nat)
  | made (s : State) (out : Word)
  | ok (s : State)
  | pending (s : State)
  | later (s : State)

/-- STATUS and OUT are written, and CRHEAD advances. -/
def answerCmd (s : State) (st : Nat) (out : Word) : State :=
  { s with host := mwrite s.host (cmdAddr s + 0x60) (leBytes 8 st ++ leBytes 8 out.toNat ++ leBytes 8 0)
           ch := { s.ch with crhead := s.ch.crhead + 1 } }

/-- An OUT that the spec does not state is a free value (log 5). -/
def answerFree (s : State) (st : Nat) : State :=
  let (w, s) := s.freeWord
  answerCmd s st w

/-- A command event: the block at CRHEAD, if it is one that this event executes; an unassigned OPC is any event's. -/
def command (mine : Cmd → Bool) (k : Cmd → Reply) (s : State) : Out :=
  .next <| match cmdAt s with
    | none => s
    | some c =>
      if c.opc = 0 ∨ 14 < c.opc then answerFree s 1
      else if !mine c then s
      else if !c.plain then answerFree s 1
      else match k c with
        | .status n => answerFree s n
        | .made s out => answerCmd s 0 out
        | .ok s => answerFree s 0
        | .pending s => answerFree s 7
        | .later s => s

/-- The first check that fails gives the status. -/
def checks (l : List (Bool × Nat)) (k : Reply) : Reply :=
  match l.find? fun c => !c.1 with
  | some c => .status c.2
  | none => k

/-- A handle's partition. -/
def partOf (s : State) (h : Nat) : Option Nat :=
  (s.parts.find? fun p => p.2.alive && p.2.handle.toNat == h).map (·.1)

/-- A command that names a partition: BADCMD by its arguments, BADHANDLE, BUSY; then what it does. -/
def onPart (s : State) (c : Cmd) (good : Bool) (k : Nat → Part → Reply) : Reply :=
  if !good then .status 1
  else match partOf s c.handle with
    | none => .status 2
    | some p => if (s.part p).busyOp ≠ 0 then .status 5 else k p (s.part p)

def Part.permits (p : Part) (opc : Nat) : Bool := p.policy.cmds.getLsbD opc

/-- A handle that no object has had since cold reset (R335, log 43). -/
def newHandle (s : State) : Word × State :=
  let h := s.ch.handles + 1
  (h, { s with ch := { s.ch with handles := h } })

/-! ### Policy blobs (R340, R341) -/

/-- The fields of a blob that passes R341. -/
def policyOf (s : State) (a len : Nat) : Option Policy :=
  let l := mbytes s.host a 512
  let w (o n : Nat) : Nat := field l o n
  let zero (o n : Nat) : Bool := ((l.drop o).take n).all (· == 0)
  let p : Policy := {
    pver := BitVec.ofNat 32 (w 4 4), tkey := (l.drop 8).take 97, rmin := w 108 1, rmax := w 109 1, dies := BitVec.ofNat 8 (w 110 1)
    vfmax := w 111 1, fmax := w 112 4, qmin := w 116 1, slmin := w 118 2, qumin := w 120 4, qumax := w 124 4
    cmds := BitVec.ofNat 16 (w 128 2), flags := BitVec.ofNat 8 (w 130 1), peers := BitVec.ofNat 256 (w 132 32)
    hash := BitVec.ofNat 384 (beNat (sha384 l)) }
  let fixed := len == 512 && w 0 2 == 0x5950 && w 2 1 == 1 && zero 3 1 && zero 105 3 && zero 117 1 && zero 131 1 && zero 164 252
  let ranges := 1 ≤ p.rmin && p.rmin ≤ p.rmax && p.rmax ≤ 24 && 1 ≤ p.vfmax && p.vfmax ≤ 64 && 4 ≤ p.qmin && p.qmin ≤ 32
    && p.slmin ≤ 504 && 100 ≤ p.qumin && p.qumin ≤ p.qumax && p.qumax ≤ 100000
  match pointOf p.tkey with
  | some q => if fixed && ranges && ecdsaCheck q (l.take 416) (l.drop 416) then some p else none
  | none => none

def Policy.dieOk (p : Policy) (d : Nat) : Bool := p.dies.getLsbD d

/-- Rafters of a mask, and the limits on them. -/
def raftersOf (m : BitVec 24) : List Nat := (List.range 24).filter m.getLsbD
def Policy.raftersOk (p : Policy) (m : BitVec 24) : Bool :=
  let n := (raftersOf m).length
  p.rmin ≤ n && n ≤ p.rmax && (raftersOf m).all fun r => p.dieOk (r / 12)
/-- Frame counts of the two dies beside the host frames already held: the total, and all of them on permitted dies. -/
def Policy.framesOk (p : Policy) (held : List Nat) (n0 n1 : Nat) : Bool :=
  held.length + n0 + n1 ≤ p.fmax && (n0 == 0 || p.dieOk 0) && (n1 == 0 || p.dieOk 1) && held.all fun f => p.dieOk (f / 2 ^ 21)

/-! ### Frames, rafters, slices, slots -/

/-- The host frames of a partition's allotment. -/
def Part.allotment (p : Part) : List Nat :=
  (p.s2.flatMap fun e => (if e.remote then [] else [e.frame.toNat]) ++ (if e.repd0 then [e.rframe0.toNat] else [])
    ++ (if e.repd1 then [e.rframe1.toNat] else [])) ++ p.freeFrames ++ p.leaving.map (·.2) |>.eraseDups

/-- Frames of the allotment that are being filled for a request (R234, R235). -/
def State.allotment (s : State) (part : Nat) : List Nat :=
  (s.part part).allotment ++ s.hobReqs.filterMap fun r => if r.part = part then r.frame else none

def usedFrames (s : State) : List Nat := s.parts.flatMap fun p => if p.2.alive then s.allotment p.1 else []

/-- The stage-2 area, which belongs to no partition (R334, R361): two frames for each partition, the highest of die 0
(DESIGN CHOICE, log 88). -/
def stage2Area : Nat := hbmFrames - 48
def stage2Base (n : Nat) : Nat := (stage2Area + 2 * n) * frameSize

/-- Every entry of a partition's stage-2 array from g on goes into HBM. -/
def storeArray (s : State) (n g : Nat) : State :=
  (List.range ((s.part n).s2.length - g)).foldl (fun s i => s.storeStage2 n (g + i)) s

/-- The n lowest frames from `a` upward that are not used. -/
def takeFrames (used : List Nat) : Nat → Nat → Nat → List Nat
  | 0, _, _ => []
  | fuel + 1, n, a =>
    if n = 0 then []
    else if used.contains a then takeFrames used fuel n (a + 1)
    else a :: takeFrames used fuel (n - 1) (a + 1)

/-- Frames for the two counts, in ascending order, die 0 first; none when they are not free. -/
def framesFor (s : State) (n0 n1 : Nat) : Option (List Nat) :=
  let used := usedFrames s
  let l0 := takeFrames used stage2Area n0 0
  let l1 := takeFrames used hbmFrames n1 (2 ^ 21)
  if l0.length = n0 ∧ l1.length = n1 then some (l0 ++ l1) else none

def frameEntry (f : Nat) : S2Ent := { v := true, frame := BitVec.ofNat 25 f }

/-- Rafters that no other partition holds. -/
def raftersFree (s : State) (me : Option Nat) (m : BitVec 24) : Bool :=
  s.parts.all fun p => !p.2.alive || some p.1 == me || (p.2.rafters &&& m) == 0

/-- The scrub of rafters before their new owner can dispatch to them (R20); FFRAME keeps its value (R320). -/
def scrubRafters (s : State) (l : List Nat) : State :=
  (l.flatMap fun r => (List.range 8).map (8 * r + ·)).foldl (fun s h =>
    s.modHearth h fun x => { Hearth.initial h with latch := x.latch, ffaddr := x.ffaddr }) s

/-- A context stands in a half of a hearth of these rafters. -/
def raftersBusy (s : State) (l : List Nat) : Bool :=
  l.any fun r => (List.range 8).any fun c =>
    let x := s.hearth (8 * r + c)
    x.run != .free || x.out.isSome || x.pre.isSome

/-- The total of a reservation over the other partitions stays within a limit in every slice. -/
def reserveOk (s : State) (part lim new : Nat) (f : SliceCfg → Nat) : Bool :=
  (List.range 64).all fun i =>
    ((((s.slice i).cfg.filter fun c => c.1 != part).map fun c => f c.2).foldl (· + ·) 0) + new ≤ lim

def setReserve (s : State) (part : Nat) (f : SliceCfg → SliceCfg) : State :=
  (List.range 64).foldl (fun s i => s.modSlice i fun x => { x with cfg := tput x.cfg part (f (tget {} x.cfg part)) }) s

/-- OWNER of an entry of a die's slot table (R16). -/
def slotOwner (s : State) (die i : Nat) : Nat :=
  if 504 ≤ i then 31 else (tget 30 (if die = 0 then s.fab.slots0 else s.fab.slots1) i).toNat

/-- The owner to whom a die's table grants injection on its ring in this tick: entry DCC mod 512 (R16); 24-30 are shared
traffic and 31 the sweep. -/
def slotGrant (s : State) (die : Nat) : Nat := slotOwner s die (s.dcc.toNat % 512)

/-- A partition's new entry mask over one table. -/
def setSlots (t : Tbl (BitVec 5)) (part : Nat) (m : BitVec 512) : Tbl (BitVec 5) :=
  (List.range 504).foldl (fun t i =>
    if m.getLsbD i then tput t i (BitVec.ofNat 5 part)
    else if (tget 30 t i).toNat = part then tdel t i else t) t

/-- The tables once every SLOTS command that has completed has taken effect. -/
def withNewSlots (s : State) : State :=
  s.fab.newSlots.foldl (fun s c =>
    let f := s.fab
    { s with fab := if c.2.1 = 0 then { f with slots0 := setSlots f.slots0 c.1 c.2.2 } else { f with slots1 := setSlots f.slots1 c.1 c.2.2 } }) s

/-- SLOT_TABLE_UPDATE: completed SLOTS commands take effect at a tick with DCC mod 512 = 0 (R339). -/
def execSlotTableUpdate (s : State) : Out :=
  .next <| if s.dcc.toNat % 512 = 0 then
      let t := withNewSlots s
      { t with fab := { t.fab with newSlots := [] } }
    else s

/-! ### Slice lists (R345) -/

/-- A virtual function has work: a task that has not ended, or a held doorbell. -/
def hasWork (s : State) (v : Nat) : Bool :=
  s.fb.tasks.any (fun t => t.vf == v) || s.fb.queues.any fun q => q.1 / 4096 == v && q.2.heldSince.isSome

/-- Hearths with a context of a virtual function that a SAVE would reach. -/
def contextsOf (s : State) (part v : Nat) : List Nat :=
  (s.hearths.filter fun (p : Nat × Hearth) => s.ownerOf p.1 == some part && p.2.taskCtx.vf == v
    && (match p.2.serves with | .deadlock _ _ => false | _ => !p.2.ended)
    && (match p.2.run with | .running | .handler | .stopping | .stopped => true | _ => false)
    && (match p.2.req with | none => true | some _ => false)).map (·.1)

/-- SAVE requests to the contexts of a virtual function, each for which a slot is free (R324, R327). -/
def saveContexts (s : State) (part v : Nat) : State := (contextsOf s part v).foldl (fun s h => s.pushDue (.preemptRequest h .save)) s

/-- Cycles of a quantum in µs. -/
def quantumCycles (us : Nat) : Nat := 1700 * us

/-- Images preloaded for virtual functions of a partition that may not run now are given up (R345). -/
def dropPreloads (s : State) (part : Nat) (gone : Nat → Bool) : State :=
  (s.hearths.map (·.1)).foldl (fun s h =>
    if (s.hearth h).pre.isSome && s.ownerOf h == some part && gone (s.hearth h).preCtx.vf then dropPre s h else s) s

/-- The place `i` of the list becomes current now, with a fresh quantum. -/
def makeCurrent (s : State) (part i : Nat) : State :=
  let p := s.part part
  match p.slist[i]? with
  | none => s.modPart part fun p => { p with pos := 0, cur := 64, qleft := 0 }
  | some (v, us) =>
    let s := if v = p.cur then s else saveContexts (dropPreloads s part (· != v)) part p.cur
    s.modPart part fun p => { p with pos := i, cur := v, qleft := quantumCycles us }

/-- The place after the current one whose virtual function has work and is not paused; else the current place. -/
def nextPlace (s : State) (p : Part) : Nat :=
  let n := p.slist.length
  let ok (i : Nat) : Bool := match p.slist[i]? with
    | some (v, _) => hasWork s v && !(s.vf v).paused
    | none => false
  (((List.range (n - 1)).map fun i => (p.pos + 1 + i) % n).find? ok).getD p.pos

/-- The current virtual function keeps its place in a new list, else the first of the list becomes current. -/
def relist (s : State) (part : Nat) (l : List (Nat × Nat)) (fresh : Bool) : State :=
  let cur := (s.part part).cur
  let s := s.modPart part fun p => { p with slist := l }
  match l.findIdx? fun e => e.1 == cur with
  | some i => if fresh then makeCurrent s part i else s.modPart part fun p => { p with pos := i }
  | none => makeCurrent s part 0

/-- The virtual functions of a partition, ascending. -/
def vfsOf (s : State) (part : Nat) : List Nat := (s.vfs.filter fun v => v.2.part == some part).map (·.1)

/-- The list after an assignment has changed: every assigned function with 2 ms until a SCHED is issued. -/
def relistVfs (s : State) (part : Nat) : State :=
  let p := s.part part
  let vs := vfsOf s part
  relist s part (if p.schedSet then p.slist.filter fun e => vs.contains e.1 else vs.map fun v => (v, 2000)) false

/-- QUANTUM_END: the current quantum of a partition has run out. -/
def execQuantumEnd (part : Nat) (s : State) : Out :=
  .next <|
    let p := s.part part
    if !p.alive || p.qleft ≠ 0 || p.slist.isEmpty then s else makeCurrent s part (nextPlace s p)

/-! ### CREATE to CSTORE -/

def execCreate (s : State) : Out :=
  command (·.opc == 1) (fun c =>
    let m := BitVec.ofNat 24 (c.arg 2)
    let good := c.handle == 0 && c.arg 2 / 2 ^ 24 == 0 && m != 0 && c.arg 3 ≤ hbmFrames && c.arg 4 ≤ hbmFrames && c.arg 5 / 2 == 0
    if !good then .status 1
    else match policyOf s (c.arg 0) (c.arg 1) with
      | none => .status 6
      | some pol =>
        let fix := c.arg 5 % 2 == 1
        let q := max 4 pol.qmin
        let num := (List.range 24).find? fun i => !(s.part i).alive
        match num, framesFor s (c.arg 3) (c.arg 4) with
        | some n, some fs =>
          checks [(pol.raftersOk m && pol.framesOk [] (c.arg 3) (c.arg 4) && (!fix || pol.flags.getLsbD 0), 3),
                  (raftersFree s none m && reserveOk s n 128 q (·.rsvq.toNat), 4)] <|
            let (h, s) := newHandle s
            let s := s.setPart n { alive := true, handle := h, rafters := m, s2 := fs.map frameEntry
                                   s2base := some (stage2Base n), fixclk := fix, policy := pol }
            .made (setReserve (storeArray (scrubRafters s (raftersOf m)) n 0) n fun _ => { rsvq := BitVec.ofNat 8 q }) h
        | _, _ =>
          checks [(pol.raftersOk m && pol.framesOk [] (c.arg 3) (c.arg 4) && (!fix || pol.flags.getLsbD 0), 3)] (.status 4)) s

def execRafters (s : State) : Out :=
  command (·.opc == 2) (fun c =>
    let m := BitVec.ofNat 24 (c.arg 0)
    onPart s c (c.arg 0 / 2 ^ 24 == 0 && m != 0) fun n p =>
      checks [(!raftersBusy s (raftersOf (p.rafters &&& ~~~m)), 5), (p.permits 2 && p.policy.raftersOk m, 3),
              (raftersFree s (some n) m, 4)] <|
        .ok (scrubRafters (s.modPart n fun p => { p with rafters := m }) (raftersOf (m &&& ~~~p.rafters)))) s

def execGrow (s : State) : Out :=
  command (·.opc == 3) (fun c =>
    onPart s c (c.arg 3 ≤ hbmFrames && c.arg 4 ≤ hbmFrames) fun n p =>
      checks [(p.permits 3 && p.policy.framesOk (s.allotment n) (c.arg 3) (c.arg 4), 3)] <|
        match framesFor s (c.arg 3) (c.arg 4) with
        | some fs => .ok (storeArray (s.modPart n fun p => { p with s2 := p.s2 ++ fs.map frameEntry }) n p.s2.length)
        | none => .status 4) s

/-- Entries of a die's table that a partition owns. -/
def ownedSlots (s : State) (n die : Nat) : Nat := ((List.range 504).filter fun i => slotOwner s die i == n).length

/-- SLOTS. Every permitted die keeps SLMIN entries, as the tables will stand when the changes already accepted have
taken effect (R341, log 89). -/
def execSlots (s : State) : Out :=
  command (·.opc == 4) (fun c =>
    let die := c.arg 0
    let m := BitVec.ofNat 512 ((List.range 8).foldl (fun a i => a + c.arg (i + 1) * 2 ^ (64 * i)) 0)
    let set := (List.range 512).filter m.getLsbD
    onPart s c (die ≤ 1 && set.all (· < 504)) fun n p =>
      let after := withNewSlots s
      checks [(p.permits 4 && (set.isEmpty || p.policy.dieOk die)
                && [0, 1].all fun d => !p.policy.dieOk d || p.policy.slmin ≤ if d == die then set.length else ownedSlots after n d, 3),
              (set.all fun i => let o := slotOwner after die i; 24 ≤ o || o == n, 4)] <|
        .ok { s with fab := { s.fab with newSlots := s.fab.newSlots ++ [(n, die, m)] } }) s

def execQuota (s : State) : Out :=
  command (·.opc == 5) (fun c =>
    let a := c.arg 0
    let q := bits a 0 8
    let sq := bits a 8 4
    let ple := bits a 22 14
    onPart s c (a / 2 ^ 36 == 0 && 4 ≤ q && q ≤ 32 && (sq == 0 || 4 ≤ sq) && ple ≤ 8192) fun n p =>
      let others := ((s.parts.filter fun x => x.2.alive && x.1 != n).map fun x => x.2.ple).foldl (· + ·) 0
      checks [(p.permits 5 && p.policy.qmin ≤ q, 3),
              (reserveOk s n 128 q (·.rsvq.toNat) && reserveOk s n 128 sq (·.rsvs.toNat) && others + ple ≤ 8192, 4)] <|
        .ok (settle (setReserve (s.modPart n fun p => { p with ple := ple }) n fun _ =>
          { rsvq := BitVec.ofNat 8 q, rsvs := BitVec.ofNat 4 sq, tok := BitVec.ofNat 10 (bits a 12 10) }))) s

def execCstore (s : State) : Out :=
  command (·.opc == 6) (fun c =>
    let base := c.arg 0
    let n := c.arg 1
    let good := base % frameSize == 0 && 1 ≤ n && n ≤ 1024 && base + n * 0x280000 ≤ 2 ^ 46
    if !good then .status 1
    else match partOf s c.handle with
      | none => .status 2
      | some i =>
        if !translatable s i base (n * 0x280000) then .status 1
        else onPart s c true fun i p =>
          checks [(p.images.isEmpty, 5), (p.permits 6, 3)] <|
            .ok (s.modPart i fun p => { p with csbase := base, csn := n, holds := [] })) s

/-! ### ASSIGN, SCHED and PAUSE -/

def execAssign (s : State) : Out :=
  command (fun c => c.opc == 7 && !natBool (c.arg 0 / 64)) (fun c =>
    onPart s c (c.arg 0 < 128) fun n p =>
      let v := c.arg 0 % 64
      checks [(p.permits 7 && (vfsOf s n).length < p.policy.vfmax, 3), ((s.vf v).part.isNone, 4)] <|
        let (h, s) := newHandle s
        .made (relistVfs (s.setVf v { part := some n, handle := h }) n) h) s

/-- Every launch of a virtual function is aborted, with the restored tasks that belong to none, and its queues are torn
down (R308). -/
def abortVf (s : State) (v : Nat) : State :=
  let s : State := { s with fb := { s.fb with queues := s.fb.queues.map fun (q : Nat × Queue) =>
    if q.1 / 4096 = v ∧ q.2.tdown ≠ 3 then (q.1, { q.2 with tdown := 2 }) else q } }
  let s := (s.fb.launches.filter fun l => l.2.vf == v).foldl (fun s l => abortLaunch s l.1 0 0) s
  settle ((s.fb.tasks.filter fun t => t.vf == v && !thas s.fb.launches t.launch && !ending s t.part t.gpa).foldl abortTask s)

/-- A virtual function as unassigned: its registers, keys, queues and doorbells are gone (R339). -/
def resetVf (s : State) (v : Nat) : State :=
  { s with
    vfs := tdel s.vfs v
    fb := { s.fb with queues := s.fb.queues.filter (fun q => q.1 / 4096 != v), bells := s.fb.bells.filter (·.vf != v) }
    pw := { s.pw with held := s.pw.held.filter (·.vf != v) } }

/-- UNASSIGN: the virtual function's launches are aborted first, and the command ends once they have ended. -/
def execUnassign (s : State) : Out :=
  command (fun c => c.opc == 7 && natBool (c.arg 0 / 64)) (fun c =>
    let v := c.arg 0 % 64
    if 128 ≤ c.arg 0 then .status 1
    else match partOf s c.handle with
      | none => .status 2
      | some i =>
        if (s.vf v).part ≠ some i then .status 1
        else onPart s c true fun n p =>
          checks [(p.permits 7, 3)] <|
            let s := abortVf s v
            if (s.fb.launches.any fun l => l.2.vf == v) || s.fb.tasks.any (fun t => t.vf == v) then .later s
            else .ok (relistVfs (resetVf s v) n)) s

def execSched (s : State) : Out :=
  command (·.opc == 8) (fun c =>
    let n := c.arg 0
    let es := (List.range n).map fun i => c.arg (i + 1)
    if n = 0 || 8 < n || es.any fun e => bits e 6 26 != 0 then .status 1
    else match partOf s c.handle with
      | none => .status 2
      | some i =>
        let l := es.map fun e => (e % 64, bits e 32 32)
        if l.any fun e => (s.vf e.1).part != some i then .status 1
        else onPart s c true fun i p =>
          checks [(p.permits 8 && l.all fun e => p.policy.qumin ≤ e.2 && e.2 ≤ p.policy.qumax, 3)] <|
            .ok (relist (s.modPart i fun p => { p with schedSet := true }) i l true)) s

/-- A command that names a virtual function. -/
def onVf (s : State) (c : Cmd) (k : Nat → Nat → Part → Reply) : Reply :=
  match s.vfs.find? fun v => v.2.part.isSome && v.2.handle.toNat == c.handle with
  | none => .status 2
  | some (v, f) =>
    let i := f.part.getD 0
    if (s.part i).busyOp = 0x0E then .status 5
    else if !(s.part i).permits 9 then .status 3
    else k v i (s.part i)

/-- PAUSE, which also answers for an ARG0 that is neither 0 nor 1. -/
def execPause (s : State) : Out :=
  command (fun c => c.opc == 9 && c.arg 0 != 1) (fun c =>
    if c.arg 0 ≠ 0 then .status 1
    else onVf s c fun v i p =>
      if (s.vf v).paused then .ok s
      else if p.csn - p.images.length < (contextsOf s i v).length then .status 4
      else
        let s := saveContexts (dropPreloads (s.modVf v fun f => { f with paused := true }) i (· == v)) i v
        .ok (if p.cur = v then
            let n := nextPlace s p
            if n = p.pos then s else makeCurrent s i n
          else s)) s

def execVfResume (s : State) : Out :=
  command (fun c => c.opc == 9 && c.arg 0 == 1) (fun c =>
    onVf s c fun v _ _ => .ok (s.modVf v fun f => { f with paused := false })) s

/-! ### EVICT and BACKING (R234, R347) -/

/-- EVICT: the frames become non-resident; their writing to the backing goes on. -/
def execEvict (s : State) : Out :=
  command (·.opc == 10) (fun c =>
    let g := c.arg 0
    let n := c.arg 1
    if 2 ^ 25 < g + n then .status 1
    else match partOf s c.handle with
    | none => .status 2
    | some i =>
      let all := (List.range n).map (g + ·)
      if all.any fun g => match s.stage2 i g with | some e => e.remote | none => true then .status 1
      else onPart s c true fun i p =>
        checks [(p.permits 10 && p.policy.flags.getLsbD 1, 3), (p.pkey.isSome && (g + n) * backSlot ≤ p.backLen.toNat, 4)] <|
          let go := all.filter fun g => match s.stage2 i g with | some e => !e.nr | none => false
          let s := go.foldl (fun s g => (dropReplicas s i g).setStage2 i g fun e => { e with nr := true }) s
          let s := s.modPart i fun p => { p with busyOp := 10, busyTag := BitVec.ofNat 64 c.tag, busyFrames := go }
          .pending (go.foldl (fun s g => publishFrame s i g) (refreshWindows s i))) s

/-- A hearth of the partition waits for a line of the frame. -/
def frameFetched (s : State) (part g : Nat) : Bool :=
  s.hearths.any fun p => s.ownerOf p.1 == some part && (match p.2.fetch with | some a => a / frameSize == g | none => false)

/-- One frame is written to its backing slot under a new version and the partition key, and freed (R347). -/
def sealFrame (s : State) (part g : Nat) : State :=
  match s.stage2 part g with
  | none => s
  | some e =>
    let p := s.part part
    let f := e.frame.toNat
    let version := tget 0 p.versions g + 1
    let slot := sealedSlot (p.pkey.getD 0) g version (mbytes s.mem (f * frameSize) frameSize)
    let s : State := { s with host := mwrite s.host (p.backBase.toNat + g * backSlot) slot }
    s.modPart part fun p => { p with versions := tput p.versions g version, freeFrames := p.freeFrames ++ [f] }

/-- EVICT_COMPLETE: every access to the frames has ended (R234); the event is posted (R338). -/
def execEvictComplete (part : Nat) (s : State) : Out :=
  .next <|
    let p := s.part part
    if p.busyOp ≠ 10 || !awake s || p.busyFrames.any fun g => frameBusy s part g || frameFetched s part g then s
    else
      let s := p.busyFrames.foldl (fun s g => sealFrame s part g) s
      postEvent (s.modPart part fun p => { p with busyOp := 0, busyFrames := [] }) 1 0 p.busyTag 0 0

def execBacking (s : State) : Out :=
  command (·.opc == 11) (fun c =>
    onPart s c true fun i p => checks [(p.permits 11, 3)] <|
      .ok (s.modPart i fun p => { p with backBase := BitVec.ofNat 64 (c.arg 0), backLen := BitVec.ofNat 64 (c.arg 1) })) s

/-! ### ROUTE and POLICY -/

/-- ROUTE: the peer's answer is opaque (log 8). -/
def execRoute (s : State) : Out :=
  command (·.opc == 12) (fun c =>
    let a := c.arg 0
    let peer := bits a 0 8
    let ports := BitVec.ofNat 12 (bits a 8 12)
    let pp := bits a 20 5
    onPart s c (a / 2 ^ 25 == 0 && pp < 24) fun i p =>
      let up := (List.range 12).any fun n => ports.getLsbD n && !s.fab.portDown.contains n
      checks [(p.permits 12 && p.policy.peers.getLsbD peer, 3), (up && Config.peerAttests peer pp s.free, 4)] <|
        let s := s.modPart i fun p => { p with routes := tput p.routes peer { ports := ports, ppart := pp } }
        .ok { s with free := s.free + 1, fab := { s.fab with lost := s.fab.lost.filter (· != 256 * i + peer) } }) s

def execPolicy (s : State) : Out :=
  command (·.opc == 13) (fun c =>
    onPart s c true fun i p =>
      match policyOf s (c.arg 0) (c.arg 1) with
      | none => .status 6
      | some new =>
        checks [(p.policy.pver.toNat < new.pver.toNat && new.tkey == p.policy.tkey, 6), (p.permits 13, 3)] <|
          .ok (s.modPart i fun p => { p with policy := new })) s

/-! ### RECLAIM (R348) -/

/-- RECLAIM: launches, contexts and images of the partition begin to end. -/
def execReclaim (s : State) : Out :=
  command (·.opc == 14) (fun c =>
    onPart s c true fun i p =>
      let s := s.modPart i fun p => { p with busyOp := 14, busyTag := BitVec.ofNat 64 c.tag }
      let s := p.images.foldl (fun s m => setImage s i m.1 { m.2 with discard := true }) s
      let s := (vfsOf s i).foldl abortVf s
      -- contexts restored while no function was assigned (R331)
      let s := settle ((s.fb.tasks.filter fun t => t.part == i && !(vfsOf s i).contains t.vf && !ending s t.part t.gpa).foldl abortTask s)
      let alone := (s.hearths.filter fun (x : Nat × Hearth) => s.ownerOf x.1 == some i
        && (match x.2.serves with | .deadlock _ _ => true | _ => false)).map (·.1)
      let s := alone.foldl (fun s h => s.pushDue (.preemptRequest h .abort)) s
      .pending ((List.range p.s2.length).foldl (fun s g => match s.stage2 i g with
        | some e => if e.hasReplica then dropReplicas s i g else s
        | none => s) s)) s

/-- Nothing of the partition is under way any more. -/
def partQuiet (s : State) (part : Nat) : Bool :=
  !(s.fb.tasks.any fun t => t.part == part) && !(s.fb.launches.any fun l => l.2.part == part)
    && !(s.hearths.any fun x => s.ownerOf x.1 == some part && (x.2.run != .free || x.2.out.isSome || x.2.pre.isSome))
    && !(s.ocm.any fun m => s.ownerOf m.src == some part) && !(anyOp s fun op => op.part == part)
    && !(s.slices.any fun x => x.2.accq.any (fun m => m.part == part) || x.2.accoq.any fun m => m.part == part)
    && !(s.seqMsgs.any fun m => m.part == part)

/-- Slices without a partition's reservations, keys and pending contributions. -/
def Slice.withoutPart (x : Slice) (part : Nat) : Slice :=
  { x with rob := x.rob.filter (·.part != part), tokens := tdel x.tokens part, cfg := tdel x.cfg part
           keys := x.keys.filter (·.part != part), pairs := x.pairs.filter (·.part != part) }

/-- RECLAIM_COMPLETE: the partition's memory and on-chip state are zero, and every trace of it is gone. -/
def execReclaimComplete (part : Nat) (s : State) : Out :=
  .next <|
    let p := s.part part
    if p.busyOp ≠ 14 || !awake s || !partQuiet s part then s
    else
      let fs := s.allotment part ++ match p.s2base with | some b => [b / frameSize, b / frameSize + 1] | none => []
      let s : State := { s with
        mem := s.mem.filter fun c => !fs.contains (c.1 / frameSize)
        poison := s.poison.filter fun a => !fs.contains (a / frameSize)
        slices := s.slices.map fun (x : Nat × Slice) => (x.1, x.2.withoutPart part)
        hobReqs := s.hobReqs.filter (·.part != part), peerAsks := s.peerAsks.filter (·.part != part)
        fab := { s.fab with
          slots0 := setSlots s.fab.slots0 part 0, slots1 := setSlots s.fab.slots1 part 0
          newSlots := s.fab.newSlots.filter fun c => c.1 != part }
        fb := { s.fb with regions := s.fb.regions.filter (·.part != part), unread := s.fb.unread.filter fun u => u.1 != part
                          ends := s.fb.ends.filter (·.part != part), owed := s.fb.owed.filter (·.part != part) } }
      let s := scrubRafters s (raftersOf p.rafters)
      let s := (vfsOf s part).foldl resetVf s
      let s : State := { s with parts := tdel s.parts part, pw := { s.pw with gates := tdel s.pw.gates part } }
      postEvent s 1 0 p.busyTag 0 0

end Sys2Proof.Machine
end

