-- ==== Sys2Proof/Machine/Control.lean ====
section
/-!
DEFINITION. Branches, predicates, loops, traps and the stop at YIELD (04 R83-R88, R95-R97).
-/
set_option autoImplicit false

namespace Sys2Proof.Machine

/-! ### Predicates (R85, R86) -/

def execPcmp (g : Guard) (c : Cond) (s1 s2 : Src) (ty : DType) (s : State) : Out :=
  common g s (pushPred s (predEntry (compareTy c ty (s.src s1).toNat (s.src s2).toNat)))

def setPreds (s : State) (l : List Word) : Res := .done (s.setEs { s.es with preds := l })
def underflow (s : State) : Res := .trap s .pstackUnder s.pc

def execPnot (g : Guard) (s : State) : Out :=
  common g s <| match s.es.preds with
    | [] => underflow s
    | m :: r => setPreds s (~~~m :: r)

/-- PAND and POR: the top with entry j below it. -/
def combinePred (f : Word → Word → Word) (j : Nat) (s : State) : Res :=
  match s.es.preds, s.es.preds[j]? with
  | m :: r, some n => setPreds s (f m n :: r)
  | _, _ => underflow s

def execPand (g : Guard) (j : BitVec 5) (s : State) : Out := common g s (combinePred (· &&& ·) j.toNat s)
def execPor (g : Guard) (j : BitVec 5) (s : State) : Out := common g s (combinePred (· ||| ·) j.toNat s)

def execPpop (g : Guard) (n : BitVec 5) (s : State) : Out :=
  common g s (if s.es.preds.length < n.toNat then underflow s else setPreds s (s.es.preds.drop n.toNat))

/-! ### Branches (R83, R84) -/

/-- A write of a branch target register starts the fetch of the target's line; a failed fetch is dropped (R31). -/
def prepareTarget (b : Reg) (t : Word) (s : State) : Res :=
  let s := s.setBreg b t
  .done (if s.es.icache.any (·.1 == (lineOf t).toNat) then s else askAhead s s.cur s.eng (lineOf t) 0)

def execPbr (g : Guard) (b : Reg) (disp : BitVec 32) (s : State) : Out :=
  common g s (prepareTarget b (s.pc + disp.signExtend 64) s)
def execPbrr (g : Guard) (b : Reg) (s1 : Reg) (ofs : BitVec 32) (s : State) : Out :=
  common g s (prepareTarget b (s.reg s1 + ofs.signExtend 64) s)

def execBr (g : Guard) (b : Reg) (s : State) : Out := common g s (.jump s (s.breg b))

def execBrl (g : Guard) (d : Reg) (b : Reg) (s : State) : Out :=
  common g s <| match advanceIn s.es.buf s.pc with
    | .error (code, a) => .trap s code a
    | .ok link => .jump (s.setBreg d link) (s.breg b)

/-! ### Loops (R87) -/

/-- advance(e, a) for an END slot that may stand in another line, whose checks R50 gives. -/
def advanceEnd (s : State) (a : Word) (k : State → Word → Res) : Res :=
  if (a - lineOf a).toNat < 52 then k s (a + 12)
  else if lineOf a = lineOf s.pc then
    match advanceIn s.es.buf a with
    | .ok t => k s t
    | .error (code, b) => .trap s code b
  else match lineHere s (lineOf a) with
    | (false, s) => .wait s false
    | (true, s) => match readLine s s.cur (lineOf a) with
    | .error c => codeTrap s c (lineOf a) (lineOf a)
    | .ok (w, s) =>
      let (w, s) := cachedLine s (lineOf a) w
      match linkFault s.eng w with
      | some c => .trap s c (lineOf a)
      | none => match advanceIn w a with
        | .ok t => k s t
        | .error (code, b) => .trap s code b

/-- LOOP and LOOPP: `pipe` gives LOOPP's count register, completed-iteration register and restart slot. -/
def startLoop (l : Reg) (n : Word) (disp : BitVec 32) (pipe : Option (Reg × Reg × Word)) (s : State) : Res :=
  let x := s.es
  let pc := s.pc
  let k := l.toNat - 8
  let stop := pc + disp.signExtend 64
  let rst := match pipe with | some (_, _, r) => r | none => 0
  req s (isSlot stop) .slotAlign stop <|
  req s (pipe.isNone || isSlot rst) .slotAlign rst <|
  req s (!(x.nest.any fun j => (x.loop j).active && (x.loop j).stop == pc)) .loopNest pc <|
  req s (stop != pc) .loopNest pc <|
  req s (!(x.loop k).active || x.nest.head? == some k) .loopNest pc <|
  req s (n.toNat < 2 ^ 32) .loopCount pc <|
    if n = 0 then advanceEnd s stop fun s t => .jump (s.setEs (s.es.deactivate k)) t
    else match advanceIn x.buf pc with
      | .error (code, a) => .trap s code a
      | .ok start =>
        let x := x.deactivate k
        let v : Loop := { remain := n.setWidth 32, active := true, pipe := pipe.isSome
                          cntReg := (match pipe with | some (c, _, _) => c | none => 0)
                          doneReg := (match pipe with | some (_, d, _) => d | none => 0)
                          start := start, stop := stop, restart := rst }
        .jump ((s.setEs { x.setLoop k v with nest := k :: x.nest }).cleanImage (ctlOfs s.eng + 0x40 + 32 * k) 32) start

def execLoop (g : Guard) (l : Reg) (s1 : Src) (disp : BitVec 32) (s : State) : Out :=
  common g s (startLoop l (s.src s1) disp none s)

def execLoopp (g : Guard) (l : Reg) (s1 s2 : Reg) (b : Reg) (disp : BitVec 32) (s : State) : Out :=
  common g s (startLoop l (s.reg s1) disp (some (s1, s2, s.breg b)) s)

/-! ### R95-R97 -/

/-- YIELD: with a request pending the engine stops before its next instruction, and its clamp record stays until the
resume (R96, R390); with none, a clamped engine goes to the RESTART slot of its loop. At the END slot of a LOOPP its own
end-of-slot step may clamp as it stops (DESIGN CHOICE, log 97). -/
def execYield (g : Guard) (s : State) : Out :=
  common g s <|
    let x := s.es
    if s.me.pending then
      match x.clamp with
      | some n => .stay (s.setEs { x with stopped := true, pc := (x.loop n).restart })
      | none =>
        match endOfSlot s.eng true s.ctx with
        | (c, .ok t) => .stay ((s.setCtx c).setEs { c.es s.eng with stopped := true, pc := t })
        | (c, .error (code, a)) => .trap (s.setCtx c) code a
    else
      match x.clamp with
      | some n => .jump (s.setEs { x with clamp := none }) (x.loop n).restart
      | none => .done s

/-- TRAP: the fault; its end-of-slot step is taken at the stop, if the stop records it (`trapStep`, R97). -/
def execTrap (g : Guard) (code : BitVec 32) (s : State) : Out := common g s (.trap s .trap (code.setWidth 64))

end Sys2Proof.Machine
end

