-- ==== Sys2Proof/Machine/HostIo.lean ====
section
/-!
DEFINITION. A virtual function's sealed transfers and attestation, and writes of the host to the registers of the physical
and virtual functions (15 R336, R342-R344, 16 R351, R361).
-/
set_option autoImplicit false

namespace Sys2Proof.Machine

/-! ### Transfers (R343, R344) -/

/-- A transfer entry. -/
structure TxEnt where
  dir : Nat
  haddr : Nat
  gpa : Nat
  len : Nat
  good : Bool

/-- An entry is malformed by a nonzero reserved byte, a DIR, or a LEN out of range (R344, log 45). -/
def txEnt (l : List Byte) : TxEnt :=
  let dir := field l 0 1
  let len := field l 24 4
  let gpa := field l 16 8
  let haddr := field l 8 8
  { dir := dir, haddr := haddr, gpa := gpa, len := len
    good := ((l.drop 1).take 7).all (· == 0) && ((l.drop 28).take 4).all (· == 0) && dir < 3 && haddr % 16 == 0 && gpa < 2 ^ 46
      && 1 ≤ len && len ≤ 4096 && (dir != 2 || (len == 32 && gpa == 0)) }

/-- The head of a sealed record, which is its additional authenticated data. -/
def txHead (ctr : Word) (e : TxEnt) (v : Nat) : List Byte :=
  leBytes 8 ctr.toNat ++ leBytes 4 e.len ++ [BitVec.ofNat 8 e.dir, BitVec.ofNat 8 v, 0, 0] ++ leBytes 8 e.gpa ++ leBytes 8 0
def txIv (ctr : Word) (dir v : Nat) : List Byte := [BitVec.ofNat 8 v, BitVec.ofNat 8 dir, 0, 0] ++ leBytes 8 ctr.toNat

/-- The entry at TXHEAD; the VF works its ring in order, and none waits in a banked state. -/
def txNext (s : State) (v : Nat) : Option TxEnt :=
  let f := s.vf v
  if f.part.isNone || !awake s || f.txhead == f.txtail then none
  else some (txEnt (mbytes s.host (f.txbase.toNat + 32 * (f.txhead.toNat % 256)) 32))

/-- TXHEAD advances; a doorbell written behind the entry may then be served. -/
def txDone (s : State) (v : Nat) : State := serveBells (s.modVf v fun f => { f with txhead := f.txhead + 1 })
/-- A rejected record is counted with its reason: 1 no key, 2 tag, 3 counter, 4 GPA, 5 malformed. -/
def txReject (s : State) (v : Nat) (reason : Nat) : State :=
  txDone (s.modVf v fun f => { f with txerr := f.txerr + 1, txreason := BitVec.ofNat 8 reason }) v

/-- Every frame of a range is valid and resident. -/
def gpaResident (s : State) (p gpa n : Nat) : Bool :=
  gpa + n ≤ 2 ^ 46 && (framesOf gpa n).all fun g => match s.stage2 p g with
    | some e => !e.remote && !e.nr && frameOk e.frame.toNat
    | none => false

/-- A range meets the context store. -/
def inStore (p : Part) (gpa n : Nat) : Bool := p.csbase < gpa + n && gpa < p.csbase + p.csn * 0x280000

/-- An inbound record's plaintext, under KIN: the checks of R343 that do not look at memory. -/
def openRecord (s : State) (v : Nat) (e : TxEnt) : Except Nat (Word × List Byte) :=
  let f := s.vf v
  match f.kin with
  | none => .error 1
  | some key =>
    let head := mbytes s.host e.haddr 32
    let ctr := BitVec.ofNat 64 (field head 0 8)
    if head ≠ txHead ctr e v then .error 5
    else if ctr.toNat ≤ f.ctrin.toNat then .error 3
    else match gcmOpen key (txIv ctr e.dir v) head (mbytes s.host (e.haddr + 32) e.len) (mbytes s.host (e.haddr + 32 + e.len) 16) with
      | none => .error 2
      | some l => .ok (ctr, l)

/-- A transfer event: the entry at TXHEAD, if it has that DIR; a malformed entry is any event's. -/
def transfer (v dir : Nat) (s : State) (k : TxEnt → State) : Out :=
  .next <| match txNext s v with
    | none => s
    | some e => if !e.good then txReject s v 5 else if e.dir ≠ dir then s else k e

/-- Bytes that the host's software writes at a guest address (R303). -/
def softBytes (s : State) (part gpa : Nat) (l : List Byte) : List Byte :=
  let old := (readGpa s part gpa l.length).getD []
  (List.range l.length).map fun i => softByte s part (gpa + i) (old.getD i 0) (l.getD i 0)

def execTransferInbound (v : Nat) (s : State) : Out :=
  transfer v 0 s fun e =>
    match openRecord s v e with
    | .error n => txReject s v n
    | .ok (ctr, l) =>
      let part := (s.vf v).part.getD 0
      if !gpaResident s part e.gpa e.len || inStore (s.part part) e.gpa e.len then txReject s v 4
      else txDone (fbWrite (s.modVf v fun f => { f with ctrin := ctr }) part e.gpa (softBytes s part e.gpa l)) v

def execTransferOutbound (v : Nat) (s : State) : Out :=
  transfer v 1 s fun e =>
    let f := s.vf v
    match f.kout, gpaResident s (f.part.getD 0) e.gpa e.len with
    | none, _ => txReject s v 1
    | some _, false => txReject s v 4
    | some key, true =>
      let ctr := f.ctrout + 1
      let head := txHead ctr e v
      let out := head ++ gcmSeal key (txIv ctr 1 v) head ((readGpa s (f.part.getD 0) e.gpa e.len).getD [])
      let s : State := { s with host := mwrite s.host e.haddr out }
      txDone (s.modVf v fun f => { f with ctrout := ctr }) v

/-- TRANSFER_PARTITION_KEY: a partition accepts its key once. -/
def execTransferPartitionKey (v : Nat) (s : State) : Out :=
  transfer v 2 s fun e =>
    let part := (s.vf v).part.getD 0
    if (s.part part).pkey.isSome then txReject s v 5
    else match openRecord s v e with
      | .error n => txReject s v n
      | .ok (ctr, l) =>
        let s := s.modPart part fun p => { p with pkey := some (keyOf l) }
        txDone (s.modVf v fun f => { f with ctrin := ctr }) v

/-! ### Attestation (R342, R344) -/

/-- An ephemeral key or nonce of the chimney, between 1 and the order of P-384 (log 9). -/
def ephemeral (n : Nat) : Nat := Config.ephemeral n % (pN - 1) + 1

/-- Certificates, each after its length as a little-endian word of 4 bytes, as far as they fit in n bytes (R344). -/
def framed : Nat → List (List Byte) → List Byte
  | _, [] => []
  | n, c :: r => if c.length + 4 ≤ n then leBytes 4 c.length ++ c ++ framed (n - (c.length + 4)) r else []

/-- The certificate chain, of at most 4,096 bytes (R344). -/
def certBytes : List Byte := framed 4096 Config.certificates

/-- Bytes 2 to 415 of a report. -/
def reportBody (s : State) (part v status : Nat) (nonce ckey : List Byte) : List Byte :=
  [1, BitVec.ofNat 8 status, BitVec.ofNat 8 part, BitVec.ofNat 8 v, 0, 0] ++ leBytes 4 ((s.hid 194).toNat / 256 % 2 ^ 24)
    ++ leBytes 4 certBytes.length ++ nonce ++ beBytes 48 (s.part part).policy.hash.toNat
    ++ beBytes 48 Config.mhob.toNat ++ beBytes 48 Config.mchim.toNat ++ ckey ++ List.replicate 111 0

/-- ATTESTATION: the report answers the request; accepted, it replaces both keys and resets both counters. -/
def execAttestation (v : Nat) (s : State) : Out :=
  .next <|
    let f := s.vf v
    match f.part with
    | none => s
    | some part =>
      if !f.attGo then s
      else
        let a := f.attreq.toNat
        let rq := mbytes s.host a 256
        let nonce := (rq.drop 8).take 48
        let fixed := field rq 0 2 == 0x5141 && field rq 2 1 == 1 && ((rq.drop 3).take 5).all (· == 0) && ((rq.drop 153).take 103).all (· == 0)
        let send (s : State) (body sig : List Byte) : State :=
          let l := [0x41, 0x52] ++ body ++ sig
          { s.modVf v (fun f => { f with attGo := false }) with
            host := mwrite (mwrite s.host (a + 256) l) (a + 768) certBytes }
        let refuse (n : Nat) : State := send s (reportBody s part v n nonce (List.replicate 97 0)) (List.replicate 96 0)
        if !fixed then refuse 1
        else match pointOf ((rq.drop 56).take 97) with
          | none => refuse 2
          | some g =>
            let d := ephemeral s.ch.eph
            let body := reportBody s part v 0 nonce (pointBytes (pointMul d pG))
            let sig := ecdsaSign Config.deviceKey (ephemeral (s.ch.eph + 1)) ([0x41, 0x52] ++ body)
            let secret := beBytes 48 (match pointMul d (some g) with | some (x, _) => x | none => 0)
            let tail := beBytes 48 (s.part part).policy.hash.toNat ++ [BitVec.ofNat 8 part, BitVec.ofNat 8 v]
            let key (name : List Byte) : Option (BitVec 256) := some (keyOf (hkdf384 nonce secret (name ++ tail) 32))
            let ascii (t : String) : List Byte := t.toList.map fun c => BitVec.ofNat 8 c.toNat
            let s : State := { s with ch := { s.ch with eph := s.ch.eph + 2 } }
            send (s.modVf v fun f => { f with
              kin := key (ascii "plynus-kin"), kout := key (ascii "plynus-kout"), ctrin := 0, ctrout := 0 }) body sig

/-! ### Registers -/

/-- ROOT_WRITE: applied only while no region of the partition is live (R289, R342). -/
def execRootWrite (v : Nat) (w : Word) (s : State) : Out :=
  .next <| match (s.vf v).part with
    | none => s
    | some p =>
      if !s.pw.ready || s.fb.regions.any fun r => r.part == p then s else s.modPart p fun x => { x with root := w }

/-- BAR0 of the physical function (R336). -/
def writeBar0 (s : State) (ofs : Nat) (w : Word) : State :=
  let lo : BitVec 32 := w.setWidth 32
  match ofs with
  | 0x00 => { s with ch := { s.ch with crbase := w } }
  | 0x08 => { s with ch := { s.ch with crtail := lo } }
  | 0x18 => { s with ch := { s.ch with evbase := w } }
  | 0x20 => drainEvents 1024 { s with ch := { s.ch with evhead := lo } }
  | 0x30 => { s with ch := { s.ch with starve := w } }
  | _ => s

/-- BAR2 of the physical function (R351): TARGET and CAPW have steps of their own. -/
def writeBar2 (s : State) (ofs : Nat) (w : Word) : State :=
  match ofs with
  | 0x00 =>
    let s : State := if w.getLsbD 6 then { s with pw := { s.pw with refused := false } } else s
    s.pushDue (match w.toNat % 4 with | 0 => .targetRun | 1 => .targetBank1 | 2 => .targetBank2 | _ => .targetBank3)
  | 0x08 => s.pushDue (.capwWrite w)
  | 0x20 => { s with pw := { s.pw with tlbase := w } }
  | _ => s

/-- BAR0 of a virtual function (R342). -/
def writeVf (s : State) (v ofs : Nat) (w : Word) : State :=
  let lo : BitVec 32 := w.setWidth 32
  if (s.vf v).part.isNone then s
  else if ofs < 0x4000 then (if ofs % 4 = 0 then s.pushDue (.queueDoorbell v (ofs / 4) lo) else s)
  else match ofs with
    | 0x4000 => s.modVf v fun f => { f with qtbase := w }
    | 0x4008 => s.modVf v fun f => { f with qtn := w }
    | 0x4010 => s.modVf v fun f => { f with txbase := w }
    | 0x4018 => s.modVf v fun f => { f with txtail := lo }
    | 0x4030 => s.modVf v fun f => { f with attreq := w }
    | 0x4038 => s.modVf v fun f => { f with attGo := true }
    | 0x4040 => s.pushDue (.rootWrite v w)
    | _ => s

/-- REGISTER_WRITE: function 0 is BAR0 of the physical function, 1 its BAR2, and 2 + v BAR0 of virtual function v.
Before READY every write is discarded (R361). -/
def execRegisterWrite (fn : Nat) (ofs : BitVec 16) (v : Word) (s : State) : Out :=
  .next <|
    if !s.pw.ready then s
    else match fn with
      | 0 => writeBar0 s ofs.toNat v
      | 1 => writeBar2 s ofs.toNat v
      | n + 2 => if n < 64 then writeVf s n ofs.toNat v else s

/-- GATE0 and GATE1: four bits of gated sixteenths for each partition from p on. -/
def gateWord (s : State) (p n : Nat) : Nat := (List.range n).foldl (fun a i => a + tget 0 s.pw.gates (p + i) % 16 * 16 ^ i) 0

/-- PSTATE (R351); before READY every field reads 0 (R361). -/
def pstate (s : State) : Nat :=
  if !s.pw.ready then 0
  else s.pw.target.toNat + 4 * s.pw.cur.toNat + (if s.pw.trans == .none then 0 else 16) + 32
    + (if s.pw.refused then 64 else 0) + 256 * s.pw.wakesrc.toNat

/-- What a read of the host returns, with functions numbered as for a write (R336, R342, R351). Reads change nothing. -/
def hostRead (s : State) (fn ofs : Nat) : Word :=
  BitVec.ofNat 64 <|
    if !s.pw.ready then 0
    else match fn, ofs with
      | 0, 0x00 => s.ch.crbase.toNat
      | 0, 0x10 => s.ch.crhead.toNat
      | 0, 0x18 => s.ch.evbase.toNat
      | 0, 0x20 => s.ch.evhead.toNat
      | 0, 0x28 => s.ch.evtail.toNat
      | 0, 0x30 => s.ch.starve.toNat
      | 0, 0x38 => (s.hid 194).toNat / 256 % 2 ^ 24
      | 1, 0x00 => pstate s
      | 1, 0x08 => s.pw.capw.toNat
      | 1, 0x10 => gateWord s 0 16
      | 1, 0x18 => gateWord s 16 8
      | 1, 0x20 => s.pw.tlbase.toNat
      | 1, 0x28 => s.pw.tltail.toNat
      | 1, 0x30 => s.pw.eltail0.toNat + 2 ^ 32 * s.pw.eltail1.toNat
      | n + 2, o =>
        let f := s.vf n
        if f.part.isNone then 0
        else match o with
          | 0x4000 => f.qtbase.toNat
          | 0x4008 => f.qtn.toNat
          | 0x4010 => f.txbase.toNat
          | 0x4020 => f.txhead.toNat
          | 0x4028 => f.txerr.toNat + 2 ^ 32 * f.txreason.toNat
          | 0x4030 => f.attreq.toNat
          | 0x4040 => (s.part (f.part.getD 0)).root.toNat
          | _ => 0
      | _, _ => 0

end Sys2Proof.Machine
end

