-- ==== Sys2Proof/Machine/Power.lean ====
section
/-!
DEFINITION. Banked states and wakes, the power cap and telemetry, the sweep, and bring-up (16 R351-R361).
-/
set_option autoImplicit false

namespace Sys2Proof.Machine

/-! ### Wakes (R354-R357) -/

/-- Registers that an exit from bank-3 leaves at their Reset values (R8): those of BAR2, of BAR0 of the physical
function, the slot tables and the slices' configuration. READY and WAKESRC stay as the wake has them (DESIGN CHOICE, log
87). -/
def resetRegisters (s : State) : State :=
  { s with
    pw := { s.pw with capw := 1600, gates := [], tlbase := 0, tltail := 0, eltail0 := 0, eltail1 := 0, refused := false }
    ch := { events := s.ch.events, handles := s.ch.handles, eph := s.ch.eph }
    fab := { s.fab with slots0 := [], slots1 := [] }
    slices := s.slices.map fun x => (x.1, { x.2 with cfg := [], tokens := [], sht := 96, bad := [] }) }

/-- The package runs again: contexts of bank-2 go on, what was held is served, and from bank-3 the registers are reset
and the ports come up. -/
def wakeUp (s : State) : State :=
  let bells := s.pw.held
  let acc := s.pw.peerHeld
  let ports := s.fab.sleepPorts
  let s := if s.pw.cur = 3 then resetRegisters s else s
  let s : State := { s with
    pw := { s.pw with cur := 0, trans := .none, held := [], peerHeld := [] }, fab := { s.fab with sleepPorts := [] } }
  let s := (s.hearths.map (·.1)).foldl unbank s
  let s := bells.foldl (fun s b => { s with fb := { s.fb with bells := s.fb.bells ++ [b] } }) s
  let s := ports.foldl (fun s p => s.pushDue (.linkUp p)) s
  let s := acc.foldl State.pushDue s
  settle (serveBells s)

/-- WAKE_COMPLETE: the wake latency has passed. -/
def execWakeComplete (s : State) : Out :=
  .next <| if s.pw.trans == .waking 0 then wakeUp s else s

/-- TARGET_RUN: a write of TARGET := 0 (R355, R356). -/
def execTargetRun (s : State) : Out :=
  .next <|
    if !s.pw.ready || s.pw.trans != .none then s
    else wakeBy { s with pw := { s.pw with target := 0 } } 1

def execWakePin (s : State) : Out :=
  .next <| if s.pw.ready then wakeBy s 4 else s

/-- WAKE_PEER_ACCESS: an access arrives on a port of a sleeping package, or of one that enters bank-1 or bank-2. -/
def execWakePeerAccess (port : Nat) (s : State) : Out :=
  .next <|
    let deep := s.pw.cur == 3 || s.pw.trans == .entering 3
    if !s.pw.ready || deep || 12 ≤ port || s.fab.portDown.contains port then s else wakeBy s 3

/-! ### Entries (R355) -/

/-- A write of TARGET: none while a transition is under way, or for the state that the package is in. A transition that
is refused is not begun (R327). From one banked state to another the package wakes first (log 46). -/
def setTarget (n : BitVec 2) (s : State) (granted : Bool) (enter : State → State) : Out :=
  .next <|
    if !s.pw.ready || s.pw.trans != .none then s
    else
      let s : State := { s with pw := { s.pw with target := n } }
      if s.pw.cur = n then s
      else if !granted then { s with pw := { s.pw with refused := true } }
      else enter (if s.pw.cur = 0 then s else wakeUp s)

def startEntry (s : State) (n : BitVec 2) : State := { s with pw := { s.pw with trans := .entering n } }

def execTargetBank1 (s : State) : Out := setTarget 1 s true fun s => startEntry s 1

/-- A hearth whose context a SAVE would reach and that has no SAVE with a slot pending; a context that bank-2 keeps in
its half is one. -/
def needsSave (x : Hearth) : Bool :=
  (match x.run with | .running | .handler | .stopping | .stopped | .banked => true | _ => false)
    && (match x.serves with | .deadlock _ _ => false | _ => !x.ended) && x.req.isNone

/-- TARGET_BANK2: every hearth is stopped as for a SAVE request that keeps the image in its half. -/
def execTargetBank2 (s : State) : Out :=
  setTarget 2 s true fun s =>
    (s.hearths.filter fun (p : Nat × Hearth) => needsSave p.2).foldl (fun s p =>
      pushReq (s.modHearth p.1 fun x => { x with req := some { kind := .save } }) p.1) (startEntry s 2)

/-- The contexts on a partition's hearths each have a free context-store slot. -/
def slotsCover (s : State) (part : Nat) : Bool :=
  let p := s.part part
  (s.hearths.filter fun (x : Nat × Hearth) => s.ownerOf x.1 == some part && needsSave x.2).length ≤ p.csn - p.images.length

/-- TARGET_BANK3: refused for want of slots (R327), else a SAVE request to every context. -/
def execTargetBank3 (s : State) : Out :=
  setTarget 3 s (s.parts.all fun p => slotsCover s p.1) fun s =>
    (s.hearths.filter fun (p : Nat × Hearth) => needsSave p.2).foldl (fun s p => s.pushDue (.preemptRequest p.1 .save))
      (startEntry s 3)

/-- Every operation and message has landed. -/
def drained (s : State) : Bool :=
  s.slices.all (fun x => x.2.inq.isEmpty && x.2.wq.isEmpty && x.2.accq.isEmpty && x.2.accoq.isEmpty) && s.ocm.isEmpty

/-- Bank-3 loses every SRAM: scratchpads then hold free values (log 5), their tags are 0 (R330, R354), and the hearths'
registers are as after reset (R8). Images preloaded into halves stay saved. -/
def loseSram (s : State) : State :=
  (List.range 192).foldl (fun s h =>
    let l := freeSpan s.free scratchSize
    let s := dropPre { s with free := s.free + scratchSize / 8 } h
    s.setHearth h { Hearth.initial h with scratch := mwrite [] 0 l }) { s with fb := { s.fb with bad := [] } }

/-- BANK_ENTRY_COMPLETE. -/
def execBankEntryComplete (s : State) : Out :=
  .next <| match s.pw.trans with
    | .entering n =>
      let quiet (ok : Run → Bool) : Bool := s.hearths.all fun p => ok p.2.run && p.2.out.isNone
      let asleep (s : State) : State := { s with pw := { s.pw with cur := n, trans := .none } }
      match n.toNat with
      | 1 => asleep s
      | 2 => if quiet (fun r => r == .free || r == .banked) && drained s then asleep s else s
      | 3 =>
        if quiet (· == .free) && drained s then
          let up := (List.range 12).filter fun p => !s.fab.portDown.contains p
          let s := asleep (loseSram s)
          let s : State := { s with fab := { s.fab with sleepPorts := up } }
          let s := up.foldl (fun s p => s.pushDue (.linkDown p)) s
          if s.pw.target = 0 then wakeBy s s.pw.wakesrc.toNat else s
        else s
      | _ => s
    | _ => s

/-! ### The power cap and telemetry (R351, R352, R360) -/

/-- CAPW_WRITE: stored between 400 and 1,600. -/
def execCapwWrite (v : Word) (s : State) : Out :=
  .next <| if s.pw.ready then { s with pw := { s.pw with capw := BitVec.ofNat 11 (max 400 (min 1600 (v.toNat % 2048))) } } else s

def gateOf (s : State) (p : Nat) : Nat := tget 0 s.pw.gates p
def setGate (s : State) (p n : Nat) : State :=
  { s with pw := { s.pw with gates := if n = 0 then tdel s.pw.gates p else tput s.pw.gates p n } }

/-- One step of the cap: partitions in free-clock mode are gated first and ungated last; a step of a fixed-clock one is
logged as a power event. -/
def capStep (s : State) (above below : Bool) : State :=
  let live := s.parts.filter fun p => p.2.alive
  let free := (live.filter fun p => !p.2.fixclk).map (·.1)
  let fixed := (live.filter fun p => p.2.fixclk).map (·.1)
  if above then
    if free.any fun p => gateOf s p < 12 then free.foldl (fun s p => setGate s p (min 12 (gateOf s p + 1))) s
    else fixed.foldl (fun s p =>
      if gateOf s p < 12 then (logError (setGate s p (gateOf s p + 1)) 0 4 4 0 0 p 0).1 else s) s
  else if below then
    if fixed.any fun p => 0 < gateOf s p then fixed.foldl (fun s p =>
      if 0 < gateOf s p then (logError (setGate s p (gateOf s p - 1)) 0 4 4 0 0 p 0).1 else s) s
    else free.foldl (fun s p => setGate s p (gateOf s p - 1)) s
  else s

/-- TELEMETRY_SAMPLE: one at each 1,700,000 cycles; what the sensors give comes from outside (log 47). -/
def execTelemetrySample (mw : BitVec 32) (t0 t1 : BitVec 16) (temps : List (BitVec 16)) (s : State) : Out :=
  .next <|
    if !s.pw.ready || s.dcc.toNat % 1700000 ≠ 0 || s.pw.sampled == some s.dcc then s
    else
      let l := leBytes 8 s.dcc.toNat ++ leBytes 4 mw.toNat ++ leBytes 2 t0.toNat ++ leBytes 2 t1.toNat
        ++ (List.range 8).flatMap (fun i => leBytes 2 (temps.getD i 0).toNat)
        ++ leBytes 8 (gateWord s 0 16) ++ leBytes 4 (gateWord s 16 8) ++ leBytes 4 s.pw.corrected.toNat ++ leBytes 16 0
      let s : State := if s.pw.tlbase = 0 then s else
        { s with host := mwrite s.host (s.pw.tlbase.toNat + 64 * (s.pw.tltail.toNat % 1024)) l
                 pw := { s.pw with tltail := s.pw.tltail + 1, corrected := 0 } }
      let s : State := { s with pw := { s.pw with sampled := some s.dcc } }
      let hot := Config.throttle.toNat < t0.toNat || Config.throttle.toNat < t1.toNat
      capStep s (hot || s.pw.capw.toNat * 1000 < mw.toNat) (mw.toNat < s.pw.capw.toNat * 950)

/-! ### The sweep (R358, R359) -/

def countCorrected (s : State) : State := { s with pw := { s.pw with corrected := s.pw.corrected + 1 } }

/-- HBM_SCRUB of a line, named by its host physical address. A corrected line keeps its value. -/
def execHbmScrub (line : Nat) (r : ScrubResult) (synd : BitVec 32) (s : State) : Out :=
  .next <|
    if !s.pw.ready || s.pw.cur.toNat ≥ 2 || line % 64 ≠ 0 || !frameOk (line / frameSize) then s
    else match r with
      | .clean => s
      | .corrected => countCorrected (logError s (sliceOf line / 32) 1 0 (sliceOf line) synd.toNat line 0).1
      | .uncorrectable =>
        let s := (logError s (sliceOf line / 32) 2 0 (sliceOf line) synd.toNat line 0).1
        if s.poison.contains line then s else { s with poison := s.poison ++ [line] }

/-- The error of one 4-byte word of an SRAM, logged for its unit, with what an uncorrectable one does to the word. -/
def scrubWord (s : State) (die : Nat) (array : Byte) (unit ofs : Nat) (id : Word) (r : ScrubResult) (synd : BitVec 32)
    (poison : State → State) : State :=
  match r with
  | .clean => s
  | .corrected => countCorrected (logError s die 1 array unit synd.toNat (4 * ofs) id).1
  | .uncorrectable => poison (logError s die 2 array unit synd.toNat (4 * ofs) id).1

/-- Words of a hearth's caches: 1,024 lines of the phase cache (R252), then 128 of each engine's instruction cache
(R31). -/
def cacheWords : Nat := 16 * (1024 + 256)

/-- SRAM_SCRUB of word `ofs` of a hearth's scratchpad, of a home slice's SRAM of 3 MiB, of a hearth's register half by
image offset, of its caches, of its window table, or of a die's firebox, whose size the spec does not give. -/
def execSramScrub (a : SramArray) (ofs : Nat) (r : ScrubResult) (synd : BitVec 32) (s : State) : Out :=
  .next <|
    let add (l : List Nat) : List Nat := if l.contains ofs then l else l ++ [ofs]
    let id (x : Hearth) : Word := if x.run == .free then 0 else x.act.ctxid
    if !s.pw.ready || s.pw.cur.toNat ≥ 2 then s
    else match a with
      | .scratch h =>
        if 192 ≤ h || scratchSize / 4 ≤ ofs then s
        else scrubWord s (dieOf h) 2 h ofs (id (s.hearth h)) r synd fun s =>
          s.modHearth h fun x => { x with poison := add x.poison }
      | .slice i =>
        if 64 ≤ i || 3 * 2 ^ 20 / 4 ≤ ofs then s
        else scrubWord s (i / 32) 1 i ofs 0 r synd fun s => s.modSlice i fun y => { y with bad := add y.bad }
      | .half h =>
        if 192 ≤ h || (groupOf (4 * ofs)).isNone then s
        else scrubWord s (dieOf h) 3 h ofs (id (s.hearth h)) r synd fun s =>
          s.modCtx h fun c => { c with bad := add c.bad }
      | .inactive h =>
        if 192 ≤ h || (groupOf (4 * ofs)).isNone then s
        else scrubWord s (dieOf h) 3 h ofs (s.hearth h).ina.ctxid r synd fun s =>
          s.modHearth h fun x => { x with ina := { x.ina with bad := add x.ina.bad } }
      | .caches h =>
        if 192 ≤ h || cacheWords ≤ ofs then s
        else scrubWord s (dieOf h) 4 h ofs (id (s.hearth h)) r synd fun s =>
          s.modHearth h fun x => { x with cacheBad := add x.cacheBad }
      | .windows h =>
        if 192 ≤ h || 1024 ≤ ofs then s
        else scrubWord s (dieOf h) 4 h ofs (id (s.hearth h)) r synd fun s =>
          s.modHearth h fun x => { x with winBad := add x.winBad }
      | .firebox d =>
        if 2 ≤ d then s
        else scrubWord s d 4 d ofs 0 r synd fun s =>
          { s with fb := { s.fb with bad := if s.fb.bad.contains (d, ofs) then s.fb.bad else s.fb.bad ++ [(d, ofs)] } }

/-- PHY_CALIBRATION falls between two HBM commands, and changes nothing that the rules describe (R359). -/
def execPhyCalibration (_channel : Nat) (s : State) : Out := .next s

/-! ### Reset, bring-up and off (R354, R361) -/

/-- COLD_RESET. The host's memory, the order in which things happen, and the free values and ephemeral keys taken stay.
-/
def execColdReset (s : State) : Out :=
  .next { State.reset with
    host := s.host, agenda := s.agenda, sched := s.sched, free := s.free, ch := { eph := s.ch.eph } }

/-- BRING_UP_COMPLETE: with the hob's firmware verified the package is ready, and the self-test has left the
error-injection registers clear (R360, log 25); else it is held in reset. -/
def execBringUpComplete (verified : Bool) (s : State) : Out :=
  .next <|
    if !s.pw.on || s.pw.ready || s.pw.failed then s
    else { s with pw := { s.pw with ready := verified, failed := !verified, inject := [] } }

/-- POWER_OFF: nothing is kept but the host's own memory. -/
def execPowerOff (s : State) : Out :=
  .next { State.reset with
    host := s.host, agenda := s.agenda, sched := s.sched, free := s.free, ch := { eph := s.ch.eph }, pw := { on := false } }

end Sys2Proof.Machine
end

