-- ==== Sys2Proof/Machine/Dispatch.lean ====
section
/-!
DEFINITION. One arm per constructor of Instr: a direct call of its meaning, or a rejection by name.
-/

namespace Sys2Proof.Machine

def exec (i : Instr) (s : State) : Host.Outcome State Fault Refusal :=
  match i with
  | .nop => Sys2Proof.Machine.execNop s
  | .movi g d imm => Sys2Proof.Machine.execMovi g d imm s
  | .mov g d s1 => Sys2Proof.Machine.execMov g d s1 s
  | .ldl g k d disp => Sys2Proof.Machine.execLdl g k d disp s
  | .movs g s1 n => Sys2Proof.Machine.execMovs g s1 n s
  | .movf g d n => Sys2Proof.Machine.execMovf g d n s
  | .add g d s1 s2 s3 ty sat => Sys2Proof.Machine.execAdd g d s1 s2 s3 ty sat s
  | .sub g d s1 s2 s3 ty sat => Sys2Proof.Machine.execSub g d s1 s2 s3 ty sat s
  | .addx g d s1 s2 s3 ty => Sys2Proof.Machine.execAddx g d s1 s2 s3 ty s
  | .mul g d s1 s2 ty sat => Sys2Proof.Machine.execMul g d s1 s2 ty sat s
  | .mulh g d s1 s2 ty => Sys2Proof.Machine.execMulh g d s1 s2 ty s
  | .div g d s1 s2 ty => Sys2Proof.Machine.execDiv g d s1 s2 ty s
  | .rem g d s1 s2 ty => Sys2Proof.Machine.execRem g d s1 s2 ty s
  | .and g d s1 s2 ty => Sys2Proof.Machine.execAnd g d s1 s2 ty s
  | .or g d s1 s2 ty => Sys2Proof.Machine.execOr g d s1 s2 ty s
  | .xor g d s1 s2 ty => Sys2Proof.Machine.execXor g d s1 s2 ty s
  | .andn g d s1 s2 ty => Sys2Proof.Machine.execAndn g d s1 s2 ty s
  | .shl g d s1 s2 ty => Sys2Proof.Machine.execShl g d s1 s2 ty s
  | .shr g d s1 s2 ty => Sys2Proof.Machine.execShr g d s1 s2 ty s
  | .sar g d s1 s2 ty => Sys2Proof.Machine.execSar g d s1 s2 ty s
  | .rot g d s1 s2 ty => Sys2Proof.Machine.execRot g d s1 s2 ty s
  | .min g d s1 s2 ty => Sys2Proof.Machine.execMin g d s1 s2 ty s
  | .max g d s1 s2 ty => Sys2Proof.Machine.execMax g d s1 s2 ty s
  | .clz g d s1 ty => Sys2Proof.Machine.execClz g d s1 ty s
  | .popc g d s1 ty => Sys2Proof.Machine.execPopc g d s1 ty s
  | .sel g d s1 s2 => Sys2Proof.Machine.execSel g d s1 s2 s
  | .pcmp g c s1 s2 ty => Sys2Proof.Machine.execPcmp g c s1 s2 ty s
  | .pnot g => Sys2Proof.Machine.execPnot g s
  | .pand g j => Sys2Proof.Machine.execPand g j s
  | .por g j => Sys2Proof.Machine.execPor g j s
  | .ppop g n => Sys2Proof.Machine.execPpop g n s
  | .pbr g b disp => Sys2Proof.Machine.execPbr g b disp s
  | .pbrr g b s1 ofs => Sys2Proof.Machine.execPbrr g b s1 ofs s
  | .br g b => Sys2Proof.Machine.execBr g b s
  | .brl g d b => Sys2Proof.Machine.execBrl g d b s
  | .loop g l s1 disp => Sys2Proof.Machine.execLoop g l s1 disp s
  | .loopp g l s1 s2 b disp => Sys2Proof.Machine.execLoopp g l s1 s2 b disp s
  | .lds g w d m => Sys2Proof.Machine.execLds g w d m s
  | .sts g w m s3 => Sys2Proof.Machine.execSts g w m s3 s
  | .xput g q s1 => Sys2Proof.Machine.execXput g q s1 s
  | .xget g d q => Sys2Proof.Machine.execXget g d q s
  | .waitw g c d base s2 ofs => Sys2Proof.Machine.execWaitw g c d base s2 ofs s
  | .fence g rs => Sys2Proof.Machine.execFence g rs s
  | .phase g => Sys2Proof.Machine.execPhase g s
  | .yield g => Sys2Proof.Machine.execYield g s
  | .trap g code => Sys2Proof.Machine.execTrap g code s
  | .done g => Sys2Proof.Machine.execDone g s
  | .gset g slot s1 => Sys2Proof.Machine.execGset g slot s1 s
  | .gclr g slot => Sys2Proof.Machine.execGclr g slot s
  | .sret g b => Sys2Proof.Machine.execSret g b s
  | .snap g d tag => Sys2Proof.Machine.execSnap g d tag s
  | .ldg g w d m => Sys2Proof.Machine.execLdg g w d m s
  | .stg g w m s3 => Sys2Proof.Machine.execStg g w m s3 s
  | .stm g w m s3 => Sys2Proof.Machine.execStm g w m s3 s
  | .amo g op wide nr d base s2 s3 ofs => Sys2Proof.Machine.execAmo g op wide nr d base s2 s3 ofs s
  | .acc g op m s3 ty rnd => Sys2Proof.Machine.execAcc g op m s3 ty rnd s
  | .acco g base s2 s3 ty rnd ofs q => Sys2Proof.Machine.execAcco g base s2 s3 ty rnd ofs q s
  | .flushe g => Sys2Proof.Machine.execFlushe g s
  | .seqopen g s1 s2 s3 q => Sys2Proof.Machine.execSeqopen g s1 s2 s3 q s
  | .seqclose g q wait => Sys2Proof.Machine.execSeqclose g q wait s
  | .flopen g k restart auto f base ss cc => Sys2Proof.Machine.execFlopen g k restart auto f base ss cc s
  | .flclose g f => Sys2Proof.Machine.execFlclose g f s
  | .flfork g f p auto => Sys2Proof.Machine.execFlfork g f p auto s
  | .flmark g f m mode => Sys2Proof.Machine.execFlmark g f m mode s
  | .flrewind g f m => Sys2Proof.Machine.execFlrewind g f m s
  | .claim g d f n => Sys2Proof.Machine.execClaim g d f n s
  | .publish g f n => Sys2Proof.Machine.execPublish g f n s
  | .waitfree g d f n => Sys2Proof.Machine.execWaitfree g d f n s
  | .waitfill g d f n => Sys2Proof.Machine.execWaitfill g d f n s
  | .flstat g k d f => Sys2Proof.Machine.execFlstat g k d f s
  | .tdset g s1 s2 n => Sys2Proof.Machine.execTdset g s1 s2 n s
  | .cpy g e ta tb => Sys2Proof.Machine.execCpy g e ta tb s
  | .cpyf g e f ta => Sys2Proof.Machine.execCpyf g e f ta s
  | .drnf g e f ta => Sys2Proof.Machine.execDrnf g e f ta s
  | .gath g e fd fs n ta => Sys2Proof.Machine.execGath g e fd fs n ta s
  | .scat g e fd fs n ta => Sys2Proof.Machine.execScat g e fd fs n ta s
  | .mrg g e c dropz fd f1 f2 ty r => Sys2Proof.Machine.execMrg g e c dropz fd f1 f2 ty r s
  | .blow g e fd s1 s2 => Sys2Proof.Machine.execBlow g e fd s1 s2 s
  | .barinit g base ofs => Sys2Proof.Machine.execBarinit g base ofs s
  | .bararm g base s2 ofs => Sys2Proof.Machine.execBararm g base s2 ofs s
  | .barwait g d base s2 ofs => Sys2Proof.Machine.execBarwait g d base s2 ofs s
  | .winld g s1 => Sys2Proof.Machine.execWinld g s1 s
  | .pgreq g d s1 nowait => Sys2Proof.Machine.execPgreq g d s1 nowait s
  | .pgreqR g d s1 nowait => Sys2Proof.Machine.execPgreqR g d s1 nowait s
  | .resq g d s1 => Sys2Proof.Machine.execResq g d s1 s
  | .launch g d s1 => Sys2Proof.Machine.execLaunch g d s1 s
  | .launchw g d s1 s2 s3 => Sys2Proof.Machine.execLaunchw g d s1 s2 s3 s
  | .park g s1 s2 b => Sys2Proof.Machine.execPark g s1 s2 b s
  | .trel g => Sys2Proof.Machine.execTrel g s
  | .vld g d m ty => Sys2Proof.Machine.execVld g d m ty s
  | .vst g m s3 ty => Sys2Proof.Machine.execVst g m s3 ty s
  | .vmov g d s1 ty => Sys2Proof.Machine.execVmov g d s1 ty s
  | .vbcst g d s1 ty => Sys2Proof.Machine.execVbcst g d s1 ty s
  | .vperm g d s1 s2 => Sys2Proof.Machine.execVperm g d s1 s2 s
  | .vsel g d s1 s2 => Sys2Proof.Machine.execVsel g d s1 s2 s
  | .vidx g d s1 s2 ty => Sys2Proof.Machine.execVidx g d s1 s2 ty s
  | .vcmp g c s1 s2 ty => Sys2Proof.Machine.execVcmp g c s1 s2 ty s
  | .vcnt g d => Sys2Proof.Machine.execVcnt g d s
  | .vadd g d s1 s2 ty r => Sys2Proof.Machine.execVadd g d s1 s2 ty r s
  | .vsub g d s1 s2 ty r => Sys2Proof.Machine.execVsub g d s1 s2 ty r s
  | .vmul g d s1 s2 ty r => Sys2Proof.Machine.execVmul g d s1 s2 ty r s
  | .vfma g d s1 s2 s3 ty r => Sys2Proof.Machine.execVfma g d s1 s2 s3 ty r s
  | .vfms g d s1 s2 s3 ty r => Sys2Proof.Machine.execVfms g d s1 s2 s3 ty r s
  | .vmin g d s1 s2 ty => Sys2Proof.Machine.execVmin g d s1 s2 ty s
  | .vmax g d s1 s2 ty => Sys2Proof.Machine.execVmax g d s1 s2 ty s
  | .vabs g d s1 ty sat => Sys2Proof.Machine.execVabs g d s1 ty sat s
  | .vneg g d s1 ty sat => Sys2Proof.Machine.execVneg g d s1 ty sat s
  | .vrcp g d s1 ty r => Sys2Proof.Machine.execVrcp g d s1 ty r s
  | .vrsq g d s1 ty r => Sys2Proof.Machine.execVrsq g d s1 ty r s
  | .vexp2 g d s1 ty r => Sys2Proof.Machine.execVexp2 g d s1 ty r s
  | .vlog2 g d s1 ty r => Sys2Proof.Machine.execVlog2 g d s1 ty r s
  | .vand g d s1 s2 ty => Sys2Proof.Machine.execVand g d s1 s2 ty s
  | .vor g d s1 s2 ty => Sys2Proof.Machine.execVor g d s1 s2 ty s
  | .vxor g d s1 s2 ty => Sys2Proof.Machine.execVxor g d s1 s2 ty s
  | .vshl g d s1 n ty => Sys2Proof.Machine.execVshl g d s1 n ty s
  | .vshr g arith d s1 n ty => Sys2Proof.Machine.execVshr g arith d s1 n ty s
  | .vcvt g d s1 ty src r => Sys2Proof.Machine.execVcvt g d s1 ty src r s
  | .vqnt g d s1 s2 s3 ty r => Sys2Proof.Machine.execVqnt g d s1 s2 s3 ty r s
  | .vhistCount g s1 ty => Sys2Proof.Machine.execVhistCount g s1 ty s
  | .vhistClear g => Sys2Proof.Machine.execVhistClear g s
  | .vhistRead g d q => Sys2Proof.Machine.execVhistRead g d q s
  | .scaleq g d s1 ty => Sys2Proof.Machine.execScaleq g d s1 ty s
  | .vred g op d s1 ty r => Sys2Proof.Machine.execVred g op d s1 ty r s
  | .vscan g op d s1 ty r => Sys2Proof.Machine.execVscan g op d s1 ty r s
  | .defer g v n s3 => Sys2Proof.Machine.execDefer g v n s3 s
  | .drain g d v n final => Sys2Proof.Machine.execDrain g d v n final s
  | .resp g f blk => Sys2Proof.Machine.execResp g f blk s
  | .release g f n => Sys2Proof.Machine.execRelease g f n s
  | .tld g t f => Sys2Proof.Machine.execTld g t f s
  | .tstFlue g f rs ty r => Sys2Proof.Machine.execTstFlue g f rs ty r s
  | .tstMemory g rs ty td r => Sys2Proof.Machine.execTstMemory g rs ty td r s
  | .mzero g m => Sys2Proof.Machine.execMzero g m s
  | .mma g m a b => Sys2Proof.Machine.execMma g m a b s
  | .mmaStamped g m a b st => Sys2Proof.Machine.execMmaStamped g m a b st s
  | .mmas g n m a b mt => Sys2Proof.Machine.execMmas g n m a b mt s
  | .mmasStamped g n m a b mt st => Sys2Proof.Machine.execMmasStamped g n m a b mt st s
  | .mmab g p m a b => Sys2Proof.Machine.execMmab g p m a b s
  | .mmabStamped g p m a b st => Sys2Proof.Machine.execMmabStamped g p m a b st s
  | .mrd g col d m s2 => Sys2Proof.Machine.execMrd g col d m s2 s
  | .mcvt g t m s2 ty r => Sys2Proof.Machine.execMcvt g t m s2 ty r s
  | .slipWaitEnd h e => Sys2Proof.Machine.execSlipWaitEnd h e s
  | .copyCommandStart h k n => Sys2Proof.Machine.execCopyCommandStart h k n s
  | .copyCommandEnd h k => Sys2Proof.Machine.execCopyCommandEnd h k s
  | .barrierCredit h k => Sys2Proof.Machine.execBarrierCredit h k s
  | .unitSlotPublish h f => Sys2Proof.Machine.execUnitSlotPublish h f s
  | .ocmWrite m => Sys2Proof.Machine.execOcmWrite m s
  | .ocmRead h k => Sys2Proof.Machine.execOcmRead h k s
  | .mergeEmit h => Sys2Proof.Machine.execMergeEmit h s
  | .bellowsBlockStart h => Sys2Proof.Machine.execBellowsBlockStart h s
  | .bellowsClaim h => Sys2Proof.Machine.execBellowsClaim h s
  | .bellowsBlockPublish h => Sys2Proof.Machine.execBellowsBlockPublish h s
  | .matrixCommandStart h => Sys2Proof.Machine.execMatrixCommandStart h s
  | .stampedStart h => Sys2Proof.Machine.execStampedStart h s
  | .matrixCommandEnd h => Sys2Proof.Machine.execMatrixCommandEnd h s
  | .writeQueueGrant rs k => Sys2Proof.Machine.execWriteQueueGrant rs k s
  | .operationLanding rs k => Sys2Proof.Machine.execOperationLanding rs k s
  | .damperDecision rs k => Sys2Proof.Machine.execDamperDecision rs k s
  | .damperWindow => Sys2Proof.Machine.execDamperWindow s
  | .accAnswer k => Sys2Proof.Machine.execAccAnswer k s
  | .emberRetryTick => Sys2Proof.Machine.execEmberRetryTick s
  | .accoArrival rs k => Sys2Proof.Machine.execAccoArrival rs k s
  | .seqOpenRecord rs k => Sys2Proof.Machine.execSeqOpenRecord rs k s
  | .seqCloseRecord rs k => Sys2Proof.Machine.execSeqCloseRecord rs k s
  | .residencyServe k => Sys2Proof.Machine.execResidencyServe k s
  | .replicaBuild k => Sys2Proof.Machine.execReplicaBuild k s
  | .replicaCollapse h => Sys2Proof.Machine.execReplicaCollapse h s
  | .linkDown port => Sys2Proof.Machine.execLinkDown port s
  | .peerReset peer => Sys2Proof.Machine.execPeerReset peer s
  | .peerInvalidation peer => Sys2Proof.Machine.execPeerInvalidation peer s
  | .linkUp port => Sys2Proof.Machine.execLinkUp port s
  | .ridgeLinkFail link => Sys2Proof.Machine.execRidgeLinkFail link s
  | .hearthStop h => Sys2Proof.Machine.execHearthStop h s
  | .handlerEntry h => Sys2Proof.Machine.execHandlerEntry h s
  | .preemptRequest h k => Sys2Proof.Machine.execPreemptRequest h k s
  | .preemptDeadline h => Sys2Proof.Machine.execPreemptDeadline h s
  | .contextSave h => Sys2Proof.Machine.execContextSave h s
  | .contextResume h slot => Sys2Proof.Machine.execContextResume h slot s
  | .contextAbort h => Sys2Proof.Machine.execContextAbort h s
  | .sealedImageMake part slot haddr => Sys2Proof.Machine.execSealedImageMake part slot haddr s
  | .sealedImageRestore part slot haddr => Sys2Proof.Machine.execSealedImageRestore part slot haddr s
  | .snapshotLatch => Sys2Proof.Machine.execSnapshotLatch s
  | .snapshotPin => Sys2Proof.Machine.execSnapshotPin s
  | .snapshotHostTrigger => Sys2Proof.Machine.execSnapshotHostTrigger s
  | .queueDoorbell vf q tail => Sys2Proof.Machine.execQueueDoorbell vf q tail s
  | .heldNotifyServe => Sys2Proof.Machine.execHeldNotifyServe s
  | .slotStarve vf q => Sys2Proof.Machine.execSlotStarve vf q s
  | .launchPacket vf q => Sys2Proof.Machine.execLaunchPacket vf q s
  | .teardownDrain vf q => Sys2Proof.Machine.execTeardownDrain vf q s
  | .teardownAbort vf q => Sys2Proof.Machine.execTeardownAbort vf q s
  | .dispatch h => Sys2Proof.Machine.execDispatch h s
  | .parkedDispatch h => Sys2Proof.Machine.execParkedDispatch h s
  | .parkWake part gpa => Sys2Proof.Machine.execParkWake part gpa s
  | .taskEnd h => Sys2Proof.Machine.execTaskEnd h s
  | .launchDeadlock part region => Sys2Proof.Machine.execLaunchDeadlock part region s
  | .quantumEnd part => Sys2Proof.Machine.execQuantumEnd part s
  | .create => Sys2Proof.Machine.execCreate s
  | .rafters => Sys2Proof.Machine.execRafters s
  | .grow => Sys2Proof.Machine.execGrow s
  | .slots => Sys2Proof.Machine.execSlots s
  | .slotTableUpdate => Sys2Proof.Machine.execSlotTableUpdate s
  | .quota => Sys2Proof.Machine.execQuota s
  | .cstore => Sys2Proof.Machine.execCstore s
  | .assign => Sys2Proof.Machine.execAssign s
  | .unassign => Sys2Proof.Machine.execUnassign s
  | .sched => Sys2Proof.Machine.execSched s
  | .pause => Sys2Proof.Machine.execPause s
  | .vfResume => Sys2Proof.Machine.execVfResume s
  | .evict => Sys2Proof.Machine.execEvict s
  | .evictComplete part => Sys2Proof.Machine.execEvictComplete part s
  | .backing => Sys2Proof.Machine.execBacking s
  | .route => Sys2Proof.Machine.execRoute s
  | .policy => Sys2Proof.Machine.execPolicy s
  | .reclaim => Sys2Proof.Machine.execReclaim s
  | .reclaimComplete part => Sys2Proof.Machine.execReclaimComplete part s
  | .transferInbound vf => Sys2Proof.Machine.execTransferInbound vf s
  | .transferOutbound vf => Sys2Proof.Machine.execTransferOutbound vf s
  | .transferPartitionKey vf => Sys2Proof.Machine.execTransferPartitionKey vf s
  | .attestation vf => Sys2Proof.Machine.execAttestation vf s
  | .rootWrite vf v => Sys2Proof.Machine.execRootWrite vf v s
  | .registerWrite fn ofs v => Sys2Proof.Machine.execRegisterWrite fn ofs v s
  | .targetRun => Sys2Proof.Machine.execTargetRun s
  | .targetBank1 => Sys2Proof.Machine.execTargetBank1 s
  | .targetBank2 => Sys2Proof.Machine.execTargetBank2 s
  | .targetBank3 => Sys2Proof.Machine.execTargetBank3 s
  | .bankEntryComplete => Sys2Proof.Machine.execBankEntryComplete s
  | .wakeComplete => Sys2Proof.Machine.execWakeComplete s
  | .wakePin => Sys2Proof.Machine.execWakePin s
  | .wakePeerAccess port => Sys2Proof.Machine.execWakePeerAccess port s
  | .capwWrite v => Sys2Proof.Machine.execCapwWrite v s
  | .telemetrySample mw t0 t1 temps => Sys2Proof.Machine.execTelemetrySample mw t0 t1 temps s
  | .hbmScrub line r synd => Sys2Proof.Machine.execHbmScrub line r synd s
  | .sramScrub a ofs r synd => Sys2Proof.Machine.execSramScrub a ofs r synd s
  | .phyCalibration channel => Sys2Proof.Machine.execPhyCalibration channel s
  | .coldReset => Sys2Proof.Machine.execColdReset s
  | .bringUpComplete verified => Sys2Proof.Machine.execBringUpComplete verified s
  | .fetchReturn h => Sys2Proof.Machine.execFetchReturn h s
  | .flitCheckFailure link => Sys2Proof.Machine.execFlitCheckFailure link s
  | .powerOff => Sys2Proof.Machine.execPowerOff s
  | .remoteAccessArrival port peer part gpa a => Sys2Proof.Machine.execRemoteAccessArrival port peer part gpa a s

end Sys2Proof.Machine
end

