-- ==== Sys2Proof/Machine/Tick.lean ====
section
/-!
DEFINITION. One tick of the package's counter (R2, R59): what counts in it, and what falls due in it.
-/
set_option autoImplicit false

namespace Sys2Proof.Machine

/-- The counters of the virtual functions (R346, R354). -/
def tickVfs (s : State) : State :=
  if s.pw.cur ≠ 0 && s.pw.trans == .none then s
  else { s with vfs := s.vfs.map fun (v : Nat × Vf) =>
    match v.2.part with
    | none => v
    | some p =>
      if (s.part p).cur = v.1 && !v.2.paused then (v.1, { v.2 with gtime := v.2.gtime + 1 })
      else if hasWork s v.1 then (v.1, { v.2 with stolen := v.2.stolen + 1 }) else v }

/-- A wake's latency (R354), and the time to a lost peer's invalidation (R239). -/
def tickWaits (s : State) : State :=
  let s : State := match s.pw.trans with
    | .waking n =>
      let s : State := { s with pw := { s.pw with trans := .waking (n - 1) } }
      if n ≤ 1 then s.pushDue .wakeComplete else s
    | _ => s
  let gone := (s.fab.losing.filter fun p => p.2 ≤ 1).map (·.1)
  let s : State := { s with fab := { s.fab with losing := s.fab.losing.map fun p => (p.1, p.2 - 1) } }
  gone.foldl (fun s p => s.pushDue (.peerInvalidation p)) s

/-- What falls due by the counter alone: slot tables (R339), token windows (R268), retries (R274), a snapshot (R332),
and the telemetry sample (R360), whose readings are free values. -/
def tickCounter (s : State) : State :=
  let n := s.dcc.toNat
  let s := if n % 512 = 0 && !s.fab.newSlots.isEmpty then s.pushDue .slotTableUpdate else s
  let s := if n % 1024 = 0 then s.pushDue .damperWindow else s
  let s := if n % 256 = 0 && s.pw.cur = 0 then s.pushDue .emberRetryTick else s
  let s := match s.snap with
    | some t => if t.at_ = s.dcc then s.pushDue .snapshotLatch else s
    | none => s
  if n % 1700000 = 0 && s.pw.ready then
    let (a, s) := s.freeWord
    let (b, s) := s.freeWord
    let (c, s) := s.freeWord
    s.pushDue (.telemetrySample (a.setWidth 32) (a.extractLsb' 32 16) (a.extractLsb' 48 16)
      ((List.range 8).map fun i => if i < 4 then b.extractLsb' (16 * i) 16 else c.extractLsb' (16 * (i - 4)) 16))
  else s

/-- Replica frames no longer in use (R236), quanta (R345), and the contexts of functions that are not current, for which
a slot has become free (R327). -/
def tickParts (s : State) : State :=
  s.parts.foldl (fun s (q : Nat × Part) =>
    let s := freeLeaving s q.1
    let p := q.2
    if !p.alive || p.slist.isEmpty then s
    else
      let s := s.modPart q.1 fun p => { p with qleft := p.qleft - 1 }
      let s := if p.qleft ≤ 1 then s.pushDue (.quantumEnd q.1) else s
      if (freeSlot p).isSome then
        ((vfsOf s q.1).filter (· != p.cur)).foldl (fun s v => saveContexts s q.1 v) s
      else s) s

/-- Ages of waiting tasks (R296), and the bound on a wake (R299). -/
def tickTasks (s : State) : State :=
  let age (t : Task) : Task := match t.st with
    | .ready | .saved => { t with age := t.age + 1 }
    | .parked => if t.met then { t with metFor := t.metFor + 1, age := if t.ripe then t.age + 1 else t.age } else t
    | .accepted => if t.ripe then { t with age := t.age + 1 } else t
    | _ => t
  let s : State := { s with fb := { s.fb with tasks := s.fb.tasks.map age } }
  (s.fb.tasks.filter fun t => t.st == .parked && t.event == 1 && 1700 ≤ t.metFor).foldl (fun s t =>
    s.pushDue (.parkWake t.part t.gpa)) s

/-- The time that a notify has been held (R305). -/
def tickQueues (s : State) : State :=
  let s : State := { s with fb := { s.fb with queues := s.fb.queues.map fun (q : Nat × Queue) =>
    if q.2.heldSince.isSome then (q.1, { q.2 with heldFor := q.2.heldFor + 1 }) else q } }
  let held := s.fb.queues.filter fun q => q.2.heldSince.isSome
  let s := (held.filter fun q => !q.2.starved && s.ch.starve.toNat < q.2.heldFor).foldl (fun s q =>
    s.pushDue (.slotStarve (q.1 / 4096) (q.1 % 4096))) s
  if !held.isEmpty && (freeQueueSlot s).isSome then s.pushDue .heldNotifyServe else s

/-! ### The eave rings and the ridge (R15-R17, R21) -/

/-- Packets that enter one die's ring in one tick: 512 bytes in each direction (R16), 64 bytes to a packet (log 92). -/
def ringPackets : Nat := 16

/-- Some working link carries a packet over the stretch before it, if it crosses the ridge there (R17). -/
def linked (p : Hop) (ridge : BitVec 16) : Bool := p.link.all fun k => (ridgeLink ridge k).isSome

/-- A packet waits to enter the ring of die d, having crossed the ridge to it where its way does. -/
def waitsAt (p : Path) (ridge : BitVec 16) (d : Nat) : Bool :=
  p.rings.head?.any fun q => q.ring == some d && linked q ridge

/-- Every packet under way, with its partition. -/
def State.packets (s : State) : List (Nat × Path) :=
  (s.slices.flatMap fun q => q.2.inq.map (fun o => (o.part, o.path)) ++ q.2.accq.map (fun m => (m.part, m.path))
      ++ q.2.accoq.map fun m => (m.part, m.path))
    ++ s.seqMsgs.map (fun m => (m.part, m.path)) ++ s.ocm.map (fun m => ((s.ownerOf m.src).getD 24, m.path))
    ++ s.answers.map (fun m => (m.part, m.path)) ++ s.replies.map (fun m => (m.part, m.path)) ++ s.acks.map (fun m => (m.part, m.path))
    ++ ((s.hearths.filter (·.2.fetch.isSome)).map fun q => ((s.ownerOf q.1).getD 24, q.2.fetchPath))
    ++ s.hearths.flatMap fun q => q.2.asks.map fun m => ((s.ownerOf q.1).getD 24, m.path)

/-- Whose packets a die's ring takes in this tick: the owner's of its slot entry, or, where that owner has none that
waits, any partition's (R16, R21). -/
def ringOwner (s : State) (d : Nat) : Option Nat :=
  let o := slotGrant s d
  if o < 24 && s.packets.any fun q => q.1 == o && waitsAt q.2 s.fab.ridge d then some o else none

/-- What is left of a tick's injection on the two rings. -/
structure Turn where
  ridge : BitVec 16
  own0 : Option Nat
  own1 : Option Nat
  left0 : Nat := ringPackets
  left1 : Nat := ringPackets

/-- One packet of a partition enters its next ring, if this tick's turn has room for it. -/
def Turn.pass (t : Turn) (part : Nat) (p : Path) : Turn × Path :=
  match p.rings with
  | [] => (t, p)
  | q :: r =>
    match q.ring with
    | none => (t, if linked q t.ridge then { rings := r } else p)
    | some d =>
      let left := if d = 0 then t.left0 else t.left1
      let own := if d = 0 then t.own0 else t.own1
      if linked q t.ridge && own.all (· == part) && left != 0 then
        (if d = 0 then { t with left0 := left - 1 } else { t with left1 := left - 1 }, { rings := r })
      else (t, p)

/-- A list under a state that its elements pass on, oldest first. -/
def mapAcc {α β : Type} (f : β → α → β × α) : β → List α → β × List α
  | b, [] => (b, [])
  | b, x :: l =>
    let (b, y) := f b x
    let (b, l) := mapAcc f b l
    (b, y :: l)

/-- The packets of a hearth: of its load, and of the reads of its units and fetches. -/
def Turn.hearth (t : Turn) (part : Nat) (x : Hearth) : Turn × Hearth :=
  let (t, p) := if x.fetch.isSome then t.pass part x.fetchPath else (t, x.fetchPath)
  let (t, asks) := mapAcc (fun t (m : Ask) => (t.pass part m.path).map id fun p => { m with path := p }) t x.asks
  (t, { x with fetchPath := p, asks := asks })

/-- The packets bound for a slice; its messages to the damper then stand in the order of their arrival, before those
still under way (R268, R269). -/
def Turn.slice (t : Turn) (x : Slice) : Turn × Slice :=
  let (t, inq) := mapAcc (fun t o => (t.pass o.part o.path).map id fun p => { o with path := p }) t x.inq
  let (t, accq) := mapAcc (fun t o => (t.pass o.part o.path).map id fun p => { o with path := p }) t x.accq
  let (t, accoq) := mapAcc (fun t o => (t.pass o.part o.path).map id fun p => { o with path := p }) t x.accoq
  let here (m : AccMsg) : Bool := m.path.rings.isEmpty
  (t, { x with inq := inq, accq := accq.filter here ++ accq.filter (!here ·), accoq := accoq })

/-- Prefetched lines that have come back enter the instruction caches, and their chains go on (R31). -/
def landAhead (s : State) (h : Nat) : State :=
  let back (m : Ask) : Bool := m.path.rings.isEmpty && (match m.who with | .ahead .. => true | _ => false)
  let l := (s.hearth h).asks.filter back
  if l.isEmpty then s
  else
    let s := s.modHearth h fun x => { x with asks := x.asks.filter (!back ·) }
    l.foldl (fun s m => match m.who with
      | .ahead e a n => match prefetchLine s h e a with
        | (s, some w) => prefetchChain n s h e a w
        | (s, none) => s
      | _ => s) s

/-- One tick of the rings: of the packets that wait, each ring takes those whose turn it is. -/
def tickRings (s : State) : State :=
  if s.packets.all fun q => q.2.rings.isEmpty then s
  else
    let t : Turn := { ridge := s.fab.ridge, own0 := ringOwner s 0, own1 := ringOwner s 1 }
    let (t, slices) := mapAcc (fun t (q : Nat × Slice) => (t.slice q.2).map id fun x => (q.1, x)) t s.slices
    let (t, seqMsgs) := mapAcc (fun t m => (t.pass m.part m.path).map id fun p => { m with path := p }) t s.seqMsgs
    let (t, ocm) := mapAcc (fun t m => (t.pass ((s.ownerOf m.src).getD 24) m.path).map id fun p => { m with path := p }) t s.ocm
    let (t, answers) := mapAcc (fun t (m : AccAns) => (t.pass m.part m.path).map id fun p => { m with path := p }) t s.answers
    let (t, replies) := mapAcc (fun t (m : AmoReply) => (t.pass m.part m.path).map id fun p => { m with path := p }) t s.replies
    let (t, acks) := mapAcc (fun t (m : SeqAns) => (t.pass m.part m.path).map id fun p => { m with path := p }) t s.acks
    let (_, hearths) := mapAcc (fun t (q : Nat × Hearth) =>
      (t.hearth ((s.ownerOf q.1).getD 24) q.2).map id fun x => (q.1, x)) t s.hearths
    { s with slices := slices, seqMsgs := seqMsgs, ocm := ocm, answers := answers, replies := replies, acks := acks, hearths := hearths }

/-- Acknowledgements that have arrived are counted where they are awaited (R281, R285). -/
def landAcks (s : State) : State :=
  let back (m : SeqAns) : Bool := m.path.rings.isEmpty
  { s with seqAcks := (s.acks.filter back).foldl countAck s.seqAcks, acks := s.acks.filter (!back ·) }

/-- Operations granted 512 cycles ago land (R265). -/
def tickSlices (s : State) : State :=
  s.slices.foldl (fun s (q : Nat × Slice) =>
    let old := (List.range q.2.wq.length).filter fun i => match q.2.wq[i]? with
      | some op => 512 ≤ (s.dcc - op.grant).toNat
      | none => false
    (List.range old.length).foldl (fun s k => s.pushDue (.operationLanding q.1 (old.getD k 0 - k))) s) s

/-- What a hearth's stop, save, abort or end still has to do. -/
def pushRun (s : State) (h : Nat) : State :=
  let x := s.hearth h
  let s := if x.out.isSome then s.pushDue (.contextSave h) else s
  match x.run with
  | .free => (match x.pre with | some i => s.pushDue (.contextResume h i) | none => s)
  | .banked => s.pushDue (.contextResume h 0)
  | .saving => s.pushDue (.contextSave h)
  | .aborting => s.pushDue (.contextAbort h)
  | .ending => s.pushDue (.taskEnd h)
  | .stopped =>
    if x.act.frame.smode then s
    else if x.act.frame.code = FaultCode.code .replicaWrite then s.pushDue (.replicaCollapse h)
    else s.pushDue (.handlerEntry h)
  | .running | .handler => pushReq s h
  | .stopping => s.pushDue (.hearthStop h)

/-- One ungated cycle of a hearth (R353, R357): the deadline of R95, which cycles stopped for a fault do not bring
nearer (DESIGN CHOICE, log 98), the matrix array, the slip rule. -/
def tickHearth (s : State) (h : Nat) : State :=
  if gatedAt s h then s
  else
    let x := s.hearth h
    let s := match x.run, x.req with
      | .running, some r | .handler, some r =>
        if atRest x then s
        else
          let s := s.modHearth h fun x => { x with req := some { r with left := r.left - 1 } }
          if r.left ≤ 1 then s.pushDue (.preemptDeadline h) else s
      | _, _ => s
    let s := if unitsRun s h then matTick s h else s
    let s := if x.act.ae.slipWait then s.pushDue (.slipWaitEnd h .a) else s
    let s := if x.act.xe.slipWait then s.pushDue (.slipWaitEnd h .x) else s
    pushRun s h

/-- What counts only in the run state. -/
def tickRun (s : State) : State :=
  if s.pw.cur ≠ 0 then s
  else
    let s := tickSlices (landAcks (tickRings (tickQueues (tickTasks (tickParts s)))))
    let s := (s.hearths.map (·.1)).foldl tickHearth ((s.hearths.map (·.1)).foldl landAhead s)
    let s := if s.fb.bells.isEmpty then s else serveBells s
    if s.fb.tasks.isEmpty && s.fb.owed.isEmpty && s.fb.ends.isEmpty && s.fb.launches.isEmpty && s.fb.regions.isEmpty && s.fb.queues.isEmpty then s
    else settle s

/-- A tick; the counter stands only while the package is off (R354). -/
def tick (s : State) : State :=
  if !s.pw.on then s
  else tickRun (tickCounter (tickWaits (tickVfs { s with dcc := s.dcc + 1 })))

end Sys2Proof.Machine
end

