-- ==== Sys2Proof/Machine/Meet.lean ====
section
/-!
DEFINITION. One attempt of an engine (03 R50), faults of both engines that meet in one cycle (02 R39, 14 R318), and what a
choice of the schedule does (log 3).
-/
set_option autoImplicit false

namespace Sys2Proof.Machine

/-- One step of an engine (R50): the fetch, then the instruction it decodes; a fault of the fetch is taken. An
instruction whose end-of-slot step reads a poisoned loop record raises MACHINE_CHECK and leaves nothing (R358). -/
def engineStep (h : Nat) (e : Eng) (s : State) : Host.Outcome State Fault Refusal :=
  match fetch s h e with
  | .idle s => .next s
  | .trap s code addr => .next (raise s code addr)
  | .run i s => match exec i s with
    | .next t => .next (match loopRead s t with
      | some w => finish (poisonTrap s 3 (4 * w))
      | none => t)
    | r => r

/-- The fault that an engine of a stopping hearth would raise if it acted in the cycle of the stop, and the machine that
its attempt leaves. -/
def faultOf (s : State) (h : Nat) (e : Eng) : Option (FaultRec × State) :=
  let go := s.modHearth h fun x => { x with run := if x.serves == .none then .running else .handler, fault := none }
  match engineStep h e go with
  | .next t => if (t.hearth h).run == .stopping then
      ((t.hearth h).fault.filter fun f => f.src == engSrc e).map fun f => (f, t) else none
  | _ => none

/-- What the fetch of a faulting attempt has done to its engine: the line that it executes (R27, R50). -/
def EngState.fetchedAs (x y : EngState) : EngState :=
  { x with line := y.line, buf := y.buf, ord := y.ord, slipPass := y.slipPass, icache := y.icache }

/-- A hearth that one engine's instruction stops: where the other engine's instruction faults too, it may do so in the
same cycle, which the free choice decides (log 3); the A engine's fault is then the one recorded, with DUAL (R318). -/
def meetFaults (s : State) (h : Nat) : State :=
  match (s.hearth h).run, (s.hearth h).fault with
  | .stopping, some f =>
    if f.src == 0 || f.src == 1 then
      let e : Eng := if f.src == 0 then .x else .a
      match faultOf s h e with
      | none => s
      | some (g, t) =>
        let (both, s) := ({ s with free := t.free } : State).freeBit
        if both then
          ({ s with pw := t.pw } : State).modHearth h fun x =>
            { x with fault := some (f.meet g), act := x.act.setEs e ((x.act.es e).fetchedAs ((t.hearth h).act.es e)) }
        else s
    else s
  | _, _ => s

/-- What comes before a step that is due: faults that meet at a stop. -/
def beforeDue (i : Instr) (s : State) : State :=
  match i with
  | .hearthStop h => meetFaults s h
  | _ => s

/-- What a choice does. -/
def runChoice (c : Choice) (s : State) : Host.Outcome State Fault Refusal :=
  match c with
  | .tick => .next (tick s)
  | .engine h e => engineStep h e s
  | .event i => if isEvent i then exec i s else .next s
  | .host a l => .next { s with host := mwrite s.host a l }

end Sys2Proof.Machine
end

