-- ==== Sys2Proof/Machine/Step.lean ====
section
/-!
DEFINITION. One step of the whole machine (log 3), and the placing of one instruction for it (log 4).
-/
set_option autoImplicit false

namespace Sys2Proof.Machine

/-- The next step: what is due, else the next of the agenda, else the schedule's next choice. -/
def step (s : State) : Host.Outcome State Fault Refusal :=
  match s.due, s.agenda with
  | i :: r, _ => exec i (beforeDue i { s with due := r })
  | [], c :: r => runChoice c { s with agenda := r }
  | [], [] => runChoice (Config.schedule s.sched) { s with sched := s.sched + 1 }

def State.withFetchWord (s : State) (_nbits w : Nat) : State := placeWord s w

end Sys2Proof.Machine
end

