-- ==== Sys2Proof/Safety.lean ====
section
/-!
DEFINITION. The terms in which the claims are stated: when an instruction may have its effect, what goes on after it, and
the invariant of the package's byte stores.
-/
set_option autoImplicit false

namespace Sys2Proof.Machine

/-- The guard lets the instruction have its effect, and `m` is its lane mask (R36). `own`: the OP belongs to the X
engine's own table. -/
def GuardMask (g : Guard) (own : Bool) (s : State) (m : Word) : Prop :=
  guardMask g s.es.preds = some m ∧ runs s.eng own m = true

def GuardTrue (g : Guard) (own : Bool) (s : State) : Prop := ∃ m, GuardMask g own s m

/-- The executing engine stands on a core of the part, at a slot that is neither the last of its line nor the END slot
of an active loop: the end-of-slot step of R88 takes it to the next slot of the line. -/
def Straight (s : State) : Prop :=
  s.cur < nCores ∧ (s.pc - lineOf s.pc).toNat < 52 ∧ ∀ n ∈ s.es.nest, ((s.es.loop n).active && (s.es.loop n).stop == s.pc) = false

/-- The engine goes on at the next slot of its line, no longer stalled (R50, R207). -/
def nextSlot (s : State) : State := (s.setStall false).setPc (s.pc + 12)

/-- The byte stores of the package keep their canonical form: device memory and host memory. -/
def State.StoresOk (s : State) : Prop :=
  Memory.wf s.mem = true ∧ Memory.wf s.host = true

/-- The guard of an instruction of the tables; none for NOP and the part's own steps. -/
def guardOf (i : Instr) : Option Guard := (encodeFields i).bind fun f => Guard.ofBits f.g

/-- The guard of a command for a unit at its issue (R90): the command may be placed, at once or held on its slot. -/
def Binds (g : Guard) (s : State) (held : Bool) : Prop :=
  match g with
  | .slot n => s.ctx.gstate n.toNat = (if held then .pending else .isTrue)
  | _ => held = false

/-- What a vector instruction leaves that has read a slot of each flue in `used` and writes elements of width w (R125,
R128, R185, R186): masked lanes of a vector register, or one slot of a flue; none while the flue cannot take it. -/
def vectorResult (s : State) (d : VSrc) (m : Word) (w : Nat) (fill : Nat → BitVec 32) (used : List Nat) (out : Nat → Nat) :
    Option State :=
  let x := commitReads s.me used
  match d with
  | .v r => some (s.setMe { x with
      act := (List.range 64).foldl (fun c j => if m.getLsbD j then c.setLane r j (fill (out j)) else c) x.act })
  | .f r =>
    if flueDestOk s.ctx r.toNat (8 * w) = true ∧ x.act.freeSlots r.toNat ≠ 0 then
      some (s.setMe (x.produceX r.toNat (packElems w ((List.range 64).map fun j => if m.getLsbD j then out j else 0))))
    else none

/-- The guard-slot guard of a matrix instruction lets it enter the queue now (R90, R205). -/
def GuardReady (g : Guard) (s : State) : Prop :=
  match g with
  | .slot n => s.ctx.xbind = none ∧ s.ctx.gstate n.toNat = .isTrue
  | _ => True

/-- What a matrix instruction that has passed its checks does while its guard slot is not true: it binds to a pending
slot and waits, with the flue needs `w`, for the slot to resolve; a false slot ends it; an empty one raises GUARD_MISUSE
(R90, R205). -/
def GuardWaits (g : Guard) (s : State) (i : Instr) (w : StallOn) : Prop :=
  ∀ n, g = .slot n →
    (s.ctx.xbind = none →
      (s.ctx.gstate n.toNat = .pending → exec i s =
        .next (let u := s.setCtx { s.ctx with xbind := some (n.toNat, none) }
               (u.setMe { u.me with stallOn := w }).setStall true)) ∧
      (s.ctx.gstate n.toNat = .isFalse → exec i s = .next (nextSlot s)) ∧
      (s.ctx.gstate n.toNat = .empty → exec i s = .next (raise (s.setStall false) .guardMisuse (n.setWidth 64)))) ∧
    (∀ k, s.ctx.xbind = some (k, none) → exec i s = .next ((s.setMe { s.me with stallOn := w }).setStall true)) ∧
    (∀ k, s.ctx.xbind = some (k, some false) → exec i s = .next (nextSlot (s.setCtx { s.ctx with xbind := none })))

/-- The wait of a matrix instruction whose guard holds, on the queue or on its flue, with the flue needs `w` (R205,
R207). -/
def queueWait (g : Guard) (s : State) (w : StallOn) : Host.Outcome State Fault Refusal :=
  .next (((keepBind g s).setMe { (keepBind g s).me with stallOn := w }).setStall true)

/-- No operand is read from a poisoned slot: no scratchpad word is poisoned, or all are vector registers (R358). -/
def CleanSources (s : State) (l : List VSrc) : Prop := s.me.poison = [] ∨ ∀ o ∈ l, ∃ r, o = .v r

/-- The chimney has answered the command block at CRHEAD: its STATUS is written and CRHEAD has moved past it (R336). -/
def Answered (s u : State) (st : Nat) : Prop :=
  mbytes u.host (cmdAddr s + 0x60) 8 = leBytes 8 st ∧ u.ch.crhead = s.ch.crhead + 1

/-- The OUT of the answer (R336). -/
def AnsweredOut (s u : State) (out : Word) : Prop := mbytes u.host (cmdAddr s + 0x68) 8 = leBytes 8 out.toNat

/-- A write of n bytes at `a` touches the tail word of no flue that a remote producer fills, of the active context or of
the one that a handler serves (R127). -/
abbrev NoTail (x : Hearth) (a n : Nat) : Prop :=
  x.tailTouched a n = [] ∧ (x.serves = .stopped → x.flip.tailTouched a n = [])

/-- The instructions of the tables that the spec lets write guest memory themselves, or the records that the firebox
keeps there: the continuation of a park (R312, R313), the successors of a TREL (R314), a region's pool (R311), the end
of a LAUNCH_DEADLOCK handler (R302). Every other store reaches memory by an operation of a home slice (R249, R265). -/
def writesRecords : Instr → Bool
  | .park _ _ _ _ | .done _ | .sret _ _ | .launch _ _ _ | .launchw _ _ _ _ _ | .trel _ => true
  | _ => false

end Sys2Proof.Machine
end

