-- ==== Sys2Proof/Certificates/Slice0/Obligations.lean ====
section
/-!
DEFINITION. The statements for the provers. `nextSlot` is the end of an instruction within its line (R50); an equation with
it says that nothing else changes. `Straight`, `GuardTrue`, `GuardMask` are those of Safety.
-/
set_option autoImplicit false
open Sys2Proof Sys2Proof.Machine

/-- A step runs the decoded instruction (R27, R30, R39, R50): one in the line that the engine executes, one in a line
that it enters once its bytes are at hand (log 92), and one that does not decode; what is due comes first (log 3). An
instruction whose end-of-slot step reads a poisoned loop record raises MACHINE_CHECK and leaves nothing (R358, log 80).
-/
def Obligations.StepRunsDecoded : Prop :=
  ∀ (h : Nat) (e : Eng) (r : List Choice) (s : State),
    (∀ i d, s.due = i :: d → step s = exec i (beforeDue i { s with due := d }) ∧
      ((∀ k, i ≠ .hearthStop k) → step s = exec i { s with due := d })) ∧
    (s.due = [] → ∀ i, s.agenda = .event i :: r → isEvent i = true → step s = exec i { s with agenda := r }) ∧
    (s.due = [] → s.agenda = .engine h e :: r →
      let v : State := { s with agenda := r, cur := h, eng := e }
      let pc := v.pc
      let runs := fun (i : Instr) (t : State) =>
        ((∀ u, exec i t = .next u → loopRead t u = none) → step s = exec i t) ∧
        (∀ u w, exec i t = .next u → loopRead t u = some w →
          let l := logError t (dieOf h) 3 3 h 0 (4 * w) t.ctx.ctxid
          step s = .next (raise (l.1.setStall false) .machineCheck (BitVec.ofNat 64 l.2)))
      (canAct s h e = false → step s = .next { s with agenda := r }) ∧
      (canAct s h e = true → isSlot pc = false → step s = .next (raise v .slotAlign pc)) ∧
      (canAct s h e = true → isSlot pc = true → v.es.line = some (lineOf pc) →
        (∀ i, decode e (slotOf v.es.buf pc) = .ok i → (e = .a ∨ waitsOnQueue v.me.matq i = false) →
          (v.me.mode.allows (needMode i) = false ∨ poisonedSource v i = none → runs i v) ∧
          (∀ w, v.me.mode.allows (needMode i) = true → poisonedSource v i = some w →
            let l := logError v (dieOf h) 3 3 h 0 (4 * w) v.ctx.ctxid
            step s = .next (raise l.1 .machineCheck (BitVec.ofNat 64 l.2)) ∧ l.1.hearths = v.hearths ∧ l.1.mem = v.mem)) ∧
        (∀ i, decode e (slotOf v.es.buf pc) = .ok i → e = .x → waitsOnQueue v.me.matq i = true → step s = .next v) ∧
        (∀ c, decode e (slotOf v.es.buf pc) = .error c → c ≠ .guardMisuse → step s = .next (raise v c pc)) ∧
        (decode e (slotOf v.es.buf pc) = .error .guardMisuse →
          step s = .next (raise v .guardMisuse (((slotOf v.es.buf pc).extractLsb' 83 4).setWidth 64)))) ∧
      (canAct s h e = true → isSlot pc = true → v.es.line ≠ some (lineOf pc) →
        (∀ v', lineHere v (lineOf pc) = (false, v') → step s = .next v') ∧
        ∀ v', lineHere v (lineOf pc) = (true, v') → ∀ w t, readLine v' h (lineOf pc) = .ok (w, t) →
        (∀ k u, cacheTouch t (lineOf pc) = (some k, u) → let l := logError u (dieOf h) 3 4 h 0 (4 * k) u.ctx.ctxid
          step s = .next (raise l.1 .machineCheck (BitVec.ofNat 64 l.2))) ∧
        ∀ u, cacheTouch t (lineOf pc) = (none, u) → (u.es.icache.find? fun p => p.1 == (lineOf pc).toNat) = none →
        (∀ c, linkFault e w = some c → step s = .next (raise u c (lineOf pc))) ∧
        (linkFault e w = none → (u.es.line.isSome && !u.es.slipPass && slipHeld u.ctx u.eng (linkOrd w)) = true →
          step s = .next (u.setEs { u.es with slipWait := true, slipOrd := linkOrd w })) ∧
        (linkFault e w = none → (u.es.line.isSome && !u.es.slipPass && slipHeld u.ctx u.eng (linkOrd w)) = false →
          let t := prefetchChain 4 (u.setEs { u.es with
            slipPass := false, line := some (lineOf pc), buf := w, ord := some (linkOrd w)
            icache := cachePut u.es.icache (lineOf pc).toNat w }) h e (lineOf pc) w
          ∀ i, decode e (slotOf w pc) = .ok i → (e = .a ∨ waitsOnQueue t.me.matq i = false) →
            t.me.mode.allows (needMode i) = false ∨ poisonedSource t i = none → runs i t)))

/-- Slots written out from the encodings of R33-R37, R40, R43, R138, R187 and R240, and what they decode to. -/
def Obligations.DecodeWords : Prop :=
  decodeTableWord 96 0 = some .nop ∧
  decodeTableWord 96 0x080000050607002000000000 = some (.add .always 5 (.reg 6) (.reg 7) (.reg 0) .i64 false) ∧
  decodeTableWord 96 0x01000009123456789ABCDEF0 = some (.movi .always 9 0x123456789ABCDEF0) ∧
  decodeTableWord 96 0x300005040506000001000006 = some (.lds .always .s16 4 { base := 5, index := 6, scl := 1, ofs := 6 }) ∧
  decodeTableWord 96 0x2A080000A300000000000000 = some (.br .top 3) ∧
  decodeTableWord 96 0x2C0000A90500000000000018 = some (.loop .always 9 (.reg 5) 24) ∧
  decodeTableWord 96 0x500019830400000000000022 = some (.flopen .always .copy true true 3 4 2 2) ∧
  decodeTableWord 96 0x660011858182097000000100 =
    some (.mrg .always { compl := .signal, tgt := 0x100, val := 9 } .add true 5 1 2 .f32 { rnd := .rne, sat := false }) ∧
  decodeTableWord 96 0x610002000000000000040008 = some (.cpy .always { compl := .barrier, cw := 8, val := 0 } 1 0) ∧
  decodeTableWord 96 0x5A0000252600008A00000007 = some (.vcvt .always (.v 5) (.v 6) .bf16 .f32 { rnd := .sr, sat := false }) ∧
  decodeTableWord 96 0x730040604041010000003C00 = some (.mmaStamped .always 0 0 1 { reg := 1, ofs := 60 }) ∧
  decodeTableWord 96 0x410003000506070003000010 =
    some (.stg .always .w64 { base := 5, index := 6, scl := 3, ofs := 16 } (.reg 7)) ∧
  decodeTableWord 96 0x390001000000000000000000 = some (.fence .always .die) ∧
  decodeTableWord 96 0x43001A000506000000000010 = some (.amo .always .fadd false true 0 5 (.reg 6) 0 16) ∧
  decodeTableWord 96 0x7A0000000506A20000000000 = some (.park .always 5 6 2) ∧
  decodeTableWord 96 0xF10000030000000000000012 = some (.snap .always 3 0x12) ∧
  decodeTableWord 96 0x001800000000000000000000 = none ∧ decodeTableWord 96 0x021800000000000000000000 = none ∧
  decodeTableWord 96 0xFF0000000000000000000000 = none

/-- The decoder and the encoder agree: every instruction with an encoding in an engine's table is what its slot decodes
to, with every operand at every value the encoding admits (R33-R43). -/
def Obligations.EncodeDecode : Prop :=
  ∀ (e : Eng) (i : Instr), wf e i = true → decode e (encode i) = .ok i

/-- The byte stores keep their canonical form in every step. -/
def Obligations.StoresInvariant : Prop :=
  ∀ (s t : State), s.StoresOk → step s = .next t → t.StoresOk

/-- The state after reset (R354, R361): the counter is 0, no partition and no context exists, memory is canonical with
nothing listed, READY is 0, and until it is 1 the host reads zeros and its writes are discarded. -/
def Obligations.ResetState : Prop :=
  State.reset.StoresOk ∧ State.reset.dcc = 0 ∧ State.reset.parts = [] ∧ State.reset.vfs = [] ∧ State.reset.pw.ready = false ∧
    State.reset.pw.cur = 0 ∧ (∀ h, (State.reset.hearth h).run = .free ∧ (State.reset.hearth h).mode = (if h < 192 then .t else .h)) ∧ (∀ a, mget State.reset.mem a = 0) ∧
    (∀ fn ofs, hostRead State.reset fn ofs = 0) ∧ (∀ fn ofs v, exec (.registerWrite fn ofs v) State.reset = .next State.reset) ∧
    (∀ h, canAct State.reset h .a = false ∧ canAct State.reset h .x = false)

/-- A guard that is false leaves only the end of the slot; an empty predicate stack raises PSTACK_UNDER; a mode that may
not execute the instruction raises PRIVILEGE whatever the guard (R36, R39). S mode is what WINLD, SNAP, SRET, a MOVF of
FFRAME and a MOVS of HSTAT or REGOPEN require (R44, R59); no other instruction of the tables requires a mode. -/
def Obligations.GuardsAndModes : Prop :=
  (∀ (i : Instr), needMode i ≠ .h ∧ (needMode i = .s ↔ (∃ g b, i = .winld g b) ∨ (∃ g d t, i = .snap g d t) ∨
    (∃ g b, i = .sret g b) ∨ (∃ g d, i = .movf g d 0x040) ∨ ∃ g x n, i = .movs g x n ∧ (n = 0x011 ∨ n = 0x012))) ∧
  ∀ (i : Instr) (g : Guard) (s : State), guardOf i = some g → s.cur < nCores →
    (s.me.mode.allows (needMode i) = false → exec i s = .next (raise (s.setStall false) .privilege s.pc)) ∧
    (s.me.mode.allows (needMode i) = true → guardMask g s.es.preds = none →
      exec i s = .next (raise (s.setStall false) .pstackUnder s.pc)) ∧
    (s.me.mode.allows (needMode i) = true → guardMask g s.es.preds = some 0 → exec i s = .next (finish (.done s)) ∧
      (Straight s → exec i s = .next (nextSlot s)))

/-- Every byte of device memory and of the host's is unchanged by an instruction of the tables, but for those that write
records there. -/
def Obligations.MemoryFrame : Prop :=
  ∀ (i : Instr) (g : Guard) (s u : State), guardOf i = some g → writesRecords i = false → exec i s = .next u →
    u.mem = s.mem ∧ u.host = s.host ∧ u.poison = s.poison

/-- Taking a fault (R97, R317, R318): the hearth stops, the first applicable cause is the one recorded, and HEARTH_STOP
is due; TRAP's address is its code, and the stop that records it takes its end-of-slot step. That a stop which records
another cause takes none, for a TRAP that meets it, is the model's reading (DEDUCED, log 31). -/
def Obligations.FaultEntry : Prop :=
  ∀ (g : Guard) (v : BitVec 32) (h : Nat) (f : FaultRec) (s : State),
    let x := s.hearth h
    (x.run = .running ∨ x.run = .handler ∨ x.run = .ending →
      (takeFault s h f).hearth h = { x with run := .stopping, fault := some f } ∧ (takeFault s h f).due = s.due ++ [.hearthStop h] ∧
      (takeFault s h f).mem = s.mem) ∧
    (x.run = .stopping ∨ x.run = .saving → ∀ k, x.fault = some k →
      ((takeFault s h f).hearth h).act = x.act ∧ (takeFault s h f).due = s.due ∧
      (f.rank < k.rank → ∃ d, ((takeFault s h f).hearth h).fault = some { f with dual := d }) ∧
      (k.rank ≤ f.rank → ∃ d, ((takeFault s h f).hearth h).fault = some { k with dual := d })) ∧
    (x.run = .free ∨ x.run = .stopped ∨ x.run = .banked → takeFault s h f = s) ∧
    (x.run = .saving → x.fault = none → takeFault s h f = s.setHearth h { x with fault := some f }) ∧
    (x.run = .stopping → ∀ k, x.fault = some k →
      (k.src ≠ 0 → k.src ≠ 1 → meetFaults s h = s) ∧
      ∀ g t, faultOf s h (if k.src = 0 then .x else .a) = some (g, t) → k.src = 0 ∨ k.src = 1 →
        let y := (meetFaults s h).hearth h
        (∀ e, (y.act.es e).pc = (x.act.es e).pc ∧ ∀ r, y.act.reg e r = x.act.reg e r) ∧ (y.fault = some k ∨ (y.fault.map fun f => (f.src, f.code, f.dual)) =
          some (0, if k.src = 0 then k.code else g.code, true))) ∧
    (∀ k, x.fault = some k →
      (k.code ≠ .trap → trapStep x = x) ∧
      (k.code = .trap → ∀ e, k.src = engSrc e → let c := x.act.es e
        (c.pc - lineOf c.pc).toNat < 52 → (∀ n ∈ c.nest, ((c.loop n).active && (c.loop n).stop == c.pc) = false) →
          trapStep x = { x with act := x.act.setEs e { c with pc := c.pc + 12 } })) ∧
    (Straight s → GuardTrue g false s →
      exec (.trap g v) s = .next (raise (s.setStall false) .trap (v.setWidth 64)) ∧
      (s.me.run = .running → ∃ u, exec (.trap g v) s = .next u ∧ u.me.run = .stopping ∧ u.pc = s.pc ∧
        u.me.fault = some { code := .trap, addr := v.setWidth 64, src := engSrc s.eng } ∧ u.due = s.due ++ [.hearthStop s.cur] ∧
        u.mem = s.mem ∧ ∀ c, u.reg c = s.reg c))

/-- The value of a scalar source read at a TYPE, a result written at a TYPE (R68), and ADD, SUB and ADDX (R72). -/
def Obligations.AddSubAddx : Prop :=
  (∀ (s : State) (x : Src) (r : Int),
    s.srcTy .i32 x = ((s.src x).setWidth 32).toInt ∧ s.srcTy .n32 x = ((s.src x).setWidth 32).toNat ∧
    s.srcTy .i64 x = (s.src x).toInt ∧ s.srcTy .n64 x = (s.src x).toNat ∧
    resultTy .i32 r = (BitVec.ofInt 32 r).signExtend 64 ∧ resultTy .n32 r = (BitVec.ofInt 32 r).setWidth 64 ∧
    resultTy .i64 r = BitVec.ofInt 64 r ∧ resultTy .n64 r = BitVec.ofInt 64 r) ∧
  (∀ (g : Guard) (d : Reg) (s1 s2 s3 : Src) (t : DType) (sat : Bool) (s : State),
    Straight s → GuardTrue g false s → WF.scalarTy t = true →
    let w := tyBits t
    let lo : Int := if isSigned t then -2 ^ (w - 1) else 0
    let hi : Int := if isSigned t then 2 ^ (w - 1) - 1 else 2 ^ w - 1
    let x := s.srcTy t s1
    let y := s.srcTy t s2
    let c := s.srcTy t s3
    let clamp := fun r : Int => if sat then (if r < lo then lo else if hi < r then hi else r) else r
    let e := x + y + c % 2
    exec (.add g d s1 s2 s3 t sat) s = .next (nextSlot (s.setReg d (resultTy t (clamp (x + y + c))))) ∧
    exec (.sub g d s1 s2 s3 t sat) s = .next (nextSlot (s.setReg d (resultTy t (clamp (x - y - c))))) ∧
    exec (.addx g d s1 s2 s3 t) s = .next (nextSlot (s.setReg d (resultTy t (if hi < e then 1 else if e < lo then -1 else 0)))))

/-- MUL, MULH, DIV and REM (R73). -/
def Obligations.MulDivRem : Prop :=
  ∀ (g : Guard) (d : Reg) (s1 s2 : Src) (t : DType) (sat : Bool) (s : State),
    Straight s → GuardTrue g false s → WF.scalarTy t = true →
    let w := tyBits t
    let lo : Int := if isSigned t then -2 ^ (w - 1) else 0
    let hi : Int := if isSigned t then 2 ^ (w - 1) - 1 else 2 ^ w - 1
    let x := s.srcTy t s1
    let y := s.srcTy t s2
    let clamp := fun r : Int => if sat then (if r < lo then lo else if hi < r then hi else r) else r
    let q : Int := if y = 0 then -1 else if isSigned t = true ∧ x = lo ∧ y = -1 then lo else x.tdiv y
    let rm : Int := if y = 0 then x else if isSigned t = true ∧ x = lo ∧ y = -1 then 0 else x - x.tdiv y * y
    exec (.mul g d s1 s2 t sat) s = .next (nextSlot (s.setReg d (resultTy t (clamp (x * y))))) ∧
    exec (.mulh g d s1 s2 t) s = .next (nextSlot (s.setReg d (resultTy t (x * y / 2 ^ w)))) ∧
    exec (.div g d s1 s2 t) s = .next (nextSlot (s.setReg d (resultTy t q))) ∧
    exec (.rem g d s1 s2 t) s = .next (nextSlot (s.setReg d (resultTy t rm)))

/-- AND, OR, XOR, ANDN and the shifts and ROT (R74). -/
def Obligations.LogicalAndShift : Prop :=
  ∀ (g : Guard) (d : Reg) (s1 s2 : Src) (t : DType) (s : State),
    Straight s → GuardTrue g false s → WF.scalarTy t = true →
    let w := tyBits t
    let x := s.srcTy t s1
    let u : Nat := (s.src s1).toNat % 2 ^ w
    let v : Int := if w = 32 then ((s.src s1).setWidth 32).toInt else (s.src s1).toInt
    let n : Nat := (s.src s2).toNat % 2 ^ w
    let rot : Nat := if w = 32 then (((s.src s1).setWidth 32).rotateLeft (n % 32)).toNat
      else ((s.src s1).rotateLeft (n % 64)).toNat
    let wr := fun r : Int => (.next (nextSlot (s.setReg d (resultTy t r))) : Out)
    exec (.and g d s1 s2 t) s = wr (s.src s1 &&& s.src s2).toNat ∧
    exec (.or g d s1 s2 t) s = wr (s.src s1 ||| s.src s2).toNat ∧
    exec (.xor g d s1 s2 t) s = wr (s.src s1 ^^^ s.src s2).toNat ∧
    exec (.andn g d s1 s2 t) s = wr (s.src s1 &&& ~~~s.src s2).toNat ∧
    exec (.shl g d s1 s2 t) s = wr (if n < w then x * 2 ^ n else 0) ∧
    exec (.shr g d s1 s2 t) s = wr (if n < w then ((u / 2 ^ n : Nat) : Int) else 0) ∧
    exec (.sar g d s1 s2 t) s = wr (if n < w then v / 2 ^ n else if 0 ≤ x then 0 else -1) ∧
    exec (.rot g d s1 s2 t) s = wr rot

/-- NOP, MOVI, MOV (R69), and MIN, MAX, CLZ, POPC and SEL (R75). -/
def Obligations.MoveSelectCount : Prop :=
  ∀ (g : Guard) (d : Reg) (s1 s2 : Src) (t : DType) (v : Word) (s : State),
    Straight s → GuardTrue g false s → WF.scalarTy t = true →
    let w := tyBits t
    let x := s.srcTy t s1
    let y := s.srcTy t s2
    let zeros := ((List.range w).takeWhile fun i => !(s.src s1).getLsbD (w - 1 - i)).length
    let ones := ((List.range w).filter fun i => (s.src s1).getLsbD i).length
    exec .nop s = .next (nextSlot s) ∧
    exec (.movi g d v) s = .next (nextSlot (s.setReg d v)) ∧
    exec (.mov g d s1) s = .next (nextSlot (s.setReg d (s.src s1))) ∧
    exec (.min g d s1 s2 t) s = .next (nextSlot (s.setReg d (resultTy t (min x y)))) ∧
    exec (.max g d s1 s2 t) s = .next (nextSlot (s.setReg d (resultTy t (max x y)))) ∧
    exec (.clz g d s1 t) s = .next (nextSlot (s.setReg d (resultTy t zeros))) ∧
    exec (.popc g d s1 t) s = .next (nextSlot (s.setReg d (resultTy t ones))) ∧
    (∀ m r, s.es.preds = m :: r →
      exec (.sel g d s1 s2) s = .next (nextSlot (s.setReg d (if m.getLsbD 0 then s.src s1 else s.src s2)))) ∧
    (s.es.preds = [] → exec (.sel g d s1 s2) s = .next (raise (s.setStall false) .pstackUnder s.pc))

/-- LDS and STS (R76): the address, the two faults in their order, the bytes read and written and no others; LDL (R70).
-/
def Obligations.ScratchAndLiterals : Prop :=
  (∀ (g : Guard) (w : Width) (d : Reg) (m : MemOp) (s3 : Src) (s : State),
    Straight s → GuardTrue g false s →
    let a : Int := (s.reg m.base).toNat + (s.reg m.index).toNat * 2 ^ m.scl.toNat + m.ofs.toInt
    let n := widthBytes w
    let stop := fun c => (.next (raise (s.setStall false) c (BitVec.ofInt 64 a)) : Out)
    (a < 0 ∨ 2 ^ 21 < a + n → exec (.lds g w d m) s = stop .scratchRange ∧ exec (.sts g w m s3) s = stop .scratchRange) ∧
    (0 ≤ a → a + n ≤ 2 ^ 21 → a % n ≠ 0 →
      exec (.lds g w d m) s = stop .align ∧ exec (.sts g w m s3) s = stop .align) ∧
    (0 ≤ a → a + n ≤ 2 ^ 21 → a % n = 0 →
      (poisoned s.me a.toNat n = false →
        exec (.lds g w d m) s = .next (nextSlot (s.setReg d (extendWidth w (leNat (mbytes s.me.scratch a.toNat n)))))) ∧
      (lateBad s (.sts g w m s3) = none → NoTail s.me a.toNat n →
        exec (.sts g w m s3) s = .next (nextSlot (s.setMe (s.me.writeScratch a.toNat (leBytes n (s.src s3).toNat))))) ∧
      (lateBad s (.sts g w m s3) = none → ∀ y, s.me.store a.toNat (leBytes n (s.src s3).toNat) = .ok y →
        exec (.sts g w m s3) s = .next (nextSlot (s.setMe y))))) ∧
  (∀ (x : Hearth) (a : Nat) (l : List Byte) (n : Nat), x.tailTouched a l.length = [n] → x.serves ≠ .stopped →
    let f := x.flue n
    let y := x.writeScratch a l
    let v := BitVec.ofNat 32 (y.readScratch (f.base.toNat - 16) 4)
    (x.act.freeSlots n < (v - f.tail).toNat → x.store a l = .error n) ∧
    ((v - f.tail).toNat ≤ x.act.freeSlots n → ∃ z, x.store a l = .ok z ∧ (z.flue n).tail = v ∧ (z.flue n).claim = v ∧
      (z.flue n).read = f.read ∧ (z.flue n).head = f.head ∧ ∀ e r, z.act.reg e r = x.act.reg e r)) ∧
  (∀ (x : Hearth) (a : Nat) (l : List Byte) (k : Nat),
    mget (x.writeScratch a l).scratch k = (if a ≤ k ∧ k < a + l.length then l.getD (k - a) 0 else mget x.scratch k) ∧
    (x.writeScratch a l).act = x.act ∧ (x.writeScratch a l).win = x.win ∧ (x.writeScratch a l).held = x.held) ∧
  (∀ (g : Guard) (k : LdlKind) (d : Reg) (disp : BitVec 32) (s : State),
    Straight s → GuardTrue g false s →
    let a := lineOf s.pc + disp.signExtend 64
    let n := match k with | .w64 => 8 | .w32 | .s32 => 4
    (a.toNat % n ≠ 0 ∨ a.toNat % 64 < 4 → exec (.ldl g k d disp) s = .next (raise (s.setStall false) .align a)) ∧
    (a.toNat % n = 0 → 4 ≤ a.toNat % 64 → ∀ s0, lineHere s (lineOf a) = (false, s0) →
      exec (.ldl g k d disp) s = .next (s0.setStall false)) ∧
    (a.toNat % n = 0 → 4 ≤ a.toNat % 64 → ∀ s0, lineHere s (lineOf a) = (true, s0) →
      ∀ w s1, readLine s0 s0.cur (lineOf a) = .ok (w, s1) →
      ∀ v s2, cachedLine s1 (lineOf a) w = (v, s2) →
      let bits := v.toNat / 2 ^ (8 * (a.toNat % 64)) % 2 ^ (8 * n)
      let u := s2.setEs { s2.es with icache := cachePut s2.es.icache (lineOf a).toNat v }
      (linkEng v ≠ 2 → exec (.ldl g k d disp) s = .next (raise (s2.setStall false) .lineEngine a)) ∧
      (linkEng v = 2 → exec (.ldl g k d disp) s = .next (nextSlot (u.setReg d (match k with
        | .s32 => (BitVec.ofNat 32 bits).signExtend 64
        | _ => BitVec.ofNat 64 bits))))))

/-- MOVF and MOVS with the modes of R59 and R60, what each system register reads, and what a write leaves (R59, R61-R66,
R109, R397). -/
def Obligations.SystemRegisters : Prop :=
  (∀ (g : Guard) (d : Reg) (s1 : Src) (n : BitVec 12) (s : State),
    Straight s →
    (s.me.mode = .t → n = 0x040 → exec (.movf g d n) s = .next (raise (s.setStall false) .privilege s.pc)) ∧
    (s.me.mode = .t → n = 0x011 ∨ n = 0x012 → exec (.movs g s1 n) s = .next (raise (s.setStall false) .privilege s.pc)) ∧
    (GuardTrue g false s → (s.me.mode ≠ .t ∨ n ≠ 0x040) → (n ≠ 0x015 ∨ s.ctx.mergeq = []) →
      exec (.movf g d n) s = .next (nextSlot (s.setReg d (s.readSys n.toNat)))) ∧
    (GuardTrue g false s → (s.me.mode ≠ .t ∨ n ≠ 0x040) → n = 0x015 → s.ctx.mergeq ≠ [] →
      exec (.movf g d n) s = .next (s.setStall false)) ∧
    (GuardTrue g false s → (s.me.mode ≠ .t ∨ (n ≠ 0x011 ∧ n ≠ 0x012)) →
      let busy := (n = 0x015 ∧ s.ctx.mergeq ≠ []) ∨ (0x020 ≤ n.toNat ∧ s.me.tileBusy (n.toNat - 0x020) = true)
      (∀ f a, s.ctx.writeSys n.toNat (s.src s1) = .error (f, a) →
        exec (.movs g s1 n) s = .next (raise (s.setStall false) f a)) ∧
      (∀ c, s.ctx.writeSys n.toNat (s.src s1) = .ok c →
        (busy → exec (.movs g s1 n) s = .next (s.setStall false)) ∧
        (¬ busy → exec (.movs g s1 n) s = .next (nextSlot ((s.setCtx c).cleanImage (0x1000 + 8 * n.toNat) 8)))))) ∧
  (∀ (s : State), s.cur < 192 →
    (s.readSys 0x000).extractLsb' 0 8 = BitVec.ofNat 8 s.cur ∧
    (s.readSys 0x000).extractLsb' 8 8 = (match s.ownerOf s.cur with | some p => BitVec.ofNat 8 p | none => 0xFF) ∧
    (s.readSys 0x000).extractLsb' 16 8 = 1 ∧ (s.readSys 0x000).extractLsb' 24 8 = Config.step ∧
    (s.readSys 0x000).extractLsb' 32 32 = 0 ∧
    s.readSys 0x001 = s.dcc ∧ s.readSys 0x002 = s.ctx.ctxid ∧
    s.readSys 0x010 = s.ctx.slipw.setWidth 64 ∧
    (s.readSys 0x011).getLsbD 0 = s.me.halfH1 ∧
    (s.readSys 0x011).extractLsb' 1 2 = (match s.me.mode with | .t => 0 | .s => 1 | .h => 2) ∧
    (s.readSys 0x011).getLsbD 3 = (match s.ownerOf s.cur with | some p => (s.part p).fixclk | none => false) ∧
    (s.readSys 0x011).extractLsb' 4 12 = 0 ∧
    (s.readSys 0x011).extractLsb' 16 16 = s.ctx.embdrop ∧ (s.readSys 0x011).extractLsb' 32 16 = s.ctx.stdrop ∧
    (s.readSys 0x011).extractLsb' 48 16 = s.ctx.impb ∧
    s.readSys 0x012 = s.ctx.regopen.setWidth 64 ∧
    (s.readSys 0x013).extractLsb' 0 21 = s.ctx.defBase ∧ (s.readSys 0x013).extractLsb' 32 12 = s.ctx.defCap ∧
    (s.readSys 0x013).extractLsb' 48 12 = s.ctx.defCount ∧
    s.readSys 0x014 = s.ctx.srseed ∧ s.readSys 0x015 = s.ctx.mseed ∧
    (∀ i, i < 8 → s.readSys (0x020 + i) = tget 0 s.ctx.tcfg i) ∧
    s.readSys 0x030 = (s.vf s.ctx.vf).gtime ∧ s.readSys 0x031 = (s.vf s.ctx.vf).stolen ∧
    s.readSys 0x040 = s.me.ffaddr) ∧
  (∀ (c : Ctx) (v : Word),
    c.writeSys 0x010 v = .ok { c with slipw := v.setWidth 12 } ∧
    c.writeSys 0x011 v = .ok { c with embdrop := v.extractLsb' 16 16, stdrop := v.extractLsb' 32 16, impb := v.extractLsb' 48 16 } ∧
    c.writeSys 0x012 v = .ok { c with regopen := v.setWidth 16 } ∧
    (v.toNat % 2 ^ 21 % 32 = 0 → v.toNat / 2 ^ 32 % 2 ^ 12 ≤ 2048 →
      v.toNat % 2 ^ 21 + 32 * (v.toNat / 2 ^ 32 % 2 ^ 12) ≤ 2 ^ 21 →
      c.writeSys 0x013 v = .ok { c with defBase := v.setWidth 21, defCap := v.extractLsb' 32 12, defCount := 0, defHead := 0 }) ∧
    (v.toNat % 2 ^ 21 % 32 ≠ 0 ∨ 2048 < v.toNat / 2 ^ 32 % 2 ^ 12 ∨
        2 ^ 21 < v.toNat % 2 ^ 21 + 32 * (v.toNat / 2 ^ 32 % 2 ^ 12) →
      c.writeSys 0x013 v = .error (.scratchRange, BitVec.ofNat 64 (v.toNat % 2 ^ 21))) ∧
    (∀ i, i < 8 →
      let ty := v.toNat % 16
      let rows := v.toNat / 2 ^ 7 % 2 ^ 7
      let cols := v.toNat / 2 ^ 16 % 2 ^ 12
      let planes := v.toNat / 2 ^ 28 % 16
      let width := if ty = 12 then planes else tyBits (DType.ofCode (BitVec.ofNat 4 ty))
      let held : Word := BitVec.ofNat 64 (ty + 2 ^ 7 * rows + 2 ^ 16 * cols + 2 ^ 28 * planes)
      let good := 1 ≤ rows ∧ rows ≤ 64 ∧ 1 ≤ cols ∧ ty ≠ 2 ∧ ty ≠ 3 ∧ ty ≠ 14 ∧ ty ≠ 15 ∧
        (ty = 12 → 1 ≤ planes ∧ planes ≤ 8 ∧ cols % 64 = 0) ∧ (ty ≠ 12 → planes = 0) ∧ (ty = 13 → cols % 2 = 0) ∧
        cols * width ≤ 8 * 256
      (held = 0 ∨ good → c.writeSys (0x020 + i) v = .ok { c with tcfg := tput c.tcfg i held }) ∧
      (held ≠ 0 → ¬ good → c.writeSys (0x020 + i) v = .error (.tileShape, BitVec.ofNat 64 i))) ∧
    (v ≠ 0 → c.writeSys 0x014 v = .ok { c with srseed := v } ∧ c.writeSys 0x015 v = .ok { c with mseed := v }) ∧
    c.writeSys 0x014 0 = .ok { c with srseed := 0x9E3779B97F4A7C15 } ∧
    c.writeSys 0x015 0 = .ok { c with mseed := 0xD1B54A32D192ED03 })

/-- PCMP, PNOT, PAND, POR and PPOP (R85, R86), and the conditions of a comparison of integers (R85). -/
def Obligations.Predicates : Prop :=
  (∀ (g : Guard) (c : Cond) (s1 s2 : Src) (t : DType) (j n : BitVec 5) (s : State),
    Straight s → GuardTrue g false s →
    let now := fun l => (.next (nextSlot (s.setEs { s.es with preds := l })) : Out)
    let under := (.next (raise (s.setStall false) .pstackUnder s.pc) : Out)
    (s.es.preds.length = 16 → exec (.pcmp g c s1 s2 t) s = .next (raise (s.setStall false) .pstackOver s.pc)) ∧
    (s.es.preds.length ≠ 16 →
      let u := s.setEs { s.es with
        preds := (if compareTy c t (s.src s1).toNat (s.src s2).toNat then BitVec.allOnes 64 else 0) :: s.es.preds }
      exec (.pcmp g c s1 s2 t) s = .next (nextSlot
        (if s.eng = .x then u.cleanImage (0x500 + 8 * s.es.preds.length) 8 else u))) ∧
    (∀ m r, s.es.preds = m :: r → exec (.pnot g) s = now (~~~m :: r) ∧
      ∀ e, s.es.preds[j.toNat]? = some e →
        exec (.pand g j) s = now ((m &&& e) :: r) ∧ exec (.por g j) s = now ((m ||| e) :: r)) ∧
    (s.es.preds = [] → exec (.pnot g) s = under) ∧
    (s.es.preds[j.toNat]? = none → exec (.pand g j) s = under ∧ exec (.por g j) s = under) ∧
    (n.toNat ≤ s.es.preds.length → exec (.ppop g n) s = now (s.es.preds.drop n.toNat)) ∧
    (s.es.preds.length < n.toNat → exec (.ppop g n) s = under)) ∧
  (∀ (t : DType) (a b : Nat), WF.intTy t = true →
    compareTy .eq t a b = decide (tyInt t a = tyInt t b) ∧ compareTy .ne t a b = decide (tyInt t a ≠ tyInt t b) ∧
    compareTy .lt t a b = decide (tyInt t a < tyInt t b) ∧ compareTy .le t a b = decide (tyInt t a ≤ tyInt t b) ∧
    compareTy .gt t a b = decide (tyInt t b < tyInt t a) ∧ compareTy .ge t a b = decide (tyInt t b ≤ tyInt t a))

/-- PBR, PBRR, BR and BRL (R83, R84). A prepared target starts a fetch of its line, which changes no register (R31). A
branch to an address that is no slot has happened, with that address as the engine's slot address, when SLOT_ALIGN is
raised (R26); that it has is the model's reading (DEDUCED, log 14). -/
def Obligations.Branches : Prop :=
  ∀ (g : Guard) (b d : Reg) (s1 : Reg) (disp : BitVec 32) (s : State),
    Straight s → GuardTrue g false s →
    let go := fun (u : State) (t : Word) => (.next ((u.setStall false).setPc t) : Out)
    exec (.br g b) s = go s (s.breg b) ∧
    exec (.brl g d b) s = go (s.setBreg d (s.pc + 12)) (s.breg b) ∧
    (∃ u, exec (.pbr g b disp) s = .next u ∧ u.breg b = s.pc + disp.signExtend 64 ∧ u.pc = s.pc + 12 ∧
      u.mem = s.mem ∧ (∀ r, u.reg r = s.reg r) ∧ ∀ c, c ≠ b → u.breg c = s.breg c) ∧
    (∃ u, exec (.pbrr g b s1 disp) s = .next u ∧ u.breg b = s.reg s1 + disp.signExtend 64 ∧ u.pc = s.pc + 12 ∧
      u.mem = s.mem ∧ (∀ r, u.reg r = s.reg r) ∧ ∀ c, c ≠ b → u.breg c = s.breg c)

/-- LOOP and LOOPP start a loop, or skip one of no iterations, with their checks in order (R87), also at the last slot
of a line and at the END slot of an active loop; the end of a loop's END slot, shown by a NOP there: of a LOOP, and of a
LOOPP, which under a request leaves the loop once, and of two LOOPs that end on one slot (R88, R95). -/
def Obligations.Loops : Prop :=
  (∀ (g : Guard) (l : Reg) (s1 : Src) (c d b : Reg) (disp : BitVec 32) (s : State),
    s.cur < nCores → GuardTrue g false s →
    let k := l.toNat - 8
    let stop := s.pc + disp.signExtend 64
    let loop := exec (.loop g l s1 disp) s
    let loopp := exec (.loopp g l c d b disp) s
    let fault := fun (c : FaultCode) v => (.next (raise (s.setStall false) c v) : Out)
    let nested := (∃ j ∈ s.es.nest, (s.es.loop j).active = true ∧ (s.es.loop j).stop = s.pc) ∨ stop = s.pc ∨
      ((s.es.loop k).active = true ∧ s.es.nest.head? ≠ some k)
    let begun := fun (v : Loop) => (.next ((((s.setEs { (s.es.deactivate k).setLoop k v with
      nest := k :: (s.es.deactivate k).nest }).cleanImage (ctlOfs s.eng + 0x40 + 32 * k) 32).setStall false).setPc v.start) : Out)
    let skipped := fun t => (.next (((s.setEs (s.es.deactivate k)).setStall false).setPc t) : Out)
    let after := fun t => ((stop - lineOf stop).toNat < 52 ∧ t = stop + 12) ∨
      (52 ≤ (stop - lineOf stop).toNat ∧ lineOf stop = lineOf s.pc ∧ advanceIn s.es.buf stop = .ok t)
    (isSlot stop = false → loop = fault .slotAlign stop ∧ loopp = fault .slotAlign stop) ∧
    (isSlot stop = true → isSlot (s.breg b) = false → loopp = fault .slotAlign (s.breg b)) ∧
    (isSlot stop = true → nested → loop = fault .loopNest s.pc ∧ (isSlot (s.breg b) = true → loopp = fault .loopNest s.pc)) ∧
    (isSlot stop = true → ¬ nested →
      (2 ^ 32 ≤ (s.src s1).toNat → loop = fault .loopCount s.pc) ∧
      (s.src s1 = 0 → ∀ t, after t → loop = skipped t) ∧
      (s.src s1 ≠ 0 → (s.src s1).toNat < 2 ^ 32 → ∀ t, advanceIn s.es.buf s.pc = .ok t →
        loop = begun { remain := (s.src s1).setWidth 32, active := true, start := t, stop := stop }) ∧
      (isSlot (s.breg b) = true →
        (2 ^ 32 ≤ (s.reg c).toNat → loopp = fault .loopCount s.pc) ∧
        (s.reg c = 0 → ∀ t, after t → loopp = skipped t) ∧
        (s.reg c ≠ 0 → (s.reg c).toNat < 2 ^ 32 → ∀ t, advanceIn s.es.buf s.pc = .ok t →
          loopp = begun { remain := (s.reg c).setWidth 32, active := true, pipe := true, cntReg := c
                          doneReg := d, start := t, stop := stop, restart := s.breg b })))) ∧
  (∀ (n : Nat) (r : List Nat) (t : Word) (s : State),
    s.cur < nCores → advanceIn s.es.buf s.pc = .ok t → s.es.nest = n :: r →
    let l := s.es.loop n
    l.active = true → l.stop = s.pc →
    let goes := fun (u : State) t => exec .nop s = .next ((u.setStall false).setPc t)
    let less := s.setEs (s.es.setLoop n { l with remain := l.remain - 1 })
    let more := less.setReg l.doneReg (less.reg l.doneReg + 1)
    let held := more.setReg l.cntReg ((l.remain - 1).setWidth 64)
    let alone := ∀ j ∈ r, j ≠ n ∧ (s.es.loop j).stop ≠ s.pc
    (l.pipe = false →
      (l.remain ≠ 1 → goes less l.start) ∧
      (l.remain = 1 → alone → goes (less.setEs (less.es.deactivate n)) t) ∧
      (l.remain = 1 → ∀ m q, r = m :: q → m ≠ n → (s.es.loop m).active = true → (s.es.loop m).stop = s.pc →
        (s.es.loop m).pipe = false → (s.es.loop m).remain ≠ 1 →
          let u := less.setEs (less.es.deactivate n)
          goes (u.setEs (u.es.setLoop m { s.es.loop m with remain := (s.es.loop m).remain - 1 })) (s.es.loop m).start)) ∧
    (l.pipe = true →
      (l.remain ≠ 1 → s.me.req = none ∨ s.es.clamp.isSome = true → goes more l.start) ∧
      (l.remain ≠ 1 → s.me.req.isSome = true → s.es.clamp = none →
        goes (held.setEs { held.es.deactivate n with clamp := some n }) t) ∧
      (l.remain = 1 → alone → goes (more.setEs (more.es.deactivate n)) t)))

/-- XPUT and XGET (R55, R78): eight entries, oldest first, a value readable from the tick after its write on; a full or
empty queue holds the engine where it is. -/
def Obligations.CrossQueues : Prop :=
  ∀ (g : Guard) (q d : Reg) (s1 : Src) (s : State),
    Straight s → GuardTrue g false s →
    let out := s.ctx.outQ s.eng
    let inq := s.ctx.outQ (Eng.other s.eng)
    (out.length < 8 → exec (.xput g q s1) s = .next (nextSlot (s.setCtx (s.ctx.setOutQ s.eng
      (out ++ [{ val := s.src s1, mark := s.me.heldNo, since := some s.dcc }]))))) ∧
    (8 ≤ out.length → exec (.xput g q s1) s = .next (s.setStall false)) ∧
    (inq = [] → exec (.xget g d q) s = .next (s.setStall false)) ∧
    (∀ e r, inq = e :: r → e.since = some s.dcc → exec (.xget g d q) s = .next (s.setStall false)) ∧
    (∀ e r, inq = e :: r → e.since ≠ some s.dcc →
      ∃ u, exec (.xget g d q) s = .next u ∧ u.reg d = (if d = 0 then 0 else e.val) ∧ u.pc = s.pc + 12 ∧
        u.ctx.outQ (Eng.other s.eng) = r ∧ u.ctx.outQ s.eng = out ∧ u.mem = s.mem ∧
        (∀ c, c ≠ d → u.reg c = s.reg c))

/-- GSET and GCLR (R89): a pending slot resolves, another becomes pending, other uses raise GUARD_MISUSE. YIELD (R95,
R96): it goes on, leads a clamped engine to its RESTART slot, or stops. -/
def Obligations.GuardSlotsAndYield : Prop :=
  (∀ (g : Guard) (r : Reg) (s1 : Src) (s : State),
    Straight s → GuardTrue g false s →
    let n := r.toNat - 16
    let misuse := (.next (raise (s.setStall false) .guardMisuse (BitVec.ofNat 64 n)) : Out)
    (s.ctx.gstate n = .pending → exec (.gclr g r) s = misuse ∧
      ∃ u, exec (.gset g r s1) s = .next u ∧ u.pc = s.pc + 12 ∧
        u.ctx.gstate n = (if s.src s1 = 0 then .isFalse else .isTrue) ∧ u.mem = s.mem ∧ (∀ c, u.reg c = s.reg c) ∧
        (let on := fun (held : Bool) (k : BitVec 5) => held && k.toNat == 16 + n
         (s.src s1 = 0 →
            u.ctx.copyq = s.ctx.copyq.filter (fun c => !on c.held c.g) ∧
            u.ctx.mergeq = s.ctx.mergeq.filter (fun c => !on c.held c.g) ∧
            u.ctx.blowq = s.ctx.blowq.filter (fun c => !on c.held c.g)) ∧
         (s.src s1 ≠ 0 →
            u.ctx.copyq = s.ctx.copyq.map (fun c => if on c.held c.g then { c with held := false, g := 0 } else c) ∧
            u.ctx.mergeq = s.ctx.mergeq.map (fun c => if on c.held c.g then { c with held := false, g := 0 } else c) ∧
            u.ctx.blowq = s.ctx.blowq.map (fun c => if on c.held c.g then { c with held := false, g := 0 } else c)) ∧
         (s.ctx.xbind = some (n, none) → u.ctx.xbind = some (n, some (s.src s1 != 0))) ∧
         (s.ctx.xbind ≠ some (n, none) → u.ctx.xbind = s.ctx.xbind))) ∧
    (s.ctx.gstate n ≠ .pending → exec (.gset g r s1) s = misuse ∧
      exec (.gclr g r) s = .next (nextSlot (s.setCtx (s.ctx.setGstate n .pending))))) ∧
  (∀ (g : Guard) (s : State), Straight s → GuardTrue g false s →
    (s.me.req = none → s.es.clamp = none → exec (.yield g) s = .next (nextSlot s)) ∧
    (∀ n, s.me.req = none → s.es.clamp = some n →
      exec (.yield g) s = .next (((s.setEs { s.es with clamp := none }).setStall false).setPc (s.es.loop n).restart)) ∧
    (∀ q, s.me.req = some q → s.es.clamp = none →
      ∃ u, exec (.yield g) s = .next u ∧ u.es.stopped = true ∧ u.pc = s.pc + 12 ∧ u.mem = s.mem ∧ ∀ c, u.reg c = s.reg c))

/-- FLOPEN, FLCLOSE and FLFORK (R140-R142). An X read that waits on the flue that closes raises FLUE_STATE (R128). What
a closed flue's record and a second reader's hold is the model's choice (log 102). -/
def Obligations.FlueOpenClose : Prop :=
  ∀ (g : Guard) (k : FlKind) (restart auto : Bool) (f p base : Reg) (ss cc : BitVec 4) (s : State),
    Straight s → GuardTrue g false s →
    let x := s.me
    let a := s.reg base
    let ring := 64 * 2 ^ ss.toNat * 2 ^ cc.toNat
    let hi := a.toNat + ring + (if restart then 0 else ring / 32)
    let lo := if k = .remote then a.toNat - 16 else a.toNat
    let new : Flue := { base := a.setWidth 21, ss := ss, cc := cc, kind := kindNo k, restart := restart, auto := auto, opened := true }
    let fault := fun (c : FaultCode) (v : Word) => (.next (raise (s.setStall false) c v) : Out)
    let clean := fun (u : State) => u.cleanImage (0x6000 + 128 * f.toNat) 128
    let v := x.flue f.toNat
    let q := x.flue p.toNat
    ((x.flue f.toNat).opened = true →
      exec (.flopen g k restart auto f base ss cc) s = fault .flueState (f.setWidth 64) ∧
      exec (.flfork g f p auto) s = fault .flueState (f.setWidth 64)) ∧
    (v.opened = false →
      exec (.flclose g f) s = fault .flueState (f.setWidth 64) ∧
      (a.toNat % 64 ≠ 0 ∨ 2 ^ 21 < hi ∨ (k = .remote ∧ a.toNat < 16) →
        exec (.flopen g k restart auto f base ss cc) s = fault .scratchRange a) ∧
      (a.toNat % 64 = 0 → hi ≤ 2 ^ 21 → (k = .remote → 16 ≤ a.toNat) →
        ((k = .blow ∧ restart = false) ∨ x.act.meets lo hi = true →
          exec (.flopen g k restart auto f base ss cc) s = fault .flueState (f.setWidth 64)) ∧
        ((k = .blow → restart = true) → x.act.meets lo hi = false →
          exec (.flopen g k restart auto f base ss cc) s = .next (nextSlot (clean (s.setMe
            ((if k = .remote then x.writeScratch lo (List.replicate 16 0) else x).setFlue f.toNat new)))))) ∧
      (q.opened = false ∨ q.fork = true ∨ q.forked = true → exec (.flfork g f p auto) s = fault .flueState (p.setWidth 64)) ∧
      (q.opened = true → q.fork = false → q.forked = false →
        let reader : Flue := { restart := q.restart, auto := auto, opened := true, fork := true, peer := p, head := q.head, read := q.head }
        let y : Hearth := { x with act := x.act.setFlue f.toNat reader }
        exec (.flfork g f p auto) s =
          .next (nextSlot (clean (s.setMe (y.setFlue p.toNat { q with forked := true, peer := f })))))) ∧
    (v.opened = true → v.forked = true ∨ x.flueHeld f.toNat = true →
      exec (.flclose g f) s = fault .flueState (f.setWidth 64)) ∧
    (v.opened = true → v.forked = false → x.flueHeld f.toNat = false →
      (x.flueNamed f.toNat = true → exec (.flclose g f) s = .next (s.setStall false)) ∧
      let closed := fun (u : State) => exec (.flclose g f) s = .next (nextSlot (if x.awaits f.toNat = true
        then takeFault u s.cur { code := .flueState, addr := f.setWidth 64, src := 1 } else u))
      (x.flueNamed f.toNat = false → v.fork = false → closed (s.setMe { x with act := x.act.setFlue f.toNat {} })) ∧
      (x.flueNamed f.toNat = false → v.fork = true →
        let c := x.act.setFlue f.toNat {}
        let p := v.peer.toNat
        closed (s.setMe (x.withFlues (c.setFlue p { c.flue p with forked := false, peer := 0 }) p))))

/-- FLMARK, FLREWIND, RELEASE and RESP on an open flue (R143, R146, R147); on a flue that is not open each raises
FLUE_STATE with the flue's number. -/
def Obligations.FlueMarksAndReleases : Prop :=
  ∀ (g : Guard) (f : Reg) (m : BitVec 2) (mode : MarkMode) (n : Src) (blk : BitVec 6) (s : State),
    Straight s → GuardTrue g false s →
    let x := s.me
    let v := x.flue f.toNat
    let p := x.flue (x.act.primary f.toNat)
    let set := fun (y : Flue) => (.next (nextSlot (s.setMe (x.setFlue f.toNat y))) : Out)
    let fault := fun (c : FaultCode) => (.next (raise (s.setStall false) c (f.setWidth 64)) : Out)
    let k := (s.src n).toNat
    (v.opened = false → exec (.flmark g f m mode) s = fault .flueState ∧ exec (.flrewind g f m) s = fault .flueState) ∧
    (v.opened = true →
      (mode = .clear → exec (.flmark g f m mode) s = set (v.setMark m 0 (v.mark m))) ∧
      (mode = .pin → exec (.flmark g f m mode) s = set (v.setMark m 1 v.read)) ∧
      (mode = .soft → exec (.flmark g f m mode) s = set (v.setMark m 2 v.read)) ∧
      (v.markMode m = 0 ∨ earlier v.read (v.mark m) = true → exec (.flrewind g f m) s = fault .flueMark) ∧
      (v.markMode m = 1 → earlier v.read (v.mark m) = false →
        exec (.flrewind g f m) s = set { v with read := v.mark m, head := earliest v.head (v.mark m) }) ∧
      (v.markMode m = 2 → earlier v.read (v.mark m) = false → p.slots < (p.claim - v.mark m).toNat →
        exec (.flrewind g f m) s = fault .flueMark) ∧
      (v.markMode m = 2 → earlier v.read (v.mark m) = false → (p.claim - v.mark m).toNat ≤ p.slots →
        exec (.flrewind g f m) s = set { v with read := v.mark m, head := earliest v.head (v.mark m) })) ∧
    (GuardTrue g true s →
      (v.opened = false → exec (.release g f n) s = fault .flueState ∧ exec (.resp g f blk) s = fault .flueState) ∧
      (v.opened = true → (v.read - v.head).toNat < k → exec (.release g f n) s = fault .flueOverrun) ∧
      (v.opened = true → k ≤ (v.read - v.head).toNat →
        exec (.release g f n) s = set { v with head := v.head + BitVec.ofNat 32 k }) ∧
      (v.opened = true → v.restart = true ∨ v.read = v.head → exec (.resp g f blk) s = fault .flueState) ∧
      let map := residencyBytes p (v.read - 1) (64 * blk.toNat)
      (v.opened = true → v.restart = false → v.read ≠ v.head → poisoned x map.1 map.2 = true →
        let l := logError s (dieOf s.cur) 3 2 s.cur 0 (poisonOfs x map.1 map.2) s.ctx.ctxid
        exec (.resp g f blk) s = .next (raise (l.1.setStall false) .machineCheck (BitVec.ofNat 64 l.2))) ∧
      (v.opened = true → v.restart = false → v.read ≠ v.head → poisoned x map.1 map.2 = false → s.es.preds.length = 16 →
        exec (.resp g f blk) s = .next (raise (s.setStall false) .pstackOver s.pc)) ∧
      (v.opened = true → v.restart = false → v.read ≠ v.head → poisoned x map.1 map.2 = false → s.es.preds.length < 16 →
        ∃ w, (let u := s.setEs { s.es with preds := w :: s.es.preds }
          exec (.resp g f blk) s = .next (nextSlot (if s.eng = .x then u.cleanImage (0x500 + 8 * s.es.preds.length) 8 else u))) ∧
          ∀ j, j < 64 → w.getLsbD j = residentCell x p (v.read - 1) (64 * blk.toNat + j)))

/-- CLAIM, PUBLISH, WAITFREE, WAITFILL and FLSTAT (R144, R145). -/
def Obligations.FlueClaimsAndWaits : Prop :=
  ∀ (g : Guard) (d f : Reg) (n : Src) (s : State),
    Straight s → GuardTrue g false s →
    let x := s.me
    let v := x.flue f.toNat
    let q := x.act.primary f.toNat
    let p := x.flue q
    let k := (s.src n).toNat
    let fault := fun (c : FaultCode) => (.next (raise (s.setStall false) c (f.setWidth 64)) : Out)
    let slot := fun (p : Flue) (i : BitVec 32) => BitVec.ofNat 64 (p.base.toNat + 64 * 2 ^ p.ss.toNat * (i.toNat % 2 ^ p.cc.toNat))
    let fed := v.fork = false ∧ v.kind = 0 ∧ v.fed ≠ 2
    let got := fun w => (.next (nextSlot (s.setReg d w)) : Out)
    (v.opened = false → exec (.claim g d f n) s = fault .flueState ∧ exec (.publish g f n) s = fault .flueState ∧
      exec (.waitfree g d f n) s = fault .flueState ∧ exec (.waitfill g d f n) s = fault .flueState ∧
      exec (.flstat g .full d f) s = fault .flueState) ∧
    (v.opened = true →
      (fed → x.act.freeSlots f.toNat < k → exec (.claim g d f n) s = fault .flueOverrun) ∧
      (fed → k ≤ x.act.freeSlots f.toNat → exec (.claim g d f n) s = .next (nextSlot
        ((s.setMe (x.setFlue f.toNat { v with fed := 1, claim := v.claim + BitVec.ofNat 32 k })).setReg d (slot v v.claim)))) ∧
      (fed → (v.claim - v.tail).toNat < k → exec (.publish g f n) s = fault .flueOverrun) ∧
      (fed → k ≤ (v.claim - v.tail).toNat → exec (.publish g f n) s = .next (nextSlot (s.setMe
        ((x.setFlue f.toNat { v with tail := v.tail + BitVec.ofNat 32 k }).setResident f.toNat v.tail k)))) ∧
      (¬ fed → exec (.claim g d f n) s = fault .flueState ∧ exec (.publish g f n) s = fault .flueState) ∧
      (p.slots < k → exec (.waitfree g d f n) s = fault .flueState ∧ exec (.waitfill g d f n) s = fault .flueState) ∧
      (k ≤ p.slots → x.act.freeSlots q < k → exec (.waitfree g d f n) s = .next (s.setStall false)) ∧
      (k ≤ p.slots → k ≤ x.act.freeSlots q → exec (.waitfree g d f n) s = got (slot p p.claim)) ∧
      (k ≤ p.slots → x.act.fullSlots f.toNat < k → exec (.waitfill g d f n) s = .next (s.setStall false)) ∧
      (k ≤ p.slots → k ≤ x.act.fullSlots f.toNat → exec (.waitfill g d f n) s = got (slot p v.read)) ∧
      exec (.flstat g .head d f) s = got (v.head.setWidth 64) ∧ exec (.flstat g .tail d f) s = got (p.tail.setWidth 64) ∧
      exec (.flstat g .claim d f) s = got (p.claim.setWidth 64) ∧
      exec (.flstat g .head2 d f) s = got ((if v.fork || v.forked then (x.flue v.peer.toNat).head else v.head).setWidth 64) ∧
      exec (.flstat g .full d f) s = got ((p.tail - v.read).setWidth 64))

/-- TDSET, and the issue of CPY, CPYF, DRNF, GATH and SCAT (R175-R179): the command stands at the end of the copy queue
with its descriptors, its completion and its guard; a full queue is waited for. -/
def Obligations.CopyIssue : Prop :=
  ∀ (g : Guard) (e : CopyEnd) (fd fs : Reg) (n : Src) (s1 s2 : Reg) (ta tb : BitVec 6) (held : Bool) (s : State),
    Straight s → GuardTrue g false s → Binds g s held →
    let d := tdesc (s.ctx.desc ta.toNat)
    let r := tdesc (s.ctx.desc tb.toNat)
    let tgt := 8 * e.cw.toNat
    let size := match e.compl with | .none => 1 | .signal => 8 | .barrier => 16
    let entry := fun (c : CopyCmd) => { c with
      sub := complCode e.compl, g := keptGuard g held, held := held, tda := s.ctx.desc c.ta.toNat, tdb := s.ctx.desc c.tb.toNat
      cval := (if e.compl = .signal then s.reg e.val else 0), ctgt := BitVec.ofNat 21 tgt
      chrt := BitVec.ofNat 8 (if (c.op = 0x61 ∨ c.op = 0x63) ∧ d.space = 1 then d.base / 2 ^ 22 else s.cur), uid := s.uid + 1 }
    let put := fun (c : CopyCmd) =>
      if s.ctx.copyq.length < 64 then
        (.next (nextSlot { s.setCtx { s.ctx with copyq := s.ctx.copyq ++ [entry c] } with uid := s.uid + 1 }) : Out)
      else .next (s.setStall false)
    let index := (s.src n).toNat < 2 ^ 32 ∧ ¬ ((d.isBp = true ∨ d.isI4 = true) ∧ d.rank = 1)
    let image := (BitVec.ofNat 1024 (leNat (mbytes s.me.scratch (s.reg s1).toNat 128)))
    let image := if s2 = 0 then image else image &&& ~~~(BitVec.allOnes 48).setWidth 1024 ||| (s.reg s2).setWidth 1024
    (d.valid = false → exec (.cpy g e ta tb) s = .next (raise (s.setStall false) .tdesc (ta.setWidth 64))) ∧
    (d.valid = true → (e.compl = .none ∨ (tgt + size ≤ 2 ^ 21 ∧ tgt % size = 0)) →
      (r.valid = true → d.ty = r.ty → d.planes = r.planes → d.byteCount = r.byteCount →
        exec (.cpy g e ta tb) s = put { op := 0x61, ta := ta, tb := tb }) ∧
      ((s.ctx.flue fs.toNat).opened = true → exec (.drnf g e fs ta) s = put { op := 0x63, ta := ta, fs := fs }) ∧
      ((s.ctx.flue fd.toNat).opened = true → (s.ctx.flue fd.toNat).fork = false →
        ((s.ctx.flue fd.toNat).kind = 1 → exec (.cpyf g e fd ta) s = put { op := 0x62, ta := ta, fd := fd }) ∧
        ((s.ctx.flue fd.toNat).kind = 2 → (s.ctx.flue fs.toNat).opened = true → index →
          exec (.gath g e fd fs n ta) s = put { op := 0x64, ta := ta, fd := fd, fs := fs, count := s.src n })) ∧
      ((s.ctx.flue fd.toNat).opened = true → (s.ctx.flue fs.toNat).opened = true → index →
        exec (.scat g e fd fs n ta) s = put { op := 0x65, ta := ta, fd := fd, fs := fs, count := s.src n })) ∧
    ((s.reg s1).toNat + 128 ≤ 2 ^ 21 → (s.reg s1).toNat % 8 = 0 → poisoned s.me (s.reg s1).toNat 128 = false →
      (s2 ≠ 0 → (s.reg s2).toNat < 2 ^ 48) → (tdesc image).valid = true → s.me.tdNamed ta.toNat = false →
      exec (.tdset g s1 s2 ta) s = .next (nextSlot
        ((s.setCtx { s.ctx with td := tput s.ctx.td ta.toNat image }).cleanImage (0x2000 + 128 * ta.toNat) 128)))

/-- The issue of MRG and BLOW (R148, R151): the command stands at the end of its unit's queue of four, among which the
command in progress counts (log 76). -/
def Obligations.UnitIssue : Prop :=
  ∀ (g : Guard) (e : UnitEnd) (c : Combine) (dropz : Bool) (fd f1 f2 s1 s2 : Reg) (ty : DType) (r : RndSat) (held : Bool)
    (s : State),
    Straight s → GuardTrue g false s → Binds g s held →
    let f := s.ctx.flue fd.toNat
    let size := match e.compl with | .none => 1 | .signal => 8 | .barrier => 16
    let sub : BitVec 2 := match e.compl with | .none => 0 | .signal => 1 | .barrier => 2
    let val := if e.compl = .signal then s.reg e.val else 0
    let m : MergeCmd := { fd := fd, f1 := f1, f2 := f2, combine := c, dropz := dropz, ty := ty, rs := r, sub := sub
                          tgt := e.tgt, cval := val, g := keptGuard g held, held := held }
    let b : BlowCmd := { fd := fd, hdr := s.reg s1, first := s.reg s1, count := (s.reg s2).toNat, sub := sub, tgt := e.tgt, cval := val
                         g := keptGuard g held, held := held }
    let fault := (.next (raise (s.setStall false) .flueState (fd.setWidth 64)) : Out)
    (f.opened = false ∨ f.fork = true ∨ f.kind ≠ 3 → exec (.mrg g e c dropz fd f1 f2 ty r) s = fault) ∧
    (f.opened = false ∨ f.fork = true ∨ f.kind ≠ 5 → exec (.blow g e fd s1 s2) s = fault) ∧
    (f.opened = true → f.fork = false → (e.compl = .none ∨ (e.tgt.toNat + size ≤ 2 ^ 21 ∧ e.tgt.toNat % size = 0)) →
      (f.kind = 3 → (s.ctx.flue f1.toNat).opened = true → (s.ctx.flue f2.toNat).opened = true →
        exec (.mrg g e c dropz fd f1 f2 ty r) s =
          if s.ctx.mergeq.length < 4 then .next (nextSlot (s.setCtx { s.ctx with mergeq := s.ctx.mergeq ++ [m] }))
          else .next (s.setStall false)) ∧
      (f.kind = 5 → (s.reg s2).toNat < 2 ^ 32 →
        exec (.blow g e fd s1 s2) s =
          if s.ctx.blowq.length < 4 then .next (nextSlot (s.setCtx { s.ctx with blowq := s.ctx.blowq ++ [b] }))
          else .next (s.setStall false)))

/-- BARINIT, BARARM, BARWAIT and WAITW (R172, R174, R180-R182): the checks, the object, and a wait, which then watches
every write until one ends it. -/
def Obligations.BarrierInstructions : Prop :=
  ∀ (g : Guard) (d base : Reg) (s2 : Src) (ofs : BitVec 21) (c : WaitCond) (s : State),
    Straight s → GuardTrue g false s →
    let x := (s.reg base).toNat + ofs.toNat
    let b := readBarrier s.me.scratch x
    let n := sextNat 40 (s.src s2).toNat
    let w := BitVec.ofNat 64 (leNat (mbytes s.me.scratch x 8))
    let met : Bool := match c with
      | .eq => w = s.src s2 | .ne => w ≠ s.src s2 | .ge => (s.src s2).toNat ≤ w.toNat | .lt => w.toNat < (s.src s2).toNat
    let put := fun l => (.next (nextSlot (s.setMe (s.me.writeScratch x l))) : Out)
    let stop := fun c => (.next (raise (s.setStall false) c (BitVec.ofNat 64 x)) : Out)
    let wait := fun w => (.next ((s.setWatch (some w)).setStall false) : Out)
    (2 ^ 21 < x + 16 → exec (.barinit g base ofs) s = stop .scratchRange ∧ exec (.bararm g base s2 ofs) s = stop .scratchRange ∧
      exec (.barwait g d base s2 ofs) s = stop .scratchRange) ∧
    (x + 16 ≤ 2 ^ 21 → x % 16 ≠ 0 → exec (.barinit g base ofs) s = stop .align ∧ exec (.bararm g base s2 ofs) s = stop .align ∧
      exec (.barwait g d base s2 ofs) s = stop .align) ∧
    (x + 16 ≤ 2 ^ 21 → x % 16 = 0 → NoTail s.me x 16 → exec (.barinit g base ofs) s = put (List.replicate 16 0)) ∧
    (x + 16 ≤ 2 ^ 21 → x % 16 = 0 → NoTail s.me x 16 → poisoned s.me x 16 = false →
      (n = 0 → exec (.bararm g base s2 ofs) s = .next (nextSlot s)) ∧
      (n < 0 → exec (.bararm g base s2 ofs) s = put (barrierBytes { pending := 0, phase := !b.phase, err := true, armed := 0 })) ∧
      (0 < n → wrap 40 (b.pending + n) ≠ 0 → exec (.bararm g base s2 ofs) s =
        put (barrierBytes { b with pending := b.pending + n, armed := wrap 40 (b.armed + n) })) ∧
      (0 < n → wrap 40 (b.pending + n) = 0 → wrap 40 (b.armed + n) ≠ 0 → exec (.bararm g base s2 ofs) s =
        put (barrierBytes { pending := 0, phase := !b.phase, err := false, armed := 0 })) ∧
      (s.watch = none → b.phase = (s.src s2).getLsbD 0 →
        exec (.barwait g d base s2 ofs) s = wait { addr := x, bar := true, cmp := s.src s2 }) ∧
      (∀ o, s.watch = some o →
        (∀ v, o.met = some v → exec (.barwait g d base s2 ofs) s = .next (nextSlot ((s.setWatch none).setReg d v))) ∧
        (o.met = none → exec (.barwait g d base s2 ofs) s = .next (s.setStall false))) ∧
      (s.watch = none → b.phase ≠ (s.src s2).getLsbD 0 → exec (.barwait g d base s2 ofs) s = .next (nextSlot (s.setReg d
        (BitVec.ofNat 64 ((if b.phase then 2 ^ 40 else 0) + (if b.err then 2 ^ 41 else 0))))))) ∧
    (2 ^ 21 < x + 8 → exec (.waitw g c d base s2 ofs) s = stop .scratchRange) ∧
    (x + 8 ≤ 2 ^ 21 → x % 8 ≠ 0 → exec (.waitw g c d base s2 ofs) s = stop .align) ∧
    (x + 8 ≤ 2 ^ 21 → x % 8 = 0 → poisoned s.me x 8 = false →
      (s.watch = none →
        (met = true → exec (.waitw g c d base s2 ofs) s = .next (nextSlot (s.setReg d w))) ∧
        (met = false → exec (.waitw g c d base s2 ofs) s = wait { addr := x, cond := c, cmp := s.src s2 })) ∧
      (∀ o, s.watch = some o →
        (∀ v, o.met = some v → exec (.waitw g c d base s2 ofs) s = .next (nextSlot ((s.setWatch none).setReg d v))) ∧
        (o.met = none → exec (.waitw g c d base s2 ofs) s = .next (s.setStall false))))

/-- LDG, STG and STM (R233, R241, R242, R249, R250, R252): the checks at the issue, in their order; a load gives the
bytes of the held stores that it must see, the last of them, else those of the line that the phase cache holds, and
marks what it has returned; a load of a line that is not there asks for it and waits; one that has waited goes on under
the entry it met, or raises LINK_LOST when its peer was lost meanwhile; a store is held. An access whose line has no
entry in a full phase cache first makes an implicit boundary, and waits until it is complete. -/
def Obligations.LoadsAndStores : Prop :=
  ∀ (g : Guard) (w : Width) (d : Reg) (m : MemOp) (s3 : Src) (s : State),
    Straight s → GuardTrue g false s →
    let a := s.memAddr m
    let n := widthBytes w
    let stop := fun c => (.next (raise (s.setStall false) c a) : Out)
    let got := fun (u : State) gpa (p : Nat × LineWord) =>
      (.next (nextSlot (u.setReg d (extendWidth w (p.2.toNat / 2 ^ (8 * (gpa % 64)) % 2 ^ (8 * n))))) : Out)
    let hold := fun (u : State) (t : Trn) => (.next (nextSlot (u.setMe { u.me with
      held := u.me.held ++ [{ eng := u.eng, no := u.me.heldNo, gpa := t.gpa, bytes := leBytes n (u.src s3).toNat }]
      heldNo := u.me.heldNo + 1 })) : Out)
    let roomy := fun (t : Trn) (u : State) => (s.hasRoom (lineNo t.gpa) = true ∧ u = s) ∨ (s.hasRoom (lineNo t.gpa) = false ∧
      implicitBoundary s s.cur s.eng = (u, true) ∧ u.me.needsRoom (lineNo t.gpa) = false)
    let full := fun (t : Trn) (u : State) (done : Bool) => s.hasRoom (lineNo t.gpa) = false ∧
      implicitBoundary s s.cur s.eng = (u, done) ∧ (done = false ∨ u.me.needsRoom (lineNo t.gpa) = true)
    let loads := fun (u : State) (i : Issue) => ∀ vis v, visibleHeld u i.gpa n = (vis, v) →
      let got := (List.range n).map fun k => loadByte v.me vis (i.gpa + k)
      let wait := fun (x : Hearth) => (.next ((v.setMe { x with issue := some i }).setStall false) : Out)
      (i.lost = true → exec (.ldg g w d m) s = .next (raise (v.setStall false) .linkLost i.dva)) ∧
      (i.lost = false → i.poison = none → phaseBad u.me = [] →
        (got.all (·.isSome) = true → exec (.ldg g w d m) s = .next (nextSlot ((v.setMe (markObserved v.me v.eng vis i.gpa n)).setReg d
          (extendWidth w (leNat (got.map (·.getD 0))))))) ∧
        (got.all (·.isSome) = false → v.me.fetch ≠ none → exec (.ldg g w d m) s = wait v.me) ∧
        (got.all (·.isSome) = false → v.me.fetch = none →
          poisonedCopy v (dieOf v.cur) i.ent (lineNo i.gpa) 64 = false → exec (.ldg g w d m) s =
            wait { v.me with fetch := some (lineNo i.gpa), fetchPath := i.ent.readPath v v.cur i.part (lineNo i.gpa) }))
    (s.me.issue = none →
      (a.toNat % n ≠ 0 → exec (.ldg g w d m) s = stop .align ∧ exec (.stg g w m s3) s = stop .align ∧
        exec (.stm g w m s3) s = stop .align) ∧
      (a.toNat % n = 0 →
        (∀ c, translate s s.cur .read a = .error c → c ≠ .machineCheck → exec (.ldg g w d m) s = stop c) ∧
        (∀ c, translate s s.cur .write a = .error c → c ≠ .machineCheck → exec (.stg g w m s3) s = stop c) ∧
        (∀ c, translate s s.cur .multicast a = .error c → c ≠ .machineCheck → exec (.stm g w m s3) s = stop c) ∧
        (∀ t, translate s s.cur .read a = .ok t → s.hasRoom (lineNo t.gpa) = true → s.me.held = [] → phaseBad s.me = [] →
          ∀ p, s.me.pcache.find? (fun p => p.1 == lineNo t.gpa) = some p → exec (.ldg g w d m) s = got s t.gpa p) ∧
        (∀ t u, translate s s.cur .read a = .ok t → roomy t u → loads u { dva := a, gpa := t.gpa, part := t.part, ent := t.ent }) ∧
        (∀ t u, translate s s.cur .write a = .ok t → roomy t u → lateBad u (.stg g w m s3) = none →
          exec (.stg g w m s3) s = hold u t) ∧
        (∀ t u, translate s s.cur .multicast a = .ok t → roomy t u → lateBad u (.stm g w m s3) = none →
          exec (.stm g w m s3) s = hold u t) ∧
        (∀ t u b, full t u b →
          (translate s s.cur .read a = .ok t → exec (.ldg g w d m) s = .next (u.setStall false)) ∧
          (translate s s.cur .write a = .ok t → exec (.stg g w m s3) s = .next (u.setStall false)) ∧
          (translate s s.cur .multicast a = .ok t → exec (.stm g w m s3) s = .next (u.setStall false))))) ∧
    (∀ i, s.me.issue = some i → i.lost = true ∨ s.me.needsRoom (lineNo i.gpa) = false →
      loads (s.setMe { s.me with issue := none }) i ∧
      (i.lost = false → i.poison = none → s.me.held = [] → phaseBad s.me = [] → i.gpa % 64 + n ≤ 64 →
        ∀ p, s.me.pcache.find? (fun p => p.1 == lineNo i.gpa) = some p →
          exec (.ldg g w d m) s = got (s.setMe { s.me with issue := none }) i.gpa p)) ∧
    (∀ gpa k x, s.me.held[k]? = some x → x.met gpa n ≠ [] → x.eng = s.eng ∨ x.no < s.es.seen →
      k ∈ (visibleHeld s gpa n).1) ∧
    (∀ vis k x b, s.me.held[k]? = some x → x.covers b = true → loadByte s.me (vis ++ [k]) b = some (x.bytes.getD (b - x.gpa) 0))

/-- AMO, FENCE and PHASE (R253, R257, R258, R279). An AMO that returns its old word sends its operation, waits, and
completes with the answer; the no-return form completes as it is sent. FENCE completes when nothing that it waits for is
left, and waits otherwise. PHASE completes when every store published by the hearth has landed. -/
def Obligations.AmoFencePhase : Prop :=
  ∀ (g : Guard) (op : AmoOp) (wide nr : Bool) (d base : Reg) (s2 : Src) (s3 : Reg) (ofs : BitVec 24) (rs : Scope) (s : State),
    Straight s → GuardTrue g false s →
    let a := s.reg base + ofs.signExtend 64
    let n := if wide then 8 else 4
    let cut := fun (w : Word) => if wide then w else w &&& 0xFFFFFFFF
    let amo := Instr.amo g op wide nr d base s2 s3 ofs
    (s.ctx.amo = .none → a.toNat % n ≠ 0 → exec amo s = .next (raise (s.setStall false) .align a)) ∧
    (s.ctx.amo = .none → a.toNat % n = 0 → lateBad s amo = none → ∀ t, translate s s.cur .both a = .ok t →
      let sent := sendOp { s with uid := s.uid + 1 }
        { kind := .amo op wide (if nr then none else some (s.uid + 1)) (t.gpa % 64) (cut (s.src s2)) (cut (s.reg s3))
          part := t.part, src := s.cur, ctxid := s.ctx.ctxid, gline := lineNo t.gpa }
      (nr = true → exec amo s = .next (nextSlot sent)) ∧
      (nr = false → exec amo s = .next ((sent.setCtx { sent.ctx with amo := .sent (s.uid + 1) }).setStall false))) ∧
    (∀ u, s.ctx.amo = .sent u → exec amo s = .next (s.setStall false)) ∧
    (∀ v, s.ctx.amo = .got v → exec amo s = .next (nextSlot ((s.setCtx { s.ctx with amo := .none }).setReg d v))) ∧
    (fenceHolds s (scopeNo rs) = true → exec (.fence g rs) s = .next (nextSlot s)) ∧
    (fenceHolds s (scopeNo rs) = false → exec (.fence g rs) s = .next (s.setStall false)) ∧
    (s.me.held = [] → landedAll s s.cur = true → ∃ u, exec (.phase g) s = .next u ∧
      u.me.pcache = [] ∧ u.me.held = [] ∧ u.pc = s.pc + 12 ∧ u.mem = s.mem ∧ ∀ r, u.reg r = s.reg r) ∧
    (landedAll s s.cur = false → ∃ u, exec (.phase g) s = .next u ∧ u.pc = s.pc ∧ u.me.pcache = s.me.pcache ∧ u.mem = s.mem)

/-- WINLD, PGREQ, PGREQ.R and RESQ (R243-R245): the modes; the faults of an image's place, of its entries and of a
poisoned line (R358); the checks of a request, its posting, what NOWAIT writes when it is posted and when the hob has no
place, its waits and its answer; and RESQ's word for an address that no window entry covers. -/
def Obligations.ResidencyInstructions : Prop :=
  ∀ (g : Guard) (d r : Reg) (nowait : Bool) (s : State),
    Straight s → GuardTrue g false s →
    let a := s.reg r
    let got := fun v => (.next (nextSlot (s.setReg d v)) : Out)
    let answer := fun (x : Hearth) v => (.next (nextSlot ((s.setMe x).setReg d v)) : Out)
    let stop := fun c => (.next (raise (s.setStall false) c a) : Out)
    let wait := fun (u : State) w => (u.setMe { u.me with pg := w }).setStall false
    let p := s.guestOf s.cur
    let here := fun (t : Trn) => t.ent.repOn (dieOf s.cur) = true ∨ (t.ent.remote = false ∧ t.ent.frame.toNat / 2 ^ 21 = dieOf s.cur)
    (s.me.mode = .t → exec (.winld g r) s = .next (raise (s.setStall false) .privilege s.pc)) ∧
    (s.me.mode ≠ .t → s.me.winld = none → a.toNat % 4096 ≠ 0 →
      exec (.winld g r) s = .next (raise (s.setStall false) .align a)) ∧
    (s.me.mode ≠ .t → s.me.winld = none → a.toNat % 4096 = 0 →
      (s.stage2 p (a.toNat / frameSize) = none → exec (.winld g r) s = stop .windowPerm) ∧
      (∀ e, s.stage2 p (a.toNat / frameSize) = some e →
        (e.remote = true → s.lostTo p e.peer.toNat = true → exec (.winld g r) s = stop .linkLost) ∧
        (e.remote = false ∨ s.lostTo p e.peer.toNat = false → e.nr = true → exec (.winld g r) s = stop .nonresident)) ∧
      (∀ v, askAll s s.cur .image (imageAsks s p a.toNat) = (false, v) → exec (.winld g r) s = .next (v.setStall false)) ∧
      ∀ v, askAll s s.cur .image (imageAsks s p a.toNat) = (true, v) →
      ∀ l u, readWindowImage v p a.toNat = .ok (l, u) →
      (∀ b, windowPoison u p a.toNat = some b → ∃ (v : State) (i : Nat), exec (.winld g r) s =
        .next (raise (v.setStall false) .machineCheck (BitVec.ofNat 64 i)) ∧ v.hearths = u.hearths ∧ v.mem = u.mem) ∧
      (windowPoison u p a.toNat = none →
      (∀ n, checkWindows (windowImage l) = .error n →
        exec (.winld g r) s = .next (raise (u.setStall false) .windowConflict (a + BitVec.ofNat 64 (16 * n)))) ∧
      (∀ t, checkWindows (windowImage l) = .ok t → s.me.translating = false →
        ∃ v, exec (.winld g r) s = .next v ∧ v.pc = s.pc + 12 ∧ v.me.win = t.map (fun w => (w.1, summarise u p w.2)) ∧
          v.ctx.ae.icache = [] ∧ v.ctx.xe.icache = [] ∧ v.mem = s.mem) ∧
      (∀ t, checkWindows (windowImage l) = .ok t → s.me.translating = true →
        ∃ v, exec (.winld g r) s = .next v ∧ v.pc = s.pc ∧ v.me.win = s.me.win ∧ v.me.winld = some t ∧ v.mem = s.mem))) ∧
    (s.me.mode ≠ .t → ∀ t, s.me.winld = some t → s.me.translating = false →
      ∃ v, exec (.winld g r) s = .next v ∧ v.pc = s.pc + 12 ∧ v.me.win = t.map (fun w => (w.1, summarise s p w.2)) ∧
        v.me.winld = none ∧ v.ctx.ae.icache = [] ∧ v.ctx.xe.icache = [] ∧ v.mem = s.mem) ∧
    (s.me.pg = .none → ∀ c, translate s s.cur .any a = .error c → c ≠ .machineCheck →
      exec (.pgreq g d r nowait) s = stop c ∧
      ((lookupWin s.me.win a).all (·.r) = true → exec (.pgreqR g d r nowait) s = stop c)) ∧
    (s.me.pg = .none → (lookupWin s.me.win a).all (·.r) = false → exec (.pgreqR g d r nowait) s = stop .windowPerm) ∧
    (∀ rep : Bool,
      let pgreq := if rep then Instr.pgreqR g d r nowait else Instr.pgreq g d r nowait
      (s.me.pg = .posted → exec pgreq s = .next (s.setStall false)) ∧
      (s.me.pg = .none → (rep = true → (lookupWin s.me.win a).all (·.r) = true) →
        ∀ t, translate s s.cur .any a = .ok t → requestDone t.ent (dieOf s.cur) rep = false →
        let f := t.gpa / frameSize
        (∀ u, postRequest s (dieOf s.cur) t.part f rep (if nowait then none else some s.cur) = some u →
          exec pgreq s = if nowait then .next (nextSlot (u.setReg d 1)) else .next (wait u .posted)) ∧
        (postRequest s (dieOf s.cur) t.part f rep (if nowait then none else some s.cur) = none →
          exec pgreq s = if nowait then got 4 else .next (wait s (.place t.part f)))) ∧
      (∀ q f, s.me.pg = .place q f →
        (∀ u, postRequest s (dieOf s.cur) q f rep (some s.cur) = some u → exec pgreq s = .next (wait u .posted)) ∧
        (postRequest s (dieOf s.cur) q f rep (some s.cur) = none → exec pgreq s = .next (s.setStall false)))) ∧
    (∀ die q f rep w u, postRequest s die q f rep w = some u →
      u.hobReqs = s.hobReqs ++ [{ part := q, g := f, die := die, replica := rep, waiter := w }] ∧
      (q ≠ hostPart → (u.stage2 q f).all (·.pend) = true)) ∧
    (∀ v, s.me.pg = .served v → exec (.pgreq g d r nowait) s = answer { s.me with pg := .none } v ∧
      exec (.pgreqR g d r nowait) s = answer { s.me with pg := .none } v) ∧
    (∀ t, translate s s.cur .any a = .ok t →
      (s.me.pg = .none → t.ent.nr = false → exec (.pgreq g d r nowait) s = got 0) ∧
      (s.me.pg = .none → t.ent.nr = false → (lookupWin s.me.win a).all (·.r) = true → here t →
        exec (.pgreqR g d r nowait) s = got 0)) ∧
    (lookupWin s.me.win a = none → exec (.resq g d r) s = got 0) ∧
    exec (.resq g d r) s = got (BitVec.ofNat 64 (resqWord s s.cur a))

/-- ACC (R273, R278): the two checks, a new entry, an entry of the same operation combined, each sent to its damper; an
ACC that has waited goes on with the translation and the addend of its issue; FLUSHE sends what is held, at once (log
49), and waits while an entry is not free or an addend has not landed (R275). A new entry is the lowest free one (log
41). -/
def Obligations.EmberAccumulate : Prop :=
  ∀ (g : Guard) (op : AccOp) (m : MemOp) (s3 : Reg) (ty : DType) (rnd : Rnd) (s : State),
    Straight s → GuardTrue g false s →
    let a := s.memAddr m
    let o := s.reg s3
    let x := BitVec.ofNat 512 (leNat (mbytes s.me.scratch o.toNat 64))
    let acc := Instr.acc g op m s3 ty rnd
    let go := fun (u : State) (line : BitVec 42) (x : LineWord) =>
      let set := fun (n : Nat) (e : Ember) =>
        (.next (nextSlot (sendEmber (u.setCtx { u.ctx.setEmber n e with accSent := false }) u.cur false n)) : Out)
      badIn s.ctx.bad (emberReads s.ctx line) = none →
      (s.ctx.emberOf line = none → s.ctx.emberCount < s.ctx.ea → ∀ n, s.ctx.freeEmber = some n →
        exec acc s = .next (nextSlot (sendEmber (u.setCtx
          { u.ctx.setEmber n { state := .held, op := op, ty := ty, line := line, value := x } with
            accSent := false, bad := cleanWords (cleanWords u.ctx.bad (0x8000 + 64 * n) 64) (0xA000 + 8 * n) 8 }) u.cur false n))) ∧
      (∀ n, s.ctx.emberOf line = some n → (s.ctx.ember n).state = .held → (s.ctx.ember n).op = op → (s.ctx.ember n).ty = ty →
        exec acc s = set n { s.ctx.ember n with value := combine op ty (s.ctx.ember n).value x })
    let waits := fun (line : BitVec 42) => badIn s.ctx.bad (emberReads s.ctx line) = none ∧
      ((s.ctx.emberOf line = none ∧ s.ctx.ea ≤ s.ctx.emberCount) ∨
        ((s.ctx.emberOf line).any fun n => (s.ctx.ember n).state == .inflight) = true)
    (s.me.issue = none →
      (a.toNat % 64 ≠ 0 → exec acc s = .next (raise (s.setStall false) .align a)) ∧
      (a.toNat % 64 = 0 → 2 ^ 21 < o.toNat + 64 → exec acc s = .next (raise (s.setStall false) .scratchRange o)) ∧
      (a.toNat % 64 = 0 → o.toNat + 64 ≤ 2 ^ 21 → o.toNat % 64 ≠ 0 → exec acc s = .next (raise (s.setStall false) .align o)) ∧
      (a.toNat % 64 = 0 → o.toNat + 64 ≤ 2 ^ 21 → o.toNat % 64 = 0 → poisoned s.me o.toNat 64 = false →
        ∀ t, translate s s.cur .write a = .ok t →
          let i : Issue := { dva := a, gpa := t.gpa, part := t.part, ent := t.ent, data := x }
          go s (a.extractLsb' 6 42) x ∧
          (waits (a.extractLsb' 6 42) → exec acc s = .next ((s.setMe { s.me with issue := some i }).setStall false)))) ∧
    (∀ i, s.me.issue = some i → go (s.setMe { s.me with issue := none }) (i.dva.extractLsb' 6 42) i.data ∧
      (waits (i.dva.extractLsb' 6 42) → exec acc s =
        .next (((s.setMe { s.me with issue := none }).setMe { s.me with issue := some i }).setStall false))) ∧
    (s.ctx.embers = [] → accPending s s.cur = false → exec (.flushe g) s = .next (nextSlot s)) ∧
    (let u := sendHeld s s.cur false
     (u.ctx.emberCount ≠ 0 ∨ accPending u s.cur = true → exec (.flushe g) s = .next (u.setStall false)) ∧
     (u.ctx.emberCount = 0 → accPending u s.cur = false → exec (.flushe g) s = .next (nextSlot u)))

/-- SEQOPEN, SEQCLOSE and ACCO (R278, R281, R284, R285): SEQOPEN closes its slot first, waits for room on its region's
path (R290), sends its open records to every slice of the package and completes with the slices' answers, or raises
SEQ_STATE when one rejects, with what the others accepted withdrawn (log 23); SEQCLOSE waits until the slot's
contributions are taken, sends its close records, closes the slot with the slices' acknowledgements, and with WAIT stays
until the key is retired; of a closed slot it completes at once; ACCO sends its contribution, and completes when the
acknowledgement of its slice has come. -/
def Obligations.OrderedSequences : Prop :=
  ∀ (g : Guard) (s1 s2 s3 base : Reg) (i : Src) (ty : DType) (rnd : Rnd) (ofs : BitVec 20) (q : BitVec 4) (wait : Bool)
    (s : State),
    Straight s → GuardTrue g false s →
    let k := q.toNat
    let x : SeqSlot := { key := (s.reg s1).setWidth 16, lo := (s.reg s2).setWidth 32, count := (s.reg s3).setWidth 32
                         span := (s.reg s1).extractLsb' 32 32, opened := true }
    let y := s.ctx.seq k
    let a := s.reg base + ofs.signExtend 64
    let n := (s.src i).toNat
    let fault := (.next (raise (s.setStall false) .seqState (q.setWidth 64)) : Out)
    let acco := Instr.acco g base s2 i ty rnd ofs q
    (s.ctx.seqWait = none → y.opened = false →
      (x.span = 0 ∨ x.count = 0 ∨ x.span.toNat < x.lo.toNat + x.count.toNat → exec (.seqopen g s1 s2 s3 q) s = fault) ∧
      (wait = false → exec (.seqclose g q wait) s = .next (nextSlot s)) ∧
      (x.span ≠ 0 → x.count ≠ 0 → x.lo.toNat + x.count.toNat ≤ x.span.toNat →
        (pathRoom s s.ctx.part s.ctx.region (fun r => r.squ < r.sqa) = false →
          exec (.seqopen g s1 s2 s3 q) s = .next (s.setStall false)) ∧
        (pathRoom s s.ctx.part s.ctx.region (fun r => r.squ < r.sqa) = true →
          ∃ u, exec (.seqopen g s1 s2 s3 q) s = .next u ∧ u.pc = s.pc ∧ u.mem = s.mem ∧
            u.seqMsgs = s.seqMsgs ++ (List.range 64).map (fun i =>
              { isOpen := true, src := s.cur, slice := i, part := s.ctx.part, uid := s.uid + 1, key := x.key, span := x.span.toNat
                lo := x.lo.toNat, n := x.count.toNat, path := pathTo s.cur (i / 32) i }) ∧
            u.seqAcks = s.seqAcks ++ [{ uid := s.uid + 1, left := 64 }] ∧
            u.ctx.seqWait = some { uid := s.uid + 1, slot := k, stage := .opening } ∧ (∀ r, u.reg r = s.reg r)))) ∧
    (∀ w, s.ctx.seqWait = some w → w.stage = .opening →
      ((s.seqAck w.uid).left ≠ 0 → exec (.seqopen g s1 s2 s3 q) s = .next (s.setStall false)) ∧
      ((s.seqAck w.uid).left = 0 → (s.seqAck w.uid).rejected = false → ∃ u, exec (.seqopen g s1 s2 s3 q) s = .next u ∧
        u.ctx.seq k = x ∧ u.ctx.seqWait = none ∧ u.pc = s.pc + 12 ∧ u.mem = s.mem ∧ ∀ r, u.reg r = s.reg r) ∧
      ((s.seqAck w.uid).left = 0 → (s.seqAck w.uid).rejected = true → ∃ u : State, exec (.seqopen g s1 s2 s3 q) s =
          .next (raise (u.setStall false) .seqState (q.setWidth 64)) ∧ u.ctx.seqWait = none ∧ u.ctx.seq k = y ∧ u.mem = s.mem ∧
        ∀ p ∈ u.slices, ∀ r ∈ p.2.keys, r.part = s.ctx.part → r.key = x.key → ∀ g ∈ r.ranges, g.uid ≠ w.uid)) ∧
    (s.ctx.seqWait = none → y.opened = true → badIn s.ctx.bad [seqPlace k] = none → untaken s s.ctx k = true →
      exec (.seqclose g q wait) s = .next (s.setStall false) ∧ exec (.seqopen g s1 s2 s3 q) s = .next (s.setStall false)) ∧
    (s.ctx.seqWait = none → y.opened = true → badIn s.ctx.bad [seqPlace k] = none → untaken s s.ctx k = false →
      ∃ u, exec (.seqclose g q wait) s = .next u ∧
      exec (.seqopen g s1 s2 s3 q) s = .next u ∧ u.pc = s.pc ∧ u.ctx.seqWait = some { uid := s.uid + 1, slot := k, stage := .closing } ∧ u.mem = s.mem ∧ ∀ r, u.reg r = s.reg r) ∧
    (∀ w, s.ctx.seqWait = some w → w.slot = k → w.stage = .closing →
      ((s.seqAck w.uid).left ≠ 0 → exec (.seqclose g q wait) s = .next (s.setStall false)) ∧
      ((s.seqAck w.uid).left = 0 → (wait = true → y.ports = 0 ∧ ∀ p ∈ s.slices, p.2.keyRec s.ctx.part y.key = none) →
        ∃ u, exec (.seqclose g q wait) s = .next u ∧ u.ctx.seq k = { y with opened := false } ∧ u.ctx.seqWait = none ∧
          u.pc = s.pc + 12 ∧ u.mem = s.mem ∧ ∀ r, u.reg r = s.reg r)) ∧
    (∀ w, s.ctx.seqWait = some w → w.stage = .retiring → y.ports = 0 → (∀ p ∈ s.slices, p.2.keyRec s.ctx.part y.key = none) →
      exec (.seqclose g q wait) s = .next (nextSlot (s.setCtx { s.ctx with seqWait := none }))) ∧
    (s.ctx.acco = none → a.toNat % 64 = 0 → (s.reg s2).toNat + 64 ≤ 2 ^ 21 → (s.reg s2).toNat % 64 = 0 →
      poisoned s.me (s.reg s2).toNat 64 = false → badIn s.ctx.bad [seqPlace k] = none →
      (y.opened = false ∨ n < y.lo.toNat ∨ y.lo.toNat + y.count.toNat ≤ n ∨ (y.issued = true ∧ n ≤ y.last.toNat) →
        exec acco s = fault) ∧
      (y.opened = true → y.lo.toNat ≤ n → n < y.lo.toNat + y.count.toNat → (y.issued = true → y.last.toNat < n) →
        ∀ t, translate s s.cur .write a = .ok t → ∃ u, exec acco s = .next u ∧ u.pc = s.pc ∧ u.ctx.acco = some (s.uid + 1) ∧
          (u.ctx.seq k).last = BitVec.ofNat 32 n ∧ (u.ctx.seq k).issued = true)) ∧
    (∀ v, s.ctx.acco = some v →
      ((∀ p ∈ s.slices, ∀ m ∈ p.2.accoq, m.uid ≠ v) → (∀ m ∈ s.acks, m.uid ≠ v) →
        exec acco s = .next (nextSlot (s.setCtx { s.ctx with acco := none }))) ∧
      ((∃ p ∈ s.slices, ∃ m ∈ p.2.accoq, m.uid = v) ∨ (∃ m ∈ s.acks, m.uid = v) → exec acco s = .next (s.setStall false)))

/-- LAUNCH and LAUNCHW (R311, R312): the checks and the status written. PARK (R299, R313): the checks, and the task
parked. That a handler of LAUNCH_DEADLOCK launches for no task, and which task a handler's PARK parks, are readings of
the model (log 59), as is what a waiting PARK keeps (log 61). -/
def Obligations.LaunchAndPark : Prop :=
  (∀ (g : Guard) (d s1 s2 s3 : Reg) (s : State),
    Straight s → GuardTrue g false s → s.me.parkW = none →
    let a := s.reg s1
    let fault := fun c => (.next (raise (s.setStall false) c a) : Out)
    let answer := fun (u : State) v => (.next (nextSlot (u.setReg d v)) : Out)
    (a.toNat % 128 ≠ 0 → exec (.launch g d s1) s = fault .align ∧ exec (.launchw g d s1 s2 s3) s = fault .align) ∧
    (a.toNat % 128 = 0 → ∀ c, translate s s.cur .read a = .error c → c ≠ .machineCheck →
      exec (.launch g d s1) s = fault c ∧ exec (.launchw g d s1 s2 s3) s = fault c) ∧
    (a.toNat % 128 = 0 → ∀ t, translate s s.cur .read a = .ok t → ∀ b ok, boundary s s.cur s.eng = (b, ok) →
      (ok = false → exec (.launch g d s1) s = .next (b.setStall false) ∧ exec (.launchw g d s1 s2 s3) s = .next (b.setStall false)) ∧
      (ok = true →
        (launcherOf b = none → exec (.launch g d s1) s = answer b 2 ∧ exec (.launchw g d s1 s2 s3) s = answer b 2) ∧
        (∀ p, launcherOf b = some p → t.ent.remote = false → ∀ r, checkRecord b t.part t.gpa = .ok r →
          ∀ v, makeLive b t.part r.region = .ok v → inSubtree v t.part r.region p.region = true →
            (b.launch p.launch).draining = false → (b.part t.part).busyOp ≠ 0x0E →
              ((p.rsv = true ∨ plRoom v t.part r.region = true) →
                exec (.launch g d s1) s = answer (takeRecord v p t.gpa r (dieOf s.cur)) 0 ∧
                exec (.launchw g d s1 s2 s3) s = answer (takeRecord v p t.gpa r (dieOf s.cur)) 0) ∧
              (p.rsv = false → plRoom v t.part r.region = false → exec (.launch g d s1) s = answer b 1)) ∧
        (∀ p, launcherOf b = some p →
          (t.ent.remote = true → exec (.launch g d s1) s = answer (settle (dropReserve b p)) 2) ∧
          (t.ent.remote = false → ∀ r, checkRecord b t.part t.gpa = .ok r → ∀ v, makeLive b t.part r.region = .ok v →
            inSubtree v t.part r.region p.region = false ∨ (b.launch p.launch).draining = true ∨ (b.part t.part).busyOp = 0x0E →
              exec (.launch g d s1) s = answer (settle (dropReserve b p)) 2))))) ∧
  (∀ (g : Guard) (s1 s2 b : Reg) (s : State),
    Straight s → GuardTrue g false s → s.eng = .a →
    let x := s.reg s1
    let mask := s.reg s2
    let resume := s.breg b
    let c := s.ctx
    let quiet := fun (p : State) => (parkedX p).isSome = true ∧ p.ctx.copyq = [] ∧ p.me.matq = [] ∧ p.ctx.embers = [] ∧
      accPending p p.cur = false ∧ p.me.held = [] ∧ landedAll p p.cur = true ∧ underWay p p.cur = false
    let parked := fun (p : State) (k : ParkWait) =>
      let q := (boundary p p.cur .a).1
      let l := continuation { q.ctx with task := q.me.parked } k.resume ((parkedX p).getD 0) k.mask k.ev k.eaddr k.cmp
      (.next ((parkTask (noteParked (writeFrame q q.ctx.part ((q.stage2 q.ctx.part (k.gpa / frameSize)).getD k.ent) k.gpa l)) k.gpa 0 (bits k.ev.toNat 2 2) 0 k.cmp).setStall false) : Out)
    (s.me.parkW = none → x.toNat % 256 ≠ 0 → exec (.park g s1 s2 b) s = .next (raise (s.setStall false) .align x)) ∧
    (s.me.parkW = none → x.toNat % 256 = 0 → ∀ t, translate s s.cur .both x = .ok t →
      let p := (peekBytes s t 256).2
      let w := fun o => field (peekBytes s t 256).1 o 8
      let busy : Bool := (List.range 32).any (fun n => (c.flue n).opened) || !c.xq.isEmpty || !c.aq.isEmpty || c.defCount != 0
        || (List.range 16).any (fun q => (c.seq q).opened) || !isSlot resume || !maskOk mask
      (busy = true → exec (.park g s1 s2 b) s = .next (raise (p.setStall false) .parkState x)) ∧
      (busy = false → w 0x20 = 0 → w 0x38 = 0 → (∀ i, i < 4 → w (0xE0 + 8 * i) = 0) →
        (∀ n, c.heldSlots.head? = some n →
          exec (.park g s1 s2 b) s = .next (raise (p.setStall false) .guardMisuse (BitVec.ofNat 64 n))) ∧
        (c.heldSlots = [] →
          let k : ParkWait := { gpa := t.gpa, ent := t.ent, mask := mask, resume := resume, eaddr := BitVec.ofNat 64 (w 0x28)
                                cmp := BitVec.ofNat 64 (w 0x30) }
          (parkedX p = none → exec (.park g s1 s2 b) s = .next ((p.setMe { p.me with parkW := some k }).setStall false)) ∧
          (quiet p → exec (.park g s1 s2 b) s = parked p k)))) ∧
    (∀ k, s.me.parkW = some k → bits k.ev.toNat 0 2 = 0 → k.child = none → k.watch = 0 →
      let p := s.setMe { s.me with parkW := none }
      (parkedX p = none → exec (.park g s1 s2 b) s = .next ((p.setMe { p.me with parkW := some k }).setStall false)) ∧
      (quiet p → exec (.park g s1 s2 b) s = parked p k)))

/-- DONE, SRET, TREL and SNAP (R98, R314, R315, R323, R332). DONE of one engine waits for the other; of the second it
starts the task's end; in a handler one DONE starts it, of the served task, which has failed, or of the handler alone.
SRET in H mode is a jump; in S mode the first engine waits for the second, with which the hearth goes back to the served
context, or a LAUNCH_DEADLOCK handler ends (log 59). TREL waits for what is under way, and then releases the task's
successors, once. SNAP triggers a snapshot, or joins the one that is pending, and writes its tick. -/
def Obligations.EndingInstructions : Prop :=
  ∀ (g : Guard) (b d : Reg) (tag : BitVec 16) (s : State),
    s.cur < nCores →
    let next := (.next : State → Out)
    let other := s.ctx.es (Eng.other s.eng)
    let ended := s.setEs { s.es with done := true }
    let mine := s.setEs { s.es with sret := some (s.breg b) }
    let ends := fun (u : State) => u.me.run = .ending ∧ u.ctx.ae.done = true ∧ u.ctx.xe.done = true ∧ u.due = s.due ++ [.taskEnd s.cur] ∧
      u.mem = s.mem
    let back := fun (e u : EngState) (done : Bool) (t : Word) =>
      u.done = done ∧ u.icache = [] ∧ (done = false → u.pc = t) ∧ (done = true → u.pc = e.pc)
    (s.me.mode = .t → exec (.sret g b) s = next (raise (s.setStall false) .privilege s.pc) ∧
      exec (.snap g d tag) s = next (raise (s.setStall false) .privilege s.pc)) ∧
    (GuardTrue g false s →
      (∀ n, s.ctx.heldSlots.head? = some n →
        exec (.done g) s = next (raise (s.setStall false) .guardMisuse (BitVec.ofNat 64 n))) ∧
      (s.ctx.heldSlots = [] → s.me.run = .running →
        (other.done = false → exec (.done g) s = next (ended.setStall false)) ∧
        (other.done = true → exec (.done g) s =
          next (((ended.setMe { ended.me with run := .ending }).pushDue (.taskEnd s.cur)).setStall false))) ∧
      (s.ctx.heldSlots = [] → s.me.run = .handler →
        (s.me.serves = .stopped → ∃ u, exec (.done g) s = next u ∧ ends u ∧ u.me.serves = .none ∧ u.ctx.failed = true ∧
          u.ctx.task = s.me.ina.task) ∧
        (∀ p r, s.me.serves = .deadlock p r → ∃ u, exec (.done g) s = next u ∧ ends u ∧ u.me.serves = .deadlock p r)) ∧
      (s.me.mode = .h → exec (.sret g b) s = next ((s.setStall false).setPc (s.breg b))) ∧
      (s.me.mode = .s → other.sret = none → exec (.sret g b) s = next (mine.setStall false)) ∧
      (s.me.mode = .s → ∀ t, other.sret = some t →
        let c := s.me.ina
        let ta := if s.eng = .a then s.breg b else t
        let tx := if s.eng = .a then t else s.breg b
        (s.me.serves = .stopped → ∃ u, exec (.sret g b) s = next u ∧
          u.me.mode = .t ∧ u.me.serves = .none ∧ u.me.halfH1 = !s.me.halfH1 ∧ u.ctx.frame = { c.frame with kind := 0, code := 0 } ∧
          back c.ae u.ctx.ae c.frame.adone ta ∧ back c.xe u.ctx.xe c.frame.xdone tx ∧
          u.me.run = (if c.frame.adone && c.frame.xdone then .ending else .running) ∧ u.mem = s.mem ∧ ∀ e r, u.ctx.reg e r = c.reg e r) ∧
        (∀ p r, s.me.serves = .deadlock p r → ∃ u, exec (.sret g b) s = next u ∧ ends u ∧ u.me.serves = .deadlock p r))) ∧
    (Straight s → GuardTrue g false s → s.me.mode ≠ .t →
      let at_ := 256 * (s.dcc / 256 + 2)
      (s.snap = none → exec (.snap g d tag) s =
        next (nextSlot (State.setReg { s with snap := some { at_ := at_, tag := tag, bySnap := true } } d at_))) ∧
      (∀ t, s.snap = some t → exec (.snap g d tag) s = next (nextSlot (State.setReg
        { s with snap := some (if t.bySnap then t else { t with tag := tag, bySnap := true }) } d t.at_)))) ∧
    (Straight s → GuardTrue g false s → s.eng = .a →
      let v := s.setMe { s.me with trel := some 0 }
      let q := (boundary v v.cur .a).1
      let free := q.setMe { q.me with trel := none }
      (s.ctx.copyq ≠ [] ∨ s.ctx.mergeq ≠ [] ∨ s.ctx.blowq ≠ [] ∨ s.me.trel.getD s.me.matq.length ≠ 0 → exec (.trel g) s =
        next ((s.setMe { s.me with trel := some (s.me.trel.getD s.me.matq.length) }).setStall false)) ∧
      (s.ctx.copyq = [] → s.ctx.mergeq = [] → s.ctx.blowq = [] → s.me.trel.getD s.me.matq.length = 0 → s.ctx.embers = [] →
        accPending s s.cur = false → s.me.held = [] → landedAll s s.cur = true → underWay s s.cur = false →
        (launcherOf free = none → exec (.trel g) s = next (nextSlot free)) ∧
        (∀ t, launcherOf free = some t →
          (t.treled = true → exec (.trel g) s = next (nextSlot free)) ∧
          (t.treled = false → ∀ w ok, releaseOnce free t false = (w, ok) →
            (ok = true → exec (.trel g) s = next (finish (.done (settle w)))) ∧
            (ok = false → exec (.trel g) s = next (w.setStall false))))))

/-- Lanes of a vector at a type (R184, R185), and VLD and VST (R189). -/
def Obligations.VectorAccess : Prop :=
  (∀ (r : Reg) (m : Word) (w : Nat) (fill : Nat → BitVec 32) (used : List Nat) (out : Nat → Nat) (s u : State),
    vectorResult s (.v r) m w fill used out = some u →
    (∀ k j, j < 64 → u.ctx.vlane k j = if k = r ∧ m.getLsbD j = true then fill (out j) else s.ctx.vlane k j) ∧
    (∀ e k, u.ctx.reg e k = s.ctx.reg e k) ∧ u.es = s.es ∧ u.ctx.t = s.ctx.t ∧ u.ctx.m = s.ctx.m ∧ u.mem = s.mem) ∧
  (∀ (g : Guard) (d : Reg) (x : VSrc) (mo : MemOp) (ty : DType) (s : State),
    Straight s → ∀ m, GuardMask g true s m →
    let a : Int := (s.reg mo.base).toNat + (s.reg mo.index).toNat * 2 ^ mo.scl.toNat + mo.ofs.toInt
    let w := tyBits ty
    let n := 8 * w
    let al := if w / 8 = 0 then 1 else w / 8
    let stop := fun c => (.next (raise (s.setStall false) c (BitVec.ofInt 64 a)) : Out)
    let plain := ∀ f, f < 32 → (s.ctx.flue f).opened = true → (s.ctx.flue f).kind ≠ 4
    let now := fun (h : Hearth) j => packedElem w (mbytes h.scratch a.toNat n) j
    (a < 0 ∨ 2 ^ 21 < a + n → exec (.vld g d mo ty) s = stop .scratchRange ∧ exec (.vst g mo x ty) s = stop .scratchRange) ∧
    (0 ≤ a → a + n ≤ 2 ^ 21 → a % al ≠ 0 → exec (.vld g d mo ty) s = stop .align ∧ exec (.vst g mo x ty) s = stop .align) ∧
    (0 ≤ a → a + n ≤ 2 ^ 21 → a % al = 0 →
      (poisoned s.me a.toNat n = false → ∃ u, exec (.vld g d mo ty) s = .next u ∧ u.pc = s.pc + 12 ∧ u.mem = s.mem ∧
        ∀ k : Reg, ∀ j, j < 64 → u.ctx.vlane k j =
          if k = d ∧ m.getLsbD j = true then fillLane ty (now s.me j) else s.ctx.vlane k j) ∧
      (lateBad s (.vst g mo x ty) = none → w ≤ 32 → ty ≠ .bp → ∀ e f, readV s.ctx s.me.scratch w [] x = .ok e f →
          (plain ∧ s.me.serves ≠ .stopped ∧ s.me.poison = []) ∨ (f = none ∧ NoTail s.me a.toNat n) →
        ∃ u, exec (.vst g mo x ty) s = .next u ∧ u.pc = s.pc + 12 ∧ u.mem = s.mem ∧
          (∀ j, j < 64 → now u.me j = if m.getLsbD j then e.getD j 0 else now s.me j) ∧
          (∀ k, k < a.toNat ∨ a.toNat + n ≤ k → mget u.me.scratch k = mget s.me.scratch k))))

/-- VMOV, VBCST, VPERM, VSEL, VIDX (R190), VMIN, VMAX, VABS, VNEG (R193), and VAND, VOR, VXOR, VSHL and VSHR (R195):
each element of the result from the elements of the sources, whatever their operand forms. -/
def Obligations.VectorLaneOperations : Prop :=
  ∀ (g : Guard) (d s1 s2 : VSrc) (x y : Src) (ty : DType) (sat ar : Bool) (s : State),
    Straight s → ∀ m, GuardMask g true s m →
    let w := tyBits ty
    let amt : Src → VAmt := fun x => match x with | .reg r => .reg r | .imm i => .imm i
    let vamt : VSrc → VAmt := fun x => match x with | .v r => .v r | .f r => .f r
    let shr : DType → Int → Nat → Int := if ar then shiftA else shiftR
    let put := fun (i : Instr) (w : Nat) (fill : Nat → BitVec 32) (used : List Nat) (out : Nat → Nat) =>
      ∀ u, vectorResult s d m w fill used out = some u → exec i s = .next (nextSlot u)
    let n := (s.src x).toNat % 2 ^ w
    put (.vbcst g d x ty) w (fillLane ty) [] (fun _ => n) ∧
    put (.vidx g d x y ty) w (fillLane ty) [] (fun j => ((s.src x).toNat + j * (s.src y).toNat) % 2 ^ 32) ∧
    (∀ a fa, readV s.ctx s.me.scratch w [] s1 = .ok a fa → (∀ r, d = .f r → flueDestOk s.ctx r.toNat (8 * w) = true) →
      ∀ b, sourcePoison s.me [(w, s1)] = some b → ∃ (v : State) (i : Nat), exec (.vmov g d s1 ty) s =
        .next (raise (v.setStall false) .machineCheck (BitVec.ofNat 64 i)) ∧ v.hearths = s.hearths ∧ v.mem = s.mem) ∧
    (CleanSources s [s1, s2] → ∀ a fa, readV s.ctx s.me.scratch w [] s1 = .ok a fa →
      put (.vmov g d s1 ty) w (fillLane ty) fa.toList (fun j => a.getD j 0) ∧
      put (.vabs g d s1 ty sat) w (fillLane ty) fa.toList (fun j => if isFlt ty then signOp ty false (a.getD j 0)
        else narrow ty sat ((tyInt ty (a.getD j 0)).natAbs : Int)) ∧
      put (.vneg g d s1 ty sat) w (fillLane ty) fa.toList (fun j => if isFlt ty then signOp ty true (a.getD j 0)
        else narrow ty sat (-(tyInt ty (a.getD j 0)))) ∧
      put (.vshl g d s1 (amt x) ty) w (fillLane ty) fa.toList (fun j => wrap w (shiftL ty (tyInt ty (a.getD j 0)) n)) ∧
      put (.vshr g ar d s1 (amt x) ty) w (fillLane ty) fa.toList (fun j => wrap w (shr ty (tyInt ty (a.getD j 0)) n)) ∧
      (∀ b fb, readV s.ctx s.me.scratch w fa.toList s2 = .ok b fb →
        let used := fa.toList ++ fb.toList
        put (.vand g d s1 s2 ty) w (fillLane ty) used (fun j => a.getD j 0 &&& b.getD j 0) ∧
        put (.vor g d s1 s2 ty) w (fillLane ty) used (fun j => a.getD j 0 ||| b.getD j 0) ∧
        put (.vxor g d s1 s2 ty) w (fillLane ty) used (fun j => a.getD j 0 ^^^ b.getD j 0) ∧
        put (.vmin g d s1 s2 ty) w (fillLane ty) used (fun j => minMax ty false (a.getD j 0) (b.getD j 0)) ∧
        put (.vmax g d s1 s2 ty) w (fillLane ty) used (fun j => minMax ty true (a.getD j 0) (b.getD j 0)) ∧
        put (.vshl g d s1 (vamt s2) ty) w (fillLane ty) used
          (fun j => wrap w (shiftL ty (tyInt ty (a.getD j 0)) (b.getD j 0))) ∧
        put (.vshr g ar d s1 (vamt s2) ty) w (fillLane ty) used
          (fun j => wrap w (shr ty (tyInt ty (a.getD j 0)) (b.getD j 0))))) ∧
    (CleanSources s [s1, s2] → ∀ a fa, readV s.ctx s.me.scratch 32 [] s1 = .ok a fa → ∀ b fb, readV s.ctx s.me.scratch 32 fa.toList s2 = .ok b fb →
      put (.vperm g d s1 s2) 32 (BitVec.ofNat 32) (fa.toList ++ fb.toList)
        (fun j => if b.getD j 0 < 64 then a.getD (b.getD j 0) 0 else 0) ∧
      (∀ p r, s.es.preds = p :: r → put (.vsel g d s1 s2) 32 (BitVec.ofNat 32) (fa.toList ++ fb.toList)
        (fun j => if p.getLsbD j then a.getD j 0 else b.getD j 0)))

/-- VADD, VSUB, VMUL, VFMA, VFMS (R192), VRCP, VRSQ, VEXP2, VLOG2 (R194), VCVT (R196) and VQNT (R197): each masked
lane's exact result is rounded once, with a draw of its own under SR. The values of the approximated functions (log 29)
and of SAT for an infinite operand (log 16) are readings of the model. -/
def Obligations.VectorRounding : Prop :=
  ∀ (g : Guard) (d s1 s2 s3 : VSrc) (q2 q3 : Reg) (ty src : DType) (r : RndSat) (s : State),
    Straight s → ∀ m, GuardMask g true s m →
    let w := tyBits ty
    let val := fun (e : Nat) => valueOf ty e
    let num := fun (e : Nat) => tyInt ty e
    let put := fun (i : Instr) (used : List Nat) (f : Nat → Nat → Nat) =>
      let l := drawLanes (r.rnd == .sr) m s.ctx.srseed f
      ∀ u, vectorResult s d m w (fillLane ty) used (fun j => l.1.getD j 0) = some u →
        exec i s = .next (nextSlot (setSeed l.2 u))
    let rnd := fun (u : Nat) (v : Val) => roundTo ty r.rnd r.sat u v
    let pick := fun (u : Nat) (v : Val) (i : Int) => if isFlt ty then roundTo ty r.rnd r.sat u v else narrow ty r.sat i
    let elem := fun (f : Val → Val) (e u : Nat) =>
      roundTo ty r.rnd (r.sat && !(isInf (val e) && isInf (f (val e)))) u (f (val e))
    CleanSources s [s1, s2, s3] →
    (∀ a fa, readV s.ctx s.me.scratch w [] s1 = .ok a fa →
      put (.vrcp g d s1 ty r) fa.toList (fun j u => elem rcpVal (a.getD j 0) u) ∧
      put (.vrsq g d s1 ty r) fa.toList (fun j u => elem rsqVal (a.getD j 0) u) ∧
      put (.vexp2 g d s1 ty r) fa.toList (fun j u => elem exp2ValOf (a.getD j 0) u) ∧
      put (.vlog2 g d s1 ty r) fa.toList (fun j u => elem log2ValOf (a.getD j 0) u) ∧
      (∀ b fb, readV s.ctx s.me.scratch w fa.toList s2 = .ok b fb →
        let two := fa.toList ++ fb.toList
        put (.vadd g d s1 s2 ty r) two (fun j u => pick u (Val.add r.rnd (val (a.getD j 0)) (val (b.getD j 0)))
          (num (a.getD j 0) + num (b.getD j 0))) ∧
        put (.vsub g d s1 s2 ty r) two (fun j u => pick u (Val.add r.rnd (val (a.getD j 0)) (val (b.getD j 0)).flip)
          (num (a.getD j 0) - num (b.getD j 0))) ∧
        put (.vmul g d s1 s2 ty r) two (fun j u => pick u ((val (a.getD j 0)).mul (val (b.getD j 0)))
          (num (a.getD j 0) * num (b.getD j 0))) ∧
        (∀ c fc, readV s.ctx s.me.scratch w two s3 = .ok c fc →
          put (.vfma g d s1 s2 s3 ty r) (two ++ fc.toList) (fun j u =>
            pick u (Val.add r.rnd ((val (a.getD j 0)).mul (val (b.getD j 0))) (val (c.getD j 0)))
              (num (a.getD j 0) * num (b.getD j 0) + num (c.getD j 0))) ∧
          put (.vfms g d s1 s2 s3 ty r) (two ++ fc.toList) (fun j u =>
            pick u (Val.add r.rnd ((val (a.getD j 0)).mul (val (b.getD j 0))) (val (c.getD j 0)).flip)
              (num (a.getD j 0) * num (b.getD j 0) - num (c.getD j 0)))))) ∧
    (∀ a fa, readV s.ctx s.me.scratch (tyBits src) [] s1 = .ok a fa →
      put (.vcvt g d s1 ty src r) fa.toList (fun j u => rnd u (valueOf src (a.getD j 0)))) ∧
    (∀ a fa, readV s.ctx s.me.scratch 32 [] s1 = .ok a fa →
      put (.vqnt g d s1 q2 q3 ty r) fa.toList (fun j u =>
        rnd u (quotient (a.getD j 0) ((s.reg q2).toNat % 256) ((s.reg q3).toNat % 2 ^ 32))))

/-- VCMP, VCNT (R191), VHIST, SCALEQ (R198, R199), VRED and VSCAN (R200, R201). -/
def Obligations.VectorCountsAndReductions : Prop :=
  ∀ (g : Guard) (c : Cond) (d : Reg) (dv s1 s2 : VSrc) (x : Src) (q : BitVec 2) (op : RedOp) (sc : Combine) (ty : DType)
    (r : RndSat) (s : State),
    Straight s → ∀ m, GuardMask g true s m →
    let w := tyBits ty
    (CleanSources s [s1, s2] → ∀ a fa, readV s.ctx s.me.scratch w [] s1 = .ok a fa →
      (∀ b fb, readV s.ctx s.me.scratch w fa.toList s2 = .ok b fb →
        (s.es.preds.length = 16 → exec (.vcmp g c s1 s2 ty) s = .next (raise (s.setStall false) .pstackOver s.pc)) ∧
        (s.es.preds.length ≠ 16 → ∃ u, exec (.vcmp g c s1 s2 ty) s = .next u ∧ u.pc = s.pc + 12 ∧ u.mem = s.mem ∧
          u.es.preds.tail = s.es.preds ∧
          ∀ j, j < 64 → (u.es.preds.headD 0).getLsbD j = (m.getLsbD j && compareTy c ty (a.getD j 0) (b.getD j 0)))) ∧
      (∃ u, exec (.vhistCount g s1 ty) s = .next u ∧ u.pc = s.pc + 12 ∧ u.mem = s.mem ∧
        ∀ i, i < 256 → u.ctx.bin i = s.ctx.bin i +
          BitVec.ofNat 32 ((List.range 64).filter fun j => m.getLsbD j && histBin ty (a.getD j 0) == i).length) ∧
      (let l := (List.range 64).map fun j => if m.getLsbD j then a.getD j 0 else redIdentity op ty
       let v := treeReduce (redNode op ty r) (r.rnd == .sr) 6 l s.ctx.srseed
       exec (.vred g op d s1 ty r) s = .next (nextSlot ((setSeed v.2 (s.setMe (commitReads s.me fa.toList))).setReg d
         (if isFlt ty then BitVec.ofNat 64 v.1 else resultTy ty v.1)))) ∧
      (let v := scanGo (scanOp sc) ty r m a 64 0 0 s.ctx.srseed
       ∀ u, vectorResult s dv m w (fillLane ty) fa.toList (fun j => v.1.getD j 0) = some u →
         exec (.vscan g sc dv s1 ty r) s = .next (nextSlot (setSeed v.2 u)))) ∧
    (s.es.preds = [] → exec (.vcnt g d) s = .next (raise (s.setStall false) .pstackUnder s.pc)) ∧
    (∀ p t, s.es.preds = p :: t → exec (.vcnt g d) s =
      .next (nextSlot (s.setReg d (BitVec.ofNat 64 ((List.range 64).filter fun j => p.getLsbD j).length)))) ∧
    (exec (.vhistClear g) s = .next (nextSlot ((s.setCtx { s.ctx with bins := [] }).cleanImage 0x1400 0x400))) ∧
    (∀ u, vectorResult s dv m 32 (BitVec.ofNat 32) [] (fun j => (s.ctx.bin (64 * q.toNat + j)).toNat) = some u →
      exec (.vhistRead g dv q) s = .next (nextSlot u)) ∧
    (let n := ((List.range 256).map fun i => (s.ctx.bin i).toNat).sum
     let p := min (s.src x).toNat 65536
     (n = 0 → exec (.scaleq g d x ty) s = .next (nextSlot (s.setReg d 127))) ∧
     (n ≠ 0 → ∀ b, b < 256 →
       (let need := max 1 ((p * n + 65535) / 65536)
        need ≤ ((List.range (b + 1)).map fun i => (s.ctx.bin i).toNat).sum ∧ ((List.range b).map fun i => (s.ctx.bin i).toNat).sum < need) →
       exec (.scaleq g d x ty) s = .next (nextSlot (s.setReg d (BitVec.ofNat 64 (min (b + 1 - topExponent ty) 254))))))

/-- DEFER and DRAIN (R92, R93). -/
def Obligations.Deferral : Prop :=
  ∀ (g : Guard) (d v : Reg) (n : BitVec 5) (s3 : Reg) (final : Bool) (s : State),
    Straight s → ∀ m, GuardMask g true s m → n.toNat ≤ 4 → v.toNat + n.toNat < 32 →
    let c := s.ctx
    let base := c.defBase.toNat
    let cap := c.defCap.toNat
    let head := c.defHead.toNat
    let count := c.defCount.toNat
    let lanes := (List.range 64).filter fun j => m.getLsbD j
    (cap < count + lanes.length → exec (.defer g v n s3) s = .next (raise (s.setStall false) .deferFull (c.defBase.setWidth 64))) ∧
    (count + lanes.length ≤ cap → cap ≤ 2048 → NoTail s.me base (32 * cap) →
      ∃ u, exec (.defer g v n s3) s = .next u ∧ u.pc = s.pc + 12 ∧ u.mem = s.mem ∧ u.ctx.defCount.toNat = count + lanes.length ∧
        ∀ i, i < lanes.length → mbytes u.me.scratch (base + 32 * ((head + count + i) % cap)) 32 =
          deferRecord c v.toNat n.toNat (s.reg s3) (lanes.getD i 0)) ∧
    (let take := if 64 ≤ count then 64 else if final then count else 0
     s.me.poison = [] → count ≤ cap → cap ≤ 2048 → head < max 1 cap →
      ∃ u, exec (.drain g d v n final) s = .next u ∧ u.pc = s.pc + 12 ∧ u.mem = s.mem ∧ (d ≠ 0 → u.reg d = BitVec.ofNat 64 take) ∧
        u.ctx.defCount.toNat = count - take ∧ u.ctx.defHead.toNat = (head + take) % max 1 cap ∧
        ∀ j i, j < 64 → i < n.toNat + 1 → u.ctx.vlane (BitVec.ofNat 5 (v.toNat + i)) j = if j < take
          then BitVec.ofNat 32 (leNat (mbytes s.me.scratch (base + 32 * ((head + j) % cap) + (if i = n.toNat then 16 else 4 * i)) 4))
          else 0)

/-- TLD and both forms of TST at their issue (R205, R207, R212-R215): the checks, the waits for an entry, for slots and
for a guard slot, and the command that enters. That TLD waits only for slots that no unit is partway through is the
model's reading (DEDUCED, log 32; R129). -/
def Obligations.TileTransfersIssue : Prop :=
  ∀ (g : Guard) (t f : Reg) (x : TSrc) (ty : DType) (td : BitVec 6) (r : TstRect) (s : State),
    Straight s → ∀ m, GuardMask g true s m →
    let c := s.ctx
    let v := c.flue f.toNat
    let p := c.flue (c.primary f.toNat)
    let n := cdiv (c.tile t).bytes p.slotBytes
    let k := cdiv (tstSize c x r) v.slotBytes
    let d := tdesc (c.desc td.toNat)
    let full := 4 ≤ s.me.matq.length
    let source : Bool := match x with
      | .tile t => (c.tile t).set
      | .acc _ => 1 ≤ r.arows.toNat && r.arows.toNat ≤ 64 && 1 ≤ r.acols.toNat && r.acols.toNat ≤ 64
    let number := match x with | .tile t => t.toNat | .acc m => m.toNat
    let fault := fun (c : FaultCode) v => (.next (raise (s.setStall false) c v) : Out)
    let push := fun (s : State) (c : MatCmd) => (.next (nextSlot (s.setMe { s.me with matq := s.me.matq ++ [c] })) : Out)
    let reads : StallOn := { entry := true, reads := [(f.toNat, n)] }
    let writes : StallOn := { entry := true, dest := some (f.toNat, k) }
    ((c.tile t).set = false → exec (.tld g t f) s = fault .tileShape (t.setWidth 64)) ∧
    ((c.tile t).set = true → v.opened = false ∨ p.slots < n → exec (.tld g t f) s = fault .flueState (f.setWidth 64)) ∧
    ((c.tile t).set = true → v.opened = true → n ≤ p.slots →
      GuardWaits g s (.tld g t f) reads ∧
      (GuardReady g s →
        (full ∨ c.fullSlots f.toNat < n ∨ (∃ q ∈ c.taken, q.1 = f.toNat) → exec (.tld g t f) s = queueWait g s reads) ∧
        (¬full → n ≤ c.fullSlots f.toNat → (∀ q ∈ c.taken, q.1 ≠ f.toNat) → exec (.tld g t f) s =
          push (s.setMe (s.me.setFlue f.toNat { v with read := v.read + BitVec.ofNat 32 n }))
            { instr := .tld g t f, mask := m, pos := v.read + BitVec.ofNat 32 n, slots := n }))) ∧
    (source = false → exec (.tstFlue g f x ty r) s = fault .tileShape (BitVec.ofNat 64 number) ∧
      exec (.tstMemory g x ty td r) s = fault .tileShape (BitVec.ofNat 64 number)) ∧
    (source = true →
      (v.opened = false ∨ v.fork = true ∨ v.kind ≠ 0 ∨ v.fed = 1 ∨ v.slots < k →
        exec (.tstFlue g f x ty r) s = fault .flueState (f.setWidth 64)) ∧
      (v.opened = true → v.fork = false → v.kind = 0 → v.fed ≠ 1 → k ≤ v.slots →
        GuardWaits g s (.tstFlue g f x ty r) writes ∧
        (GuardReady g s →
          (full ∨ c.freeSlots f.toNat < k → exec (.tstFlue g f x ty r) s = queueWait g s writes) ∧
          (¬full → k ≤ c.freeSlots f.toNat → exec (.tstFlue g f x ty r) s =
            push (s.setMe (s.me.setFlue f.toNat { v with fed := 2, claim := v.claim + BitVec.ofNat 32 k }))
              { instr := .tstFlue g f x ty r, mask := m, pos := v.claim, slots := k }))) ∧
      (tstDesc c x ty r d = false → exec (.tstMemory g x ty td r) s = fault .tdesc (td.setWidth 64)) ∧
      (tstDesc c x ty r d = true → d.isBp = false → d.isI4 = false → d.base % d.unitBytes ≠ 0 →
        exec (.tstMemory g x ty td r) s = fault .align (BitVec.ofNat 64 d.base)) ∧
      (tstDesc c x ty r d = true → (d.isBp = true ∨ d.isI4 = true ∨ d.base % d.unitBytes = 0) →
        GuardWaits g s (.tstMemory g x ty td r) { entry := true } ∧
        (GuardReady g s →
          (full → exec (.tstMemory g x ty td r) s = queueWait g s { entry := true }) ∧
          (¬full → exec (.tstMemory g x ty td r) s =
            let u := s.setMe { s.me with matq := s.me.matq ++ [{ instr := .tstMemory g x ty td r, mask := m, td := c.desc td.toNat }] }
            .next ((u.setEs { s.es with hold := true }).setStall false)))))

/-- MZERO, MMA, MMAS, MMAB, MRD and MCVT, stamped or not, at their issue (R205, R212, R217-R223): STAMP_CLOCK, the
shapes in their order, the waits for an entry and for a guard slot, the stamp, which names the tick at its distance from
the counter, and the entry; the X engine stays at a stamped command. -/
def Obligations.MatrixIssue : Prop :=
  ∀ (g : Guard) (m a b : Reg) (mt : BitVec 3) (sp : Sparsity) (p : BitVec 4) (st : Stamp) (x : Src) (q : Reg) (col : Bool)
    (ty : DType) (r : RndSat) (s : State),
    Straight s → ∀ mask, GuardMask g true s mask →
    let c := s.ctx
    let ta := c.tile a
    let tb := c.tile b
    let tm := c.tile (mt.setWidth 5)
    let n := match sp with | .n8 => 8 | .n16 => 16 | .n32 => 32
    let fixed : Bool := match s.ownerOf s.cur with | some p => (s.part p).fixclk | none => false
    let stamp : BitVec 32 := (s.reg st.reg + st.ofs.signExtend 64).setWidth 32
    let ahead : BitVec 32 := stamp - s.dcc.setWidth 32
    let fault := fun (c : FaultCode) v => (.next (raise (s.setStall false) c v) : Out)
    let enter := fun (c : MatCmd) => s.setMe { s.me with matq := s.me.matq ++ [c] }
    let full := 4 ≤ s.me.matq.length
    let push := fun (i : Instr) (u : MatCmd) => GuardWaits g s i { entry := true } ∧ (GuardReady g s →
      (full → exec i s = queueWait g s { entry := true }) ∧ (¬full → exec i s = .next (nextSlot (enter u))))
    let plain := fun (i : Instr) => push i { instr := i, mask := mask }
    let stamped := fun (i : Instr) =>
      (fixed = false → exec i s = fault .stampClock 0) ∧
      (fixed = true → GuardWaits g s i { entry := true } ∧ (GuardReady g s →
        (full → exec i s = queueWait g s { entry := true }) ∧
        (¬full → ahead.toInt ≤ 0 → exec i s = fault .schedMiss (stamp.setWidth 64)) ∧
        (¬full → 0 < ahead.toInt → exec i s = .next (((enter
          { instr := i, mask := mask, stamp := some (s.dcc + ahead.setWidth 64) }).setEs { s.es with hold := true }).setStall false))))
    let shape := fun (i j : Instr) (t : Reg) =>
      exec i s = fault .tileShape (t.setWidth 64) ∧ (fixed = true → exec j s = fault .tileShape (t.setWidth 64))
    let wrongA := fun (t : Reg) => shape (.mma g m a b) (.mmaStamped g m a b st) t
    let wrongS := fun (t : Reg) => shape (.mmas g sp m a b mt) (.mmasStamped g sp m a b mt st) t
    let wrongB := fun (t : Reg) => shape (.mmab g p m a b) (.mmabStamped g p m a b st) t
    let sparse := tm.set = true ∧ tm.ty = .n8 ∧ mt.setWidth 5 ≠ a ∧ mt.setWidth 5 ≠ b
    plain (.mzero g m) ∧
    ((s.src x).toNat < 64 → push (.mrd g col q m x) { instr := .mrd g col q m x, mask := mask, val := s.src x }) ∧
    (64 ≤ (s.src x).toNat → exec (.mrd g col q m x) s = fault .tileShape (s.src x)) ∧
    (mmaTile ta = false → wrongA a ∧ wrongS a) ∧
    (mmaTile ta = true → mmaTile tb = false → wrongA b ∧ wrongS b) ∧
    (mmaTile ta = true → mmaTile tb = true →
      (mmaPair ta.ty tb.ty = false ∨ ta.cols ≠ tb.cols → wrongA b) ∧
      (mmaPair ta.ty tb.ty = true → ta.cols = tb.cols → plain (.mma g m a b) ∧ stamped (.mmaStamped g m a b st)) ∧
      (tb.cols % 64 ≠ 0 → wrongS b) ∧
      (tb.cols % 64 = 0 → ¬sparse → wrongS (mt.setWidth 5)) ∧
      (tb.cols % 64 = 0 → sparse →
        (mmaPair ta.ty tb.ty = false ∨ ta.cols ≠ tb.cols * n / 64 → wrongS b) ∧
        (mmaPair ta.ty tb.ty = true → ta.cols = tb.cols * n / 64 →
          (tm.rows ≠ ta.rows ∨ tm.cols ≠ ta.cols → wrongS (mt.setWidth 5)) ∧
          (tm.rows = ta.rows → tm.cols = ta.cols → plain (.mmas g sp m a b mt) ∧ stamped (.mmasStamped g sp m a b mt st))))) ∧
    (ta.set = false ∨ ta.ty ≠ .bp ∨ ta.planes < p.toNat → wrongB a) ∧
    (ta.set = true → ta.ty = .bp → p.toNat ≤ ta.planes →
      (tb.set = false ∨ tb.ty ≠ .i8 ∨ ta.cols ≠ tb.cols → wrongB b) ∧
      (tb.set = true → tb.ty = .i8 → ta.cols = tb.cols → plain (.mmab g p m a b) ∧ stamped (.mmabStamped g p m a b st))) ∧
    (ta.set = false ∨ 64 < ta.rows ∨ 64 < ta.cols ∨ ta.ty = .bp → exec (.mcvt g a m q ty r) s = fault .tileShape (a.setWidth 64)) ∧
    (ta.set = true → ta.rows ≤ 64 → ta.cols ≤ 64 → ta.ty ≠ .bp → GuardWaits g s (.mcvt g a m q ty r) { entry := true } ∧
      (GuardReady g s →
        (full → exec (.mcvt g a m q ty r) s = queueWait g s { entry := true }) ∧
        (¬full →
          let scale := if q = 0 then 0x3F800000 else s.reg q
          let draws := ((List.range ta.rows).filter fun i => mask.getLsbD i).length * ta.cols
          let u := if r.rnd = .sr then s.setCtx { c with srseed := srAdvance draws c.srseed } else s
          exec (.mcvt g a m q ty r) s = .next (nextSlot (u.setMe { u.me with
            matq := u.me.matq ++ [{ instr := .mcvt g a m q ty r, mask := mask, val := scale, seed := c.srseed }] })))))

/-- The array's steps (R206, R222, R223, R358): a marked head starts, a stamped one in the tick of its stamp, and a
stamp whose tick comes while the command cannot start raises SCHED_MISS; in its last cycle a command has its effect and
leaves the queue; one that reads a poisoned word raises MACHINE_CHECK. -/
def Obligations.MatrixSteps : Prop :=
  ∀ (h : Nat) (s : State),
    let x := s.hearth h
    ∀ c q, x.matq = c :: q →
    let n := occupancy x.act c
    let begun := s.setHearth h { x with matq := { c with due := false, started := true, left := n - 1 } :: q }
    let go := fun (i : Instr) => exec i s = .next (if n ≤ 1 then begun.pushDue (.matrixCommandEnd h) else begun)
    let late := fun (c : MatCmd) => !c.started && c.stamp.any fun v => v.toNat ≤ s.dcc.toNat
    let kept := fun (u : State) => (u.hearth h).matq = q ∧ (∀ e r, (u.hearth h).act.reg e r = x.act.reg e r) ∧ u.mem = s.mem
    let left := fun (k : Ctx) => (.next (s.setHearth h { x with act := k, matq := q, trel := x.trel.map (· - 1) }) : Out)
    (c.due = true → c.started = false → x.stalled = false →
      (c.stamp = none → go (.matrixCommandStart h)) ∧ (c.stamp = some s.dcc → go (.stampedStart h))) ∧
    (settleHold s h = s →
      (∀ d, x.matq.find? late = some d →
        (d.stamp = some s.dcc → d = c → x.stalled = false → matTick s h =
          (s.setHearth h (x.modMat fun c => { c with due := true })).pushDue (.stampedStart h)) ∧
        (d.stamp ≠ some s.dcc ∨ d ≠ c ∨ x.stalled = true → matTick s h =
          takeFault s h { code := .schedMiss, addr := ((d.stamp.getD 0).setWidth 32).setWidth 64, src := 1 })) ∧
      (x.matq.find? late = none →
        (x.stalled = true → matTick s h = s) ∧
        (x.stalled = false → c.started = false → c.stamp = none → matTick s h =
          (s.setHearth h (x.modMat fun c => { c with due := true })).pushDue (.matrixCommandStart h)) ∧
        (x.stalled = false → c.started = true →
          let u := s.setHearth h (x.modMat fun c => { c with left := c.left - 1 })
          matTick s h = if c.left ≤ 1 then u.pushDue (.matrixCommandEnd h) else u))) ∧
    ((c.started = false ∨ c.left ≠ 0 ∨ unitsRun s h = false) → exec (.matrixCommandEnd h) s = .next s) ∧
    (c.started = true → c.left = 0 → unitsRun s h = true →
      (∀ w, (∀ g x ty td r, c.instr ≠ .tstMemory g x ty td r) → badIn x.act.bad (matrixPlaces c.instr) = some w →
        exec (.matrixCommandEnd h) s = .next (poisonFault (popMat (s.modHearth h fun x => matEffect x c) h) h 3 (4 * w) 1 none none)) ∧
      (badIn x.act.bad (matrixPlaces c.instr) = none → tldPoison x c = none →
        (∀ g m, c.instr = .mzero g m → ∃ u, exec (.matrixCommandEnd h) s = .next u ∧ kept u ∧ (u.hearth h).scratch = x.scratch ∧
          (∀ (k : Reg) i j, i < 64 → j < 64 →
            (u.hearth h).act.acc k i j = if k = m ∧ c.mask.getLsbD i = true then 0 else x.act.acc k i j)) ∧
        (∀ g m a b, c.instr = .mma g m a b → ∃ u, exec (.matrixCommandEnd h) s = .next u ∧ kept u ∧ (u.hearth h).scratch = x.scratch ∧
          (let A := x.act.tile a
           let B := x.act.tile b
           ∀ i j, i < 64 → j < 64 → B.rows ≤ 64 → (u.hearth h).act.acc m i j =
            if i < A.rows ∧ j < B.rows ∧ c.mask.getLsbD i = true then
              (if isFlt A.ty then dotFlt (x.act.acc m i j) B.cols (denseCols A) (fun k => valueOf A.ty (x.act.tileElem A i k))
                  fun k => valueOf B.ty (x.act.tileElem B j k)
                else dotInt (x.act.acc m i j) (denseCols A) (fun k => tyInt A.ty (x.act.tileElem A i k))
                  fun k => tyInt B.ty (x.act.tileElem B j k)) % 2 ^ 32
            else x.act.acc m i j)) ∧
        (∀ g m a b st, c.instr = .mmaStamped g m a b st → exec (.matrixCommandEnd h) s =
          left (multiply x.act c.mask m (x.act.tile a) (x.act.tile b) fun _ => denseCols (x.act.tile a))) ∧
        (∀ g col d m y, c.instr = .mrd g col d m y → ∃ u, exec (.matrixCommandEnd h) s = .next u ∧ kept u ∧ (u.hearth h).scratch = x.scratch ∧
          (∀ (k : Reg) j, j < 64 → (u.hearth h).act.vlane k j = if k = d ∧ c.mask.getLsbD j = true
            then BitVec.ofNat 32 (if col then x.act.acc m j c.val.toNat else x.act.acc m c.val.toNat j) else x.act.vlane k j)) ∧
        (∀ g n m a b t, (c.instr = .mmas g n m a b t ∨ ∃ st, c.instr = .mmasStamped g n m a b t st) → exec (.matrixCommandEnd h) s =
          left (multiply x.act c.mask m (x.act.tile a) (x.act.tile b) fun i => sparseCols x.act (x.act.tile (t.setWidth 5)) (sparsityN n) i)) ∧
        (∀ g p m a b, (c.instr = .mmab g p m a b ∨ ∃ st, c.instr = .mmabStamped g p m a b st) → exec (.matrixCommandEnd h) s =
          left (multiplyPlanes x.act c.mask m p.toNat (x.act.tile a) (x.act.tile b))) ∧
        (∀ g t m y ty r, c.instr = .mcvt g t m y ty r → exec (.matrixCommandEnd h) s = left (convertAcc x.act c t m ty r) ∧
          (let v := x.act.tile t
           r.rnd ≠ .sr → v.cols * tyBits v.ty ≤ 2048 → v.ty ≠ .bp → ∀ i j, i < v.rows → j < v.cols → c.mask.getLsbD i = true →
            (convertAcc x.act c t m ty r).tileElem v i j = roundTo v.ty r.rnd r.sat 0
              ((valueOf ty (x.act.acc m i j)).mul (valueOf .f32 (c.val.toNat % 2 ^ 32))) % 2 ^ tyBits v.ty)) ∧
        (∀ g t f, c.instr = .tld g t f →
          let v := x.act.tile t
          let p := x.flue (x.act.primary f.toNat)
          let byte := fun o => if o < c.data.length then c.data.getD o 0 else
            mget x.scratch (p.slotAddr (c.pos - BitVec.ofNat 32 c.slots + BitVec.ofNat 32 (o / p.slotBytes)) + o % p.slotBytes)
          v.rowBytes ≤ 256 → v.bytes ≤ c.slots * p.slotBytes → c.data.length % p.slotBytes = 0 →
            c.data.length ≤ c.slots * p.slotBytes →
          ∃ u, exec (.matrixCommandEnd h) s = .next u ∧ u.mem = s.mem ∧ (∀ e r, (u.hearth h).act.reg e r = x.act.reg e r) ∧
            (u.hearth h).matq.length = q.length ∧
            ∀ i k, i < v.rows → k < v.rowBytes → mget (u.hearth h).act.t (v.rowAddr i + k) =
              if c.mask.getLsbD i then byte (i * v.rowBytes + k) else mget x.act.t (v.rowAddr i + k)) ∧
        (∀ g f y ty r, c.instr = .tstFlue g f y ty r →
          let p := x.flue f.toNat
          p.kind = 0 → c.slots ≤ p.slots → ∃ u, exec (.matrixCommandEnd h) s = .next u ∧ u.mem = s.mem ∧
            (∀ e r, (u.hearth h).act.reg e r = x.act.reg e r) ∧ (u.hearth h).matq.length = q.length ∧
            ((u.hearth h).flue f.toNat).tail = p.tail + BitVec.ofNat 32 c.slots ∧
            ∀ o, o < c.slots * p.slotBytes →
              mget (u.hearth h).scratch (p.slotAddr (c.pos + BitVec.ofNat 32 (o / p.slotBytes)) + o % p.slotBytes) =
                (tstRows x.act y r c.mask).flatten.getD o 0)) ∧
      (∀ g y ty td r, c.instr = .tstMemory g y ty td r →
        let d := tdesc c.td
        (∀ v, tstGo h d ((tstUnits x.act y r c.mask d).drop c.elem) s = (v, false) → exec (.matrixCommandEnd h) s = .next v) ∧
        (∀ v, tstGo h d ((tstUnits x.act y r c.mask d).drop c.elem) s = (v, true) →
          badIn (v.hearth h).act.bad (matrixPlaces c.instr) = none → exec (.matrixCommandEnd h) s = .next (releaseHold (popMat v h) h)) ∧
        (∀ e l, d.space = 2 → tstElem s h d e l = .ok (some (storeAt s h (d.unitAddr e) l))) ∧
        (∀ e l t, d.space ≠ 2 → piecesOf (d.unitAddr e) l.length = [(d.unitAddr e, l.length)] →
          translate s h .write (BitVec.ofNat 64 (d.unitAddr e)) = .ok t → x.needsRoom (lineNo t.gpa) = false →
          tstElem s h d e l = .ok (some (s.setHearth h { x with
            held := x.held ++ [{ eng := .x, no := x.heldNo, gpa := t.gpa, bytes := l }], heldNo := x.heldNo + 1 })))))

/-- The steps of the copy unit and of the on-chip map (R161, R166, R168-R170, R172): an entry starts; its elements move
one by one; a CPY within the scratchpad copies an element's bytes; bytes that have landed are credited, over the map
only once all have been sent; the completion is written once everything has moved and landed; a payload lands in the
scratchpad it names, the oldest of a hearth to a window first. An element whose bytes have to come over a ring is asked
for first (log 92). -/
def Obligations.CopySteps : Prop :=
  ∀ (h i f : Nat) (m : OcmMsg) (s : State),
    let x := s.hearth h
    let c := x.copyAt i
    let d := tdesc c.tda
    let r := tdesc c.tdb
    (unitsRun s h = false → exec (.copyCommandStart h i 1) s = .next s ∧ exec (.copyCommandEnd h i) s = .next s ∧
      exec (.barrierCredit h i) s = .next s ∧ exec (.unitSlotPublish h f) s = .next s ∧ exec (.ocmRead h (.entry i)) s = .next s) ∧
    (unitsRun s h = true → i < x.act.copyq.length →
      (c.started = false → mayStart x i = true → c.produces = false → exec (.copyCommandStart h i 0) s =
        .next (s.setHearth h (x.modCopyAt i fun c => { c with started := true }))) ∧
      (c.started = true → c.elem.toNat < c.total → ∀ u, moveElem s h i = .ok u →
        exec (.copyCommandStart h i 1) s = .next u ∧
        (c.op = 0x61 → r.space = 1 → exec (.ocmRead h (.entry i)) s = .next u) ∧
        (c.produces = true → c.fd.toNat = f → (x.act.copyq.take i).all (fun c => !(c.started && c.produces && c.fd.toNat == f)) = true →
          ((u.hearth h).flue f).tail ≠ (x.flue f).tail → exec (.unitSlotPublish h f) s = .next u)) ∧
      (c.started = true → c.elem.toNat < c.total → ∀ u, moveElem s h i = .ask u → exec (.copyCommandStart h i 1) s = .next u) ∧
      (c.started = true → c.elem.toNat < c.total → c.op = 0x61 → d.space = 2 → r.space = 2 → d.badScale = false →
        r.badScale = false → poisoned x (r.unitAddr c.elem.toNat) r.unitBytes = false →
        NoTail x (d.unitAddr c.elem.toNat) r.unitBytes → ∃ u, exec (.copyCommandStart h i 1) s = .next u ∧
          (u.hearth h).scratch = mwrite x.scratch (d.unitAddr c.elem.toNat)
            (mbytes x.scratch (r.unitAddr c.elem.toNat) r.unitBytes) ∧
          ((u.hearth h).copyAt i).elem = c.elem + BitVec.ofNat 64 c.step ∧ u.mem = s.mem) ∧
      (c.started = true → c.viaMap h = true → c.elem.toNat < c.total ∨ c.sent ≠ 0 → exec (.barrierCredit h i) s = .next s) ∧
      (c.started = true → c.sub = 2 → c.viaMap h = true → c.total ≤ c.elem.toNat → c.sent = 0 → c.landed ≠ 0 →
        exec (.barrierCredit h i) s = .next ((sendMap s h 0 c.target .credit (leBytes 8 c.landed)).modHearth h fun x =>
          x.modCopyAt i fun c => { c with credit := c.credit + BitVec.ofNat 40 c.landed, landed := 0 })) ∧
      (c.started = true → c.sub = 2 → c.viaMap h = false → exec (.barrierCredit h i) s =
        .next ((creditAt s h c.ctgt.toNat c.landed fun s o => copyPoison s h i 2 o none).modHearth h fun x => x.modCopyAt i fun c =>
          { c with credit := c.credit + BitVec.ofNat 40 c.landed, landed := 0 })) ∧
      (c.started = true → c.elem.toNat = c.total → c.sent = 0 → c.op = 0x61 →
        let u := s.setHearth h (dropEntry x i)
        (c.sub = 0 → exec (.copyCommandEnd h i) s = .next u) ∧
        (c.sub = 1 → c.viaMap h = false → exec (.copyCommandEnd h i) s = .next (writeSignal u h c.ctgt.toNat c.cval)) ∧
        (c.sub = 1 → c.viaMap h = true →
          exec (.copyCommandEnd h i) s = .next (sendMap u h 0 c.target .signal (leBytes 8 c.cval.toNat))))) ∧
    (let w := m.addr.toNat / 2 ^ 22
     let o := m.addr.toNat % 2 ^ 22
     s.pw.cur = 0 → (s.ocm.find? fun q => q.src == m.src && q.addr.toNat / 2 ^ 22 == w) = some m → windowOk s m.src w = true →
      let u := { s with ocm := s.ocm.erase m }
      (m.path.rings ≠ [] → exec (.ocmWrite m) s = .next s) ∧
      (m.path.rings = [] →
        (m.kind = .credit → exec (.ocmWrite m) s = .next (creditAt u w o (leNat m.bytes) fun s k =>
          poisonFault s m.src 2 k 2 none none (some w))) ∧
        (∀ stop, (leNat m.bytes = 0 → creditAt u w o (leNat m.bytes) stop = u) ∧
          (leNat m.bytes ≠ 0 → poisoned (u.hearth w) o 16 = true →
            creditAt u w o (leNat m.bytes) stop = stop u (poisonOfs (u.hearth w) o 16)) ∧
          (leNat m.bytes ≠ 0 → poisoned (u.hearth w) o 16 = false → creditAt u w o (leNat m.bytes) stop =
            storeAt u w o (barrierBytes ((readBarrier (u.hearth w).scratch o).credit (leNat m.bytes))))) ∧
        (m.kind = .signal → exec (.ocmWrite m) s = .next (storeAt u w o m.bytes)) ∧
        (m.kind = .data → exec (.ocmWrite m) s = .next (copyLanded (storeAt u w o m.bytes) m.src m.uid m.bytes.length))))

/-- The steps of the merge unit and of the bellows (R136, R149, R152, R154): the lower index is emitted, equal indices
are combined in the order S1, S2, and with both end markers the command ends; a block before the one that a resumed
command goes on with is read past, by its header alone; a block's header is read, its slots are claimed, its expanded
bytes are published; of a block that fails its checks the slots hold what was expanded. Bytes that have to come over a
ring are asked for first (log 92). A unit whose flue's record is poisoned raises MACHINE_CHECK (R358). -/
def Obligations.UnitSteps : Prop :=
  ∀ (h : Nat) (s : State),
    let x := s.hearth h
    (unitsRun s h = false → exec (.mergeEmit h) s = .next s ∧ exec (.bellowsBlockStart h) s = .next s ∧
      exec (.bellowsClaim h) s = .next s ∧ exec (.bellowsBlockPublish h) s = .next s) ∧
    (unitsRun s h = true → (∀ c q, x.act.mergeq = c :: q → c.held = false →
        ∀ w, badIn x.act.bad [flueRecord c.fd, flueRecord c.f1, flueRecord c.f2] = some w →
          exec (.mergeEmit h) s = .next (poisonFault s h 3 (4 * w) 3 none (some c.fd.toNat))) ∧
      (∀ c q, x.act.blowq = c :: q → c.held = false → ∀ w, badIn x.act.bad [flueRecord c.fd] = some w →
        let f := .next (poisonFault s h 3 (4 * w) 3 none (some c.fd.toNat))
        exec (.bellowsBlockStart h) s = f ∧ exec (.bellowsClaim h) s = f ∧ exec (.bellowsBlockPublish h) s = f)) ∧
    (unitsRun s h = true → ∀ c q, x.act.mergeq = c :: q → c.held = false → c.started = true → x.act.bad = [] → x.poison = [] →
      let u := s.setHearth h (mergeProgress x)
      let note := fun (v : State) => v.modHearth h fun x =>
        if (x.act.mergeq.head?.map (·.started)).getD false then mergeProgress x else x
      (nextPair x c.f1.toNat c.o1 = none ∨ nextPair x c.f2.toNat c.o2 = none → exec (.mergeEmit h) s = .next u) ∧
      ∀ a, nextPair x c.f1.toNat c.o1 = some a → ∀ b, nextPair x c.f2.toNat c.o2 = some b →
        (a.good c.prev1 = false → exec (.mergeEmit h) s = .next (unitFault u h .flueState (BitVec.ofNat 64 a.addr) 3 none (some c.fd.toNat))) ∧
        (a.good c.prev1 = true → b.good c.prev2 = true →
          (a.idx.toNat < b.idx.toNat → ∀ v, emitPair u h c a.idx a.val = some v →
            exec (.mergeEmit h) s = .next (note (v.modHearth h fun x => (passFirst x c a).modMerge fun m => { m with cnt := c.cnt + 1 }))) ∧
          (b.idx.toNat < a.idx.toNat → ∀ v, emitPair u h c b.idx b.val = some v →
            exec (.mergeEmit h) s = .next (note (v.modHearth h fun x => (passSecond x c b).modMerge fun m => { m with cnt := c.cnt + 1 }))) ∧
          (a.idx ≠ b.idx → (x.flue c.fd.toNat).sofs ≠ 0 ∨ x.act.freeSlots c.fd.toNat ≠ 0 → ∃ t, exec (.mergeEmit h) s = .next t ∧
            ((t.hearth h).act.mergeq.head?.map (·.cnt)) = some (c.cnt + 1) ∧ t.mem = s.mem) ∧
          (a.idx ≠ b.idx → (x.flue c.fd.toNat).sofs = 0 → x.act.freeSlots c.fd.toNat = 0 → exec (.mergeEmit h) s = .next (note u)) ∧
          (a.idx = b.idx → a.idx = 0xFFFFFFFF → exec (.mergeEmit h) s = .next (note (mergeEnd u h c))) ∧
          (a.idx = b.idx → a.idx ≠ 0xFFFFFFFF →
            let w := combineVals c.combine c.ty c.rs x.act.mseed a.val.toNat b.val.toNat
            (c.dropz && zeroVal c.ty w.1) = false → ∀ v, emitPair u h c a.idx (BitVec.ofNat 32 w.1) = some v →
              ∃ t, exec (.mergeEmit h) s = .next t ∧ (t.hearth h).act.mseed = w.2 ∧
                ((t.hearth h).act.mergeq.head?.map (·.cnt)) = some (c.cnt + 1)))) ∧
    (unitsRun s h = true → ∀ c q, x.act.mergeq = c :: q → c.held = false → c.started = false → x.act.bad = [] →
      let f := x.flue c.fd.toNat
      exec (.mergeEmit h) s = exec (.mergeEmit h) (s.setHearth h ((x.setFlue c.fd.toNat { f with
        active := true, unit := 3, sofs := 0, faddr := 0, cmpl := 0, cval := 0, qent := 0 }).modMerge fun m => { m with started := true }))) ∧
    (unitsRun s h = true → ∀ c q, x.act.blowq = c :: q → c.held = false → x.act.bad = [] →
      let f := x.flue c.fd.toNat
      let n := (c.elen + f.slotBytes - 1) / f.slotBytes
      let asks := fun (t : State) (a k : Nat) => askAll t h (.unit 0) (virtualAsks t h a k)
      let begun := s.modHearth h fun x => (x.setFlue c.fd.toNat { f with
          active := true, unit := 5, slot := (if c.slots = 0 then f.claim else c.pos).setWidth 64, sofs := 0, qent := 0
          elem := BitVec.ofNat 64 c.idx, lenk := 0, faddr := 0, cmpl := 0, cval := 0 }).modBlow fun b =>
        { b with started := true, pos := if c.slots = 0 then f.claim else c.pos }
      (c.phase = .idle → c.count ≤ c.idx → exec (.bellowsBlockStart h) s = .next (blowEnd s h c)) ∧
      (c.phase = .idle → c.idx < c.count → c.idx < c.goal →
        (∀ t, asks s c.hdr.toNat 16 = (false, t) → exec (.bellowsBlockStart h) s = .next t) ∧
        (∀ t, asks s c.hdr.toNat 16 = (true, t) →
          (∀ l u, readVirtual t h 0 false c.hdr.toNat 16 = .ok l u → exec (.bellowsBlockStart h) s =
            .next (u.modHearth h fun x => x.modBlow fun b => { b with
              idx := b.idx + 1, hdr := b.hdr + 16 + BitVec.ofNat 64 (leNat (((l.map (·.1)).drop 8).take 4)) })) ∧
          (∀ u e a, readVirtual t h 0 false c.hdr.toNat 16 = .fault u e a →
            exec (.bellowsBlockStart h) s = .next (blowFault u h c e 0 (BitVec.ofNat 64 a))))) ∧
      (c.phase = .idle → c.idx < c.count → c.goal ≤ c.idx →
        (∀ t, asks begun c.hdr.toNat 16 = (false, t) → exec (.bellowsBlockStart h) s = .next t) ∧
        (∀ t, asks begun c.hdr.toNat 16 = (true, t) →
          (∀ u e a, readVirtual t h 0 false c.hdr.toNat 16 = .fault u e a →
            exec (.bellowsBlockStart h) s = .next (blowFault u h c e 0 (BitVec.ofNat 64 a))) ∧
          (∀ l u, readVirtual t h 0 false c.hdr.toNat 16 = .ok l u →
            let b := l.map (·.1)
            let codec := (b.getD 2 0).toNat
            let elen := leNat ((b.drop 4).take 4)
            let clen := leNat ((b.drop 8).take 4)
            (leNat (b.take 2) ≠ 0x5A6C ∨ 1 < codec ∨ b.getD 3 0 ≠ 0 ∨ f.slots < (elen + f.slotBytes - 1) / f.slotBytes ∨ (codec = 1 ∧ clen < 128) →
              exec (.bellowsBlockStart h) s = .next (blowFault u h c .bellowsCode 0 c.hdr)) ∧
            (leNat (b.take 2) = 0x5A6C → codec ≤ 1 → b.getD 3 0 = 0 → (elen + f.slotBytes - 1) / f.slotBytes ≤ f.slots → (codec = 1 → 128 ≤ clen) →
              exec (.bellowsBlockStart h) s = .next (u.modHearth h fun x => x.modBlow fun v =>
                { v with phase := .header, codec := codec, elen := elen, clen := clen, crc := BitVec.ofNat 32 (leNat ((b.drop 12).take 4)) }))))) ∧
      (c.phase = .header → x.act.freeSlots c.fd.toNat + c.slots < n → exec (.bellowsClaim h) s = .next s) ∧
      (c.phase = .header → n ≤ x.act.freeSlots c.fd.toNat + c.slots → exec (.bellowsClaim h) s =
        .next (s.setHearth h ((x.setFlue c.fd.toNat { f with claim := c.pos + BitVec.ofNat 32 n }).modBlow fun b =>
          { b with phase := .claimed, slots := n }))) ∧
      (c.phase ≠ .header → exec (.bellowsClaim h) s = .next s) ∧
      (c.phase = .claimed → ∀ t, asks s (c.hdr + 16).toNat c.clen = (false, t) → exec (.bellowsBlockPublish h) s = .next t) ∧
      (c.phase = .claimed → ∀ t, asks s (c.hdr + 16).toNat c.clen = (true, t) →
        (∀ u e a, readVirtual t h 0 false (c.hdr + 16).toNat c.clen = .fault u e a →
          exec (.bellowsBlockPublish h) s = .next (blowFault u h c e 0 (BitVec.ofNat 64 a))) ∧
        ∀ l u, readVirtual t h 0 false (c.hdr + 16).toNat c.clen = .ok l u →
        (∀ e k, expand c.codec c.elen c.crc (l.map (·.1)) = .error (e, k) →
          exec (.bellowsBlockPublish h) s = .next (blowFault
            (u.modHearth h fun x => pourSlots x c.fd.toNat c.pos (poured c.codec c.elen (l.map (·.1)))) h c e k c.hdr)) ∧
        (∀ b, expand c.codec c.elen c.crc (l.map (·.1)) = .ok b →
          let v := u.modHearth h fun x => ((fillSlots x c.fd.toNat c.pos c.slots b).publish c.fd.toNat c.slots).modBlow fun b =>
            { b with phase := .idle, idx := c.idx + 1, hdr := c.hdr + 16 + BitVec.ofNat 64 c.clen, slots := 0 }
          let w := unitCredit v h c.sub c.tgt c.elen
          exec (.bellowsBlockPublish h) s = .next (if c.idx + 1 = c.count then blowEnd w h c else w))))

/-- The write queue, the landing of operations, the damper, the ember tile's answers and retry, and returned fetches
(R233, R237, R246, R247, R265-R269, R273, R274, R279): with the package in the run state. A write lands in every copy of
its frame, BADTAIL bits as software writes them (R8, log 90); the embers held are sent again at every retry tick by each
context on a hearth that counts it; a fetched line is read under the entry that its load met. A packet does nothing at
its slice while it waits for a turn on a ring (R15-R17, log 92). -/
def Obligations.SliceSteps : Prop :=
  ∀ (n i h : Nat) (s : State), s.pw.cur = 0 →
    let x := s.slice n
    (∀ op, x.inq[i]? = some op → op.path.rings ≠ [] → exec (.writeQueueGrant n i) s = .next s) ∧
    (∀ op, x.inq[i]? = some op → op.path.rings = [] → (x.inq.take i).any (sameOrder op) = false →
      (∀ j, x.mergeAt op = some j → exec (.writeQueueGrant n i) s =
        .next (s.setSlice n { x with inq := ldel x.inq i, wq := lmod x.wq j (mergeOps · op) })) ∧
      (x.mergeAt op = none → ∀ c, x.entryFor op.part = some c → exec (.writeQueueGrant n i) s =
        .next (s.setSlice n { x with inq := ldel x.inq i, wq := x.wq ++ [{ op with cls := c, grant := s.dcc }] })) ∧
      (x.mergeAt op = none → x.entryFor op.part = none → exec (.writeQueueGrant n i) s = .next s)) ∧
    (∀ op, x.wq[i]? = some op → (x.wq.take i).any (fun o => o.line == op.line) = false → n < 64 →
      ∀ e, s.stage2 op.part (op.gline / frameSize) = some e → e.remote = false → x.bad = [] → s.poison.contains op.line = false →
        let copies := s.copiesOf op.part e op.gline
        let soft := fun k (l : List Byte) => (List.range l.length).map fun j =>
          softByte s op.part (op.gline + (k + j)) (mget s.mem (op.line + (k + j))) (l.getD j 0)
        ∃ u, exec (.operationLanding n i) s = .next u ∧ (u.slice n).wq = ldel x.wq i ∧
          (op.kind = .store → u.mem = (op.line :: copies).foldl (fun m a => op.bytes.foldl (fun m b =>
            mput m (a + b.1) (softByte s op.part (op.gline + b.1) (mget s.mem (op.line + b.1)) b.2)) m) s.mem) ∧
          (∀ k, op.kind = .fill k → op.bytes ≠ [] → u.mem = op.bytes.foldl (fun m b => mput m (k + b.1) b.2) s.mem) ∧
          (∀ o w q k v c, op.kind = .amo o w (some q) k v c →
            let b := if w then 8 else 4
            let old := leNat (mbytes s.mem (op.line + k) b)
            u.replies = s.replies ++
              [{ uid := q, value := BitVec.ofNat 64 old, part := op.part, path := pathBack op.src (n / 32) }] ∧
            (copies = [] → mbytes u.mem (op.line + k) b = soft k (leBytes b (amoWord o w old v.toNat c.toNat)))) ∧
          (∀ o t v, op.kind = .acc o t v → copies = [] → mbytes u.mem op.line 64 =
            soft 0 (leBytes 64 (combine o t (BitVec.ofNat 512 (leNat (mbytes s.mem op.line 64))) v).toNat))) ∧
    (∀ m, x.accq[i]? = some m → m.path.rings ≠ [] → exec (.damperDecision n i) s = .next s) ∧
    (∀ m, x.accq[i]? = some m → m.path.rings = [] → n < 64 →
      let t := s.setSlice n { x with accq := ldel x.accq i }
      let k := tget 0 x.tokens m.part
      (m.force = false → 0 < k → exec (.damperDecision n i) s =
        .next (acceptAcc (t.modSlice n fun y => { y with tokens := tput y.tokens m.part (k - 1) }) n m)) ∧
      (m.force = false → k = 0 → x.busy .shared ≤ x.sht.toNat → exec (.damperDecision n i) s = .next (acceptAcc t n m)) ∧
      (m.force = false → k = 0 → x.sht.toNat < x.busy .shared → exec (.damperDecision n i) s =
        .next { t with answers := t.answers ++ [{ uid := m.uid, accept := false, part := m.part, path := pathBack m.src (n / 32) }] }) ∧
      (let waits := (x.mergeAt (accOp m)).isNone = true ∧
         ((x.accq.take i).any (fun k => k.force && k.path.rings.isEmpty) = true ∨ 8 ≤ x.busy .forced)
       m.force = true →
        (¬ waits → exec (.damperDecision n i) s = .next (acceptAcc t n m)) ∧ (waits → exec (.damperDecision n i) s = .next s))) ∧
    (s.dcc.toNat % 1024 = 0 → exec .damperWindow s = .next { s with slices := s.slices.map fun q =>
      (q.1, { q.2 with tokens := q.2.cfg.map fun c => (c.1, c.2.tok.toNat) }) }) ∧
    (s.dcc.toNat % 1024 ≠ 0 → exec .damperWindow s = .next s) ∧
    (∀ a, s.answers[i]? = some a → a.path.rings ≠ [] → exec (.accAnswer i) s = .next s) ∧
    (∀ a, s.answers[i]? = some a → a.path.rings = [] → exec (.accAnswer i) s = .next { s with
      answers := ldel s.answers i
      hearths := s.hearths.map fun p => (p.1, { p.2 with act := p.2.act.answer a.uid a.accept, ina := p.2.ina.answer a.uid a.accept }) }) ∧
    (∀ e : Ember, ∀ u, e.state = .inflight → e.uid = u → answerEmber u true e = {} ∧
      answerEmber u false e = { e with state := .held, ref := e.ref + 1 }) ∧
    (∀ e : Ember, ∀ u, ∀ b, e.state ≠ .inflight ∨ e.uid ≠ u → answerEmber u b e = e) ∧
    (s.dcc.toNat % 256 ≠ 0 → exec .emberRetryTick s = .next s) ∧
    (s.dcc.toNat % 256 = 0 → s.hearths = [(h, s.hearth h)] → resident s h = true → (s.hearth h).run ≠ .handler →
      exec .emberRetryTick s = .next (sendHeld s h false)) ∧
    (s.dcc.toNat % 256 = 0 → exec .emberRetryTick s = .next (s.hearths.foldl (fun u p =>
      if resident u p.1 = true then
        let v := sendHeld u p.1 false
        if (v.hearth p.1).run = .handler then sendHeld v p.1 true else v
      else u) s)) ∧
    ((s.hearth h).fetch.isSome = true → (s.hearth h).issue.isSome = true → (s.hearth h).fetchPath.rings ≠ [] →
      exec (.fetchReturn h) s = .next s) ∧
    (∀ line, (s.hearth h).fetch = some line → ∀ k, (s.hearth h).issue = some k → gatedAt s h = false → k.lost = false →
      (s.hearth h).fetchPath.rings = [] → phaseBad (s.hearth h) = [] →
      k.ent.remote = false → k.ent.repOn (dieOf h) = false →
      anyOp s (fun op => op.src == h && op.gline == line && op.kind == .store) = false →
      poisonedMem s (k.ent.home line) 64 = false → (s.slice (sliceOf (k.ent.home line))).bad = [] →
      exec (.fetchReturn h) s = .next (s.modHearth h fun x =>
        { x with fetch := none, pcache := tput x.pcache line (BitVec.ofNat 512 (leNat (mbytes s.mem (k.ent.home line) 64))) })) ∧
    ((s.hearth h).fetch = none → gatedAt s h = false → ∀ u, (s.hearth h).act.amo = .sent u →
      ∀ r, (s.replies.find? fun r => r.uid == u && r.path.rings.isEmpty) = some r → exec (.fetchReturn h) s =
        .next { s.modCtx h fun c => { c with amo := .got r.value } with replies := s.replies.filter fun r => r.uid != u })

/-- Ordered sequences at a home slice (R281, R283, R285): an open record is taken, rejected or left waiting; a close
record closes its range; a contribution is applied when every index below it is settled, and otherwise waits. A record
or contribution that still waits for a turn on a ring does nothing (log 92). -/
def Obligations.SequenceSteps : Prop :=
  ∀ (n i : Nat) (s : State), s.pw.cur = 0 →
    let x := s.slice n
    let gone := { s with seqMsgs := ldel s.seqMsgs i }
    (∀ m b, s.seqMsg n i b = some m → m.path.rings ≠ [] →
      exec (.seqOpenRecord n i) s = .next s ∧ exec (.seqCloseRecord n i) s = .next s) ∧
    (∀ m, x.accoq[i]? = some m → m.path.rings ≠ [] → exec (.accoArrival n i) s = .next s) ∧
    (∀ m, s.seqMsg n i true = some m → m.path.rings = [] →
      (∀ r, x.keyRec m.part m.key = some r →
        (r.span ≠ m.span ∨ r.ranges.any (rangesMeet · m.lo m.n) = true →
          exec (.seqOpenRecord n i) s = .next (ackSeq gone m true)) ∧
        (r.span = m.span → r.ranges.any (rangesMeet · m.lo m.n) = false →
          exec (.seqOpenRecord n i) s = .next (ackSeq (gone.setSlice n (x.modKey m.part m.key fun r =>
            { r with ranges := r.ranges ++ [{ uid := m.uid, src := m.src, lo := m.lo, n := m.n }] })) m false))) ∧
      (let r : KeyRec := { part := m.part, key := m.key, span := m.span
                           ranges := [{ uid := m.uid, src := m.src, lo := m.lo, n := m.n }] }
       x.keyRec m.part m.key = none → x.keyRoom m.part = true → exec (.seqOpenRecord n i) s =
        .next (ackSeq (gone.setSlice n { x with keys := x.keys ++ [r] }) m false)) ∧
      (x.keyRec m.part m.key = none → x.keyRoom m.part = false → exec (.seqOpenRecord n i) s = .next s)) ∧
    (∀ m, s.seqMsg n i false = some m → m.path.rings = [] → exec (.seqCloseRecord n i) s =
      .next (ackSeq (gone.modSlice n (·.closeRange m.part m.key m.lo m.n)) m false)) ∧
    (∀ (m : SeqMsg) (b : Bool) (t : State), ackSeq t m b = { t with acks := t.acks ++
      [{ uid := m.uid, rejected := b, part := m.part, path := pathBack m.src (answerDie m.slice m.port) }] }) ∧
    (n < 64 → ∀ m, x.accoq[i]? = some m → m.path.rings = [] →
      let y := ({ x with accoq := ldel x.accoq i } : Slice).note m
      (y.canApply m = true → exec (.accoArrival n i) s =
        .next (tookAcco (s.setSlice n (Slice.frontier 512 { y with inq := y.inq ++ [m.toOp] })) n m)) ∧
      (y.canApply m = false → x.rob.length < 512 → exec (.accoArrival n i) s =
        .next (tookAcco (s.setSlice n (Slice.frontier 512 { y with rob := y.rob ++ [m] })) n m)) ∧
      (y.canApply m = false → 512 ≤ x.rob.length → exec (.accoArrival n i) s = .next s))

/-- Residency and replicas (R234-R236): a resident frame ends its request; a frame without a sealed copy is refused;
from a good backing slot its lines go to the home slices, and once they have landed the frame is resident; a replica is
built in the same way from the home copy, while its frame counts as replicated, and read once no access translated
before is under way (log 54). A collapse clears the replicas at once, gives their frames up, which are free when no
access to the guest frame is left, and with a remote frame waits for the peer's hob. -/
def Obligations.ResidencySteps : Prop :=
  ∀ (i h : Nat) (s : State), s.pw.cur = 0 →
    (∀ r, s.hobReqs[i]? = some r → r.part ≠ hostPart → (s.part r.part).busyFrames.contains r.g = false →
      let serve := fun (u : State) => exec (.residencyServe i) s = .next u
      let build := fun (u : State) => exec (.replicaBuild i) s = .next u
      let taken := fun (u : State) f => u.hobReqs[i]? = some { r with frame := some f } ∧ (u.part r.part).freeFrames.contains f = false
      (s.stage2 r.part r.g = none → serve (endRequest s i 3)) ∧
      (∀ e, s.stage2 r.part r.g = some e →
        (e.nr = false → r.replica = false → serve (endRequest s i 0)) ∧
        (e.nr = true → e.remote = false → r.frame = none →
          (s.hobReqs.any fun q => q.part == r.part && q.g == r.g && q.frame.isSome) = false →
          (backing s r.part r.g = none → serve (endRequest s i 3)) ∧
          (∀ plain, backing s r.part r.g = some plain → ∀ f, pickFrame (s.part r.part).freeFrames e.frame.toNat = some f →
            ∃ u, exec (.residencyServe i) s = .next u ∧ taken u f ∧ u.mem = s.mem ∧ ∀ k, k < 32768 →
              ∃ op ∈ (u.slice (sliceOf (f * frameSize + 64 * k))).inq, op.kind = .fill (f * frameSize + 64 * k) ∧
                op.bytes = (List.range 64).map fun b => (b, plain.getD (64 * k + b) 0))) ∧
        (e.nr = true → e.remote = false → ∀ f, r.frame = some f →
          (fillsPending s r = true → serve s) ∧
          (fillsPending s r = false → ∃ u, exec (.residencyServe i) s = .next u ∧
            u.stage2 r.part r.g = some { e with nr := false, frame := BitVec.ofNat 25 f })) ∧
        (e.nr = false → r.replica = true → r.frame = none →
          (requestDone e r.die true = true → build (endRequest s i 0)) ∧
          (requestDone e r.die true = false → e.building = true → build s) ∧
          (requestDone e r.die true = false → e.building = false →
            ((∀ f ∈ (s.part r.part).freeFrames, f / 2 ^ 21 ≠ r.die) → build (endRequest s i 2)) ∧
            (∀ f, (s.part r.part).freeFrames.find? (fun f => f / 2 ^ 21 == r.die) = some f →
              ∃ u, exec (.replicaBuild i) s = .next u ∧ taken u f ∧ u.stage2 r.part r.g = some { e with building := true } ∧
                ∀ k, k < 32768 → let line := e.home (r.g * frameSize + 64 * k)
                  ∃ op ∈ (u.slice (if e.remote then 64 + e.peer.toNat else sliceOf line)).inq,
                    op.kind = .fill (f * frameSize + 64 * k) ∧ op.line = line ∧ op.bytes = []))) ∧
        (e.nr = false → r.replica = true → ∀ f, r.frame = some f →
          (frameUsed s r.part r.g = true → build s) ∧
          (frameUsed s r.part r.g = false → ∃ u, exec (.replicaBuild i) s = .next u ∧ ∃ k, u.stage2 r.part r.g = some k ∧
            k.repOn (if r.die = 0 then 0 else 1) = true ∧ k.building = false ∧
            (if r.die = 0 then k.rframe0 else k.rframe1) = BitVec.ofNat 23 f)))) ∧
    (let x := s.hearth h
     let go := fun (u : State) => exec (.replicaCollapse h) s = .next u
     (x.run ≠ .stopped ∨ x.act.frame.code ≠ 0x14 ∨ counts s h = false → go s) ∧
     (x.run = .stopped → x.act.frame.code = 0x14 → counts s h = true → ∀ p, s.ownerOf h = some p → p ≠ hostPart →
      ∀ g, guestFrame s h x.act.frame.faddr = some g → ∀ e, s.stage2 p g = some e →
        let peer := e.peer.toNat
        let v := collapse s p g e
        (e.building = true → v = s) ∧
        (e.building = false → (∃ k, v.stage2 p g = some k ∧ k.repd0 = false ∧ k.repd1 = false) ∧
          ∀ d, d < 2 → e.repOn d = true → (frameUsed s p g = true → (g, e.rframe d) ∈ (v.part p).leaving) ∧
            (frameUsed s p g = false → e.rframe d ∈ (v.part p).freeFrames)) ∧
        (e.remote = true → s.peerUp p peer = false →
          let l := s.modCtx h fun c => { c with frame := { x.act.frame with code := FaultCode.code .linkLost } }
          ∀ d, domainOf l p x.act.region = some d → go ((countFault l d (launchOf l x.act)).pushDue (.handlerEntry h))) ∧
        (e.remote = true → s.peerUp p peer = true →
          (askOf s peer p g = none → go { v with peerAsks := v.peerAsks ++ [{ peer := peer, part := p, g := g }] }) ∧
          (∀ a, askOf s peer p g = some a → a.acked = false → go v)) ∧
        (e.remote = false ∨ (s.peerUp p peer = true ∧ (askOf s peer p g).any (·.acked) = true) →
          (collapseWaits v p g e = true → go v) ∧
          (collapseWaits v p g e = false → go (goOn
            { v with peerAsks := v.peerAsks.filter fun a => !(a.peer == peer && a.part == p && a.g == g) }
            h .t x.act.frame.aslot x.act.frame.xslot)))))

/-- Links and peers (R17, R237, R239, R286, R349, R350, R356): which ports and routes are lost and found, with the event
that each posts, which reaches the ring or is held while it is full; a lost peer's operations, and the ranges that it
had opened here; the routes that a peer attests again; a failed ridge link, logged (the bytes of its entry are the
model's choice, log 35); and a peer's accesses, which wake a package that sleeps or is about to. -/
def Obligations.LinkSteps : Prop :=
  ∀ (port peer link part gpa : Nat) (s : State),
    let same := fun (u : State) => u.ch = s.ch ∧ u.host = s.host
    (∀ (w : State) ty st tag a b,
      let v := postEvent w ty st tag a b
      (w.ch.events = [] → (w.ch.evtail - w.ch.evhead).toNat < 256 → v.ch.evtail = w.ch.evtail + 1 ∧ v.ch.events = [] ∧
        mbytes v.host (w.ch.evbase.toNat + 32 * (w.ch.evtail.toNat % 256)) 32 = eventBytes ty st tag a b) ∧
      (256 ≤ (w.ch.evtail - w.ch.evhead).toNat → v.ch.events = w.ch.events ++ [eventBytes ty st tag a b] ∧ v.host = w.host)) ∧
    (port < 12 → s.fab.portDown.contains port = false → ∃ u, exec (.linkDown port) s = .next (postEvent u 3 0 0 port 0) ∧
      u.fab.portDown = port :: s.fab.portDown ∧ u.fab.lost = s.fab.lost ∧ u.mem = s.mem ∧ same u) ∧
    (12 ≤ port ∨ s.fab.portDown.contains port = true → exec (.linkDown port) s = .next s) ∧
    (peer < 256 → ∃ u, exec (.peerReset peer) s = .next ((List.range 12).foldl (fun w k =>
        if s.parts.any (fun p => p.2.routes.any fun r => r.1 == peer && r.2.ports.getLsbD k) then postEvent w 3 0 0 k 0 else w) u) ∧
      same u ∧ u.fab.losing = tput s.fab.losing peer 17000 ∧ u.mem = s.mem ∧
      ∀ p, (s.parts.any fun q => q.1 == p) = true → ∀ r, (u.part p).routes.find? (fun q => q.1 == peer) = some r → r.2.up = false) ∧
    (s.fab.losing.any (fun p => p.1 == peer) = true → ∃ u, exec (.peerInvalidation peer) s = .next u ∧
      (∀ p ∈ cutTo s peer, u.fab.lost.contains (256 * p + peer) = true) ∧ u.fab.losing = tdel s.fab.losing peer ∧
      ((∀ q ∈ s.slices, ∀ r ∈ q.2.keys, ∀ g ∈ r.ranges, g.src ≠ 256 + peer) →
        u.slice (64 + peer) = (s.slice (64 + peer)).without (cutTo s peer)) ∧
      (∀ q ∈ u.slices, ∀ r ∈ q.2.keys, (cutTo s peer).contains r.part = true → ∀ g ∈ r.ranges, g.src = 256 + peer → g.closed = true) ∧
      ((∀ p ∈ s.parts, p.2.s2base = none ∧ p.2.images = []) → u.mem = s.mem)) ∧
    (port < 12 → ∃ u, exec (.linkUp port) s = .next (postEvent u 3 0 0 port 1) ∧ same u ∧
      u.fab.portDown = s.fab.portDown.filter (· != port) ∧ u.mem = s.mem ∧
      (∀ k, u.fab.lost.contains k = true → s.fab.lost.contains k = true ∧ u.routed (k / 256) (k % 256) = false) ∧
      ∀ p, (s.parts.any fun q => q.1 == p) = true → ∀ r, (s.part p).routes.find? (fun q => q.1 == peer) = some r →
        ∃ t, (u.part p).routes.find? (fun q => q.1 == peer) = some t ∧ t.2.ports = r.2.ports ∧
          t.2.up = if r.2.ports.getLsbD port = true ∧ s.routed p peer = false then Config.peerAttests peer r.2.ppart s.free else r.2.up) ∧
    (link < 16 → s.fab.ridge.getLsbD link = true → ∃ u i, exec (.ridgeLinkFail link) s = .next (postEvent u 4 0 0 i 0) ∧ same u ∧
      tget [] u.pw.log i = [2#8, 4#8] ++ leBytes 2 0 ++ leBytes 4 0 ++ leBytes 8 link ++ leBytes 8 0 ++ leBytes 8 s.dcc.toNat ∧
      u.fab.ridge.getLsbD link = false ∧ (∀ k, k ≠ link → u.fab.ridge.getLsbD k = s.fab.ridge.getLsbD k) ∧ u.mem = s.mem) ∧
    (s.fab.ridge ≠ 0 → exec (.flitCheckFailure link) s = .next { s with fab := { s.fab with resent := s.fab.resent + 1 } }) ∧
    (port < 12 → s.fab.portDown.contains port = false → (s.part part).alive = true →
      (∀ a, shallow s = true → ∃ u, exec (.remoteAccessArrival port peer part gpa a) s = .next u ∧ u.mem = s.mem ∧
        u.pw.peerHeld = s.pw.peerHeld ++ [.remoteAccessArrival port peer part gpa a] ∧ u.due = s.due ++ [.wakePeerAccess port]) ∧
      (shallow s = false → s.pw.cur = 0 → ∀ e, s.stage2 part (gpa / frameSize) = some e → ∀ l : List Byte, gpa % 64 + l.length ≤ 64 →
        let bytes := (List.range l.length).map fun i => (gpa % 64 + i, l.getD i 0)
        (e.remote = false → e.nr = false → frameOk e.frame.toNat = true →
          exec (.remoteAccessArrival port peer part gpa (.write l)) s =
            .next (sendOp s { kind := .store, part := part, src := 256 + peer, gline := lineNo gpa, bytes := bytes })) ∧
        (e.remote = true → e.peer.toNat = peer → exec (.remoteAccessArrival port peer part gpa (.update l)) s =
          .next (landBytes s { part := part, src := 256 + peer, gline := lineNo gpa } bytes)))) ∧
    (s.stage2 part (gpa / frameSize) = none → s.pw.cur = 0 → shallow s = false → ∀ l : List Byte,
      exec (.remoteAccessArrival port peer part gpa (.write l)) s = .next s)

/-- Stops and handlers (R317, R319-R322, R325, R353, R302): the frame that a stop writes, where its fault is routed, and
what a handler starts with. A stop waits while the hearth is gated; one that meets a save at rest goes into the image. A
LAUNCH_DEADLOCK handler starts in the run state alone. -/
def Obligations.StopsAndHandlers : Prop :=
  ∀ (h part region : Nat) (s : State),
    let x := s.hearth h
    (x.run ≠ .stopping ∨ counts s h = false → exec (.hearthStop h) s = .next s) ∧
    (x.run = .stopping → counts s h = true → atRest x = true → x.mode = .t → ∀ r, x.req = some r → r.kind = .save →
      let v := stopUnits (s.modHearth h trapStep) h
      exec (.hearthStop h) s = .next (((v.modHearth h fun z => { z with act := { z.act with frame := frameOf v h 2 }, fault := none }).modHearth
        h fun z => { z with run := .saving }).pushDue (.contextSave h))) ∧
    (x.run = .stopping → counts s h = true → x.req = none → ∀ f, x.fault = some f →
      let v := stopUnits (s.modHearth h trapStep) h
      let y := v.hearth h
      let w := v.modHearth h fun z => { z with act := { z.act with frame := frameOf v h 0 }, fault := none, run := .stopped }
      exec (.hearthStop h) s = .next (routeFault w h) ∧
      (∀ g, y.fault = some g → (frameOf v h 0).code = FaultCode.code g.code ∧ (frameOf v h 0).faddr = g.addr ∧
        (frameOf v h 0).src = g.src ∧ (frameOf v h 0).aslot = y.act.ae.pc ∧ (frameOf v h 0).xslot = y.act.xe.pc ∧
        (frameOf v h 0).fdcc = v.dcc ∧ (frameOf v h 0).smode = (y.mode == .s) ∧ (frameOf v h 0).dual = g.dual) ∧
      (y.mode = .t → ∀ g, y.fault = some g → g.code ≠ .replicaWrite → g.code ≠ .machineCheck →
        ∀ d, domainOf w y.act.part y.act.region = some d → ∃ u, exec (.hearthStop h) s = .next u ∧
          (u.hearth h).run = .stopped ∧ u.due = v.due ++ [.handlerEntry h] ∧ u.mem = v.mem)) ∧
    (x.run = .stopped → x.act.frame.smode = false → x.act.frame.code ≠ 0 → counts s h = true → x.out = none → x.pre = none →
      ∀ d, domainOf s x.act.part x.act.region = some d → ∀ l, fbRead s x.act.part d.handler 128 = .ok l →
        (recOf l).entryA ≠ 0 → (recOf l).entryX ≠ 0 → ∃ u, exec (.handlerEntry h) s = .next u ∧
          (u.hearth h).mode = .s ∧ (u.hearth h).run = .handler ∧ (u.hearth h).serves = .stopped ∧
          (u.hearth h).ina = x.act ∧ (u.hearth h).halfH1 = !x.halfH1 ∧ (u.hearth h).ffaddr = BitVec.ofNat 64 (h * 2 ^ 22 + 0x201C00) ∧
          (u.hearth h).act.reg .a 1 = BitVec.ofNat 64 (h * 2 ^ 22 + 0x201C00) ∧
          (u.hearth h).act.reg .a 2 = x.act.frame.code.setWidth 64 ∧ (u.hearth h).act.reg .a 3 = x.act.frame.faddr ∧
          (u.hearth h).act.reg .a 4 = x.act.ctxid ∧ (u.hearth h).act.reg .x 1 = (recOf l).args.getD 0 0 ∧
          (u.hearth h).act.ae.pc = (recOf l).entryA ∧ (u.hearth h).act.xe.pc = (recOf l).entryX ∧
          (u.hearth h).act.ae.b = [(0, x.act.frame.aslot)] ∧ (u.hearth h).act.xe.b = [(0, x.act.frame.xslot)] ∧ u.mem = s.mem) ∧
    (∀ t, makeLive s part region = .ok t →
      (inDeadlock t part region = true ∨ stalled t part region = false ∨ s.pw.cur ≠ 0 ∨ s.pw.trans ≠ .none →
        exec (.launchDeadlock part region) s = .next s) ∧
      (inDeadlock t part region = false → stalled t part region = true → s.pw.cur = 0 → s.pw.trans = .none →
        domainOf t part region = none → exec (.launchDeadlock part region) s = .next (abortStalled t part region)) ∧
      (inDeadlock t part region = false → stalled t part region = true → s.pw.cur = 0 → s.pw.trans = .none → ∀ r, t.region part region = some r →
        ∀ d, domainOf t part region = some d → ∀ l, fbRead t part d.handler 128 = .ok l → (recOf l).entryA ≠ 0 →
        ∀ k ks, freeHearths s part 0 ++ freeHearths s part 1 = k :: ks →
        ∀ i, fbRead t part r.winimg 4096 = .ok i → ∀ w, checkWindows (windowImage i) = .ok w →
        ∀ o, fbRead t part (recOf l).ops (128 * (recOf l).nop) = .ok o →
          ((List.range (recOf l).nop).all fun n => (tdesc (BitVec.ofNat 1024 (leNat ((o.drop (128 * n)).take 128)))).valid) = true →
          ∃ u, exec (.launchDeadlock part region) s = .next u ∧ (u.hearth k).run = .handler ∧ (u.hearth k).mode = .s ∧
            (u.hearth k).serves = .deadlock part region ∧ (u.hearth k).act.reg .a 1 = 0x30 ∧
            (u.hearth k).act.reg .a 2 = BitVec.ofNat 64 region ∧
            (u.hearth k).act.reg .a 3 = BitVec.ofNat 64 (parkedIn t part region).length ∧ (u.hearth k).act.ae.pc = (recOf l).entryA ∧
            u.mem = s.mem ∧ inDeadlock u part region = true))

/-- Pre-emption, saves, resumes and aborts (R30, R95, R324-R328): a request on a context that has not ended is recorded,
and takes effect at its deadline or at rest; a save swaps the halves, with every scratchpad block handed over at once
(log 84), then writes its image, which is complete with its context's writes landed (log 7); with a handler running the
stopped context is saved, to enter its handler again; a resume goes on from the frame. A wait under the slip rule ends
under the present window (log 75). An engine that had stopped at a YIELD goes on unclamped (R96). -/
def Obligations.SavesAndResumes : Prop :=
  ∀ (h slot : Nat) (e : Eng) (s : State),
    let x := s.hearth h
    (x.run = .running → x.req = none → x.serves = .none → atRest x = false → x.ended = false →
      (∀ p, s.ownerOf h = some p → ∀ i, freeSlot (s.part p) = some i → ∃ u, exec (.preemptRequest h .save) s = .next u ∧
        (u.hearth h).req = some { kind := .save, slot := some i } ∧ (tget {} (u.part p).images i).reserved = true ∧
        (u.hearth h).act = x.act ∧ u.mem = s.mem) ∧
      (∀ p, s.ownerOf h = some p → freeSlot (s.part p) = none → exec (.preemptRequest h .save) s = .next s) ∧
      (∃ u, exec (.preemptRequest h .abort) s = .next u ∧ (u.hearth h).req = some { kind := .abort } ∧
        (u.hearth h).act = x.act ∧ u.mem = s.mem)) ∧
    (x.run = .running ∨ x.run = .handler ∨ x.run = .stopped → x.ended = true →
      exec (.preemptRequest h .save) s = .next s ∧ exec (.preemptRequest h .abort) s = .next s) ∧
    (∀ r, x.req = some r → x.run = .running →
      (r.left ≠ 0 → exec (.preemptDeadline h) s = .next s) ∧
      (r.left = 0 → exec (.preemptDeadline h) s = .next (s.pushDue (match r.kind with | .save => .contextSave h | .abort => .contextAbort h))) ∧
      (r.kind = .save → atRest x = true ∨ r.left = 0 → x.serves = .none → counts s h = true → x.out = none →
        ∃ u, exec (.contextSave h) s = .next u ∧ (u.hearth h).run = .saving ∧
          (u.hearth h).act.frame.kind = 1 ∧ (u.hearth h).act.frame.code = 0 ∧
          (u.hearth h).act.frame.src = (if atRest x then 5 else 4)) ∧
      (r.kind = .abort → atRest x = true ∨ r.left = 0 → counts s h = true → exec (.contextAbort h) s = .next (beginAbort s h)) ∧
      (r.kind = .save → atRest x = false → r.left ≠ 0 → x.out = none → exec (.contextSave h) s = .next s)) ∧
    (∀ r, x.req = some r → r.kind = .save → x.run = .handler → x.serves = .stopped → atRest x = true ∨ r.left = 0 →
      counts s h = true → x.out = none → ∃ u, exec (.contextSave h) s = .next u ∧ (u.hearth h).run = .saving ∧
        (u.hearth h).serves = .none ∧ (u.hearth h).matq = [] ∧ (u.hearth h).act.task = x.ina.task ∧
        (u.hearth h).act.frame = { x.ina.frame with kind := 2, spend := true }) ∧
    (x.run = .saving → counts s h = true → x.out = none → x.pre = none → x.fault = none → x.held = [] → x.act.copyq = [] →
      landedAll s h = true → saveReady s h = true →
      ∀ r, x.req = some r → ∀ i, r.slot = some i → ∀ p, s.ownerOf h = some p →
        ∃ u, exec (.contextSave h) s = .next u ∧ (u.hearth h).run = .free ∧ (u.hearth h).ina = x.act ∧
          (u.hearth h).halfH1 = !x.halfH1 ∧ (u.hearth h).ffaddr = frameAddr h ∧
          (u.hearth h).out = some { part := p, slot := i, groups := (dirtyParts s h p i).1, blocks := (dirtyParts s h p i).2 } ∧
          (tget {} (u.part p).images i).state = 1 ∧ (tget {} (u.part p).images i).ctx = x.act ∧
          (tget {} (u.part p).images i).scratch = x.scratch ∧ (tget {} (u.part p).images i).ctxid = x.act.ctxid ∧
          (u.hearth h).scratch = x.scratch ∧ ∀ b, b < 2048 → tget 0 (u.hearth h).tags b = x.act.ctxid) ∧
    (∀ o, x.out = some o → counts s h = true → reach s o.part (slotBase (s.part o.part) o.slot) 0x280000 = .ok →
      (tget {} (s.part o.part).images o.slot).discard = false →
        ∃ u, exec (.contextSave h) s = .next u ∧ (u.hearth h).out = none ∧ (u.hearth h).act = x.act ∧
          (tget {} (u.part o.part).images o.slot).state = 2 ∧ (tget {} (u.part o.part).images o.slot).sdcc = s.dcc ∧
          (tget {} (u.part o.part).images o.slot).ctx = (tget {} (s.part o.part).images o.slot).ctx) ∧
    (x.run = .aborting → (x.act.embers.any fun p => p.2.state == .inflight) = true ∨ underWay s h = true →
      exec (.contextAbort h) s = .next s) ∧
    (x.run = .aborting → counts s h = true → (x.act.embers.any fun p => p.2.state == .inflight) = false → underWay s h = false →
      ∃ u, exec (.contextAbort h) s = .next u ∧ (u.hearth h).run = .free ∧ (u.hearth h).scratch = x.scratch) ∧
    (∀ t, chosenFor s h = some t → t.st = .saved → t.slot = some slot →
      let v := askPassed s h
      let im := tget {} (v.part t.part).images slot
      im.ctx.frame.kind = 1 → ∀ l, fbRead v t.part (winimgOf v t) 4096 = .ok l → ∀ w, checkWindows (windowImage l) = .ok w →
        ∃ u, exec (.contextResume h slot) s = .next u ∧ (u.hearth h).mode = .t ∧ (u.hearth h).act.a = im.ctx.a ∧
          (u.hearth h).act.k = im.ctx.k ∧ (im.ctx.frame.adone = false → (u.hearth h).act.ae.pc = im.ctx.frame.aslot) ∧
          (im.ctx.frame.xdone = false → (u.hearth h).act.xe.pc = im.ctx.frame.xslot) ∧ (u.hearth h).halfH1 = !x.halfH1 ∧
          (im.ctx.frame.adone = false → im.ctx.ae.stopped = true → (u.hearth h).act.ae.stopped = false ∧
            ∀ n, im.ctx.ae.clamp = some n → im.ctx.ae.pc = (im.ctx.ae.loop n).restart → (u.hearth h).act.ae.clamp = none) ∧
          thas (u.part t.part).images slot = false) ∧
    (∀ p, s.ownerOf h = some p → x.run = .running → counts s h = true → s.pw.trans = .none → x.out = none → x.pre = none →
      freeHearths s p (dieOf h) = [] → ∀ r, x.req = some r → r.kind = .save → r.slot.isSome = true →
      ∀ t, nextTask s p (dieOf h) = some t → t.st = .saved → t.slot = some slot →
        ∃ u, exec (.contextResume h slot) s = .next u ∧ (u.hearth h).pre = some slot ∧ (u.hearth h).act = x.act ∧
          (u.hearth h).ina = (tget {} (s.part p).images slot).ctx ∧ (tget {} (u.part p).images slot).state = 3) ∧
    let g := x.act.es e
    (g.slipWait = false ∨ counts s h = false ∨ slipHeld x.act e g.slipOrd = true → exec (.slipWaitEnd h e) s = .next s) ∧
    (g.slipWait = true → counts s h = true → slipHeld x.act e g.slipOrd = false →
      exec (.slipWaitEnd h e) s = .next (s.modCtx h fun c => c.setEs e { c.es e with slipWait := false, slipPass := true }))

/-- Snapshots and the checks that go on beside the work (R332, R333, R358-R360): a trigger latches two boundaries of 256
ticks later; the latch takes each hearth's slots and context. -/
def Obligations.SnapshotsAndScrubs : Prop :=
  ∀ (line core i ofs channel : Nat) (a : SramArray) (synd mw : BitVec 32) (t0 t1 : BitVec 16) (st : List (BitVec 16)) (s : State),
    let at_ : Word := 256 * (s.dcc / 256 + 2)
    (s.snap = none →
      exec .snapshotPin s = .next { s with snap := some { at_ := at_, tag := 0, bySnap := false } } ∧
      exec .snapshotHostTrigger s = .next { s with snap := some { at_ := at_, tag := 0, bySnap := false } } ∧
      exec .snapshotLatch s = .next s) ∧
    (∀ t, s.snap = some t →
      exec .snapshotPin s = .next s ∧ exec .snapshotHostTrigger s = .next s ∧
      (s.dcc ≠ t.at_ → exec .snapshotLatch s = .next s) ∧
      (s.dcc = t.at_ → ∃ u, exec .snapshotLatch s = .next u ∧ u.snap = none ∧ u.latched.tick = t.at_ ∧ u.latched.tag = t.tag ∧
        u.latched.fireboxes = [poolCount s 0, poolCount s 1] ∧ u.latched.rings.length = 2 ∧
        u.mem = s.mem ∧ u.hearths = s.hearths.map fun p => (p.1, { p.2 with latch :=
          { aslot := p.2.act.ae.pc, xslot := p.2.act.xe.pc, ctxid := p.2.act.ctxid, hstat := s.hstat p.1
            lines := p.2.cacheLines.length, embers := p.2.act.emberCount } }))) ∧
    exec (.hbmScrub line .clean synd) s = .next s ∧ exec (.sramScrub a ofs .clean synd) s = .next s ∧
    exec (.phyCalibration channel) s = .next s ∧
    (s.pw.ready = true → s.pw.cur.toNat < 2 →
      (line % 64 = 0 → frameOk (line / frameSize) = true →
        (∃ u, exec (.hbmScrub line .corrected synd) s = .next u ∧ u.pw.corrected = s.pw.corrected + 1 ∧ u.mem = s.mem ∧ u.poison = s.poison) ∧
        (∃ u, exec (.hbmScrub line .uncorrectable synd) s = .next u ∧ u.poison.contains line = true ∧ u.mem = s.mem)) ∧
      (core < 192 → ofs < 2 ^ 17 →
        (∃ u, exec (.sramScrub (.scratch core) ofs .corrected synd) s = .next u ∧ u.pw.corrected = s.pw.corrected + 1 ∧ u.hearths = s.hearths) ∧
        (∃ u, exec (.sramScrub (.scratch core) ofs .uncorrectable synd) s = .next u ∧ (u.hearth core).poison.contains ofs = true ∧
          (u.hearth core).scratch = (s.hearth core).scratch)) ∧
      (i < 64 → ofs < 3 * 2 ^ 18 → ∃ u, exec (.sramScrub (.slice i) ofs .uncorrectable synd) s = .next u ∧
        (u.slice i).bad.contains ofs = true ∧ u.hearths = s.hearths) ∧
      (core < 192 → (groupOf (4 * ofs)).isSome = true → ∃ u, exec (.sramScrub (.half core) ofs .uncorrectable synd) s = .next u ∧
        (u.hearth core).act.bad.contains ofs = true ∧ (u.hearth core).act.a = (s.hearth core).act.a) ∧
      (core < 192 → (groupOf (4 * ofs)).isSome = true → ∃ u, exec (.sramScrub (.inactive core) ofs .uncorrectable synd) s = .next u ∧
        (u.hearth core).ina.bad.contains ofs = true ∧ (u.hearth core).act = (s.hearth core).act) ∧
      (core < 192 → ofs < 20480 → ∃ u, exec (.sramScrub (.caches core) ofs .uncorrectable synd) s = .next u ∧
        (u.hearth core).cacheBad.contains ofs = true ∧ (u.hearth core).pcache = (s.hearth core).pcache) ∧
      (core < 192 → ofs < 1024 → ∃ u, exec (.sramScrub (.windows core) ofs .uncorrectable synd) s = .next u ∧
        (u.hearth core).winBad.contains ofs = true ∧ (u.hearth core).win = (s.hearth core).win) ∧
      (i < 2 → ∃ u, exec (.sramScrub (.firebox i) ofs .uncorrectable synd) s = .next u ∧ u.fb.bad.contains (i, ofs) = true ∧
        u.fb.tasks = s.fb.tasks) ∧
      (∀ b, ∃ u, exec (.sramScrub (.inactive core) ofs .corrected b) s = .next u ∧ u.hearths = s.hearths) ∧
      (∀ h a n, poisoned h a n = true → ∃ p ∈ h.poison, poisonOfs h a n = 4 * p ∧ a / 4 ≤ p ∧ p ≤ (a + n - 1) / 4) ∧
      (s.dcc.toNat % 1700000 = 0 → s.pw.sampled ≠ some s.dcc → s.pw.tlbase ≠ 0 →
        ∃ u, exec (.telemetrySample mw t0 t1 st) s = .next u ∧ u.pw.tltail = s.pw.tltail + 1 ∧ u.mem = s.mem ∧
          mbytes u.host (s.pw.tlbase.toNat + 64 * (s.pw.tltail.toNat % 1024)) 12 = leBytes 8 s.dcc.toNat ++ leBytes 4 mw.toNat)) ∧
    (s.pw.ready = false ∨ s.dcc.toNat % 1700000 ≠ 0 ∨ s.pw.sampled = some s.dcc → exec (.telemetrySample mw t0 t1 st) s = .next s)

/-- Doorbells, hardware slots and teardown (R303, R305, R307, R308, R342, R356). TARGET = 0 after a doorbell that wakes
the package is a reading of the model (log 101), as is that a choice among queues waits for their descriptors (log 110).
-/
def Obligations.QueueSteps : Prop :=
  ∀ (vf q : Nat) (tail : BitVec 32) (s : State),
    let x := s.queue vf q
    let b : Bell := { vf := vf, q := q, tail := tail, tx := (s.vf vf).txtail }
    let ring := exec (.queueDoorbell vf q tail) s
    ((s.vf vf).part = none → ring = .next s ∧ exec (.teardownDrain vf q) s = .next s ∧ exec (.teardownAbort vf q) s = .next s) ∧
    (s.pw.ready = false ∨ (s.vf vf).qtn.toNat ≤ q → ring = .next s) ∧
    (∀ part, (s.vf vf).part = some part → s.pw.ready = true → q < (s.vf vf).qtn.toNat → q < 4096 →
      (awake s = false → ∃ u, ring = .next u ∧ u.pw.held = s.pw.held ++ [b] ∧ u.fb = s.fb ∧ u.mem = s.mem ∧
        (s.pw.trans = .none → s.pw.cur = 3 → u.pw.target = s.pw.target) ∧
        (s.pw.trans = .none → s.pw.cur = 1 → u.pw.trans = .waking 17000 ∧ u.pw.wakesrc = 2 ∧ u.pw.target = 0) ∧
        (s.pw.trans = .none → s.pw.cur = 2 → u.pw.trans = .waking 680000 ∧ u.pw.wakesrc = 2) ∧
        (∀ n, s.pw.trans = .entering n → n ≠ 3 → s.pw.cur ≠ 3 → u.pw.trans = .waking 0 ∧ u.pw.wakesrc = 2 ∧ u.due = s.due ++ [.wakeComplete])) ∧
      (awake s = true → (s.vf vf).txhead ≠ (s.vf vf).txtail → bellReady s b = false →
        ∃ u, ring = .next u ∧ u.fb = { (askAgain s part (queueDesc s vf q)).fb with bells := s.fb.bells ++ [b] } ∧ u.mem = s.mem) ∧
      (awake s = true → bellReady s b = true → (s.fb.bells.any fun c => c.vf == vf && c.q == q) = false →
        ∀ l, fbRead s part (queueDesc s vf q) 64 = .ok l →
          let d := qdesc l
          let waits := (tail - x.tail).toNat + (x.tail - d.head).toNat
          let v := askAgain (askAgain s part (queueDesc s vf q)) part (d.ring + 64 * (d.head.toNat % 2 ^ d.logn))
          (2 ^ d.logn < waits → ∃ u, ring = .next u ∧ u.fb.queues = s.fb.queues ∧ u.hearths = s.hearths ∧
            u.mem = (writeGpa s part (queueDesc s vf q + 0x10) (leBytes 8 (field l 0x10 8 ||| 8))).mem) ∧
          (waits ≤ 2 ^ d.logn → d.tdown = 0 → x.slotNo.isSome = true →
            ring = .next (v.modQueue vf q fun x => { x with tail := tail, waiting := false, tdown := 0 })) ∧
          (waits ≤ 2 ^ d.logn → d.tdown = 1 → x.slotNo.isSome = true → ∃ u, ring = .next u ∧ (u.queue vf q).tail = tail ∧
            u.due = s.due ++ [.teardownDrain vf q]) ∧
          (waits ≤ 2 ^ d.logn → d.tdown = 2 → x.slotNo.isSome = true → ∃ u, ring = .next u ∧ (u.queue vf q).tail = tail ∧
            u.due = s.due ++ [.teardownAbort vf q]) ∧
          (waits ≤ 2 ^ d.logn → d.tdown = 0 → x.slotNo = none → ∀ i, freeQueueSlot s = some i → ∃ u, ring = .next u ∧
            (u.queue vf q).slotNo = some i ∧ (u.queue vf q).tail = tail ∧ (u.queue vf q).heldSince = none ∧ u.mem = s.mem) ∧
          (waits ≤ 2 ^ d.logn → x.slotNo = none → rivalsWait s ≠ [] →
            ∃ u, ring = .next u ∧ u.fb.queues = s.fb.queues ∧ u.fb.bells = s.fb.bells ++ [b] ∧ u.hearths = s.hearths)) ∧
      (let v := ((queueLaunches s vf q).foldl (fun s n => markRegions (s.modLaunch n fun l => { l with draining := true }) n)
          (s.modQueue vf q fun x => { x with tdown := if x.tdown = 0 then 1 else x.tdown }))
       let w := (v.fb.tasks.filter fun t => (queueLaunches s vf q).contains t.launch).foldl drainTask v
       exec (.teardownDrain vf q) s = .next (settle w) ∧
       (w.queue vf q).tdown ≠ 0 ∧ (∀ t ∈ s.fb.tasks, (queueLaunches s vf q).contains t.launch = true → t.cont = none →
          t.st = .accepted ∨ t.st = .ready → ending w t.part t.gpa = true)) ∧
      exec (.teardownAbort vf q) s = .next (settle ((queueLaunches s vf q).foldl (fun s n => abortLaunch s n 0 0)
        (s.modQueue vf q fun x => { x with tdown := if x.tdown = 3 then 3 else 2 })))) ∧
    (awake s = false ∨ nextHeld s = none → exec .heldNotifyServe s = .next s) ∧
    (awake s = true → heldWait s ≠ [] → exec .heldNotifyServe s = .next (askDescs s (heldWait s))) ∧
    (awake s = true → heldWait s = [] → ∀ k, nextHeld s = some k → ∀ i, freeQueueSlot s = some i → ∃ u, exec .heldNotifyServe s = .next u ∧
      (u.queue (k / 4096) (k % 4096)).slotNo = some i ∧ (u.queue (k / 4096) (k % 4096)).heldSince = none ∧ u.mem = s.mem) ∧
    (x.heldSince ≠ none → x.starved = false → s.ch.starve.toNat < x.heldFor →
      exec (.slotStarve vf q) s = .next (postEvent (s.modQueue vf q fun x => { x with starved := true }) 2 0 (s.vf vf).handle q 0)) ∧
    (x.heldSince = none ∨ x.starved = true ∨ x.heldFor ≤ s.ch.starve.toNat → exec (.slotStarve vf q) s = .next s)

/-- Launch packets (R304, R306, R398): what the packet at HEAD of a mapped queue does. -/
def Obligations.LaunchPackets : Prop :=
  ∀ (vf q : Nat) (s : State),
    let x := s.queue vf q
    let run := exec (.launchPacket vf q) s
    (x.slotNo = none ∨ x.tdown ≠ 0 ∨ x.waiting = true ∨ awake s = false → run = .next s) ∧
    (∀ part, (s.vf vf).part = some part → x.slotNo ≠ none → x.tdown = 0 → x.waiting = false → awake s = true →
      (s.part part).busyOp ≠ 14 →
      (∀ a, fbRead s part (queueDesc s vf q) 64 = .bad a →
        run = .next (queueFault (s.modQueue vf q fun x => { x with waiting := true }) vf q 1 (queueDesc s vf q))) ∧
      (∀ l, fbRead s part (queueDesc s vf q) 64 = .ok l →
        let d := qdesc l
        let at_ := d.ring + 64 * (d.head.toNat % 2 ^ d.logn)
        let c := tookTurn s d.prio x.slotNo
        (d.head = x.tail ∨ turnOf s d.prio ≠ x.slotNo → run = .next s) ∧
        (d.head ≠ x.tail → turnOf s d.prio = x.slotNo →
          (∀ a, fbRead s part at_ 64 = .bad a → run = .next (queueFault (c.modQueue vf q fun x => { x with waiting := true }) vf q 2 at_)) ∧
          (∀ k, fbRead s part at_ 64 = .ok k →
            let p := packetOf k
            let n := s.fb.nextLaunch + 1
            (p.kind = 0 → ∃ u, run = .next u ∧ u.fb.launches = s.fb.launches ∧ u.hearths = s.hearths ∧
              u.fb.turns = tput s.fb.turns d.prio (x.slotNo.getD 0) ∧ u.mem = (writeGpa s part (queueDesc s vf q + 8) (leBytes 4 (d.head + 1).toNat)).mem) ∧
            (p.kind ≠ 0 → translatable s part p.lcmpl 32 = false →
              run = .next (queueFault (consume c part vf q d.head) vf q 3 p.lcmpl)) ∧
            (p.kind = 1 → translatable s part p.lcmpl 32 = true → p.reserved = true → 1 ≤ p.nt → p.nt ≤ 4096 → p.tasks % 128 = 0 →
              let l : Launch := { part := part, vf := vf, q := q, lcmpl := p.lcmpl, irq := p.irq, vec := p.vec, overlap := p.overlap, pred := x.last }
              let v : State := ({ c with fb := { c.fb with nextLaunch := n, launches := tput c.fb.launches n l } } : State).modQueue vf q
                fun x => { x with last := some n, idleSince := s.dcc }
              let gs := (List.range p.nt).map fun i => p.tasks + 128 * i
              (∀ t, acceptRecords part vf q n gs v = .ok t →
                run = .next (settle (gs.foldl (fun t g => settleTask t part g) (consume t part vf q d.head))) ∧
                (t.launch n).live = p.nt ∧ (t.launch n).ntask = p.nt ∧ (t.launch n).pred = x.last) ∧
              (∀ a, acceptRecords part vf q n gs v = .bad a → ∃ u, run = .next u ∧ u.hearths = s.hearths ∧ u.fb.tasks.length ≤ s.fb.tasks.length))))))

/-- Dispatch of a fresh task and of a parked one (R298, R300, R54): what the context starts with, its window table and
the charge of RUN (R290). A task that waits for residency is passed by, and its items are asked for (R398). -/
def Obligations.Dispatching : Prop :=
  ∀ (h : Nat) (s : State),
    let v := askPassed s h
    (v.hearths = s.hearths ∧ v.fb = s.fb ∧ v.slices = s.slices ∧ v.host = s.host) ∧
    (chosenFor s h = none → exec (.dispatch h) s = .next v ∧ exec (.parkedDispatch h) s = .next v) ∧
    (∀ t, chosenFor s h = some t → itemsWait s t = false) ∧
    (∀ t, chosenFor s h = some t → t.st = .ready →
      (t.cont = none → exec (.parkedDispatch h) s = .next v ∧
        ∀ l, fbRead v t.part t.gpa 128 = .ok l → let r := recOf l
        ∀ i, fbRead v t.part (winimgOf v t) 4096 = .ok i →
          (∀ n, checkWindows (windowImage i) = .error n →
            exec (.dispatch h) s = .next (failDispatch v t .windowConflict (BitVec.ofNat 64 (winimgOf v t + 16 * n)))) ∧
          (∀ w, checkWindows (windowImage i) = .ok w → ∀ o, fbRead v t.part r.ops (128 * r.nop) = .ok o →
            let ds := (List.range r.nop).map fun n => (n, BitVec.ofNat 1024 (leNat ((o.drop (128 * n)).take 128)))
            (∀ d, (ds.find? fun d => !(tdesc d.2).valid) = some d →
              exec (.dispatch h) s = .next (failDispatch v t .tdesc (BitVec.ofNat 64 d.1))) ∧
            ((ds.find? fun d => !(tdesc d.2).valid) = none → ∃ u, exec (.dispatch h) s = .next u ∧
              let x := u.hearth h
              x.run = .running ∧ x.mode = .t ∧ x.halfH1 = (!(s.hearth h).halfH1) ∧ x.scratch = (s.hearth h).scratch ∧ x.ina = (s.hearth h).act.vacated ∧
              x.act.ctxid = s.fb.ctxid + 1 ∧ u.fb.ctxid = s.fb.ctxid + 1 ∧ x.act.td = ds ∧ x.act.task = t.gpa ∧ x.act.region = t.region ∧
              x.act.srseed = nonzeroSeed freshSrSeed (x.act.ctxid ^^^ freshSrSeed) ∧ x.act.mseed = nonzeroSeed freshMSeed (x.act.ctxid ^^^ freshMSeed) ∧
              (∀ n, n < 8 → x.act.reg .a (BitVec.ofNat 5 (n + 1)) = r.args.getD n 0 ∧ x.act.reg .x (BitVec.ofNat 5 (n + 1)) = r.args.getD n 0) ∧
              (∀ n : Reg, 8 < n.toNat → x.act.reg .a n = 0 ∧ x.act.reg .x n = 0) ∧ x.act.v = [] ∧ x.act.t = [] ∧ x.act.m = [] ∧
              x.act.ae.b = [] ∧ x.act.xe.b = [] ∧ x.act.ae.loops = [] ∧ x.act.xe.loops = [] ∧ x.act.ae.nest = [] ∧ x.act.xe.nest = [] ∧
              x.act.ae.preds = [] ∧ x.act.xe.preds = [] ∧ x.act.xq = [] ∧ x.act.aq = [] ∧ x.act.xrest = [] ∧ x.act.arest = [] ∧
              x.act.guards = [] ∧ x.act.flues = [] ∧ x.act.embers = [] ∧ x.act.seqs = [] ∧ x.act.bins = [] ∧ x.act.tcfg = [] ∧
              x.act.slipw = 0xFFF ∧ x.act.defBase = 0 ∧ x.act.defCap = 0 ∧ x.act.defCount = 0 ∧ x.act.defHead = 0 ∧
              x.act.hstatCounters = 0 ∧ x.act.regopen = 0 ∧ x.act.frame = {} ∧
              x.act.ea = (match s.region t.part t.region with | some g => g.ea | none => 0) ∧
              x.win = w.map (fun e => (e.1, summarise v t.part e.2)) ∧ x.winBad = [] ∧
              (∀ g, s.region t.part t.region = some g → ∃ g', u.region t.part t.region = some g' ∧ g.run < g'.run) ∧
              (∃ t', u.taskOf t.part t.gpa = some t' ∧ t'.st = .dispatched ∧ t'.slot = none) ∧
              x.act.ae.pc = r.entryA ∧ x.act.ae.done = false ∧ x.act.xe.done = (r.entryX == 0) ∧ (r.entryX ≠ 0 → x.act.xe.pc = r.entryX) ∧
              u.host = s.host ∧ u.slices = s.slices))) ∧
      (∀ k, t.cont = some k → exec (.dispatch h) s = .next v ∧
        ∀ l, fbRead v t.part t.gpa 128 = .ok l → let r := recOf l
        ∀ c, fbRead v t.part k 256 = .ok c →
        let w (o : Nat) : Word := BitVec.ofNat 64 (field c o 8)
        ∀ i, fbRead v t.part (winimgOf v t) 4096 = .ok i →
        ∀ y, checkWindows (windowImage i) = .ok y → ∀ o, fbRead v t.part r.ops (128 * r.nop) = .ok o →
          (((List.range r.nop).map fun n => (n, BitVec.ofNat 1024 (leNat ((o.drop (128 * n)).take 128)))).find? fun d => !(tdesc d.2).valid) = none →
          maskOk (w 0x18) = true → ∃ u, exec (.parkedDispatch h) s = .next u ∧
            let x := u.hearth h
            x.mode = .t ∧ x.act.ctxid = w 0xD0 ∧ x.act.slipw = (w 0xC0).setWidth 12 ∧ u.fb.ctxid = s.fb.ctxid ∧
            x.act.srseed = nonzeroSeed freshSrSeed (w 0xC8) ∧ x.act.mseed = nonzeroSeed freshMSeed (w 0xD8) ∧
            (∀ e n, (maskRegs (w 0x18)).contains (e, n) = false → x.act.reg e n = ((Ctx.fresh 0).args r.args).reg e n) ∧
            x.scratch = (s.hearth h).scratch ∧
            (∀ g, s.region t.part t.region = some g → ∃ g', u.region t.part t.region = some g' ∧ g.run < g'.run) ∧
            (∃ t', u.taskOf t.part t.gpa = some t' ∧ t'.st = .dispatched ∧ t'.cont = none) ∧
            (∀ n, n < (maskRegs (w 0x18)).length → ∀ r, (maskRegs (w 0x18))[n]? = some r → x.act.reg r.1 r.2 = w (0x40 + 8 * n)) ∧
            (w 0x08 ≠ 0 → x.act.ae.pc = w 0x08 ∧ x.act.ae.done = false) ∧ (w 0x10 ≠ 0 → x.act.xe.pc = w 0x10 ∧ x.act.xe.done = false) ∧
            (w 0x08 = 0 → x.act.ae.done = true) ∧ (w 0x10 = 0 → x.act.xe.done = true) ∧
            (w 0x08 = 0 → w 0x10 = 0 → x.run = .ending))) ∧
    (∀ t, chosenFor s h = some t → t.st = .saved → exec (.dispatch h) s = .next v ∧ (t.cont = none → exec (.parkedDispatch h) s = .next v))

/-- The ends of parks, tasks and quanta (R299, R315, R345). A task's successors are released before its hearth is freed
(steps 4 and 5), which waits while one of them does (R398). -/
def Obligations.ParksEndsAndQuanta : Prop :=
  ∀ (h part gpa : Nat) (s : State),
    (s.taskOf part gpa = none → exec (.parkWake part gpa) s = .next s) ∧
    (∀ t, s.taskOf part gpa = some t →
      (t.st ≠ .parked ∨ t.event ≠ 1 → exec (.parkWake part gpa) s = .next s) ∧
      (ending s part gpa = true → exec (.parkWake part gpa) s = .next s) ∧
      (t.st = .parked → t.event = 1 → ending s part gpa = false → t.met = true ∨ parkHolds s t = true →
        exec (.parkWake part gpa) s = .next (becomeReady s { t with met := true }) ∧
        ((becomeReady s { t with met := true }).taskOf part gpa).isSome = true) ∧
      (t.st = .parked → t.event = 1 → t.met = false → parkHolds s t = false →
        (∀ e, s.stage2 part (t.eaddr / frameSize) = some e → e.remote = false → exec (.parkWake part gpa) s = .next s))) ∧
    ((s.hearth h).run ≠ .ending ∨ unitsRun s h = false → exec (.taskEnd h) s = .next s) ∧
    ((s.hearth h).run = .ending → unitsRun s h = true →
      (∀ v, finishWork s h = (v, false) → exec (.taskEnd h) s = .next v) ∧
      (∀ v, finishWork s h = (v, true) →
        let c := (v.hearth h).act
        let w := fun (r : State) => (freeHearth r h c).modTask c.part c.task fun t =>
          { t with voids := t.voids + ((List.range 16).map fun q => (c.seq q).voidcnt.toNat).foldl (· + ·) 0 }
        let ends := fun (r : State) => exec (.taskEnd h) s = .next (settle (pushEnd (w r) c.part c.task (if c.failed then .failed else .done))) ∧
          ((w r).hearth h).run = .free ∧ ((w r).hearth h).scratch = (r.hearth h).scratch ∧ ((w r).hearth h).win = (r.hearth h).win ∧
          ((w r).hearth h).act = (r.hearth h).act.vacated
        ((∀ p g, (v.hearth h).serves ≠ .deadlock p g) →
          (v.taskOf c.part c.task = none → ends v) ∧
          (∀ t, v.taskOf c.part c.task = some t →
            (t.treled = true → ends v) ∧
            (∀ r, releaseOnce v t c.failed = (r, true) → ends r) ∧
            (∀ r, releaseOnce v t c.failed = (r, false) → exec (.taskEnd h) s = .next r))) ∧
        ((v.hearth h).serves = .deadlock part gpa → exec (.taskEnd h) s = .next (endDeadlock v h part gpa)) ∧
        underWay v h = false ∧
        (∀ q, q < 16 → (c.seq q).opened = false) ∧ c.copyq = [] ∧ c.mergeq = [] ∧ c.blowq = [] ∧ (v.hearth h).matq = [])) ∧
    (let p := s.part part
     (p.alive = false ∨ p.qleft ≠ 0 ∨ p.slist = [] → exec (.quantumEnd part) s = .next s) ∧
     (p.alive = true → p.qleft = 0 → ∀ v us, p.slist[nextPlace s p]? = some (v, us) → ∃ u, exec (.quantumEnd part) s = .next u ∧
        (u.part part).cur = v ∧ (u.part part).qleft = 1700 * us ∧ (u.part part).pos = nextPlace s p ∧
        ((s.hearths.all fun x => x.2.pre.isNone) = true → u.mem = s.mem ∧ u.hearths = s.hearths) ∧
        (v ≠ p.cur → ∀ h, h < 192 → s.ownerOf h = some part → (s.hearth h).preCtx.vf ≠ v → (u.hearth h).pre = none) ∧
        (v ≠ p.cur → ∀ h ∈ contextsOf (dropPreloads s part (· != v)) part p.cur, u.due.contains (.preemptRequest h .save) = true) ∧
        (v = p.cur → u.due = s.due ∧ u.hearths = s.hearths)))

/-- The commands that give a partition its resources (R334-R341): with no command block waiting nothing happens; a block
that fails a check answers the first status that applies and changes nothing else (R338); one that passes has its effect
and STATUS 0. The status that a check gives is a reading of the model where no row of R339 names it (log 63), as are
which dies must keep SLMIN (log 89), the handle's number (log 43) and the place of the stage-2 array (log 88). -/
def Obligations.ResourceCommands : Prop :=
  ∀ (s : State),
    let fails := fun (i : Instr) (n : Nat) => ∃ u, exec i s = .next u ∧ Answered s u n ∧ u.parts = s.parts ∧ u.fab = s.fab ∧
      u.slices = s.slices ∧ u.mem = s.mem ∧ u.hearths = s.hearths
    let rows := [(1, Instr.create), (2, .rafters), (3, .grow), (4, .slots), (5, .quota), (6, .cstore)]
    (cmdAt s = none → ∀ i ∈ [Instr.create, .rafters, .grow, .slots, .quota, .cstore, .assign, .unassign, .sched, .pause, .vfResume, .evict,
      .backing, .route, .policy, .reclaim], exec i s = .next s) ∧
    (∀ c, cmdAt s = some c → c.plain = false → ∀ r ∈ rows, c.opc = r.1 → fails r.2 1) ∧
    (∀ c, cmdAt s = some c → c.plain = true →
      (c.opc = 0 ∨ 14 < c.opc → ∀ r ∈ rows, fails r.2 1) ∧
      (1 ≤ c.opc → c.opc ≤ 14 → ∀ r ∈ rows, r.1 ≠ c.opc → exec r.2 s = .next s) ∧
      (c.opc = 1 →
        let m := BitVec.ofNat 24 (c.arg 2)
        let good := c.handle = 0 ∧ c.arg 2 < 2 ^ 24 ∧ m ≠ 0 ∧ c.arg 3 ≤ hbmFrames ∧ c.arg 4 ≤ hbmFrames ∧ c.arg 5 < 2
        let free := (List.range 24).find? fun i => !(s.part i).alive
        (¬ good → fails .create 1) ∧
        (good → policyOf s (c.arg 0) (c.arg 1) = none → fails .create 6) ∧
        (good → ∀ pol, policyOf s (c.arg 0) (c.arg 1) = some pol →
          let inside := pol.raftersOk m = true ∧ pol.framesOk [] (c.arg 3) (c.arg 4) = true ∧ (c.arg 5 = 1 → pol.flags.getLsbD 0 = true)
          let room := fun n => raftersFree s none m = true ∧ reserveOk s n 128 (max 4 pol.qmin) (·.rsvq.toNat) = true
          (¬ inside → fails .create 3) ∧
          (inside → free = none ∨ framesFor s (c.arg 3) (c.arg 4) = none ∨ (∃ n, free = some n ∧ ¬ room n) → fails .create 4) ∧
          (inside → ∀ n, free = some n → room n → ∀ fs, framesFor s (c.arg 3) (c.arg 4) = some fs →
            ∃ u, exec .create s = .next u ∧ Answered s u 0 ∧ AnsweredOut s u (s.ch.handles + 1) ∧ u.ch.handles = s.ch.handles + 1 ∧
              u.part n = { alive := true, handle := s.ch.handles + 1, rafters := m, s2 := fs.map frameEntry, s2base := some (stage2Base n)
                           fixclk := c.arg 5 == 1, policy := pol } ∧
              (∀ i, i < 64 → tget {} (u.slice i).cfg n = { rsvq := BitVec.ofNat 8 (max 4 pol.qmin) }) ∧
              ∀ g, g < fs.length → mrd u.mem (stage2Base n + 16 * g) 16 = 1 + 2 ^ 21 * ((fs.getD g 0) % 2 ^ 25)))) ∧
      (partOf s c.handle = none →
        (c.opc = 2 → c.arg 0 < 2 ^ 24 → c.arg 0 ≠ 0 → fails .rafters 2) ∧ (c.opc = 3 → c.arg 3 ≤ hbmFrames → c.arg 4 ≤ hbmFrames → fails .grow 2)) ∧
      (∀ n, partOf s c.handle = some n → let p := s.part n
        (p.busyOp ≠ 0 →
          (c.opc = 2 → c.arg 0 < 2 ^ 24 → c.arg 0 ≠ 0 → fails .rafters 5) ∧ (c.opc = 3 → c.arg 3 ≤ hbmFrames → c.arg 4 ≤ hbmFrames → fails .grow 5) ∧
          (c.opc = 11 ∨ c.opc = 13 ∨ c.opc = 14 → fails (match c.opc with | 11 => .backing | 13 => .policy | _ => .reclaim) 5)) ∧
        (p.busyOp = 0 →
          (c.opc = 2 →
            let m := BitVec.ofNat 24 (c.arg 0)
            let busy := raftersBusy s (raftersOf (p.rafters &&& ~~~m))
            let inside := p.permits 2 = true ∧ p.policy.raftersOk m = true
            (2 ^ 24 ≤ c.arg 0 ∨ c.arg 0 = 0 → fails .rafters 1) ∧
            (c.arg 0 < 2 ^ 24 → c.arg 0 ≠ 0 →
              (busy = true → fails .rafters 5) ∧ (busy = false → ¬ inside → fails .rafters 3) ∧
              (busy = false → inside → raftersFree s (some n) m = false → fails .rafters 4) ∧
              (busy = false → inside → raftersFree s (some n) m = true → ∃ u, exec .rafters s = .next u ∧ Answered s u 0 ∧
                u.part n = { p with rafters := m } ∧
                ∀ h, h < 192 → m.getLsbD (h / 8) = true → p.rafters.getLsbD (h / 8) = false → (u.hearth h).scratch = [] ∧ (u.hearth h).act.a = [] ∧
                  (u.hearth h).ffaddr = (s.hearth h).ffaddr))) ∧
          (c.opc = 3 →
            let inside := p.permits 3 = true ∧ p.policy.framesOk (s.allotment n) (c.arg 3) (c.arg 4) = true
            (hbmFrames < c.arg 3 ∨ hbmFrames < c.arg 4 → fails .grow 1) ∧
            (c.arg 3 ≤ hbmFrames → c.arg 4 ≤ hbmFrames →
              (¬ inside → fails .grow 3) ∧ (inside → framesFor s (c.arg 3) (c.arg 4) = none → fails .grow 4) ∧
              (inside → ∀ fs, framesFor s (c.arg 3) (c.arg 4) = some fs → ∃ u, exec .grow s = .next u ∧ Answered s u 0 ∧
                u.part n = { p with s2 := p.s2 ++ fs.map frameEntry }))) ∧
          (c.opc = 4 →
            let m := BitVec.ofNat 512 ((List.range 8).foldl (fun a i => a + c.arg (i + 1) * 2 ^ (64 * i)) 0)
            let set := (List.range 512).filter m.getLsbD
            let good := c.arg 0 ≤ 1 ∧ set.all (· < 504) = true
            let inside := p.permits 4 = true ∧ (set ≠ [] → p.policy.dieOk (c.arg 0) = true) ∧
              ∀ d, d < 2 → p.policy.dieOk d = true → p.policy.slmin ≤ if d = c.arg 0 then set.length else ownedSlots (withNewSlots s) n d
            let room := (set.all fun i => 24 ≤ slotOwner (withNewSlots s) (c.arg 0) i || slotOwner (withNewSlots s) (c.arg 0) i == n) = true
            (¬ good → fails .slots 1) ∧ (good → ¬ inside → fails .slots 3) ∧ (good → inside → ¬ room → fails .slots 4) ∧
            (good → inside → room → ∃ u, exec .slots s = .next u ∧ Answered s u 0 ∧ u.fab.newSlots = s.fab.newSlots ++ [(n, c.arg 0, m)] ∧
              u.parts = s.parts ∧ u.fab.slots0 = s.fab.slots0 ∧ u.fab.slots1 = s.fab.slots1)) ∧
          (c.opc = 5 →
            let q := bits (c.arg 0) 0 8
            let sq := bits (c.arg 0) 8 4
            let ple := bits (c.arg 0) 22 14
            let good := c.arg 0 < 2 ^ 36 ∧ 4 ≤ q ∧ q ≤ 32 ∧ (sq = 0 ∨ 4 ≤ sq) ∧ ple ≤ 8192
            let inside := p.permits 5 = true ∧ p.policy.qmin ≤ q
            let room := reserveOk s n 128 q (·.rsvq.toNat) = true ∧ reserveOk s n 128 sq (·.rsvs.toNat) = true ∧
              ((s.parts.filter fun x => x.2.alive && x.1 != n).map fun x => x.2.ple).foldl (· + ·) 0 + ple ≤ 8192
            (¬ good → fails .quota 1) ∧ (good → ¬ inside → fails .quota 3) ∧ (good → inside → ¬ room → fails .quota 4) ∧
            (good → inside → room →
              let v := setReserve (s.modPart n fun p => { p with ple := ple }) n fun _ =>
                { rsvq := BitVec.ofNat 8 q, rsvs := BitVec.ofNat 4 sq, tok := BitVec.ofNat 10 (bits (c.arg 0) 12 10) }
              exec .quota s = .next (answerFree (settle v) 0) ∧ (v.part n).ple = ple ∧
                ∀ i, i < 64 → tget {} (v.slice i).cfg n = { rsvq := BitVec.ofNat 8 q, rsvs := BitVec.ofNat 4 sq, tok := BitVec.ofNat 10 (bits (c.arg 0) 12 10) })) ∧
          (c.opc = 6 →
            let good := c.arg 0 % frameSize = 0 ∧ 1 ≤ c.arg 1 ∧ c.arg 1 ≤ 1024 ∧ c.arg 0 + c.arg 1 * 0x280000 ≤ 2 ^ 46 ∧
              translatable s n (c.arg 0) (c.arg 1 * 0x280000) = true
            (¬ good → fails .cstore 1) ∧ (good → p.images ≠ [] → fails .cstore 5) ∧
            (good → p.images = [] → p.permits 6 = false → fails .cstore 3) ∧
            (good → p.images = [] → p.permits 6 = true → ∃ u, exec .cstore s = .next u ∧ Answered s u 0 ∧
              u.part n = { p with csbase := c.arg 0, csn := c.arg 1, holds := [] }))))) ∧
    (s.dcc.toNat % 512 ≠ 0 → exec .slotTableUpdate s = .next s) ∧
    (s.dcc.toNat % 512 = 0 → ∃ u, exec .slotTableUpdate s = .next u ∧ u.fab.newSlots = [] ∧ u.hearths = s.hearths ∧ u.mem = s.mem ∧
      ∀ n die m, s.fab.newSlots = [(n, die, m)] → n < 24 → ∀ i, i < 504 →
        (m.getLsbD i = true → slotOwner u (if die = 0 then 0 else 1) i = n) ∧
        (m.getLsbD i = false → slotOwner s (if die = 0 then 0 else 1) i = n → slotOwner u (if die = 0 then 0 else 1) i = 30))

/-- Virtual functions (R335, R345): ASSIGN, UNASSIGN, SCHED, PAUSE and RESUME. Some statuses (log 63) and the function
that a SCHED leaves current (log 64) are readings of the model. -/
def Obligations.FunctionCommands : Prop :=
  ∀ (s : State),
    (∀ c, cmdAt s = some c → c.plain = true →
      (∀ n, partOf s c.handle = some n → (s.part n).busyOp = 0 → let p := s.part n
        let v := c.arg 0 % 64
        (c.opc = 7 → c.arg 0 < 64 → p.permits 7 = true →
          ((vfsOf s n).length < p.policy.vfmax → (s.vf v).part = none → ∃ u, exec .assign s = .next u ∧ Answered s u 0 ∧
            AnsweredOut s u (s.ch.handles + 1) ∧ u.vf v = { part := some n, handle := s.ch.handles + 1 } ∧
            (p.schedSet = false → (u.part n).slist = (vfsOf u n).map fun v => (v, 2000)) ∧ u.mem = s.mem) ∧
          (p.policy.vfmax ≤ (vfsOf s n).length → ∃ u, exec .assign s = .next u ∧ Answered s u 3 ∧ u.vfs = s.vfs) ∧
          ((vfsOf s n).length < p.policy.vfmax → (s.vf v).part ≠ none → ∃ u, exec .assign s = .next u ∧ Answered s u 4 ∧ u.vfs = s.vfs) ∧
          exec .unassign s = .next s) ∧
        (c.opc = 7 → 64 ≤ c.arg 0 → c.arg 0 < 128 →
          exec .assign s = .next s ∧
          ((s.vf v).part ≠ some n → ∃ u, exec .unassign s = .next u ∧ Answered s u 1 ∧ u.vfs = s.vfs) ∧
          ((s.vf v).part = some n → p.permits 7 = true →
            let left := (abortVf s v).fb.launches.any (fun l => l.2.vf == v) || (abortVf s v).fb.tasks.any fun t => t.vf == v
            (left = true → exec .unassign s = .next (abortVf s v)) ∧
            (left = false → ∃ u, exec .unassign s = .next u ∧ Answered s u 0 ∧ u.vf v = {} ∧
              (∀ q ∈ u.fb.queues, q.1 / 4096 ≠ v)))) ∧
        (c.opc = 8 → 1 ≤ c.arg 0 → c.arg 0 ≤ 8 →
          let es := (List.range (c.arg 0)).map fun i => c.arg (i + 1)
          let l := es.map fun e => (e % 64, bits e 32 32)
          (es.any fun e => bits e 6 26 != 0) = false →
          ((l.any fun e => (s.vf e.1).part != some n) = true → ∃ u, exec .sched s = .next u ∧ Answered s u 1 ∧ u.parts = s.parts) ∧
          ((l.any fun e => (s.vf e.1).part != some n) = false → p.permits 8 = true →
            ((l.all fun e => p.policy.qumin ≤ e.2 && e.2 ≤ p.policy.qumax) = false → ∃ u, exec .sched s = .next u ∧ Answered s u 3 ∧ u.parts = s.parts) ∧
            ((l.all fun e => p.policy.qumin ≤ e.2 && e.2 ≤ p.policy.qumax) = true → ∃ u, exec .sched s = .next u ∧ Answered s u 0 ∧
              (u.part n).slist = l ∧ (u.part n).schedSet = true ∧ (∀ e ∈ l, e.1 = p.cur → (u.part n).cur = p.cur))))) ∧
      (∀ k, (s.vfs.find? fun v => v.2.part.isSome && v.2.handle.toNat == c.handle) = some k → let n := k.2.part.getD 0
        c.opc = 9 → (s.part n).busyOp ≠ 14 → (s.part n).permits 9 = true →
        (c.arg 0 = 0 → (s.vf k.1).paused = true → ∃ u, exec .pause s = .next u ∧ Answered s u 0 ∧ u.vfs = s.vfs) ∧
        (c.arg 0 = 0 → (s.vf k.1).paused = false →
          (s.part n).csn - (s.part n).images.length < (contextsOf s n k.1).length → ∃ u, exec .pause s = .next u ∧ Answered s u 4 ∧ u.vfs = s.vfs) ∧
        (c.arg 0 = 0 → (s.vf k.1).paused = false → (contextsOf s n k.1).length ≤ (s.part n).csn - (s.part n).images.length →
          (∃ u, exec .pause s = .next u ∧ Answered s u 0 ∧ (u.vf k.1).paused = true ∧
            (∀ h ∈ contextsOf s n k.1, u.due.contains (.preemptRequest h .save) = true) ∧
            (∀ h, h < 192 → s.ownerOf h = some n → (s.hearth h).preCtx.vf = k.1 → (u.hearth h).pre = none))) ∧
        (c.arg 0 = 1 → (∃ u, exec .vfResume s = .next u ∧ Answered s u 0 ∧ (u.vf k.1).paused = false ∧ u.parts = s.parts)) ∧
        (1 < c.arg 0 → ∃ u, exec .pause s = .next u ∧ Answered s u 1 ∧ u.vfs = s.vfs)))

/-- Backing, eviction, routes, policies and the end of a partition (R338-R341, R347, R348, R350). NORES for an EVICT
without a key or a backing large enough, and POLICY for FLAGS[1], are readings of the model (log 63); the frames of the
stage-2 array, cleared with the partition's own, are its choice (log 88); a peer's answer to ROUTE is opaque (log 8). -/
def Obligations.MemoryCommands : Prop :=
  ∀ (part : Nat) (s : State),
    (∀ c, cmdAt s = some c → c.plain = true → ∀ n, partOf s c.handle = some n → (s.part n).busyOp = 0 → let p := s.part n
      (c.opc = 10 → c.arg 0 + c.arg 1 ≤ 2 ^ 25 →
        let all := (List.range (c.arg 1)).map (c.arg 0 + ·)
        let go := all.filter fun g => match s.stage2 n g with | some e => !e.nr | none => false
        ((all.any fun g => match s.stage2 n g with | some e => e.remote | none => true) = true →
          ∃ u, exec .evict s = .next u ∧ Answered s u 1 ∧ u.parts = s.parts) ∧
        ((all.any fun g => match s.stage2 n g with | some e => e.remote | none => true) = false →
        (p.permits 10 = false ∨ p.policy.flags.getLsbD 1 = false → ∃ u, exec .evict s = .next u ∧ Answered s u 3 ∧ u.parts = s.parts) ∧
        (p.permits 10 = true → p.policy.flags.getLsbD 1 = true →
        (p.pkey = none ∨ p.backLen.toNat < (c.arg 0 + c.arg 1) * backSlot → ∃ u, exec .evict s = .next u ∧ Answered s u 4 ∧ u.parts = s.parts) ∧
        (p.pkey ≠ none → (c.arg 0 + c.arg 1) * backSlot ≤ p.backLen.toNat → ∃ u, exec .evict s = .next u ∧ Answered s u 7 ∧
          (u.part n).busyOp = 10 ∧ (u.part n).busyTag = BitVec.ofNat 64 c.tag ∧ (u.part n).busyFrames = go ∧
          (n ≠ hostPart → ∀ g ∈ go, ∀ e, u.stage2 n g = some e → e.nr = true ∧ e.hasReplica = false))))) ∧
      (c.opc = 11 → p.permits 11 = true → ∃ u, exec .backing s = .next u ∧ Answered s u 0 ∧
        u.part n = { p with backBase := BitVec.ofNat 64 (c.arg 0), backLen := BitVec.ofNat 64 (c.arg 1) }) ∧
      (c.opc = 12 → c.arg 0 < 2 ^ 25 → bits (c.arg 0) 20 5 < 24 →
        let peer := bits (c.arg 0) 0 8
        let ports := BitVec.ofNat 12 (bits (c.arg 0) 8 12)
        let up := (List.range 12).any fun k => ports.getLsbD k && !s.fab.portDown.contains k
        (p.permits 12 = false ∨ p.policy.peers.getLsbD peer = false → ∃ u, exec .route s = .next u ∧ Answered s u 3 ∧ u.parts = s.parts) ∧
        (p.permits 12 = true → p.policy.peers.getLsbD peer = true → up = false → ∃ u, exec .route s = .next u ∧ Answered s u 4 ∧ u.parts = s.parts) ∧
        (p.permits 12 = true → p.policy.peers.getLsbD peer = true → up = true → ∃ u, exec .route s = .next u ∧
          (Config.peerAttests peer (bits (c.arg 0) 20 5) s.free = true → Answered s u 0 ∧
            tget {} (u.part n).routes peer = { ports := ports, ppart := bits (c.arg 0) 20 5, up := true }) ∧
          (Config.peerAttests peer (bits (c.arg 0) 20 5) s.free = false → Answered s u 4 ∧ u.parts = s.parts))) ∧
      (c.opc = 13 → ∀ new, policyOf s (c.arg 0) (c.arg 1) = some new →
        (p.policy.pver.toNat < new.pver.toNat → new.tkey = p.policy.tkey → p.permits 13 = true →
          ∃ u, exec .policy s = .next u ∧ Answered s u 0 ∧ u.part n = { p with policy := new }) ∧
        (new.pver.toNat ≤ p.policy.pver.toNat ∨ new.tkey ≠ p.policy.tkey → ∃ u, exec .policy s = .next u ∧ Answered s u 6 ∧ u.parts = s.parts)) ∧
      (c.opc = 13 → policyOf s (c.arg 0) (c.arg 1) = none → ∃ u, exec .policy s = .next u ∧ Answered s u 6 ∧ u.parts = s.parts) ∧
      (c.opc = 14 → ∃ u, exec .reclaim s = .next u ∧ Answered s u 7 ∧ (u.part n).busyOp = 14 ∧ (u.part n).busyTag = BitVec.ofNat 64 c.tag ∧
        ∀ i, thas (u.part n).images i = true → (tget {} (u.part n).images i).discard = true)) ∧
    (let p := s.part part
     let gone := s.allotment part ++ match p.s2base with | some b => [b / frameSize, b / frameSize + 1] | none => []
     ((p.busyOp ≠ 10 → exec (.evictComplete part) s = .next s) ∧ (p.busyOp ≠ 14 → exec (.reclaimComplete part) s = .next s) ∧
      (p.busyOp = 10 → awake s = true → p.busyFrames = [] → ∃ u, exec (.evictComplete part) s = .next u ∧ (u.part part).busyOp = 0 ∧ u.mem = s.mem ∧
        (s.ch.events = [] → (s.ch.evtail - s.ch.evhead).toNat < 256 → u.ch.evtail = s.ch.evtail + 1 ∧
          mbytes u.host (s.ch.evbase.toNat + 32 * (s.ch.evtail.toNat % 256)) 32 = eventBytes 1 0 p.busyTag 0 0)) ∧
      (p.busyOp = 10 → awake s = true → ∀ g, p.busyFrames = [g] → ∀ e, s.stage2 part g = some e →
        (frameBusy s part g || frameFetched s part g) = true → exec (.evictComplete part) s = .next s) ∧
      (p.busyOp = 10 → awake s = true → ∀ g, p.busyFrames = [g] → ∀ e, s.stage2 part g = some e →
        (frameBusy s part g || frameFetched s part g) = false → ∃ u, exec (.evictComplete part) s = .next u ∧ (u.part part).busyOp = 0 ∧
          (u.part part).freeFrames = p.freeFrames ++ [e.frame.toNat] ∧ tget 0 (u.part part).versions g = tget 0 p.versions g + 1) ∧
      (p.busyOp = 14 → awake s = true → partQuiet s part = false → exec (.reclaimComplete part) s = .next s) ∧
      (p.busyOp = 14 → awake s = true → partQuiet s part = true → ∃ u, exec (.reclaimComplete part) s = .next u ∧ (u.part part).alive = false ∧
        (∀ a, gone.contains (a / frameSize) = true → mget u.mem a = 0) ∧ (∀ a, gone.contains (a / frameSize) = false → mget u.mem a = mget s.mem a) ∧
        vfsOf u part = [] ∧ (∀ h, h < 192 → p.rafters.getLsbD (h / 8) = true → (u.hearth h).scratch = []))))

/-- Sealed transfers (R343, R344): the entry at TXHEAD is worked by its DIR; a record that fails a check is counted with
its reason and changes no memory. -/
def Obligations.SealedTransfers : Prop :=
  ∀ (v : Nat) (s : State),
    let inb := exec (.transferInbound v) s
    let outb := exec (.transferOutbound v) s
    let keyb := exec (.transferPartitionKey v) s
    (txNext s v = none → inb = .next s ∧ outb = .next s ∧ keyb = .next s) ∧
    (∀ e, txNext s v = some e → let f := s.vf v
      let part := f.part.getD 0
      let rejected := fun (n : Nat) => txReject s v n
      (e.good = false → inb = .next (rejected 5) ∧ outb = .next (rejected 5) ∧ keyb = .next (rejected 5)) ∧
      (e.good = true → e.dir ≠ 0 → inb = .next s) ∧ (e.good = true → e.dir ≠ 1 → outb = .next s) ∧ (e.good = true → e.dir ≠ 2 → keyb = .next s) ∧
      (e.good = true → e.dir = 0 →
        let head := mbytes s.host e.haddr 32
        let ctr := BitVec.ofNat 64 (field head 0 8)
        (f.kin = none → inb = .next (rejected 1)) ∧
        (f.kin ≠ none → head ≠ txHead ctr e v → inb = .next (rejected 5)) ∧
        (f.kin ≠ none → head = txHead ctr e v → ctr.toNat ≤ f.ctrin.toNat → inb = .next (rejected 3)) ∧
        (∀ k, f.kin = some k → head = txHead ctr e v → f.ctrin.toNat < ctr.toNat →
          let tag := mbytes s.host (e.haddr + 32 + e.len) 16
          (gcmOpen k (txIv ctr 0 v) head (mbytes s.host (e.haddr + 32) e.len) tag = none → inb = .next (rejected 2)) ∧
          (∀ l, gcmOpen k (txIv ctr 0 v) head (mbytes s.host (e.haddr + 32) e.len) tag = some l →
            (gpaResident s part e.gpa e.len = false ∨ inStore (s.part part) e.gpa e.len = true → inb = .next (rejected 4)) ∧
            (gpaResident s part e.gpa e.len = true → inStore (s.part part) e.gpa e.len = false →
              inb = .next (txDone (noteParked (writeGpa (s.modVf v fun f => { f with ctrin := ctr }) part e.gpa l)) v) ∧ l.length = e.len)))) ∧
      (e.good = true → e.dir = 1 →
        (f.kout = none → outb = .next (rejected 1)) ∧
        (f.kout ≠ none → gpaResident s part e.gpa e.len = false → outb = .next (rejected 4)) ∧
        (∀ k, f.kout = some k → gpaResident s part e.gpa e.len = true → ∀ l, readGpa s part e.gpa e.len = some l → s.fb.bells = [] → ∃ u, outb = .next u ∧
          (u.vf v).ctrout = f.ctrout + 1 ∧ (u.vf v).txhead = f.txhead + 1 ∧ (u.vf v).txerr = f.txerr ∧ u.mem = s.mem ∧
          mbytes u.host e.haddr 32 = txHead (f.ctrout + 1) e v ∧
          mbytes u.host (e.haddr + 32) (e.len + 16) = gcmSeal k (txIv (f.ctrout + 1) 1 v) (txHead (f.ctrout + 1) e v) l)) ∧
      (e.good = true → e.dir = 2 →
        ((s.part part).pkey ≠ none → keyb = .next (rejected 5)) ∧
        ((s.part part).pkey = none → ∀ n, openRecord s v e = .error n → keyb = .next (rejected n)) ∧
        ((s.part part).pkey = none → ∀ c l, openRecord s v e = .ok (c, l) → s.fb.bells = [] → ∃ u, keyb = .next u ∧
          (u.part part).pkey = some (keyOf l) ∧ (u.vf v).ctrin = c ∧ (u.vf v).txhead = f.txhead + 1 ∧ u.mem = s.mem)) ∧
      (s.fb.bells = [] → ((rejected 3).vf v).txerr = f.txerr + 1 ∧ ((rejected 3).vf v).txreason = 3 ∧ ((rejected 3).vf v).txhead = f.txhead + 1 ∧
        (rejected 3).mem = s.mem))

/-- Attestation and sealed images (R342, R344, R331). Whether a stream frees its slot is a free choice; how many records
it has and which function and queue a restored context has are readings of the model (log 57), as is that a stream is
made only while the package runs (log 65); the two ephemeral values that a report takes are its choice (log 9). -/
def Obligations.AttestationAndSealing : Prop :=
  ∀ (v part slot : Nat) (haddr : Word) (s : State),
    let f := s.vf v
    let p := s.part part
    let im := tget {} p.images slot
    (f.part = none ∨ f.attGo = false → exec (.attestation v) s = .next s) ∧
    (∀ n, f.part = some n → f.attGo = true →
      let rq := mbytes s.host f.attreq.toNat 256
      let fixed := field rq 0 2 = 0x5141 ∧ field rq 2 1 = 1 ∧ ((rq.drop 3).take 5).all (· == 0) = true ∧ ((rq.drop 153).take 103).all (· == 0) = true
      (¬ fixed → ∃ u, exec (.attestation v) s = .next u ∧ (u.vf v).attGo = false ∧ (u.vf v).kin = f.kin ∧ (u.vf v).kout = f.kout ∧ u.mem = s.mem ∧
        (u.vf v).ctrin = f.ctrin) ∧
      (fixed → pointOf ((rq.drop 56).take 97) = none → ∃ u, exec (.attestation v) s = .next u ∧ (u.vf v).attGo = false ∧ (u.vf v).kin = f.kin ∧
        u.ch = s.ch) ∧
      (fixed → ∀ g, pointOf ((rq.drop 56).take 97) = some g → ∃ u, exec (.attestation v) s = .next u ∧ (u.vf v).attGo = false ∧
        (u.vf v).kin.isSome = true ∧ (u.vf v).kout.isSome = true ∧ (u.vf v).ctrin = 0 ∧ (u.vf v).ctrout = 0 ∧ u.ch.eph = s.ch.eph + 2 ∧
        u.mem = s.mem ∧ u.parts = s.parts)) ∧
    (p.pkey = none ∨ p.alive = false ∨ im.state ≠ 2 ∨ awake s = false → exec (.sealedImageMake part slot haddr) s = .next s) ∧
    (p.pkey = none ∨ p.alive = false ∨ p.busyOp = 14 ∨ p.csn ≤ slot ∨ thas p.images slot = true → exec (.sealedImageRestore part slot haddr) s = .next s) ∧
    (∀ k, p.pkey = some k → p.alive = true → awake s = true →
      (im.state = 2 → ∃ u, exec (.sealedImageMake part slot haddr) s = .next u ∧ (u.part part).sealSeq = p.sealSeq + 1 ∧
        ((u.mem = s.mem ∧ (u.part part).images = p.images ∧ u.fb = s.fb) ∨
          (thas (u.part part).images slot = false ∧
            ∀ t, s.taskOf part im.task = some t → (u.taskOf part im.task).map (fun t => (t.st, t.slot)) = some (t.st, none))) ∧
        mbytes u.host haddr.toNat 64 = sealHeader part im.ctxid (p.sealSeq + 1) (sealRecords im).length) ∧
      (slot < p.csn → thas p.images slot = false → p.busyOp ≠ 14 →
        let clear := mbytes s.host haddr.toNat 64
        let iv := sealIv (BitVec.ofNat 64 (field clear 16 8))
        (field clear 0 2 ≠ 0x5A53 ∨ field clear 2 1 ≠ 1 → exec (.sealedImageRestore part slot haddr) s = .next s) ∧
        (field clear 0 2 = 0x5A53 → field clear 2 1 = 1 →
          ∀ rs len, readRecords s.host (haddr.toNat + 64) k iv (field clear 24 4) 0 = (rs, len) →
          let opened := gcmOpen k iv clear (mbytes s.host (haddr.toNat + 64) len) (mbytes s.host (haddr.toNat + 64 + len) 16)
          (opened = none → exec (.sealedImageRestore part slot haddr) s = .next s) ∧
          (opened.isSome = true → (rs.any fun r => decide (r.ty < 0x80) && !r.known) = false → ∀ h, rs.find? (·.ty == 1) = some h →
            (∀ t, makeLive s part (field h.body 0x18 8 % 2 ^ 46) = .ok t →
              ∃ u, exec (.sealedImageRestore part slot haddr) s = .next u ∧ thas (u.part part).images slot = true ∧
                tget {} (u.part part).images slot = imageOf t part h.body rs ∧ u.host = s.host ∧
                tget 0 (u.part part).holds slot = (imageOf t part h.body rs).ctxid ∧
                (∀ n, n < 192 → ∀ g ∈ (u.hearth n).tags, g.1 < 2048 → g.2 ≠ (imageOf t part h.body rs).ctxid) ∧
                (∀ o, s.taskOf part (imageOf t part h.body rs).task = some o → o.st = .saved → o.slot = none →
                  (u.taskOf part o.gpa).map (fun t => (t.st, t.slot)) = some (.saved, some slot)) ∧
                (s.taskOf part (imageOf t part h.body rs).task = none → (imageOf t part h.body rs).task = field h.body 0x10 8 % 2 ^ 46 ∧
                  (u.taskOf part (imageOf t part h.body rs).task).map (fun t => (t.st, t.slot)) = some (.saved, some slot))) ∧
            (∀ a, makeLive s part (field h.body 0x18 8 % 2 ^ 46) = .bad a →
              ∃ u, exec (.sealedImageRestore part slot haddr) s = .next u ∧
                tget {} (u.part part).images slot = imageOf s part h.body rs ∧ u.host = s.host)))))

/-- Writes of the host to registers (R336, R342, R351, R361), and the cap, cold reset, bring-up and off (R351, R352,
R354, R361). That memory then reads as at reset, all zero, is the model's choice, as R361 leaves it undefined (log 2),
and so is that a failed bring-up stays failed (log 68); the empty error-injection registers are what the self-test has
left (log 25). -/
def Obligations.HostRegisters : Prop :=
  (∀ (v ofs : Nat) (w : Word) (s : State),
    let wr := fun fn (o : Nat) => exec (.registerWrite fn (BitVec.ofNat 16 o) w) s
    let lo : BitVec 32 := w.setWidth 32
    (s.pw.ready = false → wr v ofs = .next s ∧ exec (.rootWrite v w) s = .next s) ∧
    (s.pw.ready = true →
      wr 0 0 = .next { s with ch := { s.ch with crbase := w } } ∧ wr 0 8 = .next { s with ch := { s.ch with crtail := lo } } ∧
      wr 0 0x18 = .next { s with ch := { s.ch with evbase := w } } ∧ wr 0 0x30 = .next { s with ch := { s.ch with starve := w } } ∧
      (s.ch.events = [] → wr 0 0x20 = .next { s with ch := { s.ch with evhead := lo } }) ∧
      wr 0 0x10 = .next s ∧ wr 0 0x28 = .next s ∧ wr 0 0x38 = .next s ∧
      wr 1 8 = .next (s.pushDue (.capwWrite w)) ∧ wr 1 0x20 = .next { s with pw := { s.pw with tlbase := w } } ∧
      wr 1 0x10 = .next s ∧ wr 1 0x28 = .next s ∧
      (w.toNat % 128 = 2 → wr 1 0 = .next (s.pushDue .targetBank2)) ∧
      (w.toNat % 128 = 64 → wr 1 0 = .next (State.pushDue { s with pw := { s.pw with refused := false } } .targetRun)) ∧
      (66 ≤ v → wr v ofs = .next s) ∧
      (v < 64 → (s.vf v).part = none → wr (v + 2) ofs = .next s ∧ exec (.rootWrite v w) s = .next s) ∧
      (v < 64 → ∀ n, (s.vf v).part = some n →
        (ofs < 0x4000 → ofs % 4 = 0 → wr (v + 2) ofs = .next (s.pushDue (.queueDoorbell v (ofs / 4) lo))) ∧
        wr (v + 2) 0x4000 = .next (s.modVf v fun f => { f with qtbase := w }) ∧ wr (v + 2) 0x4008 = .next (s.modVf v fun f => { f with qtn := w }) ∧
        wr (v + 2) 0x4010 = .next (s.modVf v fun f => { f with txbase := w }) ∧ wr (v + 2) 0x4018 = .next (s.modVf v fun f => { f with txtail := lo }) ∧
        wr (v + 2) 0x4020 = .next s ∧ wr (v + 2) 0x4028 = .next s ∧
        wr (v + 2) 0x4030 = .next (s.modVf v fun f => { f with attreq := w }) ∧ wr (v + 2) 0x4038 = .next (s.modVf v fun f => { f with attGo := true }) ∧
        wr (v + 2) 0x4040 = .next (s.pushDue (.rootWrite v w)) ∧
        ((s.fb.regions.any fun r => r.part == n) = true → exec (.rootWrite v w) s = .next s) ∧
        ((s.fb.regions.any fun r => r.part == n) = false → exec (.rootWrite v w) s = .next (s.modPart n fun x => { x with root := w }))))) ∧
  (∀ (v : Word) (ok : Bool) (s : State),
    (s.pw.ready = false → exec (.capwWrite v) s = .next s) ∧
    (s.pw.ready = true → ∃ u, exec (.capwWrite v) s = .next u ∧ u.pw.capw.toNat = max 400 (min 1600 (v.toNat % 2048)) ∧ u.mem = s.mem ∧
      u.hearths = s.hearths) ∧
    (∃ u, exec .coldReset s = .next u ∧ u.pw = State.reset.pw ∧ u.mem = State.reset.mem ∧ u.dcc = 0 ∧ u.hearths = [] ∧ u.parts = [] ∧
      u.vfs = [] ∧ u.fb = {} ∧ u.slices = [] ∧ u.host = s.host ∧ pstate u = 0) ∧
    (∃ u, exec .powerOff s = .next u ∧ u.pw.on = false ∧ u.mem = [] ∧ u.dcc = 0 ∧ u.parts = [] ∧ u.host = s.host ∧
      exec (.bringUpComplete ok) u = .next u ∧ tick u = u) ∧
    (s.pw.on = false ∨ s.pw.ready = true ∨ s.pw.failed = true → exec (.bringUpComplete ok) s = .next s) ∧
    (s.pw.on = true → s.pw.ready = false → s.pw.failed = false →
      exec (.bringUpComplete true) s = .next { s with pw := { s.pw with ready := true, inject := [] } } ∧
      ∃ u, exec (.bringUpComplete false) s = .next u ∧ u.pw.ready = false ∧ exec (.bringUpComplete ok) u = .next u))

/-- Banked states and wakes (R351, R354-R357). A refused write that leaves TARGET as it was written is a reading of the
model (log 66), as are that a change from one banked state to another wakes the package first (log 46), that an entry
waits for handlers (log 67) and TARGET = 0 after a wake that no write began (log 101); what a wake from bank-3 keeps of
the registers is its choice (log 87). -/
def Obligations.BankedStates : Prop :=
  ∀ (port : Nat) (s : State),
    let target := fun (n : BitVec 2) => exec (if n = 0 then .targetRun else if n = 1 then .targetBank1 else if n = 2 then .targetBank2 else .targetBank3) s
    (s.pw.ready = false → (∀ n, target n = .next s) ∧ exec .wakePin s = .next s ∧ exec (.wakePeerAccess port) s = .next s) ∧
    (s.pw.trans ≠ .none → ∀ n, target n = .next s) ∧
    (s.pw.ready = true → s.pw.trans = .none →
      (∀ n, n ≠ 0 → s.pw.cur = n → target n = .next { s with pw := { s.pw with target := n } }) ∧
      (s.pw.cur = 0 →
        target 0 = .next { s with pw := { s.pw with target := 0 } } ∧ exec .wakePin s = .next s ∧
        target 1 = .next { s with pw := { s.pw with target := 1, trans := .entering 1 } } ∧
        (∃ u, target 2 = .next u ∧ u.pw = { s.pw with target := 2, trans := .entering 2 } ∧ u.mem = s.mem ∧
          ∀ p ∈ s.hearths, needsSave p.2 = true → (u.hearth p.1).req.isSome = true) ∧
        ((s.parts.all fun p => slotsCover s p.1) = true → ∃ u, target 3 = .next u ∧ u.pw = { s.pw with target := 3, trans := .entering 3 } ∧
          ∀ p ∈ s.hearths, needsSave p.2 = true → u.due.contains (.preemptRequest p.1 .save) = true)) ∧
      (s.pw.cur ≠ 3 → (s.parts.all fun p => slotsCover s p.1) = false → target 3 = .next { s with pw := { s.pw with target := 3, refused := true } }) ∧
      (∀ n : BitVec 2, n ≠ 0 → s.pw.cur ≠ 0 → s.pw.cur ≠ n → (n = 3 → (s.parts.all fun p => slotsCover s p.1) = true) →
        ∃ u, target n = .next u ∧ u.pw.cur = 0 ∧ u.pw.trans = .entering n ∧ u.pw.target = n) ∧
      (s.pw.cur = 1 → ∃ u, target 0 = .next u ∧ u.pw.trans = .waking 17000 ∧ u.pw.target = 0 ∧ u.pw.wakesrc = 1) ∧
      (s.pw.cur = 2 → ∃ u, target 0 = .next u ∧ u.pw.trans = .waking 680000 ∧ u.pw.target = 0 ∧ u.pw.wakesrc = 1) ∧
      (s.pw.cur = 3 → ∃ u, target 0 = .next u ∧ u.pw.trans = .waking 51000000 ∧ u.pw.target = 0 ∧ u.pw.wakesrc = 1) ∧
      (s.pw.cur = 2 → ∃ u, exec .wakePin s = .next u ∧ u.pw.trans = .waking 680000 ∧ u.pw.target = 0 ∧ u.pw.wakesrc = 4) ∧
      (s.pw.cur = 3 → ∃ u, exec .wakePin s = .next u ∧ u.pw.trans = .waking 51000000 ∧ u.pw.target = 0 ∧ u.pw.wakesrc = 4) ∧
      (s.pw.cur = 3 → exec (.wakePeerAccess port) s = .next s) ∧
      (s.pw.cur = 2 → port < 12 → s.fab.portDown.contains port = false → ∃ u, exec (.wakePeerAccess port) s = .next u ∧
        u.pw.trans = .waking 680000 ∧ u.pw.wakesrc = 3)) ∧
    (∀ n, s.pw.trans = .waking n → n ≠ 0 → exec .wakeComplete s = .next s) ∧
    (s.pw.trans = .none → exec .wakeComplete s = .next s ∧ exec .bankEntryComplete s = .next s) ∧
    (s.pw.trans = .waking 0 → ∃ u, exec .wakeComplete s = .next u ∧ u.pw.cur = 0 ∧ u.pw.trans = .none ∧ u.pw.held = [] ∧ u.pw.target = s.pw.target ∧
      (s.pw.cur = 3 → u.pw.capw = 1600 ∧ u.pw.tlbase = 0 ∧ u.pw.tltail = 0 ∧ u.pw.gates = [] ∧ u.pw.refused = false ∧
        u.fab.slots0 = [] ∧ u.fab.slots1 = [] ∧ u.ch.crbase = 0 ∧ u.ch.starve = 1700000000 ∧ ∀ i, i < 64 → (u.slice i).cfg = [])) ∧
    (∀ n, s.pw.trans = .entering n → s.pw.ready = true →
      (n ≠ 3 → (∃ u, exec .wakePin s = .next u ∧ u.pw.trans = .waking 0 ∧ u.pw.wakesrc = 4 ∧ u.pw.target = 0 ∧ u.due = s.due ++ [.wakeComplete]) ∧
        (s.pw.cur ≠ 3 → port < 12 → s.fab.portDown.contains port = false → ∃ u, exec (.wakePeerAccess port) s = .next u ∧ u.pw.trans = .waking 0 ∧
          u.pw.wakesrc = 3)) ∧
      (n = 3 → exec .wakePin s = .next { s with pw := { s.pw with wakesrc := 4, target := 0 } } ∧ exec (.wakePeerAccess port) s = .next s)) ∧
    (s.pw.trans = .entering 1 → exec .bankEntryComplete s = .next { s with pw := { s.pw with cur := 1, trans := .none } }) ∧
    (s.pw.trans = .entering 2 → drained s = true → (s.hearths.all fun p => (p.2.run == .free || p.2.run == .banked) && p.2.out.isNone) = true →
      exec .bankEntryComplete s = .next { s with pw := { s.pw with cur := 2, trans := .none } }) ∧
    (s.pw.trans = .entering 2 → drained s = false ∨ (s.hearths.all fun p => (p.2.run == .free || p.2.run == .banked) && p.2.out.isNone) = false →
      exec .bankEntryComplete s = .next s) ∧
    (s.pw.trans = .entering 3 → drained s = false ∨ (s.hearths.all fun p => p.2.run == .free && p.2.out.isNone) = false → exec .bankEntryComplete s = .next s) ∧
    (s.pw.trans = .entering 3 → drained s = true → (s.hearths.all fun p => p.2.run == .free && p.2.out.isNone) = true → s.pw.target = 3 →
      ∃ u, exec .bankEntryComplete s = .next u ∧ u.pw.cur = 3 ∧ u.pw.trans = .none ∧ ((s.hearths.all fun p => p.2.pre.isNone) = true → u.mem = s.mem) ∧
        ∀ h, h < 192 → (u.hearth h).tags = [] ∧ (u.hearth h).win = [])
end

