-- ==== Sys2Proof/Laws/Store.lean ====
section
/-!
SUPPORT. Laws of tables and byte stores: a read after a write, other places untouched, and the canonical form kept.
-/
set_option autoImplicit false

namespace Sys2Proof.Machine

/-! ### Tables -/

@[simp] theorem tget_tput_same {α : Type} (d v : α) (l : Tbl α) (k : Nat) : tget d (tput l k v) k = v := by
  induction l with
  | nil => simp [tput, tget]
  | cons p r ih =>
    obtain ⟨j, w⟩ := p
    unfold tput
    split
    · simp [tget]
    · split
      · simp [tget]
      · simp [tget, *]

theorem tget_tput_other {α : Type} (d v : α) (l : Tbl α) (k n : Nat) (h : n ≠ k) :
    tget d (tput l k v) n = tget d l n := by
  have h' : k ≠ n := fun e => h e.symm
  induction l with
  | nil => simp [tput, tget, h']
  | cons p r ih =>
    obtain ⟨j, w⟩ := p
    unfold tput
    split
    · simp [tget, h']
    · split
      · rename_i _ e
        subst e
        simp [tget, h']
      · simp [tget, ih]

theorem tget_tput {α : Type} (d v : α) (l : Tbl α) (k n : Nat) :
    tget d (tput l k v) n = if n = k then v else tget d l n := by
  by_cases h : n = k
  · subst h; simp
  · simp [h, tget_tput_other]

@[simp] theorem tput_tput {α : Type} (v w : α) (l : Tbl α) (k : Nat) : tput (tput l k v) k w = tput l k w := by
  induction l with
  | nil => simp [tput]
  | cons p r ih =>
    obtain ⟨j, u⟩ := p
    by_cases h : k < j
    · simp [tput, h]
    · by_cases e : j = k
      · simp [tput, e]
      · simp [tput, h, e, ih]

theorem tget_tdel {α : Type} (d : α) (l : Tbl α) (k n : Nat) :
    tget d (tdel l k) n = if n = k then d else tget d l n := by
  induction l with
  | nil => simp [tdel, tget]
  | cons p r ih =>
    obtain ⟨j, w⟩ := p
    unfold tdel at *
    by_cases e : j = k
    · subst e
      by_cases h : n = j
      · rw [if_pos h] at *
        simpa using ih
      · have h' : ¬ j = n := fun e => h e.symm
        simp [ih, h, h', tget]
    · by_cases h : j = n
      · subst h; simp [e, tget]
      · simp [e, h, tget, ih]

/-! ### Byte stores -/

theorem mget_mput (m : Memory) (a n : Nat) (b : Byte) : mget (mput m a b) n = if n = a then b else mget m n := by
  unfold mget mput
  split
  · rename_i h
    rw [tget_tdel]
    simp [h]
  · exact tget_tput _ _ _ _ _

theorem mget_mwrite (l : List Byte) (m : Memory) (a n : Nat) :
    mget (mwrite m a l) n = if a ≤ n ∧ n < a + l.length then l.getD (n - a) 0 else mget m n := by
  induction l generalizing m a with
  | nil => simp only [mwrite, List.length_nil]; rw [if_neg (by omega)]
  | cons b r ih =>
    simp only [mwrite, ih, mget_mput, List.length_cons]
    by_cases h1 : n = a
    · subst h1
      rw [if_neg (by omega), if_pos rfl, if_pos (by omega)]
      simp
    · by_cases h2 : a + 1 ≤ n ∧ n < a + 1 + r.length
      · obtain ⟨k, rfl⟩ : ∃ k, n = a + 1 + k := ⟨n - (a + 1), by omega⟩
        rw [if_pos h2, if_pos (by omega), show a + 1 + k - (a + 1) = k by omega, show a + 1 + k - a = k + 1 by omega]
        simp
      · rw [if_neg h2, if_neg h1, if_neg (by omega)]

/-- The canonical form of a store (log 2), as a list property: strictly ascending addresses and no listed byte 0. -/
theorem wf_iff (m : Memory) : Memory.wf m = true ↔ m.Pairwise (fun p q => p.1 < q.1) ∧ ∀ p ∈ m, p.2 ≠ 0 := by
  induction m with
  | nil => simp [Memory.wf]
  | cons p r ih =>
    obtain ⟨a, b⟩ := p
    cases r with
    | nil => simp [Memory.wf]
    | cons q r =>
      obtain ⟨c, d⟩ := q
      simp only [Memory.wf, Bool.and_eq_true, ih, bne_iff_ne, decide_eq_true_eq, List.pairwise_cons]
      constructor
      · rintro ⟨⟨hb, hac⟩, ⟨hc, hr⟩, hz⟩
        refine ⟨⟨?_, hc, hr⟩, ?_⟩
        · intro p hp
          rcases List.mem_cons.1 hp with e | hp
          · subst e; exact hac
          · exact Nat.lt_trans hac (hc p hp)
        · intro p hp
          rcases List.mem_cons.1 hp with e | hp
          · subst e; exact hb
          · exact hz p hp
      · rintro ⟨⟨ha, hc, hr⟩, hz⟩
        exact ⟨⟨hz (a, b) (by simp), ha (c, d) (by simp)⟩, ⟨hc, hr⟩, fun p hp => hz p (List.mem_cons_of_mem _ hp)⟩

theorem wf_filter (f : Host.Cell → Bool) (m : Memory) (h : Memory.wf m = true) : Memory.wf (m.filter f) = true := by
  rw [wf_iff] at *
  exact ⟨h.1.filter f, fun p hp => h.2 p (List.mem_filter.1 hp).1⟩

theorem mem_tput {α : Type} (l : Tbl α) (k : Nat) (v : α) (p : Nat × α) (h : p ∈ tput l k v) : p = (k, v) ∨ p ∈ l := by
  induction l with
  | nil => simpa [tput] using h
  | cons q r ih =>
    obtain ⟨j, w⟩ := q
    unfold tput at h
    split at h
    · simpa using h
    · split at h
      · rcases List.mem_cons.1 h with e | h
        · exact .inl e
        · exact .inr (List.mem_cons_of_mem _ h)
      · rcases List.mem_cons.1 h with e | h
        · exact .inr (by simp [e])
        · rcases ih h with e | h
          · exact .inl e
          · exact .inr (List.mem_cons_of_mem _ h)

theorem sorted_tput {α : Type} (l : Tbl α) (k : Nat) (v : α) (h : l.Pairwise (fun p q => p.1 < q.1)) :
    (tput l k v).Pairwise (fun p q => p.1 < q.1) := by
  induction l with
  | nil => simp [tput]
  | cons q r ih =>
    obtain ⟨j, w⟩ := q
    rw [List.pairwise_cons] at h
    unfold tput
    split
    · rename_i hk
      refine List.pairwise_cons.2 ⟨?_, List.pairwise_cons.2 h⟩
      intro p hp
      rcases List.mem_cons.1 hp with e | hp
      · subst e; exact hk
      · exact Nat.lt_trans hk (h.1 p hp)
    · split
      · rename_i _ e
        subst e
        exact List.pairwise_cons.2 h
      · rename_i h1 h2
        refine List.pairwise_cons.2 ⟨?_, ih h.2⟩
        intro p hp
        rcases mem_tput r k v p hp with e | hp
        · subst e
          show j < k
          omega
        · exact h.1 p hp

theorem wf_mput (m : Memory) (a : Nat) (b : Byte) (h : Memory.wf m = true) : Memory.wf (mput m a b) = true := by
  unfold mput
  split
  · exact wf_filter _ _ h
  · rename_i hb
    rw [wf_iff] at *
    refine ⟨sorted_tput _ _ _ h.1, fun p hp => ?_⟩
    rcases mem_tput m a b p hp with e | hp
    · rw [e]; exact hb
    · exact h.2 p hp

theorem wf_mwrite (l : List Byte) (m : Memory) (a : Nat) (h : Memory.wf m = true) : Memory.wf (mwrite m a l) = true := by
  induction l generalizing m a with
  | nil => exact h
  | cons b r ih => exact ih _ _ (wf_mput m a b h)

theorem wf_mwr (m : Memory) (a n v : Nat) (h : Memory.wf m = true) : Memory.wf (mwr m a n v) = true := wf_mwrite _ _ _ h

theorem wf_mclear (m : Memory) (a n : Nat) (h : Memory.wf m = true) : Memory.wf (mclear m a n) = true := wf_filter _ _ h

theorem wf_mover (src m : Memory) (h : Memory.wf m = true) : Memory.wf (mover m src) = true := by
  unfold mover
  induction src generalizing m with
  | nil => exact h
  | cons p r ih => exact ih _ (wf_mput m p.1 p.2 h)

theorem wf_mreplace (m : Memory) (a n : Nat) (src : Memory) (h : Memory.wf m = true) :
    Memory.wf (mreplace m a n src) = true := wf_mover _ _ (wf_mclear m a n h)

theorem wf_mslice (m : Memory) (a n k : Nat) (h : Memory.wf m = true) : Memory.wf (mslice m a n k) = true := by
  have h := wf_filter (fun p => decide (a ≤ p.1) && decide (p.1 < a + n)) m h
  unfold mslice
  rw [wf_iff] at *
  constructor
  · rw [List.pairwise_map]
    refine h.1.imp_of_mem fun {p q} hp hq hpq => ?_
    have := (List.mem_filter.1 hp).2
    have := (List.mem_filter.1 hq).2
    simp only [Bool.and_eq_true, decide_eq_true_eq] at *
    show p.1 - a + k < q.1 - a + k
    omega
  · intro p hp
    obtain ⟨q, hq, rfl⟩ := List.mem_map.1 hp
    exact h.2 q hq

/-! ### Little-endian numbers (R5) -/

theorem leBytes_length (n v : Nat) : (leBytes n v).length = n := by
  induction n generalizing v with
  | zero => rfl
  | succ n ih => simp [leBytes, ih]

theorem leNat_leBytes (n v : Nat) : leNat (leBytes n v) = v % 256 ^ n := by
  induction n generalizing v with
  | zero => simp [leBytes, leNat, Nat.mod_one]
  | succ n ih =>
    have e : (256 : Nat) ^ (n + 1) = 256 * 256 ^ n := by rw [Nat.pow_succ, Nat.mul_comm]
    rw [leBytes, leNat, ih, BitVec.toNat_ofNat, e, Nat.mod_mul]

theorem mbytes_mwrite (l : List Byte) (m : Memory) (a : Nat) : mbytes (mwrite m a l) a l.length = l := by
  apply List.ext_getElem
  · simp [mbytes]
  · intro i h1 h2
    simp only [mbytes, List.getElem_map, List.getElem_range, mget_mwrite]
    rw [if_pos (by omega)]
    simp [List.getD, h2]

/-- A value read back where it was written. -/
theorem mrd_mwr (m : Memory) (a n v : Nat) : mrd (mwr m a n v) a n = v % 256 ^ n := by
  have h := mbytes_mwrite (leBytes n v) m a
  rw [leBytes_length] at h
  rw [mrd, mwr, h, leNat_leBytes]

end Sys2Proof.Machine
end

