-- ==== Sys2Proof/Laws/State.lean ====
section
/-!
SUPPORT. One lemma per field per update of State, and what the accessors read after an update.
-/
set_option autoImplicit false

namespace Sys2Proof.Machine

/-! ### setHearth -/

@[simp] theorem setHearth_dcc (s : State) (h : Nat) (x : Hearth) : (s.setHearth h x).dcc = s.dcc := rfl
@[simp] theorem setHearth_mem (s : State) (h : Nat) (x : Hearth) : (s.setHearth h x).mem = s.mem := rfl
@[simp] theorem setHearth_poison (s : State) (h : Nat) (x : Hearth) : (s.setHearth h x).poison = s.poison := rfl
@[simp] theorem setHearth_host (s : State) (h : Nat) (x : Hearth) : (s.setHearth h x).host = s.host := rfl
@[simp] theorem setHearth_cur (s : State) (h : Nat) (x : Hearth) : (s.setHearth h x).cur = s.cur := rfl
@[simp] theorem setHearth_eng (s : State) (h : Nat) (x : Hearth) : (s.setHearth h x).eng = s.eng := rfl
@[simp] theorem setHearth_slices (s : State) (h : Nat) (x : Hearth) : (s.setHearth h x).slices = s.slices := rfl
@[simp] theorem setHearth_ocm (s : State) (h : Nat) (x : Hearth) : (s.setHearth h x).ocm = s.ocm := rfl
@[simp] theorem setHearth_seqMsgs (s : State) (h : Nat) (x : Hearth) : (s.setHearth h x).seqMsgs = s.seqMsgs := rfl
@[simp] theorem setHearth_seqAcks (s : State) (h : Nat) (x : Hearth) : (s.setHearth h x).seqAcks = s.seqAcks := rfl
@[simp] theorem setHearth_answers (s : State) (h : Nat) (x : Hearth) : (s.setHearth h x).answers = s.answers := rfl
@[simp] theorem setHearth_replies (s : State) (h : Nat) (x : Hearth) : (s.setHearth h x).replies = s.replies := rfl
@[simp] theorem setHearth_acks (s : State) (h : Nat) (x : Hearth) : (s.setHearth h x).acks = s.acks := rfl
@[simp] theorem setHearth_hobReqs (s : State) (h : Nat) (x : Hearth) : (s.setHearth h x).hobReqs = s.hobReqs := rfl
@[simp] theorem setHearth_parts (s : State) (h : Nat) (x : Hearth) : (s.setHearth h x).parts = s.parts := rfl
@[simp] theorem setHearth_vfs (s : State) (h : Nat) (x : Hearth) : (s.setHearth h x).vfs = s.vfs := rfl
@[simp] theorem setHearth_fb (s : State) (h : Nat) (x : Hearth) : (s.setHearth h x).fb = s.fb := rfl
@[simp] theorem setHearth_ch (s : State) (h : Nat) (x : Hearth) : (s.setHearth h x).ch = s.ch := rfl
@[simp] theorem setHearth_pw (s : State) (h : Nat) (x : Hearth) : (s.setHearth h x).pw = s.pw := rfl
@[simp] theorem setHearth_fab (s : State) (h : Nat) (x : Hearth) : (s.setHearth h x).fab = s.fab := rfl
@[simp] theorem setHearth_snap (s : State) (h : Nat) (x : Hearth) : (s.setHearth h x).snap = s.snap := rfl
@[simp] theorem setHearth_latched (s : State) (h : Nat) (x : Hearth) : (s.setHearth h x).latched = s.latched := rfl
@[simp] theorem setHearth_peerAsks (s : State) (h : Nat) (x : Hearth) : (s.setHearth h x).peerAsks = s.peerAsks := rfl
@[simp] theorem setHearth_due (s : State) (h : Nat) (x : Hearth) : (s.setHearth h x).due = s.due := rfl
@[simp] theorem setHearth_agenda (s : State) (h : Nat) (x : Hearth) : (s.setHearth h x).agenda = s.agenda := rfl
@[simp] theorem setHearth_sched (s : State) (h : Nat) (x : Hearth) : (s.setHearth h x).sched = s.sched := rfl
@[simp] theorem setHearth_free (s : State) (h : Nat) (x : Hearth) : (s.setHearth h x).free = s.free := rfl
@[simp] theorem setHearth_uid (s : State) (h : Nat) (x : Hearth) : (s.setHearth h x).uid = s.uid := rfl

/-! ### modHearth -/

@[simp] theorem modHearth_dcc (s : State) (h : Nat) (f : Hearth → Hearth) : (s.modHearth h f).dcc = s.dcc := rfl
@[simp] theorem modHearth_mem (s : State) (h : Nat) (f : Hearth → Hearth) : (s.modHearth h f).mem = s.mem := rfl
@[simp] theorem modHearth_poison (s : State) (h : Nat) (f : Hearth → Hearth) : (s.modHearth h f).poison = s.poison := rfl
@[simp] theorem modHearth_host (s : State) (h : Nat) (f : Hearth → Hearth) : (s.modHearth h f).host = s.host := rfl
@[simp] theorem modHearth_cur (s : State) (h : Nat) (f : Hearth → Hearth) : (s.modHearth h f).cur = s.cur := rfl
@[simp] theorem modHearth_eng (s : State) (h : Nat) (f : Hearth → Hearth) : (s.modHearth h f).eng = s.eng := rfl
@[simp] theorem modHearth_slices (s : State) (h : Nat) (f : Hearth → Hearth) : (s.modHearth h f).slices = s.slices := rfl
@[simp] theorem modHearth_ocm (s : State) (h : Nat) (f : Hearth → Hearth) : (s.modHearth h f).ocm = s.ocm := rfl
@[simp] theorem modHearth_seqMsgs (s : State) (h : Nat) (f : Hearth → Hearth) : (s.modHearth h f).seqMsgs = s.seqMsgs := rfl
@[simp] theorem modHearth_seqAcks (s : State) (h : Nat) (f : Hearth → Hearth) : (s.modHearth h f).seqAcks = s.seqAcks := rfl
@[simp] theorem modHearth_answers (s : State) (h : Nat) (f : Hearth → Hearth) : (s.modHearth h f).answers = s.answers := rfl
@[simp] theorem modHearth_replies (s : State) (h : Nat) (f : Hearth → Hearth) : (s.modHearth h f).replies = s.replies := rfl
@[simp] theorem modHearth_acks (s : State) (h : Nat) (f : Hearth → Hearth) : (s.modHearth h f).acks = s.acks := rfl
@[simp] theorem modHearth_hobReqs (s : State) (h : Nat) (f : Hearth → Hearth) : (s.modHearth h f).hobReqs = s.hobReqs := rfl
@[simp] theorem modHearth_parts (s : State) (h : Nat) (f : Hearth → Hearth) : (s.modHearth h f).parts = s.parts := rfl
@[simp] theorem modHearth_vfs (s : State) (h : Nat) (f : Hearth → Hearth) : (s.modHearth h f).vfs = s.vfs := rfl
@[simp] theorem modHearth_fb (s : State) (h : Nat) (f : Hearth → Hearth) : (s.modHearth h f).fb = s.fb := rfl
@[simp] theorem modHearth_ch (s : State) (h : Nat) (f : Hearth → Hearth) : (s.modHearth h f).ch = s.ch := rfl
@[simp] theorem modHearth_pw (s : State) (h : Nat) (f : Hearth → Hearth) : (s.modHearth h f).pw = s.pw := rfl
@[simp] theorem modHearth_fab (s : State) (h : Nat) (f : Hearth → Hearth) : (s.modHearth h f).fab = s.fab := rfl
@[simp] theorem modHearth_snap (s : State) (h : Nat) (f : Hearth → Hearth) : (s.modHearth h f).snap = s.snap := rfl
@[simp] theorem modHearth_latched (s : State) (h : Nat) (f : Hearth → Hearth) : (s.modHearth h f).latched = s.latched := rfl
@[simp] theorem modHearth_peerAsks (s : State) (h : Nat) (f : Hearth → Hearth) : (s.modHearth h f).peerAsks = s.peerAsks := rfl
@[simp] theorem modHearth_due (s : State) (h : Nat) (f : Hearth → Hearth) : (s.modHearth h f).due = s.due := rfl
@[simp] theorem modHearth_agenda (s : State) (h : Nat) (f : Hearth → Hearth) : (s.modHearth h f).agenda = s.agenda := rfl
@[simp] theorem modHearth_sched (s : State) (h : Nat) (f : Hearth → Hearth) : (s.modHearth h f).sched = s.sched := rfl
@[simp] theorem modHearth_free (s : State) (h : Nat) (f : Hearth → Hearth) : (s.modHearth h f).free = s.free := rfl
@[simp] theorem modHearth_uid (s : State) (h : Nat) (f : Hearth → Hearth) : (s.modHearth h f).uid = s.uid := rfl

/-! ### modCtx -/

@[simp] theorem modCtx_dcc (s : State) (h : Nat) (f : Ctx → Ctx) : (s.modCtx h f).dcc = s.dcc := rfl
@[simp] theorem modCtx_mem (s : State) (h : Nat) (f : Ctx → Ctx) : (s.modCtx h f).mem = s.mem := rfl
@[simp] theorem modCtx_poison (s : State) (h : Nat) (f : Ctx → Ctx) : (s.modCtx h f).poison = s.poison := rfl
@[simp] theorem modCtx_host (s : State) (h : Nat) (f : Ctx → Ctx) : (s.modCtx h f).host = s.host := rfl
@[simp] theorem modCtx_cur (s : State) (h : Nat) (f : Ctx → Ctx) : (s.modCtx h f).cur = s.cur := rfl
@[simp] theorem modCtx_eng (s : State) (h : Nat) (f : Ctx → Ctx) : (s.modCtx h f).eng = s.eng := rfl
@[simp] theorem modCtx_slices (s : State) (h : Nat) (f : Ctx → Ctx) : (s.modCtx h f).slices = s.slices := rfl
@[simp] theorem modCtx_ocm (s : State) (h : Nat) (f : Ctx → Ctx) : (s.modCtx h f).ocm = s.ocm := rfl
@[simp] theorem modCtx_seqMsgs (s : State) (h : Nat) (f : Ctx → Ctx) : (s.modCtx h f).seqMsgs = s.seqMsgs := rfl
@[simp] theorem modCtx_seqAcks (s : State) (h : Nat) (f : Ctx → Ctx) : (s.modCtx h f).seqAcks = s.seqAcks := rfl
@[simp] theorem modCtx_answers (s : State) (h : Nat) (f : Ctx → Ctx) : (s.modCtx h f).answers = s.answers := rfl
@[simp] theorem modCtx_replies (s : State) (h : Nat) (f : Ctx → Ctx) : (s.modCtx h f).replies = s.replies := rfl
@[simp] theorem modCtx_acks (s : State) (h : Nat) (f : Ctx → Ctx) : (s.modCtx h f).acks = s.acks := rfl
@[simp] theorem modCtx_hobReqs (s : State) (h : Nat) (f : Ctx → Ctx) : (s.modCtx h f).hobReqs = s.hobReqs := rfl
@[simp] theorem modCtx_parts (s : State) (h : Nat) (f : Ctx → Ctx) : (s.modCtx h f).parts = s.parts := rfl
@[simp] theorem modCtx_vfs (s : State) (h : Nat) (f : Ctx → Ctx) : (s.modCtx h f).vfs = s.vfs := rfl
@[simp] theorem modCtx_fb (s : State) (h : Nat) (f : Ctx → Ctx) : (s.modCtx h f).fb = s.fb := rfl
@[simp] theorem modCtx_ch (s : State) (h : Nat) (f : Ctx → Ctx) : (s.modCtx h f).ch = s.ch := rfl
@[simp] theorem modCtx_pw (s : State) (h : Nat) (f : Ctx → Ctx) : (s.modCtx h f).pw = s.pw := rfl
@[simp] theorem modCtx_fab (s : State) (h : Nat) (f : Ctx → Ctx) : (s.modCtx h f).fab = s.fab := rfl
@[simp] theorem modCtx_snap (s : State) (h : Nat) (f : Ctx → Ctx) : (s.modCtx h f).snap = s.snap := rfl
@[simp] theorem modCtx_latched (s : State) (h : Nat) (f : Ctx → Ctx) : (s.modCtx h f).latched = s.latched := rfl
@[simp] theorem modCtx_peerAsks (s : State) (h : Nat) (f : Ctx → Ctx) : (s.modCtx h f).peerAsks = s.peerAsks := rfl
@[simp] theorem modCtx_due (s : State) (h : Nat) (f : Ctx → Ctx) : (s.modCtx h f).due = s.due := rfl
@[simp] theorem modCtx_agenda (s : State) (h : Nat) (f : Ctx → Ctx) : (s.modCtx h f).agenda = s.agenda := rfl
@[simp] theorem modCtx_sched (s : State) (h : Nat) (f : Ctx → Ctx) : (s.modCtx h f).sched = s.sched := rfl
@[simp] theorem modCtx_free (s : State) (h : Nat) (f : Ctx → Ctx) : (s.modCtx h f).free = s.free := rfl
@[simp] theorem modCtx_uid (s : State) (h : Nat) (f : Ctx → Ctx) : (s.modCtx h f).uid = s.uid := rfl

/-! ### setMe -/

@[simp] theorem setMe_dcc (s : State) (x : Hearth) : (s.setMe x).dcc = s.dcc := rfl
@[simp] theorem setMe_mem (s : State) (x : Hearth) : (s.setMe x).mem = s.mem := rfl
@[simp] theorem setMe_poison (s : State) (x : Hearth) : (s.setMe x).poison = s.poison := rfl
@[simp] theorem setMe_host (s : State) (x : Hearth) : (s.setMe x).host = s.host := rfl
@[simp] theorem setMe_cur (s : State) (x : Hearth) : (s.setMe x).cur = s.cur := rfl
@[simp] theorem setMe_eng (s : State) (x : Hearth) : (s.setMe x).eng = s.eng := rfl
@[simp] theorem setMe_slices (s : State) (x : Hearth) : (s.setMe x).slices = s.slices := rfl
@[simp] theorem setMe_ocm (s : State) (x : Hearth) : (s.setMe x).ocm = s.ocm := rfl
@[simp] theorem setMe_seqMsgs (s : State) (x : Hearth) : (s.setMe x).seqMsgs = s.seqMsgs := rfl
@[simp] theorem setMe_seqAcks (s : State) (x : Hearth) : (s.setMe x).seqAcks = s.seqAcks := rfl
@[simp] theorem setMe_answers (s : State) (x : Hearth) : (s.setMe x).answers = s.answers := rfl
@[simp] theorem setMe_replies (s : State) (x : Hearth) : (s.setMe x).replies = s.replies := rfl
@[simp] theorem setMe_acks (s : State) (x : Hearth) : (s.setMe x).acks = s.acks := rfl
@[simp] theorem setMe_hobReqs (s : State) (x : Hearth) : (s.setMe x).hobReqs = s.hobReqs := rfl
@[simp] theorem setMe_parts (s : State) (x : Hearth) : (s.setMe x).parts = s.parts := rfl
@[simp] theorem setMe_vfs (s : State) (x : Hearth) : (s.setMe x).vfs = s.vfs := rfl
@[simp] theorem setMe_fb (s : State) (x : Hearth) : (s.setMe x).fb = s.fb := rfl
@[simp] theorem setMe_ch (s : State) (x : Hearth) : (s.setMe x).ch = s.ch := rfl
@[simp] theorem setMe_pw (s : State) (x : Hearth) : (s.setMe x).pw = s.pw := rfl
@[simp] theorem setMe_fab (s : State) (x : Hearth) : (s.setMe x).fab = s.fab := rfl
@[simp] theorem setMe_snap (s : State) (x : Hearth) : (s.setMe x).snap = s.snap := rfl
@[simp] theorem setMe_latched (s : State) (x : Hearth) : (s.setMe x).latched = s.latched := rfl
@[simp] theorem setMe_peerAsks (s : State) (x : Hearth) : (s.setMe x).peerAsks = s.peerAsks := rfl
@[simp] theorem setMe_due (s : State) (x : Hearth) : (s.setMe x).due = s.due := rfl
@[simp] theorem setMe_agenda (s : State) (x : Hearth) : (s.setMe x).agenda = s.agenda := rfl
@[simp] theorem setMe_sched (s : State) (x : Hearth) : (s.setMe x).sched = s.sched := rfl
@[simp] theorem setMe_free (s : State) (x : Hearth) : (s.setMe x).free = s.free := rfl
@[simp] theorem setMe_uid (s : State) (x : Hearth) : (s.setMe x).uid = s.uid := rfl

/-! ### setCtx -/

@[simp] theorem setCtx_dcc (s : State) (c : Ctx) : (s.setCtx c).dcc = s.dcc := rfl
@[simp] theorem setCtx_mem (s : State) (c : Ctx) : (s.setCtx c).mem = s.mem := rfl
@[simp] theorem setCtx_poison (s : State) (c : Ctx) : (s.setCtx c).poison = s.poison := rfl
@[simp] theorem setCtx_host (s : State) (c : Ctx) : (s.setCtx c).host = s.host := rfl
@[simp] theorem setCtx_cur (s : State) (c : Ctx) : (s.setCtx c).cur = s.cur := rfl
@[simp] theorem setCtx_eng (s : State) (c : Ctx) : (s.setCtx c).eng = s.eng := rfl
@[simp] theorem setCtx_slices (s : State) (c : Ctx) : (s.setCtx c).slices = s.slices := rfl
@[simp] theorem setCtx_ocm (s : State) (c : Ctx) : (s.setCtx c).ocm = s.ocm := rfl
@[simp] theorem setCtx_seqMsgs (s : State) (c : Ctx) : (s.setCtx c).seqMsgs = s.seqMsgs := rfl
@[simp] theorem setCtx_seqAcks (s : State) (c : Ctx) : (s.setCtx c).seqAcks = s.seqAcks := rfl
@[simp] theorem setCtx_answers (s : State) (c : Ctx) : (s.setCtx c).answers = s.answers := rfl
@[simp] theorem setCtx_replies (s : State) (c : Ctx) : (s.setCtx c).replies = s.replies := rfl
@[simp] theorem setCtx_acks (s : State) (c : Ctx) : (s.setCtx c).acks = s.acks := rfl
@[simp] theorem setCtx_hobReqs (s : State) (c : Ctx) : (s.setCtx c).hobReqs = s.hobReqs := rfl
@[simp] theorem setCtx_parts (s : State) (c : Ctx) : (s.setCtx c).parts = s.parts := rfl
@[simp] theorem setCtx_vfs (s : State) (c : Ctx) : (s.setCtx c).vfs = s.vfs := rfl
@[simp] theorem setCtx_fb (s : State) (c : Ctx) : (s.setCtx c).fb = s.fb := rfl
@[simp] theorem setCtx_ch (s : State) (c : Ctx) : (s.setCtx c).ch = s.ch := rfl
@[simp] theorem setCtx_pw (s : State) (c : Ctx) : (s.setCtx c).pw = s.pw := rfl
@[simp] theorem setCtx_fab (s : State) (c : Ctx) : (s.setCtx c).fab = s.fab := rfl
@[simp] theorem setCtx_snap (s : State) (c : Ctx) : (s.setCtx c).snap = s.snap := rfl
@[simp] theorem setCtx_latched (s : State) (c : Ctx) : (s.setCtx c).latched = s.latched := rfl
@[simp] theorem setCtx_peerAsks (s : State) (c : Ctx) : (s.setCtx c).peerAsks = s.peerAsks := rfl
@[simp] theorem setCtx_due (s : State) (c : Ctx) : (s.setCtx c).due = s.due := rfl
@[simp] theorem setCtx_agenda (s : State) (c : Ctx) : (s.setCtx c).agenda = s.agenda := rfl
@[simp] theorem setCtx_sched (s : State) (c : Ctx) : (s.setCtx c).sched = s.sched := rfl
@[simp] theorem setCtx_free (s : State) (c : Ctx) : (s.setCtx c).free = s.free := rfl
@[simp] theorem setCtx_uid (s : State) (c : Ctx) : (s.setCtx c).uid = s.uid := rfl

/-! ### setEs -/

@[simp] theorem setEs_dcc (s : State) (x : EngState) : (s.setEs x).dcc = s.dcc := rfl
@[simp] theorem setEs_mem (s : State) (x : EngState) : (s.setEs x).mem = s.mem := rfl
@[simp] theorem setEs_poison (s : State) (x : EngState) : (s.setEs x).poison = s.poison := rfl
@[simp] theorem setEs_host (s : State) (x : EngState) : (s.setEs x).host = s.host := rfl
@[simp] theorem setEs_cur (s : State) (x : EngState) : (s.setEs x).cur = s.cur := rfl
@[simp] theorem setEs_eng (s : State) (x : EngState) : (s.setEs x).eng = s.eng := rfl
@[simp] theorem setEs_slices (s : State) (x : EngState) : (s.setEs x).slices = s.slices := rfl
@[simp] theorem setEs_ocm (s : State) (x : EngState) : (s.setEs x).ocm = s.ocm := rfl
@[simp] theorem setEs_seqMsgs (s : State) (x : EngState) : (s.setEs x).seqMsgs = s.seqMsgs := rfl
@[simp] theorem setEs_seqAcks (s : State) (x : EngState) : (s.setEs x).seqAcks = s.seqAcks := rfl
@[simp] theorem setEs_answers (s : State) (x : EngState) : (s.setEs x).answers = s.answers := rfl
@[simp] theorem setEs_replies (s : State) (x : EngState) : (s.setEs x).replies = s.replies := rfl
@[simp] theorem setEs_acks (s : State) (x : EngState) : (s.setEs x).acks = s.acks := rfl
@[simp] theorem setEs_hobReqs (s : State) (x : EngState) : (s.setEs x).hobReqs = s.hobReqs := rfl
@[simp] theorem setEs_parts (s : State) (x : EngState) : (s.setEs x).parts = s.parts := rfl
@[simp] theorem setEs_vfs (s : State) (x : EngState) : (s.setEs x).vfs = s.vfs := rfl
@[simp] theorem setEs_fb (s : State) (x : EngState) : (s.setEs x).fb = s.fb := rfl
@[simp] theorem setEs_ch (s : State) (x : EngState) : (s.setEs x).ch = s.ch := rfl
@[simp] theorem setEs_pw (s : State) (x : EngState) : (s.setEs x).pw = s.pw := rfl
@[simp] theorem setEs_fab (s : State) (x : EngState) : (s.setEs x).fab = s.fab := rfl
@[simp] theorem setEs_snap (s : State) (x : EngState) : (s.setEs x).snap = s.snap := rfl
@[simp] theorem setEs_latched (s : State) (x : EngState) : (s.setEs x).latched = s.latched := rfl
@[simp] theorem setEs_peerAsks (s : State) (x : EngState) : (s.setEs x).peerAsks = s.peerAsks := rfl
@[simp] theorem setEs_due (s : State) (x : EngState) : (s.setEs x).due = s.due := rfl
@[simp] theorem setEs_agenda (s : State) (x : EngState) : (s.setEs x).agenda = s.agenda := rfl
@[simp] theorem setEs_sched (s : State) (x : EngState) : (s.setEs x).sched = s.sched := rfl
@[simp] theorem setEs_free (s : State) (x : EngState) : (s.setEs x).free = s.free := rfl
@[simp] theorem setEs_uid (s : State) (x : EngState) : (s.setEs x).uid = s.uid := rfl

/-! ### setReg -/

@[simp] theorem setReg_dcc (s : State) (r : Reg) (v : Word) : (s.setReg r v).dcc = s.dcc := rfl
@[simp] theorem setReg_mem (s : State) (r : Reg) (v : Word) : (s.setReg r v).mem = s.mem := rfl
@[simp] theorem setReg_poison (s : State) (r : Reg) (v : Word) : (s.setReg r v).poison = s.poison := rfl
@[simp] theorem setReg_host (s : State) (r : Reg) (v : Word) : (s.setReg r v).host = s.host := rfl
@[simp] theorem setReg_cur (s : State) (r : Reg) (v : Word) : (s.setReg r v).cur = s.cur := rfl
@[simp] theorem setReg_eng (s : State) (r : Reg) (v : Word) : (s.setReg r v).eng = s.eng := rfl
@[simp] theorem setReg_slices (s : State) (r : Reg) (v : Word) : (s.setReg r v).slices = s.slices := rfl
@[simp] theorem setReg_ocm (s : State) (r : Reg) (v : Word) : (s.setReg r v).ocm = s.ocm := rfl
@[simp] theorem setReg_seqMsgs (s : State) (r : Reg) (v : Word) : (s.setReg r v).seqMsgs = s.seqMsgs := rfl
@[simp] theorem setReg_seqAcks (s : State) (r : Reg) (v : Word) : (s.setReg r v).seqAcks = s.seqAcks := rfl
@[simp] theorem setReg_answers (s : State) (r : Reg) (v : Word) : (s.setReg r v).answers = s.answers := rfl
@[simp] theorem setReg_replies (s : State) (r : Reg) (v : Word) : (s.setReg r v).replies = s.replies := rfl
@[simp] theorem setReg_acks (s : State) (r : Reg) (v : Word) : (s.setReg r v).acks = s.acks := rfl
@[simp] theorem setReg_hobReqs (s : State) (r : Reg) (v : Word) : (s.setReg r v).hobReqs = s.hobReqs := rfl
@[simp] theorem setReg_parts (s : State) (r : Reg) (v : Word) : (s.setReg r v).parts = s.parts := rfl
@[simp] theorem setReg_vfs (s : State) (r : Reg) (v : Word) : (s.setReg r v).vfs = s.vfs := rfl
@[simp] theorem setReg_fb (s : State) (r : Reg) (v : Word) : (s.setReg r v).fb = s.fb := rfl
@[simp] theorem setReg_ch (s : State) (r : Reg) (v : Word) : (s.setReg r v).ch = s.ch := rfl
@[simp] theorem setReg_pw (s : State) (r : Reg) (v : Word) : (s.setReg r v).pw = s.pw := rfl
@[simp] theorem setReg_fab (s : State) (r : Reg) (v : Word) : (s.setReg r v).fab = s.fab := rfl
@[simp] theorem setReg_snap (s : State) (r : Reg) (v : Word) : (s.setReg r v).snap = s.snap := rfl
@[simp] theorem setReg_latched (s : State) (r : Reg) (v : Word) : (s.setReg r v).latched = s.latched := rfl
@[simp] theorem setReg_peerAsks (s : State) (r : Reg) (v : Word) : (s.setReg r v).peerAsks = s.peerAsks := rfl
@[simp] theorem setReg_due (s : State) (r : Reg) (v : Word) : (s.setReg r v).due = s.due := rfl
@[simp] theorem setReg_agenda (s : State) (r : Reg) (v : Word) : (s.setReg r v).agenda = s.agenda := rfl
@[simp] theorem setReg_sched (s : State) (r : Reg) (v : Word) : (s.setReg r v).sched = s.sched := rfl
@[simp] theorem setReg_free (s : State) (r : Reg) (v : Word) : (s.setReg r v).free = s.free := rfl
@[simp] theorem setReg_uid (s : State) (r : Reg) (v : Word) : (s.setReg r v).uid = s.uid := rfl

/-! ### setBreg -/

@[simp] theorem setBreg_dcc (s : State) (r : Reg) (v : Word) : (s.setBreg r v).dcc = s.dcc := rfl
@[simp] theorem setBreg_mem (s : State) (r : Reg) (v : Word) : (s.setBreg r v).mem = s.mem := rfl
@[simp] theorem setBreg_poison (s : State) (r : Reg) (v : Word) : (s.setBreg r v).poison = s.poison := rfl
@[simp] theorem setBreg_host (s : State) (r : Reg) (v : Word) : (s.setBreg r v).host = s.host := rfl
@[simp] theorem setBreg_cur (s : State) (r : Reg) (v : Word) : (s.setBreg r v).cur = s.cur := rfl
@[simp] theorem setBreg_eng (s : State) (r : Reg) (v : Word) : (s.setBreg r v).eng = s.eng := rfl
@[simp] theorem setBreg_slices (s : State) (r : Reg) (v : Word) : (s.setBreg r v).slices = s.slices := rfl
@[simp] theorem setBreg_ocm (s : State) (r : Reg) (v : Word) : (s.setBreg r v).ocm = s.ocm := rfl
@[simp] theorem setBreg_seqMsgs (s : State) (r : Reg) (v : Word) : (s.setBreg r v).seqMsgs = s.seqMsgs := rfl
@[simp] theorem setBreg_seqAcks (s : State) (r : Reg) (v : Word) : (s.setBreg r v).seqAcks = s.seqAcks := rfl
@[simp] theorem setBreg_answers (s : State) (r : Reg) (v : Word) : (s.setBreg r v).answers = s.answers := rfl
@[simp] theorem setBreg_replies (s : State) (r : Reg) (v : Word) : (s.setBreg r v).replies = s.replies := rfl
@[simp] theorem setBreg_acks (s : State) (r : Reg) (v : Word) : (s.setBreg r v).acks = s.acks := rfl
@[simp] theorem setBreg_hobReqs (s : State) (r : Reg) (v : Word) : (s.setBreg r v).hobReqs = s.hobReqs := rfl
@[simp] theorem setBreg_parts (s : State) (r : Reg) (v : Word) : (s.setBreg r v).parts = s.parts := rfl
@[simp] theorem setBreg_vfs (s : State) (r : Reg) (v : Word) : (s.setBreg r v).vfs = s.vfs := rfl
@[simp] theorem setBreg_fb (s : State) (r : Reg) (v : Word) : (s.setBreg r v).fb = s.fb := rfl
@[simp] theorem setBreg_ch (s : State) (r : Reg) (v : Word) : (s.setBreg r v).ch = s.ch := rfl
@[simp] theorem setBreg_pw (s : State) (r : Reg) (v : Word) : (s.setBreg r v).pw = s.pw := rfl
@[simp] theorem setBreg_fab (s : State) (r : Reg) (v : Word) : (s.setBreg r v).fab = s.fab := rfl
@[simp] theorem setBreg_snap (s : State) (r : Reg) (v : Word) : (s.setBreg r v).snap = s.snap := rfl
@[simp] theorem setBreg_latched (s : State) (r : Reg) (v : Word) : (s.setBreg r v).latched = s.latched := rfl
@[simp] theorem setBreg_peerAsks (s : State) (r : Reg) (v : Word) : (s.setBreg r v).peerAsks = s.peerAsks := rfl
@[simp] theorem setBreg_due (s : State) (r : Reg) (v : Word) : (s.setBreg r v).due = s.due := rfl
@[simp] theorem setBreg_agenda (s : State) (r : Reg) (v : Word) : (s.setBreg r v).agenda = s.agenda := rfl
@[simp] theorem setBreg_sched (s : State) (r : Reg) (v : Word) : (s.setBreg r v).sched = s.sched := rfl
@[simp] theorem setBreg_free (s : State) (r : Reg) (v : Word) : (s.setBreg r v).free = s.free := rfl
@[simp] theorem setBreg_uid (s : State) (r : Reg) (v : Word) : (s.setBreg r v).uid = s.uid := rfl

/-! ### setPc -/

@[simp] theorem setPc_dcc (s : State) (v : Word) : (s.setPc v).dcc = s.dcc := rfl
@[simp] theorem setPc_mem (s : State) (v : Word) : (s.setPc v).mem = s.mem := rfl
@[simp] theorem setPc_poison (s : State) (v : Word) : (s.setPc v).poison = s.poison := rfl
@[simp] theorem setPc_host (s : State) (v : Word) : (s.setPc v).host = s.host := rfl
@[simp] theorem setPc_cur (s : State) (v : Word) : (s.setPc v).cur = s.cur := rfl
@[simp] theorem setPc_eng (s : State) (v : Word) : (s.setPc v).eng = s.eng := rfl
@[simp] theorem setPc_slices (s : State) (v : Word) : (s.setPc v).slices = s.slices := rfl
@[simp] theorem setPc_ocm (s : State) (v : Word) : (s.setPc v).ocm = s.ocm := rfl
@[simp] theorem setPc_seqMsgs (s : State) (v : Word) : (s.setPc v).seqMsgs = s.seqMsgs := rfl
@[simp] theorem setPc_seqAcks (s : State) (v : Word) : (s.setPc v).seqAcks = s.seqAcks := rfl
@[simp] theorem setPc_answers (s : State) (v : Word) : (s.setPc v).answers = s.answers := rfl
@[simp] theorem setPc_replies (s : State) (v : Word) : (s.setPc v).replies = s.replies := rfl
@[simp] theorem setPc_acks (s : State) (v : Word) : (s.setPc v).acks = s.acks := rfl
@[simp] theorem setPc_hobReqs (s : State) (v : Word) : (s.setPc v).hobReqs = s.hobReqs := rfl
@[simp] theorem setPc_parts (s : State) (v : Word) : (s.setPc v).parts = s.parts := rfl
@[simp] theorem setPc_vfs (s : State) (v : Word) : (s.setPc v).vfs = s.vfs := rfl
@[simp] theorem setPc_fb (s : State) (v : Word) : (s.setPc v).fb = s.fb := rfl
@[simp] theorem setPc_ch (s : State) (v : Word) : (s.setPc v).ch = s.ch := rfl
@[simp] theorem setPc_pw (s : State) (v : Word) : (s.setPc v).pw = s.pw := rfl
@[simp] theorem setPc_fab (s : State) (v : Word) : (s.setPc v).fab = s.fab := rfl
@[simp] theorem setPc_snap (s : State) (v : Word) : (s.setPc v).snap = s.snap := rfl
@[simp] theorem setPc_latched (s : State) (v : Word) : (s.setPc v).latched = s.latched := rfl
@[simp] theorem setPc_peerAsks (s : State) (v : Word) : (s.setPc v).peerAsks = s.peerAsks := rfl
@[simp] theorem setPc_due (s : State) (v : Word) : (s.setPc v).due = s.due := rfl
@[simp] theorem setPc_agenda (s : State) (v : Word) : (s.setPc v).agenda = s.agenda := rfl
@[simp] theorem setPc_sched (s : State) (v : Word) : (s.setPc v).sched = s.sched := rfl
@[simp] theorem setPc_free (s : State) (v : Word) : (s.setPc v).free = s.free := rfl
@[simp] theorem setPc_uid (s : State) (v : Word) : (s.setPc v).uid = s.uid := rfl

/-! ### setPart -/

@[simp] theorem setPart_dcc (s : State) (p : Nat) (x : Part) : (s.setPart p x).dcc = s.dcc := rfl
@[simp] theorem setPart_mem (s : State) (p : Nat) (x : Part) : (s.setPart p x).mem = s.mem := rfl
@[simp] theorem setPart_poison (s : State) (p : Nat) (x : Part) : (s.setPart p x).poison = s.poison := rfl
@[simp] theorem setPart_host (s : State) (p : Nat) (x : Part) : (s.setPart p x).host = s.host := rfl
@[simp] theorem setPart_hearths (s : State) (p : Nat) (x : Part) : (s.setPart p x).hearths = s.hearths := rfl
@[simp] theorem setPart_cur (s : State) (p : Nat) (x : Part) : (s.setPart p x).cur = s.cur := rfl
@[simp] theorem setPart_eng (s : State) (p : Nat) (x : Part) : (s.setPart p x).eng = s.eng := rfl
@[simp] theorem setPart_slices (s : State) (p : Nat) (x : Part) : (s.setPart p x).slices = s.slices := rfl
@[simp] theorem setPart_ocm (s : State) (p : Nat) (x : Part) : (s.setPart p x).ocm = s.ocm := rfl
@[simp] theorem setPart_seqMsgs (s : State) (p : Nat) (x : Part) : (s.setPart p x).seqMsgs = s.seqMsgs := rfl
@[simp] theorem setPart_seqAcks (s : State) (p : Nat) (x : Part) : (s.setPart p x).seqAcks = s.seqAcks := rfl
@[simp] theorem setPart_answers (s : State) (p : Nat) (x : Part) : (s.setPart p x).answers = s.answers := rfl
@[simp] theorem setPart_replies (s : State) (p : Nat) (x : Part) : (s.setPart p x).replies = s.replies := rfl
@[simp] theorem setPart_acks (s : State) (p : Nat) (x : Part) : (s.setPart p x).acks = s.acks := rfl
@[simp] theorem setPart_hobReqs (s : State) (p : Nat) (x : Part) : (s.setPart p x).hobReqs = s.hobReqs := rfl
@[simp] theorem setPart_vfs (s : State) (p : Nat) (x : Part) : (s.setPart p x).vfs = s.vfs := rfl
@[simp] theorem setPart_fb (s : State) (p : Nat) (x : Part) : (s.setPart p x).fb = s.fb := rfl
@[simp] theorem setPart_ch (s : State) (p : Nat) (x : Part) : (s.setPart p x).ch = s.ch := rfl
@[simp] theorem setPart_pw (s : State) (p : Nat) (x : Part) : (s.setPart p x).pw = s.pw := rfl
@[simp] theorem setPart_fab (s : State) (p : Nat) (x : Part) : (s.setPart p x).fab = s.fab := rfl
@[simp] theorem setPart_snap (s : State) (p : Nat) (x : Part) : (s.setPart p x).snap = s.snap := rfl
@[simp] theorem setPart_latched (s : State) (p : Nat) (x : Part) : (s.setPart p x).latched = s.latched := rfl
@[simp] theorem setPart_peerAsks (s : State) (p : Nat) (x : Part) : (s.setPart p x).peerAsks = s.peerAsks := rfl
@[simp] theorem setPart_due (s : State) (p : Nat) (x : Part) : (s.setPart p x).due = s.due := rfl
@[simp] theorem setPart_agenda (s : State) (p : Nat) (x : Part) : (s.setPart p x).agenda = s.agenda := rfl
@[simp] theorem setPart_sched (s : State) (p : Nat) (x : Part) : (s.setPart p x).sched = s.sched := rfl
@[simp] theorem setPart_free (s : State) (p : Nat) (x : Part) : (s.setPart p x).free = s.free := rfl
@[simp] theorem setPart_uid (s : State) (p : Nat) (x : Part) : (s.setPart p x).uid = s.uid := rfl

/-! ### modPart -/

@[simp] theorem modPart_dcc (s : State) (p : Nat) (f : Part → Part) : (s.modPart p f).dcc = s.dcc := rfl
@[simp] theorem modPart_mem (s : State) (p : Nat) (f : Part → Part) : (s.modPart p f).mem = s.mem := rfl
@[simp] theorem modPart_poison (s : State) (p : Nat) (f : Part → Part) : (s.modPart p f).poison = s.poison := rfl
@[simp] theorem modPart_host (s : State) (p : Nat) (f : Part → Part) : (s.modPart p f).host = s.host := rfl
@[simp] theorem modPart_hearths (s : State) (p : Nat) (f : Part → Part) : (s.modPart p f).hearths = s.hearths := rfl
@[simp] theorem modPart_cur (s : State) (p : Nat) (f : Part → Part) : (s.modPart p f).cur = s.cur := rfl
@[simp] theorem modPart_eng (s : State) (p : Nat) (f : Part → Part) : (s.modPart p f).eng = s.eng := rfl
@[simp] theorem modPart_slices (s : State) (p : Nat) (f : Part → Part) : (s.modPart p f).slices = s.slices := rfl
@[simp] theorem modPart_ocm (s : State) (p : Nat) (f : Part → Part) : (s.modPart p f).ocm = s.ocm := rfl
@[simp] theorem modPart_seqMsgs (s : State) (p : Nat) (f : Part → Part) : (s.modPart p f).seqMsgs = s.seqMsgs := rfl
@[simp] theorem modPart_seqAcks (s : State) (p : Nat) (f : Part → Part) : (s.modPart p f).seqAcks = s.seqAcks := rfl
@[simp] theorem modPart_answers (s : State) (p : Nat) (f : Part → Part) : (s.modPart p f).answers = s.answers := rfl
@[simp] theorem modPart_replies (s : State) (p : Nat) (f : Part → Part) : (s.modPart p f).replies = s.replies := rfl
@[simp] theorem modPart_acks (s : State) (p : Nat) (f : Part → Part) : (s.modPart p f).acks = s.acks := rfl
@[simp] theorem modPart_hobReqs (s : State) (p : Nat) (f : Part → Part) : (s.modPart p f).hobReqs = s.hobReqs := rfl
@[simp] theorem modPart_vfs (s : State) (p : Nat) (f : Part → Part) : (s.modPart p f).vfs = s.vfs := rfl
@[simp] theorem modPart_fb (s : State) (p : Nat) (f : Part → Part) : (s.modPart p f).fb = s.fb := rfl
@[simp] theorem modPart_ch (s : State) (p : Nat) (f : Part → Part) : (s.modPart p f).ch = s.ch := rfl
@[simp] theorem modPart_pw (s : State) (p : Nat) (f : Part → Part) : (s.modPart p f).pw = s.pw := rfl
@[simp] theorem modPart_fab (s : State) (p : Nat) (f : Part → Part) : (s.modPart p f).fab = s.fab := rfl
@[simp] theorem modPart_snap (s : State) (p : Nat) (f : Part → Part) : (s.modPart p f).snap = s.snap := rfl
@[simp] theorem modPart_latched (s : State) (p : Nat) (f : Part → Part) : (s.modPart p f).latched = s.latched := rfl
@[simp] theorem modPart_peerAsks (s : State) (p : Nat) (f : Part → Part) : (s.modPart p f).peerAsks = s.peerAsks := rfl
@[simp] theorem modPart_due (s : State) (p : Nat) (f : Part → Part) : (s.modPart p f).due = s.due := rfl
@[simp] theorem modPart_agenda (s : State) (p : Nat) (f : Part → Part) : (s.modPart p f).agenda = s.agenda := rfl
@[simp] theorem modPart_sched (s : State) (p : Nat) (f : Part → Part) : (s.modPart p f).sched = s.sched := rfl
@[simp] theorem modPart_free (s : State) (p : Nat) (f : Part → Part) : (s.modPart p f).free = s.free := rfl
@[simp] theorem modPart_uid (s : State) (p : Nat) (f : Part → Part) : (s.modPart p f).uid = s.uid := rfl

/-! ### setVf -/

@[simp] theorem setVf_dcc (s : State) (v : Nat) (x : Vf) : (s.setVf v x).dcc = s.dcc := rfl
@[simp] theorem setVf_mem (s : State) (v : Nat) (x : Vf) : (s.setVf v x).mem = s.mem := rfl
@[simp] theorem setVf_poison (s : State) (v : Nat) (x : Vf) : (s.setVf v x).poison = s.poison := rfl
@[simp] theorem setVf_host (s : State) (v : Nat) (x : Vf) : (s.setVf v x).host = s.host := rfl
@[simp] theorem setVf_hearths (s : State) (v : Nat) (x : Vf) : (s.setVf v x).hearths = s.hearths := rfl
@[simp] theorem setVf_cur (s : State) (v : Nat) (x : Vf) : (s.setVf v x).cur = s.cur := rfl
@[simp] theorem setVf_eng (s : State) (v : Nat) (x : Vf) : (s.setVf v x).eng = s.eng := rfl
@[simp] theorem setVf_slices (s : State) (v : Nat) (x : Vf) : (s.setVf v x).slices = s.slices := rfl
@[simp] theorem setVf_ocm (s : State) (v : Nat) (x : Vf) : (s.setVf v x).ocm = s.ocm := rfl
@[simp] theorem setVf_seqMsgs (s : State) (v : Nat) (x : Vf) : (s.setVf v x).seqMsgs = s.seqMsgs := rfl
@[simp] theorem setVf_seqAcks (s : State) (v : Nat) (x : Vf) : (s.setVf v x).seqAcks = s.seqAcks := rfl
@[simp] theorem setVf_answers (s : State) (v : Nat) (x : Vf) : (s.setVf v x).answers = s.answers := rfl
@[simp] theorem setVf_replies (s : State) (v : Nat) (x : Vf) : (s.setVf v x).replies = s.replies := rfl
@[simp] theorem setVf_acks (s : State) (v : Nat) (x : Vf) : (s.setVf v x).acks = s.acks := rfl
@[simp] theorem setVf_hobReqs (s : State) (v : Nat) (x : Vf) : (s.setVf v x).hobReqs = s.hobReqs := rfl
@[simp] theorem setVf_parts (s : State) (v : Nat) (x : Vf) : (s.setVf v x).parts = s.parts := rfl
@[simp] theorem setVf_fb (s : State) (v : Nat) (x : Vf) : (s.setVf v x).fb = s.fb := rfl
@[simp] theorem setVf_ch (s : State) (v : Nat) (x : Vf) : (s.setVf v x).ch = s.ch := rfl
@[simp] theorem setVf_pw (s : State) (v : Nat) (x : Vf) : (s.setVf v x).pw = s.pw := rfl
@[simp] theorem setVf_fab (s : State) (v : Nat) (x : Vf) : (s.setVf v x).fab = s.fab := rfl
@[simp] theorem setVf_snap (s : State) (v : Nat) (x : Vf) : (s.setVf v x).snap = s.snap := rfl
@[simp] theorem setVf_latched (s : State) (v : Nat) (x : Vf) : (s.setVf v x).latched = s.latched := rfl
@[simp] theorem setVf_peerAsks (s : State) (v : Nat) (x : Vf) : (s.setVf v x).peerAsks = s.peerAsks := rfl
@[simp] theorem setVf_due (s : State) (v : Nat) (x : Vf) : (s.setVf v x).due = s.due := rfl
@[simp] theorem setVf_agenda (s : State) (v : Nat) (x : Vf) : (s.setVf v x).agenda = s.agenda := rfl
@[simp] theorem setVf_sched (s : State) (v : Nat) (x : Vf) : (s.setVf v x).sched = s.sched := rfl
@[simp] theorem setVf_free (s : State) (v : Nat) (x : Vf) : (s.setVf v x).free = s.free := rfl
@[simp] theorem setVf_uid (s : State) (v : Nat) (x : Vf) : (s.setVf v x).uid = s.uid := rfl

/-! ### modVf -/

@[simp] theorem modVf_dcc (s : State) (v : Nat) (f : Vf → Vf) : (s.modVf v f).dcc = s.dcc := rfl
@[simp] theorem modVf_mem (s : State) (v : Nat) (f : Vf → Vf) : (s.modVf v f).mem = s.mem := rfl
@[simp] theorem modVf_poison (s : State) (v : Nat) (f : Vf → Vf) : (s.modVf v f).poison = s.poison := rfl
@[simp] theorem modVf_host (s : State) (v : Nat) (f : Vf → Vf) : (s.modVf v f).host = s.host := rfl
@[simp] theorem modVf_hearths (s : State) (v : Nat) (f : Vf → Vf) : (s.modVf v f).hearths = s.hearths := rfl
@[simp] theorem modVf_cur (s : State) (v : Nat) (f : Vf → Vf) : (s.modVf v f).cur = s.cur := rfl
@[simp] theorem modVf_eng (s : State) (v : Nat) (f : Vf → Vf) : (s.modVf v f).eng = s.eng := rfl
@[simp] theorem modVf_slices (s : State) (v : Nat) (f : Vf → Vf) : (s.modVf v f).slices = s.slices := rfl
@[simp] theorem modVf_ocm (s : State) (v : Nat) (f : Vf → Vf) : (s.modVf v f).ocm = s.ocm := rfl
@[simp] theorem modVf_seqMsgs (s : State) (v : Nat) (f : Vf → Vf) : (s.modVf v f).seqMsgs = s.seqMsgs := rfl
@[simp] theorem modVf_seqAcks (s : State) (v : Nat) (f : Vf → Vf) : (s.modVf v f).seqAcks = s.seqAcks := rfl
@[simp] theorem modVf_answers (s : State) (v : Nat) (f : Vf → Vf) : (s.modVf v f).answers = s.answers := rfl
@[simp] theorem modVf_replies (s : State) (v : Nat) (f : Vf → Vf) : (s.modVf v f).replies = s.replies := rfl
@[simp] theorem modVf_acks (s : State) (v : Nat) (f : Vf → Vf) : (s.modVf v f).acks = s.acks := rfl
@[simp] theorem modVf_hobReqs (s : State) (v : Nat) (f : Vf → Vf) : (s.modVf v f).hobReqs = s.hobReqs := rfl
@[simp] theorem modVf_parts (s : State) (v : Nat) (f : Vf → Vf) : (s.modVf v f).parts = s.parts := rfl
@[simp] theorem modVf_fb (s : State) (v : Nat) (f : Vf → Vf) : (s.modVf v f).fb = s.fb := rfl
@[simp] theorem modVf_ch (s : State) (v : Nat) (f : Vf → Vf) : (s.modVf v f).ch = s.ch := rfl
@[simp] theorem modVf_pw (s : State) (v : Nat) (f : Vf → Vf) : (s.modVf v f).pw = s.pw := rfl
@[simp] theorem modVf_fab (s : State) (v : Nat) (f : Vf → Vf) : (s.modVf v f).fab = s.fab := rfl
@[simp] theorem modVf_snap (s : State) (v : Nat) (f : Vf → Vf) : (s.modVf v f).snap = s.snap := rfl
@[simp] theorem modVf_latched (s : State) (v : Nat) (f : Vf → Vf) : (s.modVf v f).latched = s.latched := rfl
@[simp] theorem modVf_peerAsks (s : State) (v : Nat) (f : Vf → Vf) : (s.modVf v f).peerAsks = s.peerAsks := rfl
@[simp] theorem modVf_due (s : State) (v : Nat) (f : Vf → Vf) : (s.modVf v f).due = s.due := rfl
@[simp] theorem modVf_agenda (s : State) (v : Nat) (f : Vf → Vf) : (s.modVf v f).agenda = s.agenda := rfl
@[simp] theorem modVf_sched (s : State) (v : Nat) (f : Vf → Vf) : (s.modVf v f).sched = s.sched := rfl
@[simp] theorem modVf_free (s : State) (v : Nat) (f : Vf → Vf) : (s.modVf v f).free = s.free := rfl
@[simp] theorem modVf_uid (s : State) (v : Nat) (f : Vf → Vf) : (s.modVf v f).uid = s.uid := rfl

/-! ### setSlice -/

@[simp] theorem setSlice_dcc (s : State) (i : Nat) (x : Slice) : (s.setSlice i x).dcc = s.dcc := rfl
@[simp] theorem setSlice_mem (s : State) (i : Nat) (x : Slice) : (s.setSlice i x).mem = s.mem := rfl
@[simp] theorem setSlice_poison (s : State) (i : Nat) (x : Slice) : (s.setSlice i x).poison = s.poison := rfl
@[simp] theorem setSlice_host (s : State) (i : Nat) (x : Slice) : (s.setSlice i x).host = s.host := rfl
@[simp] theorem setSlice_hearths (s : State) (i : Nat) (x : Slice) : (s.setSlice i x).hearths = s.hearths := rfl
@[simp] theorem setSlice_cur (s : State) (i : Nat) (x : Slice) : (s.setSlice i x).cur = s.cur := rfl
@[simp] theorem setSlice_eng (s : State) (i : Nat) (x : Slice) : (s.setSlice i x).eng = s.eng := rfl
@[simp] theorem setSlice_ocm (s : State) (i : Nat) (x : Slice) : (s.setSlice i x).ocm = s.ocm := rfl
@[simp] theorem setSlice_seqMsgs (s : State) (i : Nat) (x : Slice) : (s.setSlice i x).seqMsgs = s.seqMsgs := rfl
@[simp] theorem setSlice_seqAcks (s : State) (i : Nat) (x : Slice) : (s.setSlice i x).seqAcks = s.seqAcks := rfl
@[simp] theorem setSlice_answers (s : State) (i : Nat) (x : Slice) : (s.setSlice i x).answers = s.answers := rfl
@[simp] theorem setSlice_replies (s : State) (i : Nat) (x : Slice) : (s.setSlice i x).replies = s.replies := rfl
@[simp] theorem setSlice_acks (s : State) (i : Nat) (x : Slice) : (s.setSlice i x).acks = s.acks := rfl
@[simp] theorem setSlice_hobReqs (s : State) (i : Nat) (x : Slice) : (s.setSlice i x).hobReqs = s.hobReqs := rfl
@[simp] theorem setSlice_parts (s : State) (i : Nat) (x : Slice) : (s.setSlice i x).parts = s.parts := rfl
@[simp] theorem setSlice_vfs (s : State) (i : Nat) (x : Slice) : (s.setSlice i x).vfs = s.vfs := rfl
@[simp] theorem setSlice_fb (s : State) (i : Nat) (x : Slice) : (s.setSlice i x).fb = s.fb := rfl
@[simp] theorem setSlice_ch (s : State) (i : Nat) (x : Slice) : (s.setSlice i x).ch = s.ch := rfl
@[simp] theorem setSlice_pw (s : State) (i : Nat) (x : Slice) : (s.setSlice i x).pw = s.pw := rfl
@[simp] theorem setSlice_fab (s : State) (i : Nat) (x : Slice) : (s.setSlice i x).fab = s.fab := rfl
@[simp] theorem setSlice_snap (s : State) (i : Nat) (x : Slice) : (s.setSlice i x).snap = s.snap := rfl
@[simp] theorem setSlice_latched (s : State) (i : Nat) (x : Slice) : (s.setSlice i x).latched = s.latched := rfl
@[simp] theorem setSlice_peerAsks (s : State) (i : Nat) (x : Slice) : (s.setSlice i x).peerAsks = s.peerAsks := rfl
@[simp] theorem setSlice_due (s : State) (i : Nat) (x : Slice) : (s.setSlice i x).due = s.due := rfl
@[simp] theorem setSlice_agenda (s : State) (i : Nat) (x : Slice) : (s.setSlice i x).agenda = s.agenda := rfl
@[simp] theorem setSlice_sched (s : State) (i : Nat) (x : Slice) : (s.setSlice i x).sched = s.sched := rfl
@[simp] theorem setSlice_free (s : State) (i : Nat) (x : Slice) : (s.setSlice i x).free = s.free := rfl
@[simp] theorem setSlice_uid (s : State) (i : Nat) (x : Slice) : (s.setSlice i x).uid = s.uid := rfl

/-! ### modSlice -/

@[simp] theorem modSlice_dcc (s : State) (i : Nat) (f : Slice → Slice) : (s.modSlice i f).dcc = s.dcc := rfl
@[simp] theorem modSlice_mem (s : State) (i : Nat) (f : Slice → Slice) : (s.modSlice i f).mem = s.mem := rfl
@[simp] theorem modSlice_poison (s : State) (i : Nat) (f : Slice → Slice) : (s.modSlice i f).poison = s.poison := rfl
@[simp] theorem modSlice_host (s : State) (i : Nat) (f : Slice → Slice) : (s.modSlice i f).host = s.host := rfl
@[simp] theorem modSlice_hearths (s : State) (i : Nat) (f : Slice → Slice) : (s.modSlice i f).hearths = s.hearths := rfl
@[simp] theorem modSlice_cur (s : State) (i : Nat) (f : Slice → Slice) : (s.modSlice i f).cur = s.cur := rfl
@[simp] theorem modSlice_eng (s : State) (i : Nat) (f : Slice → Slice) : (s.modSlice i f).eng = s.eng := rfl
@[simp] theorem modSlice_ocm (s : State) (i : Nat) (f : Slice → Slice) : (s.modSlice i f).ocm = s.ocm := rfl
@[simp] theorem modSlice_seqMsgs (s : State) (i : Nat) (f : Slice → Slice) : (s.modSlice i f).seqMsgs = s.seqMsgs := rfl
@[simp] theorem modSlice_seqAcks (s : State) (i : Nat) (f : Slice → Slice) : (s.modSlice i f).seqAcks = s.seqAcks := rfl
@[simp] theorem modSlice_answers (s : State) (i : Nat) (f : Slice → Slice) : (s.modSlice i f).answers = s.answers := rfl
@[simp] theorem modSlice_replies (s : State) (i : Nat) (f : Slice → Slice) : (s.modSlice i f).replies = s.replies := rfl
@[simp] theorem modSlice_acks (s : State) (i : Nat) (f : Slice → Slice) : (s.modSlice i f).acks = s.acks := rfl
@[simp] theorem modSlice_hobReqs (s : State) (i : Nat) (f : Slice → Slice) : (s.modSlice i f).hobReqs = s.hobReqs := rfl
@[simp] theorem modSlice_parts (s : State) (i : Nat) (f : Slice → Slice) : (s.modSlice i f).parts = s.parts := rfl
@[simp] theorem modSlice_vfs (s : State) (i : Nat) (f : Slice → Slice) : (s.modSlice i f).vfs = s.vfs := rfl
@[simp] theorem modSlice_fb (s : State) (i : Nat) (f : Slice → Slice) : (s.modSlice i f).fb = s.fb := rfl
@[simp] theorem modSlice_ch (s : State) (i : Nat) (f : Slice → Slice) : (s.modSlice i f).ch = s.ch := rfl
@[simp] theorem modSlice_pw (s : State) (i : Nat) (f : Slice → Slice) : (s.modSlice i f).pw = s.pw := rfl
@[simp] theorem modSlice_fab (s : State) (i : Nat) (f : Slice → Slice) : (s.modSlice i f).fab = s.fab := rfl
@[simp] theorem modSlice_snap (s : State) (i : Nat) (f : Slice → Slice) : (s.modSlice i f).snap = s.snap := rfl
@[simp] theorem modSlice_latched (s : State) (i : Nat) (f : Slice → Slice) : (s.modSlice i f).latched = s.latched := rfl
@[simp] theorem modSlice_peerAsks (s : State) (i : Nat) (f : Slice → Slice) : (s.modSlice i f).peerAsks = s.peerAsks := rfl
@[simp] theorem modSlice_due (s : State) (i : Nat) (f : Slice → Slice) : (s.modSlice i f).due = s.due := rfl
@[simp] theorem modSlice_agenda (s : State) (i : Nat) (f : Slice → Slice) : (s.modSlice i f).agenda = s.agenda := rfl
@[simp] theorem modSlice_sched (s : State) (i : Nat) (f : Slice → Slice) : (s.modSlice i f).sched = s.sched := rfl
@[simp] theorem modSlice_free (s : State) (i : Nat) (f : Slice → Slice) : (s.modSlice i f).free = s.free := rfl
@[simp] theorem modSlice_uid (s : State) (i : Nat) (f : Slice → Slice) : (s.modSlice i f).uid = s.uid := rfl

/-! ### pushDue -/

@[simp] theorem pushDue_dcc (s : State) (i : Instr) : (s.pushDue i).dcc = s.dcc := rfl
@[simp] theorem pushDue_mem (s : State) (i : Instr) : (s.pushDue i).mem = s.mem := rfl
@[simp] theorem pushDue_poison (s : State) (i : Instr) : (s.pushDue i).poison = s.poison := rfl
@[simp] theorem pushDue_host (s : State) (i : Instr) : (s.pushDue i).host = s.host := rfl
@[simp] theorem pushDue_hearths (s : State) (i : Instr) : (s.pushDue i).hearths = s.hearths := rfl
@[simp] theorem pushDue_cur (s : State) (i : Instr) : (s.pushDue i).cur = s.cur := rfl
@[simp] theorem pushDue_eng (s : State) (i : Instr) : (s.pushDue i).eng = s.eng := rfl
@[simp] theorem pushDue_slices (s : State) (i : Instr) : (s.pushDue i).slices = s.slices := rfl
@[simp] theorem pushDue_ocm (s : State) (i : Instr) : (s.pushDue i).ocm = s.ocm := rfl
@[simp] theorem pushDue_seqMsgs (s : State) (i : Instr) : (s.pushDue i).seqMsgs = s.seqMsgs := rfl
@[simp] theorem pushDue_seqAcks (s : State) (i : Instr) : (s.pushDue i).seqAcks = s.seqAcks := rfl
@[simp] theorem pushDue_answers (s : State) (i : Instr) : (s.pushDue i).answers = s.answers := rfl
@[simp] theorem pushDue_replies (s : State) (i : Instr) : (s.pushDue i).replies = s.replies := rfl
@[simp] theorem pushDue_acks (s : State) (i : Instr) : (s.pushDue i).acks = s.acks := rfl
@[simp] theorem pushDue_hobReqs (s : State) (i : Instr) : (s.pushDue i).hobReqs = s.hobReqs := rfl
@[simp] theorem pushDue_parts (s : State) (i : Instr) : (s.pushDue i).parts = s.parts := rfl
@[simp] theorem pushDue_vfs (s : State) (i : Instr) : (s.pushDue i).vfs = s.vfs := rfl
@[simp] theorem pushDue_fb (s : State) (i : Instr) : (s.pushDue i).fb = s.fb := rfl
@[simp] theorem pushDue_ch (s : State) (i : Instr) : (s.pushDue i).ch = s.ch := rfl
@[simp] theorem pushDue_pw (s : State) (i : Instr) : (s.pushDue i).pw = s.pw := rfl
@[simp] theorem pushDue_fab (s : State) (i : Instr) : (s.pushDue i).fab = s.fab := rfl
@[simp] theorem pushDue_snap (s : State) (i : Instr) : (s.pushDue i).snap = s.snap := rfl
@[simp] theorem pushDue_latched (s : State) (i : Instr) : (s.pushDue i).latched = s.latched := rfl
@[simp] theorem pushDue_peerAsks (s : State) (i : Instr) : (s.pushDue i).peerAsks = s.peerAsks := rfl
@[simp] theorem pushDue_agenda (s : State) (i : Instr) : (s.pushDue i).agenda = s.agenda := rfl
@[simp] theorem pushDue_sched (s : State) (i : Instr) : (s.pushDue i).sched = s.sched := rfl
@[simp] theorem pushDue_free (s : State) (i : Instr) : (s.pushDue i).free = s.free := rfl
@[simp] theorem pushDue_uid (s : State) (i : Instr) : (s.pushDue i).uid = s.uid := rfl

/-! ### setStall -/

@[simp] theorem setStall_dcc (s : State) (b : Bool) : (s.setStall b).dcc = s.dcc := by
  unfold State.setStall; split <;> rfl
@[simp] theorem setStall_mem (s : State) (b : Bool) : (s.setStall b).mem = s.mem := by
  unfold State.setStall; split <;> rfl
@[simp] theorem setStall_poison (s : State) (b : Bool) : (s.setStall b).poison = s.poison := by
  unfold State.setStall; split <;> rfl
@[simp] theorem setStall_host (s : State) (b : Bool) : (s.setStall b).host = s.host := by
  unfold State.setStall; split <;> rfl
@[simp] theorem setStall_cur (s : State) (b : Bool) : (s.setStall b).cur = s.cur := by
  unfold State.setStall; split <;> rfl
@[simp] theorem setStall_eng (s : State) (b : Bool) : (s.setStall b).eng = s.eng := by
  unfold State.setStall; split <;> rfl
@[simp] theorem setStall_slices (s : State) (b : Bool) : (s.setStall b).slices = s.slices := by
  unfold State.setStall; split <;> rfl
@[simp] theorem setStall_ocm (s : State) (b : Bool) : (s.setStall b).ocm = s.ocm := by
  unfold State.setStall; split <;> rfl
@[simp] theorem setStall_seqMsgs (s : State) (b : Bool) : (s.setStall b).seqMsgs = s.seqMsgs := by
  unfold State.setStall; split <;> rfl
@[simp] theorem setStall_seqAcks (s : State) (b : Bool) : (s.setStall b).seqAcks = s.seqAcks := by
  unfold State.setStall; split <;> rfl
@[simp] theorem setStall_answers (s : State) (b : Bool) : (s.setStall b).answers = s.answers := by
  unfold State.setStall; split <;> rfl
@[simp] theorem setStall_replies (s : State) (b : Bool) : (s.setStall b).replies = s.replies := by
  unfold State.setStall; split <;> rfl
@[simp] theorem setStall_acks (s : State) (b : Bool) : (s.setStall b).acks = s.acks := by
  unfold State.setStall; split <;> rfl
@[simp] theorem setStall_hobReqs (s : State) (b : Bool) : (s.setStall b).hobReqs = s.hobReqs := by
  unfold State.setStall; split <;> rfl
@[simp] theorem setStall_parts (s : State) (b : Bool) : (s.setStall b).parts = s.parts := by
  unfold State.setStall; split <;> rfl
@[simp] theorem setStall_vfs (s : State) (b : Bool) : (s.setStall b).vfs = s.vfs := by
  unfold State.setStall; split <;> rfl
@[simp] theorem setStall_fb (s : State) (b : Bool) : (s.setStall b).fb = s.fb := by
  unfold State.setStall; split <;> rfl
@[simp] theorem setStall_ch (s : State) (b : Bool) : (s.setStall b).ch = s.ch := by
  unfold State.setStall; split <;> rfl
@[simp] theorem setStall_pw (s : State) (b : Bool) : (s.setStall b).pw = s.pw := by
  unfold State.setStall; split <;> rfl
@[simp] theorem setStall_fab (s : State) (b : Bool) : (s.setStall b).fab = s.fab := by
  unfold State.setStall; split <;> rfl
@[simp] theorem setStall_snap (s : State) (b : Bool) : (s.setStall b).snap = s.snap := by
  unfold State.setStall; split <;> rfl
@[simp] theorem setStall_latched (s : State) (b : Bool) : (s.setStall b).latched = s.latched := by
  unfold State.setStall; split <;> rfl
@[simp] theorem setStall_peerAsks (s : State) (b : Bool) : (s.setStall b).peerAsks = s.peerAsks := by
  unfold State.setStall; split <;> rfl
@[simp] theorem setStall_due (s : State) (b : Bool) : (s.setStall b).due = s.due := by
  unfold State.setStall; split <;> rfl
@[simp] theorem setStall_agenda (s : State) (b : Bool) : (s.setStall b).agenda = s.agenda := by
  unfold State.setStall; split <;> rfl
@[simp] theorem setStall_sched (s : State) (b : Bool) : (s.setStall b).sched = s.sched := by
  unfold State.setStall; split <;> rfl
@[simp] theorem setStall_free (s : State) (b : Bool) : (s.setStall b).free = s.free := by
  unfold State.setStall; split <;> rfl
@[simp] theorem setStall_uid (s : State) (b : Bool) : (s.setStall b).uid = s.uid := by
  unfold State.setStall; split <;> rfl

/-! ### Free values -/

@[simp] theorem freeWord_fst (s : State) : s.freeWord.1 = Config.freeWord s.free := rfl
@[simp] theorem freeWord_snd (s : State) : s.freeWord.2 = { s with free := s.free + 1 } := rfl
@[simp] theorem freeBit_snd (s : State) : s.freeBit.2 = { s with free := s.free + 1 } := rfl

/-! ### What the accessors read -/

@[simp] theorem hearth_setHearth (s : State) (h : Nat) (x : Hearth) : (s.setHearth h x).hearth h = x := by
  simp [State.hearth, State.setHearth]
theorem hearth_setHearth_other (s : State) (h k : Nat) (x : Hearth) (e : k ≠ h) :
    (s.setHearth h x).hearth k = s.hearth k := tget_tput_other _ _ _ _ _ e
@[simp] theorem setHearth_setHearth (s : State) (h : Nat) (x y : Hearth) :
    (s.setHearth h x).setHearth h y = s.setHearth h y := by simp [State.setHearth]
@[simp] theorem hearth_modHearth (s : State) (h : Nat) (f : Hearth → Hearth) :
    (s.modHearth h f).hearth h = f (s.hearth h) := by simp [State.modHearth]
theorem hearth_modHearth_other (s : State) (h k : Nat) (f : Hearth → Hearth) (e : k ≠ h) :
    (s.modHearth h f).hearth k = s.hearth k := hearth_setHearth_other _ _ _ _ e
@[simp] theorem hearth_pushDue (s : State) (i : Instr) (h : Nat) : (s.pushDue i).hearth h = s.hearth h := rfl
@[simp] theorem hearth_setPart (s : State) (p : Nat) (x : Part) (h : Nat) : (s.setPart p x).hearth h = s.hearth h := rfl
@[simp] theorem hearth_setVf (s : State) (v : Nat) (x : Vf) (h : Nat) : (s.setVf v x).hearth h = s.hearth h := rfl
@[simp] theorem hearth_setSlice (s : State) (i : Nat) (x : Slice) (h : Nat) : (s.setSlice i x).hearth h = s.hearth h := rfl
@[simp] theorem part_setPart (s : State) (p : Nat) (x : Part) : (s.setPart p x).part p = x := by
  simp [State.part, State.setPart]
theorem part_setPart_other (s : State) (p q : Nat) (x : Part) (e : q ≠ p) : (s.setPart p x).part q = s.part q :=
  tget_tput_other _ _ _ _ _ e
@[simp] theorem vf_setVf (s : State) (v : Nat) (x : Vf) : (s.setVf v x).vf v = x := by simp [State.vf, State.setVf]
theorem vf_setVf_other (s : State) (v w : Nat) (x : Vf) (e : w ≠ v) : (s.setVf v x).vf w = s.vf w :=
  tget_tput_other _ _ _ _ _ e
@[simp] theorem slice_setSlice (s : State) (i : Nat) (x : Slice) : (s.setSlice i x).slice i = x := by
  simp [State.slice, State.setSlice]
theorem slice_setSlice_other (s : State) (i j : Nat) (x : Slice) (e : j ≠ i) :
    (s.setSlice i x).slice j = s.slice j := tget_tput_other _ _ _ _ _ e

@[simp] theorem me_setMe (s : State) (x : Hearth) : (s.setMe x).me = x := by simp [State.me, State.setMe]
@[simp] theorem setMe_setMe (s : State) (x y : Hearth) : (s.setMe x).setMe y = s.setMe y := by simp [State.setMe]
@[simp] theorem me_setCtx (s : State) (c : Ctx) : (s.setCtx c).me = { s.me with act := c } := by simp [State.setCtx]
@[simp] theorem ctx_setCtx (s : State) (c : Ctx) : (s.setCtx c).ctx = c := by simp [State.ctx]
@[simp] theorem ctx_setMe (s : State) (x : Hearth) : (s.setMe x).ctx = x.act := by simp [State.ctx]
@[simp] theorem setCtx_setCtx (s : State) (c e : Ctx) : (s.setCtx c).setCtx e = s.setCtx e := by
  simp [State.setCtx]
theorem setMe_setCtx (s : State) (x : Hearth) (c : Ctx) : (s.setMe x).setCtx c = s.setMe { x with act := c } := by
  simp [State.setCtx]

@[simp] theorem es_setEs_same (c : Ctx) (e : Eng) (x : EngState) : (c.setEs e x).es e = x := by cases e <;> rfl
@[simp] theorem es_setEs_other (c : Ctx) (e : Eng) (x : EngState) : (c.setEs e x).es (Eng.other e) = c.es (Eng.other e) := by
  cases e <;> rfl
@[simp] theorem setEs_setEs (c : Ctx) (e : Eng) (x y : EngState) : (c.setEs e x).setEs e y = c.setEs e y := by cases e <;> rfl
@[simp] theorem es_setEs (s : State) (x : EngState) : (s.setEs x).es = x := by simp [State.es, State.setEs]
@[simp] theorem ctx_setEs (s : State) (x : EngState) : (s.setEs x).ctx = s.ctx.setEs s.eng x := by simp [State.setEs]
@[simp] theorem setEs_setEs_state (s : State) (x y : EngState) : (s.setEs x).setEs y = s.setEs y := by
  simp [State.setEs]

@[simp] theorem es_setReg (c : Ctx) (e f : Eng) (r : Reg) (v : Word) : (c.setReg e r v).es f = c.es f := by
  unfold Ctx.setReg; split
  · rfl
  · cases e <;> cases f <;> rfl
/-- a0 and k0 read 0 and discard writes (R51); any other register reads what was last written. -/
theorem reg_setReg (c : Ctx) (e : Eng) (r q : Reg) (v : Word) :
    (c.setReg e r v).reg e q = if q = 0 then 0 else if q = r then v else c.reg e q := by
  unfold Ctx.reg
  by_cases hq : q = 0
  · rw [if_pos hq, if_pos hq]
  · rw [if_neg hq, if_neg hq, if_neg hq]
    unfold Ctx.setReg
    by_cases hr : r = 0
    · have hn : q ≠ r := fun e => hq (e.trans hr)
      rw [if_pos hr, if_neg hn]
    · rw [if_neg hr]
      by_cases h : q = r
      · subst h
        rw [if_pos rfl]
        cases e <;> exact tget_tput_same _ _ _ _
      · have hn : q.toNat ≠ r.toNat := fun e => h (BitVec.eq_of_toNat_eq e)
        rw [if_neg h]
        cases e <;> exact tget_tput_other _ _ _ _ _ hn
@[simp] theorem reg_setReg_other (c : Ctx) (e : Eng) (r q : Reg) (v : Word) :
    (c.setReg e r v).reg (Eng.other e) q = c.reg (Eng.other e) q := by
  unfold Ctx.setReg; split
  · rfl
  · cases e <;> rfl
@[simp] theorem reg_zero (c : Ctx) (e : Eng) : c.reg e 0 = 0 := rfl
@[simp] theorem reg_setEs (c : Ctx) (e f : Eng) (x : EngState) (q : Reg) : (c.setEs e x).reg f q = c.reg f q := by
  cases e <;> rfl
@[simp] theorem setReg_setEs (c : Ctx) (e f : Eng) (x : EngState) (r : Reg) (v : Word) :
    (c.setEs e x).setReg f r v = (c.setReg f r v).setEs e x := by
  unfold Ctx.setReg; split
  · rfl
  · cases e <;> cases f <;> rfl

@[simp] theorem setStall_me_act (s : State) (b : Bool) : (s.setStall b).me.act = s.me.act := by
  unfold State.setStall; split <;> simp
@[simp] theorem setStall_ctx (s : State) (b : Bool) : (s.setStall b).ctx = s.ctx := setStall_me_act s b
@[simp] theorem setStall_es (s : State) (b : Bool) : (s.setStall b).es = s.es := by simp [State.es]
@[simp] theorem setStall_req (s : State) (b : Bool) : (s.setStall b).me.req = s.me.req := by
  unfold State.setStall; split <;> simp

/-! ### cleanImage -/

@[simp] theorem cleanImage_dcc (s : State) (o n : Nat) : (s.cleanImage o n).dcc = s.dcc := rfl
@[simp] theorem cleanImage_mem (s : State) (o n : Nat) : (s.cleanImage o n).mem = s.mem := rfl
@[simp] theorem cleanImage_poison (s : State) (o n : Nat) : (s.cleanImage o n).poison = s.poison := rfl
@[simp] theorem cleanImage_host (s : State) (o n : Nat) : (s.cleanImage o n).host = s.host := rfl
@[simp] theorem cleanImage_cur (s : State) (o n : Nat) : (s.cleanImage o n).cur = s.cur := rfl
@[simp] theorem cleanImage_eng (s : State) (o n : Nat) : (s.cleanImage o n).eng = s.eng := rfl
@[simp] theorem cleanImage_slices (s : State) (o n : Nat) : (s.cleanImage o n).slices = s.slices := rfl
@[simp] theorem cleanImage_ocm (s : State) (o n : Nat) : (s.cleanImage o n).ocm = s.ocm := rfl
@[simp] theorem cleanImage_seqMsgs (s : State) (o n : Nat) : (s.cleanImage o n).seqMsgs = s.seqMsgs := rfl
@[simp] theorem cleanImage_seqAcks (s : State) (o n : Nat) : (s.cleanImage o n).seqAcks = s.seqAcks := rfl
@[simp] theorem cleanImage_answers (s : State) (o n : Nat) : (s.cleanImage o n).answers = s.answers := rfl
@[simp] theorem cleanImage_replies (s : State) (o n : Nat) : (s.cleanImage o n).replies = s.replies := rfl
@[simp] theorem cleanImage_acks (s : State) (o n : Nat) : (s.cleanImage o n).acks = s.acks := rfl
@[simp] theorem cleanImage_hobReqs (s : State) (o n : Nat) : (s.cleanImage o n).hobReqs = s.hobReqs := rfl
@[simp] theorem cleanImage_parts (s : State) (o n : Nat) : (s.cleanImage o n).parts = s.parts := rfl
@[simp] theorem cleanImage_vfs (s : State) (o n : Nat) : (s.cleanImage o n).vfs = s.vfs := rfl
@[simp] theorem cleanImage_fb (s : State) (o n : Nat) : (s.cleanImage o n).fb = s.fb := rfl
@[simp] theorem cleanImage_ch (s : State) (o n : Nat) : (s.cleanImage o n).ch = s.ch := rfl
@[simp] theorem cleanImage_pw (s : State) (o n : Nat) : (s.cleanImage o n).pw = s.pw := rfl
@[simp] theorem cleanImage_fab (s : State) (o n : Nat) : (s.cleanImage o n).fab = s.fab := rfl
@[simp] theorem cleanImage_snap (s : State) (o n : Nat) : (s.cleanImage o n).snap = s.snap := rfl
@[simp] theorem cleanImage_latched (s : State) (o n : Nat) : (s.cleanImage o n).latched = s.latched := rfl
@[simp] theorem cleanImage_peerAsks (s : State) (o n : Nat) : (s.cleanImage o n).peerAsks = s.peerAsks := rfl
@[simp] theorem cleanImage_due (s : State) (o n : Nat) : (s.cleanImage o n).due = s.due := rfl
@[simp] theorem cleanImage_agenda (s : State) (o n : Nat) : (s.cleanImage o n).agenda = s.agenda := rfl
@[simp] theorem cleanImage_sched (s : State) (o n : Nat) : (s.cleanImage o n).sched = s.sched := rfl
@[simp] theorem cleanImage_free (s : State) (o n : Nat) : (s.cleanImage o n).free = s.free := rfl
@[simp] theorem cleanImage_uid (s : State) (o n : Nat) : (s.cleanImage o n).uid = s.uid := rfl
@[simp] theorem ctx_cleanImage (s : State) (o n : Nat) : (s.cleanImage o n).ctx = { s.ctx with bad := cleanWords s.ctx.bad o n } := by
  simp [State.cleanImage]
@[simp] theorem me_cleanImage (s : State) (o n : Nat) : (s.cleanImage o n).me = { s.me with act := { s.ctx with bad := cleanWords s.ctx.bad o n } } := by
  simp [State.cleanImage]
@[simp] theorem es_cleanImage (s : State) (o n : Nat) : (s.cleanImage o n).es = s.es := by
  simp only [State.es, ctx_cleanImage, cleanImage_eng]
  cases s.eng <;> rfl
theorem cleanWords_nil (o n : Nat) : cleanWords [] o n = [] := rfl

end Sys2Proof.Machine
end

