-- ==== Sys2Proof/Laws/Ops.lean ====
section
/-!
SUPPORT. What the shared operations of an instruction do: its guard, its end, and its outcome.
-/
set_option autoImplicit false

namespace Sys2Proof.Machine

/-! ### Outcomes -/

theorem instr_eq (g : Guard) (own : Bool) (s : State) (body : Word → Res) (m : Word) (h : s.cur < nCores)
    (hg : GuardMask g own s m) : instr g own s body = .next (finish (body m)) := by
  unfold instr underGuard
  rw [if_pos h, hg.1]
  simp [hg.2]

theorem common_eq (g : Guard) (s : State) (body : Res) (h : s.cur < nCores) (hg : GuardTrue g false s) :
    common g s body = .next (finish body) := by
  obtain ⟨m, hm⟩ := hg
  exact instr_eq g false s (fun _ => body) m h hm

theorem aInstr_eq (g : Guard) (s : State) (body : Res) (h : s.cur < nCores) (hg : GuardTrue g false s) :
    aInstr g s body = .next (finish body) := common_eq g s body h hg

theorem xInstr_eq (g : Guard) (s : State) (body : Word → Res) (m : Word) (h : s.cur < nCores)
    (hg : GuardMask g true s m) : xInstr g s body = .next (finish (body m)) := instr_eq g true s body m h hg

/-- A guard that does not run leaves only the end of the slot (R36). -/
theorem instr_skip (g : Guard) (own : Bool) (s : State) (body : Word → Res) (m : Word) (h : s.cur < nCores)
    (hm : guardMask g s.es.preds = some m) (hr : runs s.eng own m = false) :
    instr g own s body = .next (finish (.done s)) := by
  unfold instr underGuard
  rw [if_pos h, hm]
  simp [hr]

/-! ### The end of a slot -/

theorem loopStep_none (e : Eng) (pend : Bool) (a : Word) (l : List Nat) (c : Ctx)
    (h : ∀ n ∈ l, (((c.es e).loop n).active && ((c.es e).loop n).stop == a) = false) :
    loopStep e pend a l c = (c, none) := by
  induction l with
  | nil => rfl
  | cons n r ih =>
    unfold loopStep
    simp only [h n (by simp)]
    exact ih fun k hk => h k (List.mem_cons_of_mem _ hk)

theorem endOfSlot_straight (s : State) (b : Bool) (h : Straight s) :
    endOfSlot s.eng b s.ctx = (s.ctx, .ok (s.pc + 12)) := by
  have e := loopStep_none s.eng b s.pc s.es.nest s.ctx h.2.2
  have h2 := h.2.1
  simp only [State.pc, State.es] at e h2 ⊢
  unfold endOfSlot
  simp only [e, advanceIn]
  rw [if_pos h2]

theorem setCtx_setPc (s : State) (c : Ctx) (t : Word) (h : c.es s.eng = s.es) :
    (s.setCtx c).setPc t = s.setCtx (c.setEs s.eng { s.es with pc := t }) := by
  have h' : c.es s.eng = s.ctx.es s.eng := h
  simp [State.setPc, State.setEs, State.es, h']

theorem setCtx_self_setPc (s : State) (t : Word) : (s.setCtx s.ctx).setPc t = s.setPc t := by
  rw [setCtx_setPc s s.ctx t rfl]
  rfl

theorem straight_setStall (s : State) (b : Bool) (h : Straight s) : Straight (s.setStall b) := by
  simpa [Straight, State.pc] using h

/-- The end of an instruction within its line. -/
theorem finish_done (s : State) (h : Straight s) : finish (.done s) = nextSlot s := by
  have hs := straight_setStall s false h
  unfold finish nextSlot
  have e := endOfSlot_straight (s.setStall false) (s.setStall false).me.pending hs
  simp only [e]
  rw [setCtx_self_setPc]
  simp [State.pc]

theorem straight_setCtx (s : State) (c : Ctx) (h : Straight s) (e : c.es s.eng = s.es) : Straight (s.setCtx c) := by
  simpa [Straight, State.pc, State.es, e] using h

theorem straight_setReg (s : State) (d : Reg) (v : Word) (h : Straight s) : Straight (s.setReg d v) :=
  straight_setCtx _ _ h (by simp [State.es])

/-- A common instruction that completes within its line. -/
theorem common_done (g : Guard) (s u : State) (hs : Straight s) (hg : GuardTrue g false s) (hu : Straight u) :
    common g s (.done u) = .next (nextSlot u) := by
  rw [common_eq g s _ hs.1 hg, finish_done u hu]

end Sys2Proof.Machine
end

