-- ==== Sys2Proof/Laws/Frames.lean ====
section
/-!
SUPPORT. What the shared operations leave alone: where an engine stands after an update, what a store to the scratchpad, a
read of guest memory and a write of a system register keep, and how a privileged instruction answers.
-/
set_option autoImplicit false

namespace Sys2Proof.Machine

/-! ### Where an engine stands -/

/-- An engine that stands where it stood, in the loops it was in, still ends its slot within its line. -/
theorem straight_of_es (s u : State) (h : Straight s) (hc : u.cur = s.cur) (he : u.es.pc = s.es.pc) (hn : u.es.nest = s.es.nest)
   (hl : u.es.loops = s.es.loops) : Straight u := by
  simpa [Straight, State.pc, hc, he, hn, EngState.loop, hl] using h

theorem straight_setEs (s : State) (x : EngState) (h : Straight s) (hp : x.pc = s.es.pc) (hn : x.nest = s.es.nest)
    (hl : x.loops = s.es.loops) : Straight (s.setEs x) := by
  simpa [Straight, State.pc, hp, hn, EngState.loop, hl] using h

theorem straight_setMe (s : State) (x : Hearth) (h : Straight s) (e : x.act.es s.eng = s.es) : Straight (s.setMe x) := by
  simpa [Straight, State.pc, State.es, e] using h

/-! ### The scratchpad -/

/-- A store's tags leave what observes it: poison marks and waiting engines (R330). -/
theorem retag_watch (x : Hearth) (a n : Nat) :
    (retag x a n).poison = x.poison ∧ (retag x a n).watchA = x.watchA ∧ (retag x a n).watchX = x.watchX := by
  unfold retag
  split
  · simp
  · generalize List.range _ = l
    induction l generalizing x with
    | nil => simp
    | cons b r ih =>
      simp only [List.foldl_cons]
      split
      · exact ih _
      · exact ih _

/-- A store's tags leave everything else of the hearth (R330). -/
theorem retag_act (x : Hearth) (a n : Nat) : (retag x a n).act = x.act ∧ (retag x a n).win = x.win ∧ (retag x a n).held = x.held ∧ (retag x a n).scratch = x.scratch := by
  unfold retag
  split
  · simp
  · generalize List.range _ = l
    have : ∀ (y : Hearth), let z := l.foldl (fun x i =>
        let b := a / 1024 + i
        let t := tget 0 x.tags b
        if t ≠ 0 ∧ t ≠ x.act.ctxid then { x with tags := tdel x.tags b } else x) y
        z.act = y.act ∧ z.win = y.win ∧ z.held = y.held ∧ z.scratch = y.scratch := by
      induction l with
      | nil => intro y; simp
      | cons b r ih =>
        intro y
        simp only [List.foldl_cons]
        split
        · exact ih _
        · exact ih _
    exact this x

/-- A store to the scratchpad: the bytes it writes, and what it keeps (R52). -/
theorem writeScratch_frame (x : Hearth) (a : Nat) (l : List Byte) (k : Nat) :
    mget (x.writeScratch a l).scratch k = (if a ≤ k ∧ k < a + l.length then l.getD (k - a) 0 else mget x.scratch k) ∧
      (x.writeScratch a l).act = x.act ∧ (x.writeScratch a l).win = x.win ∧ (x.writeScratch a l).held = x.held := by
  have h := retag_act x a l.length
  simp [Hearth.writeScratch, h.1, h.2.1, h.2.2.1, h.2.2.2, mget_mwrite]

/-- Which tail words a write touches depends on the flues alone. -/
theorem tailTouched_writeScratch (x : Hearth) (a : Nat) (l : List Byte) (b n : Nat) :
    (x.writeScratch a l).tailTouched b n = x.tailTouched b n := by
  unfold Hearth.tailTouched Hearth.flue
  rw [(writeScratch_frame x a l 0).2.1]

/-- One piece alone is one write. -/
theorem writePieces_one (x : Hearth) (a : Nat) (l : List Byte) : x.writePieces [(a, l)] = x.writeScratch a l := by
  have h (p : Nat) : ((!(List.range 4).all fun k => [(a, l)].any fun q => q.1 ≤ 4 * p + k && 4 * p + k < q.1 + q.2.length))
      = (4 * p < a || a + l.length < 4 * p + 4) := by
    rw [Bool.eq_iff_iff]
    simp [List.range, List.range.loop]
    omega
  obtain ⟨p, wa, wx⟩ := retag_watch x a l.length
  simp only [Hearth.writePieces, List.foldl_cons, List.foldl_nil, h]
  simp [Hearth.writeScratch, p, wa, wx, retag_act]

/-- A store that touches no tail word is the write alone (R127). -/
theorem store_noTail (x : Hearth) (a : Nat) (l : List Byte) (h : NoTail (x.writeScratch a l) a l.length) :
    x.store a l = .ok (x.writeScratch a l) := by
  unfold Hearth.store Hearth.storeAll Hearth.publishTails
  simp only [writePieces_one, List.map_cons, List.map_nil, List.flatMap_cons, List.flatMap_nil, h.1, List.append_nil,
    List.eraseDups_nil, List.foldl_nil]
  split
  · rename_i k; rw [h.2 k]; simp [Hearth.flip]
  · rfl

theorem writeScratch_es (x : Hearth) (a : Nat) (l : List Byte) (e : Eng) : (x.writeScratch a l).act.es e = x.act.es e := by
  simp [Hearth.writeScratch, retag_act]

theorem es_setCtxFlue (c : Ctx) (n : Nat) (f : Flue) (e : Eng) : (c.setFlue n f).es e = c.es e := by cases e <;> rfl

/-- The flue records of a context, with the HEAD they write through (R118, R127), move no engine. -/
theorem withFlues_es (x : Hearth) (c : Ctx) (p : Nat) (e : Eng) : (x.withFlues c p).act.es e = c.es e := by
  unfold Hearth.withFlues Hearth.syncHead
  simp only
  split
  · rw [writeScratch_es]
  · rfl

/-- A flue's update, whose HEAD may be written through to the ring (R118), moves no engine. -/
theorem setFlue_es (x : Hearth) (n : Nat) (f : Flue) (e : Eng) : (x.setFlue n f).act.es e = x.act.es e := by
  rw [Hearth.setFlue, withFlues_es, es_setCtxFlue]

theorem straight_setFlue (s : State) (x : Hearth) (n : Nat) (f : Flue) (h : Straight s) (e : x.act.es s.eng = s.es) :
   Straight (s.setMe (x.setFlue n f)) := straight_setMe _ _ h (by rw [setFlue_es, e])

/-! ### Reads of guest memory -/

/-- Free values change nothing but their counter (log 5). -/
theorem freeBytes_frame (s : State) (n : Nat) : ∃ k, (freeBytes s n).2 = { s with free := k } := by
  show ∃ k, ((List.range ((n + 7) / 8)).foldl (fun (acc : List Byte × State) _ =>
      let (w, s) := acc.2.freeWord
      (acc.1 ++ leBytes 8 w.toNat, s)) ([], s)).2 = _
  generalize List.range _ = l
  have : ∀ (acc : List Byte × State) (k : Nat), acc.2 = { s with free := k } → ∃ k, (l.foldl (fun (acc : List Byte × State) _ =>
      let (w, s) := acc.2.freeWord
      (acc.1 ++ leBytes 8 w.toNat, s)) acc).2 = { s with free := k } := by
    induction l with
    | nil => intro acc k h; exact ⟨k, h⟩
    | cons b r ih =>
      intro acc k h
      simp only [List.foldl_cons]
      exact ih _ (k+1) (by simp [h])
  exact this ([], s) s.free rfl

/-- So does a read of guest memory. -/
theorem readGuest_frame (s : State) (d : Nat) (e : S2Ent) (g n : Nat) : ∃ k, (readGuest s d e g n).2 = { s with free := k } := by
  unfold readGuest
  split
  · exact freeBytes_frame s n
  · exact ⟨_, rfl⟩

/-- So does the meeting of a poisoned word (log 80). -/
theorem meetWord_frame (l : List Nat) (s : State) : ∃ k, (meetWord l s).2 = { s with free := k } := by
  unfold meetWord
  split <;> exact ⟨_, rfl⟩

theorem copyWordPoison_frame (s : State) (d : Nat) (e : S2Ent) (g : Nat) :
    ∃ k, (copyWordPoison s d e g).2 = { s with free := k } := by
  unfold copyWordPoison
  split
  · exact ⟨_, rfl⟩
  · exact meetWord_frame _ s

/-- So does the fetch of a line. -/
theorem readLine_frame (s : State) (h : Nat) (l : Word) (w : LineWord) (u : State) (e : readLine s h l = .ok (w, u)) :
    ∃ k, u = { s with free := k } := by
  unfold readLine at e
  split at e
  · cases e
  · rename_i t _
    obtain ⟨i, hi⟩ := copyWordPoison_frame s (dieOf h) t.ent t.gpa
    simp only [hi] at e
    split at e
    · cases e
    · obtain ⟨k, hk⟩ := readGuest_frame { s with free := i } (dieOf h) t.ent t.gpa 64
      simp at e
      exact ⟨k, by rw [← e.2, hk]⟩

theorem cachedLine_frame (s : State) (l : Word) (w v : LineWord) (u : State) (e : cachedLine s l w = (v, u)) :
    ∃ k, u = { s with free := k } := by
  unfold cachedLine at e
  split at e
  · split at e
    · simp at e; exact ⟨_, e.2.symm⟩
    · simp at e; exact ⟨_, e.2.symm⟩
  · simp at e; exact ⟨_, e.2.symm⟩

/-! ### Privileged instructions and system registers -/

theorem privileged_eq (g : Guard) (need : Mode) (s : State) (b : Res) (h : s.cur < nCores) (hm : s.me.mode.allows need = true)
   (hg : GuardTrue g false s) : privileged g need s b = .next (finish b) := by
  obtain ⟨m, h1, h2⟩ := hg
  unfold privileged underGuard
  simp only [if_pos h, hm, if_true, h1, h2]

/-- In a mode that may not execute it an instruction raises PRIVILEGE whatever its guard (R44). -/
theorem privileged_stop (g : Guard) (need : Mode) (s : State) (b : Res) (h : s.cur < nCores) (hm : s.me.mode.allows need = false) :
   privileged g need s b = .next (raise (s.setStall false) .privilege s.pc) := by
  unfold privileged
  simp only [if_pos h, hm]; rfl

/-- A write of a system register moves no engine (R61). -/
theorem writeSys_es (c c' : Ctx) (n : Nat) (v : Word) (h : c.writeSys n v = .ok c') (e : Eng) : c'.es e = c.es e := by
  unfold Ctx.writeSys at h
  simp only at h
  repeat' split at h
  all_goals (first | (cases h; cases e <;> rfl) | cases h)

/-! ### The byte stores -/

/-- A fold whose every step keeps a value keeps it. -/
theorem foldl_keeps {α β γ : Type} (f : β → γ) (g : β → α → β) (h : ∀ b a, f (g b a) = f b) (l : List α) (b : β) :
    f (l.foldl g b) = f b := by
  induction l generalizing b with
  | nil => rfl
  | cons a r ih => rw [List.foldl_cons, ih, h]

/-- The byte stores, and the engine whose turn it is. -/
def State.stores (s : State) : Memory × Memory × List Nat × Nat × Eng := (s.mem, s.host, s.poison, s.cur, s.eng)

/-- An operation on its way to a home slice changes no byte (R265). -/
theorem sendOp_stores (s : State) (op : WOp) : (sendOp s op).stores = s.stores := by
  unfold sendOp
  repeat' split
  all_goals rfl

theorem publishHeld_stores (s : State) (h : Nat) (f : Held → Bool) : (publishHeld s h f).stores = s.stores := by
  unfold publishHeld
  exact foldl_keeps State.stores _ (fun b _ => sendOp_stores b _) _ _

/-- Nor does a release boundary (R253). -/
theorem boundary_stores (s : State) (h : Nat) (e : Eng) : (boundary s h e).1.stores = s.stores := by
  have hp := publishHeld_stores s h fun _ => true
  unfold boundary
  simp only
  repeat' split
  all_goals first | rfl | exact hp

/-- Nor does taking a fault (R317, R318). -/
theorem takeFault_stores (s : State) (h : Nat) (f : FaultRec) : (takeFault s h f).stores = s.stores := by
  unfold takeFault
  simp only
  repeat' split
  all_goals rfl

theorem raise_stores (s : State) (c : FaultCode) (a : Word) : (raise s c a).stores = s.stores := takeFault_stores _ _ _

theorem setStall_stores (s : State) (b : Bool) : (s.setStall b).stores = s.stores := by
  unfold State.setStall
  split <;> rfl

/-- The state that an outcome goes on from. -/
def Res.state : Res → State
  | .done s | .jump s _ | .wait s _ | .trap s _ _ | .stay s => s

/-- The end of an instruction changes no byte: what it leaves of the stores is what its outcome holds (R50). -/
theorem finish_stores (r : Res) : (finish r).stores = r.state.stores := by
  cases r with
  | done s =>
    simp only [finish]
    split
    · exact setStall_stores s false
    · exact (raise_stores _ _ _).trans (setStall_stores s false)
  | jump s t => exact setStall_stores s false
  | wait s b => exact setStall_stores s b
  | trap s c a => exact (raise_stores _ _ _).trans (setStall_stores s false)
  | stay s => exact setStall_stores s false

/-! ### The stage-2 array (R232) -/

/-- Storing an entry touches device memory alone. -/
theorem storeStage2_frame (s : State) (p g : Nat) : ∃ m, s.storeStage2 p g = { s with mem := m } := by
  unfold State.storeStage2
  split
  · exact ⟨_, rfl⟩
  · exact ⟨s.mem, rfl⟩

/-- It keeps the canonical form of memory. -/
theorem storeStage2_wf (s : State) (p g : Nat) (h : Memory.wf s.mem = true) : Memory.wf (s.storeStage2 p g).mem = true := by
  unfold State.storeStage2
  split
  · exact wf_mwrite _ _ _ h
  · exact h

/-- Changing an entry touches its partition's table and device memory. -/
theorem setStage2_frame (s : State) (p g : Nat) (f : S2Ent → S2Ent) :
    ∃ m, s.setStage2 p g f = { s.modPart p fun x => { x with s2 := lmod x.s2 g f } with mem := m } :=
  storeStage2_frame _ p g

theorem setStage2_wf (s : State) (p g : Nat) (f : S2Ent → S2Ent) (h : Memory.wf s.mem = true) :
    Memory.wf (s.setStage2 p g f).mem = true := storeStage2_wf _ p g h

end Sys2Proof.Machine
end

