-- ==== Sys2Proof/Laws/Rings.lean ====
section
/-!
SUPPORT. What a tick of the eave rings does (R15-R17, R21): a packet waits or enters the first ring of its way, and
nothing but the ways of packets changes.
-/
set_option autoImplicit false

namespace Sys2Proof.Machine

/-- A packet stays where it is, or has entered the first of its rings. -/
theorem pass_cases (t : Turn) (n : Nat) (p : Path) :
    (t.pass n p).2 = p ∨ ∃ d r, p.rings = d :: r ∧ (t.pass n p).2 = { rings := r } := by
  unfold Turn.pass
  split
  · exact .inl rfl
  · rename_i d r h
    split
    · cases linked d t.ridge
      · exact .inl rfl
      · exact .inr ⟨d, r, h, rfl⟩
    · dsimp only
      generalize (_ && _ && _ : Bool) = b
      cases b
      · exact .inl rfl
      · exact .inr ⟨d, r, h, rfl⟩

/-- A packet without a ring left goes on at once. -/
theorem pass_free (t : Turn) (n : Nat) (p : Path) (h : p.rings = []) : t.pass n p = (t, p) := by
  unfold Turn.pass
  rw [h]

theorem mapAcc_length {α β : Type} (f : β → α → β × α) (b : β) (l : List α) : (mapAcc f b l).2.length = l.length := by
  induction l generalizing b with
  | nil => rfl
  | cons x r ih => simp [mapAcc, ih]

theorem filter_split_length {α : Type} (f : α → Bool) (l : List α) :
    (l.filter f ++ l.filter (!f ·)).length = l.length := by
  induction l with
  | nil => rfl
  | cons x r ih =>
    rw [List.length_append] at ih ⊢
    cases h : f x <;> simp [h] <;> omega

/-- Operations and messages keep their number; what a slice holds is untouched. -/
theorem turnSlice_frame (t : Turn) (x : Slice) :
    let y := (t.slice x).2
    y.inq.length = x.inq.length ∧ y.accq.length = x.accq.length ∧ y.accoq.length = x.accoq.length ∧ y.wq = x.wq ∧
      y.keys = x.keys ∧ y.rob = x.rob ∧ y.tokens = x.tokens ∧ y.cfg = x.cfg ∧ y.pairs = x.pairs ∧ y.bad = x.bad := by
  refine ⟨by simp [Turn.slice, mapAcc_length], ?_, by simp [Turn.slice, mapAcc_length], rfl, rfl, rfl, rfl, rfl, rfl, rfl⟩
  exact (filter_split_length _ _).trans (mapAcc_length _ _ _)

/-- A tick of the rings leaves memory, the host, the partitions, the firebox and the power states. -/
theorem tickRings_frame (s : State) :
    (tickRings s).mem = s.mem ∧ (tickRings s).poison = s.poison ∧ (tickRings s).host = s.host ∧ (tickRings s).parts = s.parts ∧
      (tickRings s).fb = s.fb ∧ (tickRings s).pw = s.pw ∧ (tickRings s).dcc = s.dcc ∧ (tickRings s).due = s.due := by
  unfold tickRings
  split <;> simp

end Sys2Proof.Machine
end

