-- ==== Sys2Proof/Laws/Windows.lean ====
section
/-!
SUPPORT. What the check of a window image answers for an image with one entry.
-/
set_option autoImplicit false
namespace Sys2Proof.Machine

/-- An image with one entry, which passes the checks of its own, loads that entry (R229). -/
theorem checkWindows_one (e : BitVec 128) (n : Nat) (hr : winReserved e = true) (ha : winAlone e = true) (hs : (winEnt e).size ≠ 0) :
    checkWindows (e :: List.replicate n 0) = .ok [(0, e)] := by
  have hz : ∀ k, ((e :: List.replicate n (0 : BitVec 128)).getD (k + 1) 0) = 0 := by
    intro k
    show (List.replicate n (0 : BitVec 128)).getD k 0 = 0
    rw [List.getD_eq_getElem?_getD, List.getElem?_replicate]
    split <;> rfl
  have h0 : (winEnt 0).size = 0 := by decide
  have hp : ∀ a, winPair a (winEnt 0) = true := fun a => by
    unfold winPair
    rw [if_pos (Or.inr h0)]
  unfold checkWindows
  have hf : (List.range (e :: List.replicate n (0 : BitVec 128)).length).find? (fun k =>
      !(winReserved ((e :: List.replicate n 0).getD k 0) && winAlone ((e :: List.replicate n 0).getD k 0)) ||
        (List.range k).any fun m => !winPair (winEnt ((e :: List.replicate n 0).getD m 0)) (winEnt ((e :: List.replicate n 0).getD k 0))) = none := by
    rw [List.find?_eq_none]
    intro k _
    cases k with
    | zero => simp [hr, ha]
    | succ k =>
      rw [hz k]
      have h1 : (!(winReserved 0 && winAlone 0)) = false := by decide
      simp only [hp, h1]
      simp
  simp only [hf]
  congr 1
  rw [show (e :: List.replicate n (0 : BitVec 128)).length = n + 1 by simp, List.range_succ_eq_map, List.filterMap_cons,
    List.filterMap_map]
  simp only [List.getD_cons_zero, hs, if_false]
  congr 1
  rw [List.filterMap_eq_nil_iff]
  intro k _
  simp only [Function.comp, hz, h0, if_true]

/-- An image without entries loads none (R229). -/
theorem checkWindows_none (n : Nat) : checkWindows (0 :: List.replicate n 0) = .ok [] := by
  have hz : ∀ k, ((0 :: List.replicate n (0 : BitVec 128)).getD k 0) = 0 := by
    intro k
    rw [← List.replicate_succ, List.getD_eq_getElem?_getD, List.getElem?_replicate]
    split <;> rfl
  have h0 : (winEnt 0).size = 0 := by decide
  have h1 : (!(winReserved 0 && winAlone 0)) = false := by decide
  have hp : ∀ a, winPair a (winEnt 0) = true := fun a => by
    unfold winPair
    rw [if_pos (Or.inr h0)]
  unfold checkWindows
  have hf : (List.range (0 :: List.replicate n (0 : BitVec 128)).length).find?
      (fun k => false || (List.range k).any fun _ => !true) = none := by
    rw [List.find?_eq_none]
    intro k _
    simp
  simp only [hz, hp, h1, h0, hf, if_true]
  simp

/-- The entries of an image whose bytes after the first entry are zero. -/
theorem windowImage_one (l : List Byte) (h : l.length = 16) :
    windowImage (l ++ List.replicate 4080 0) = BitVec.ofNat 128 (leNat l) :: List.replicate 255 0 := by
  unfold windowImage
  rw [show (256 : Nat) = 255 + 1 from rfl, List.range_succ_eq_map, List.map_cons, List.map_map]
  congr 1
  · rw [Nat.mul_zero, List.drop_zero, List.take_append_of_le_length (by omega), List.take_of_length_le (by omega)]
  · rw [show List.replicate 255 (0 : BitVec 128) = (List.range 255).map fun _ => 0 by
      rw [List.map_const', List.length_range]]
    apply List.map_congr_left
    intro k hk
    have hk := List.mem_range.1 hk
    rw [Function.comp, List.drop_append, List.drop_of_length_le (by omega), List.nil_append, List.drop_replicate,
      List.take_replicate, show min 16 (4080 - (16 * (k + 1) - l.length)) = 16 by omega]
    decide

end Sys2Proof.Machine
end

