-- ==== Sys2Proof/Tests/Slice0.lean ====
section
/-!
SUPPORT. Tests on small states: ill-formed terms that WellFormed refuses, slots written out in the spec, single steps whose
results the spec gives, and a witness for the hypotheses of every obligation.
-/
set_option autoImplicit false
set_option Elab.async false

namespace Sys2Proof.Tests
open Sys2Proof Sys2Proof.Machine

/-- A memory operand with no index. -/
def mo (b : Reg) (o : BitVec 24) : MemOp := { base := b, index := 0, scl := 0, ofs := o }

/-! ### Well-formedness: one ill-formed term for each check -/

theorem test_wf_refuses : ([
    (.a, .movi (.slot 3) 1 0), (.x, .movi .always 16 0), (.x, .mov .always 1 (.reg 16)), (.a, .movs .always (.reg 1) 0x001),
    (.a, .movf .always 1 0x014), (.x, .movf .always 1 0x015), (.a, .movs .always (.reg 1) 0x999),
    (.a, .add .always 1 (.reg 1) (.reg 2) (.reg 3) .i16 false), (.x, .add .always 1 (.reg 1) (.reg 2) (.reg 16) .i64 false),
    (.a, .mul .always 1 (.reg 1) (.reg 2) .f32 false), (.a, .clz .always 1 (.reg 1) .i8), (.x, .sel .always 1 (.reg 16) (.reg 1)),
    (.a, .pcmp .always .uo (.reg 1) (.reg 2) .i64), (.a, .pcmp .always .eq (.reg 1) (.imm 2) .f32), (.a, .pand .always 0),
    (.a, .pand .always 16), (.a, .ppop .always 0), (.a, .ppop .always 17), (.a, .pbr .always 8 0), (.a, .brl .always 1 9),
    (.a, .loop .always 7 (.reg 1) 0), (.a, .loopp .always 8 0 1 1 0), (.a, .loopp .always 8 2 2 1 0), (.a, .sts .always .s8 (mo 0 0) (.reg 1)),
    (.a, .xput .always 1 (.reg 1)), (.x, .xget .always 1 1), (.a, .gset .always 15 (.reg 1)), (.x, .ldg .always .w64 1 (mo 0 0)),
    (.a, .stg .always .s16 (mo 0 0) (.reg 1)), (.a, .amo .always .fadd true false 1 2 (.reg 3) 0 0),
    (.a, .amo .always .add true true 1 2 (.reg 3) 0 0), (.a, .amo .always .add true false 1 2 (.reg 3) 4 0),
    (.a, .acc .always .fmin (mo 0 0) 1 .i32 .rne), (.a, .acco .always 1 2 (.reg 3) .n32 .rne 0 0), (.a, .flopen .always .eng false false 1 2 9 0),
    (.a, .flopen .always .eng false false 1 2 0 13), (.a, .flfork .always 1 1 false), (.a, .cpy .always { compl := .none, cw := 2, val := 0 } 0 1),
    (.a, .cpy .always { compl := .barrier, cw := 3, val := 0 } 0 1), (.a, .gath .always { compl := .none, cw := 0, val := 0 } 1 1 (.reg 1) 0),
    (.a, .mrg .always { compl := .none, tgt := 0, val := 0 } .add false 1 1 2 .i32 { rnd := .rne, sat := false }),
    (.a, .mrg .always { compl := .none, tgt := 0, val := 0 } .min false 1 2 3 .i32 { rnd := .rne, sat := true }),
    (.a, .blow .always { compl := .barrier, tgt := 0, val := 1 } 1 2 3), (.a, .winld (.slot 0) 1), (.x, .park .always 1 2 3),
    (.a, .vld .always 1 (mo 0 0) .i32), (.x, .vld .always 1 (mo 0 0) .i64), (.x, .vidx .always (.v 1) (.reg 1) (.reg 2) .i16),
    (.x, .vadd .always (.v 1) (.v 2) (.v 3) .i32 { rnd := .ru, sat := false }), (.x, .vabs .always (.v 1) (.v 2) .n8 false),
    (.x, .vrcp .always (.v 1) (.v 2) .i32 { rnd := .rne, sat := false }), (.x, .vand .always (.v 1) (.v 2) (.v 3) .f32),
    (.x, .vcvt .always (.v 1) (.v 2) .i32 .i16 { rnd := .ru, sat := false }), (.x, .vqnt .always (.v 1) (.v 2) 3 4 .f32 { rnd := .rne, sat := false }),
    (.x, .vhistCount .always (.v 1) .i32), (.x, .vred .always .xor 1 (.v 2) .f32 { rnd := .rne, sat := false }),
    (.x, .defer .always 30 4 1), (.x, .drain .always 1 29 3 false), (.x, .tld .always 8 1), (.x, .mzero .always 4),
    (.x, .tstFlue .always 1 (.tile 2) .f32 { arows := 0, acols := 0 }), (.x, .mmab .always 9 0 1 2), (.x, .mcvt .always 1 2 3 .i64 { rnd := .rne, sat := false }),
    (.a, .damperWindow)] : List (Eng × Instr)).all (fun p => !wf p.1 p.2) = true := by decide +kernel

/-! ### Slots written out in the spec (the chapter is named after each family) -/

/-- What a slot decodes to. -/
def dec (e : Eng) (w : SlotWord) : Option Instr := match decode e w with | .ok i => some i | .error _ => none
/-- The fault of a slot that does not decode. -/
def refusal (e : Eng) (w : SlotWord) : Option FaultCode := match decode e w with | .ok _ => none | .error c => some c

theorem test_decode_scalar : dec .a 0x080000050607002000000000 = some (.add .always 5 (.reg 6) (.reg 7) (.reg 0) .i64 false)
    ∧ dec .a 0x01000009123456789ABCDEF0 = some (.movi .always 9 0x123456789ABCDEF0)
    ∧ dec .a 0x300005040506000001000006 = some (.lds .always .s16 4 { base := 5, index := 6, scl := 1, ofs := 6 }) := by decide +kernel
theorem test_decode_control : dec .x 0x2A080000A300000000000000 = some (.br .top 3)
    ∧ dec .a 0x2C0000A90500000000000018 = some (.loop .always 9 (.reg 5) 24)
    ∧ dec .a 0x2D0000A80506A20000000068 = some (.loopp .always 8 5 6 2 0x68)
    ∧ dec .a 0x200000000A15002000000000 = some (.pcmp .always .eq (.reg 10) (.reg 21) .i64)
    ∧ dec .a 0x3B0000000000000000000000 = some (.yield .always) := by decide +kernel
theorem test_decode_flues : dec .a 0x500019830400000000000022 = some (.flopen .always .copy true true 3 4 2 2)
    ∧ dec .a 0x500000820200000000000000 = some (.flopen .always .eng false false 2 2 0 0)
    ∧ dec .a 0x660011858182097000000100 = some (.mrg .always { compl := .signal, tgt := 0x100, val := 9 } .add true 5 1 2 .f32 { rnd := .rne, sat := false })
    ∧ dec .a 0x670002870105000000000300 = some (.blow .always { compl := .barrier, tgt := 0x300, val := 0 } 7 1 5) := by decide +kernel
theorem test_decode_copies : dec .a 0x610002000000000000040008 = some (.cpy .always { compl := .barrier, cw := 8, val := 0 } 1 0)
    ∧ dec .a 0x620000830000000000040000 = some (.cpyf .always { compl := .none, cw := 0, val := 0 } 3 1)
    ∧ dec .a 0x640000828111000000000000 = some (.gath .always { compl := .none, cw := 0, val := 0 } 2 1 (.reg 17) 0)
    ∧ dec .a 0x6900000000FF000000000300 = some (.bararm .always 0 (.imm 31) 0x300) := by decide +kernel
theorem test_decode_vector : dec .x 0x5A0000252600008A00000007 = some (.vcvt .always (.v 5) (.v 6) .bf16 .f32 { rnd := .sr, sat := false })
    ∧ dec .x 0x5B0000222103045100000000 = some (.vqnt .always (.v 2) (.v 1) 3 4 .i8 { rnd := .rne, sat := true })
    ∧ dec .x 0x410800000000220000008100 = some (.vst .top (mo 0 0x8100) (.v 2) .i32) := by decide +kernel
theorem test_decode_matrix : dec .x 0x730040604041010000003C00 = some (.mmaStamped .always 0 0 1 { reg := 1, ofs := 60 })
    ∧ dec .x 0x750200614243000000000000 = some (.mmab .always 4 1 2 3)
    ∧ dec .x 0x750200604041000000000000 = some (.mmab .always 4 0 0 1) := by decide +kernel
theorem test_decode_memory : dec .a 0x410003000506070003000010 = some (.stg .always .w64 { base := 5, index := 6, scl := 3, ofs := 16 } (.reg 7))
    ∧ dec .a 0x700000000400000000000000 = some (.winld .always 4)
    ∧ dec .a 0x710001030400000000000001 = some (.pgreqR .always 3 4 true)
    ∧ dec .a 0x390002000000000000000000 = some (.fence .always .package) := by decide +kernel
theorem test_decode_slices : dec .a 0x43001A000506000000000010 = some (.amo .always .fadd false true 0 5 (.reg 6) 0 16)
    ∧ dec .a 0x430022070100000000000340 = some (.amo .always .or true false 7 1 (.reg 0) 0 0x340)
    ∧ dec .a 0x440000000506077003000040 = some (.acc .always .add { base := 5, index := 6, scl := 3, ofs := 0x40 } 7 .f32 .rne)
    ∧ dec .a 0x450000000507087000300040 = some (.acco .always 5 7 (.reg 8) .f32 .rne 0x40 3)
    ∧ dec .a 0x460000000000000000000000 = some (.flushe .always) := by decide +kernel
theorem test_decode_work : dec .a 0x780000030400000000000000 = some (.launch .always 3 4)
    ∧ dec .a 0x790000030405060000000000 = some (.launchw .always 3 4 5 6)
    ∧ dec .a 0x7A0000000506A20000000000 = some (.park .always 5 6 2) ∧ dec .a 0x7B0000000000000000000000 = some (.trel .always)
    ∧ dec .a 0x3D0000000000000000000000 = some (.done .always) ∧ dec .x 0xF10000030000000000000012 = some (.snap .always 3 0x12) := by
  decide +kernel
theorem test_decode_refuses : refusal .a 0x390004000000000000000000 = some .illegalOp ∧ refusal .a 0x001800000000000000000000 = some .reservedField
    ∧ refusal .a 0x400000200500000000000000 = some .badOperand ∧ refusal .a 0x089800050607002000000000 = some .guardMisuse := by decide +kernel

/-! ### Small states -/

/-- A hearth of partition 0 runs a context in the midst of a line: both engines stand at the slot 0x10004. -/
def st (e : Eng) (c : Ctx) (h : Hearth := {}) : State :=
  let go (g : EngState) : EngState := { g with pc := 0x10004, line := some 0x10000, done := false }
  { State.reset with
    hearths := [(0, { h with run := .running, act := { c with ae := go c.ae, xe := go c.xe } })], eng := e }

/-- Partition 0 with rafter 0 and the guest frames given. -/
def withPart (s : State) (p : Part) : State := { s with parts := [(0, { p with alive := true, rafters := p.rafters ||| 1 })] }

/-- A resident guest frame in host frame n. -/
def fr (n : Nat) : S2Ent := { v := true, frame := BitVec.ofNat 25 n }

/-- What `Straight` says, as a Bool. -/
def ready (s : State) : Bool :=
  decide (s.cur < nCores) && decide ((s.pc - lineOf s.pc).toNat < 52) &&
    s.es.nest.all fun n => !((s.es.loop n).active && (s.es.loop n).stop == s.pc)

theorem straight_of_ready (s : State) (h : ready s = true) : Straight s := by
  simp only [ready, Bool.and_eq_true, decide_eq_true_eq, List.all_eq_true, Bool.not_eq_true'] at h
  exact ⟨h.1.1, h.1.2, h.2⟩

/-- The state is one in which an unguarded instruction has its effect within its line, and meets what is given beside.
-/
def Meets (s : State) (own : Bool) (p : Prop) : Prop := Straight s ∧ GuardTrue .always own s ∧ p

theorem meets {s : State} {own : Bool} {p : Prop} (h : ready s = true) (q : p) : Meets s own p :=
  ⟨straight_of_ready s h, ⟨_, rfl, by cases s.eng <;> cases own <;> decide⟩, q⟩

/-- The number that an engine's step answers, when it answers a next state. -/
def after {α : Type} (i : Instr) (s : State) (d : α) (f : State → α) : α := match exec i s with | .next u => f u | _ => d

/-! ### Single steps whose results the spec gives -/

/-- Values in a1-a4, or k1-k4. -/
def vals (a b c d : Word) : Ctx := { a := [(1, a), (2, b), (3, c), (4, d)], k := [(1, a), (2, b), (3, c), (4, d)] }
/-- The A engine's register n after an instruction. -/
def regAfter (i : Instr) (s : State) (n : Reg) : Word := after i s 0xBAD (·.reg n)

theorem test_addx_carry :
    regAfter (.addx .always 7 (.reg 1) (.reg 3) (.reg 0) .n64) (st .a (vals (-1) 5 2 7)) 7 = 1 := by decide +kernel
theorem test_add_wraps :
    regAfter (.add .always 5 (.reg 1) (.reg 3) (.reg 0) .n64 false) (st .a (vals (-1) 5 2 7)) 5 = 1 := by decide +kernel
theorem test_add_saturates :
    regAfter (.add .always 8 (.reg 1) (.reg 2) (.reg 0) .i32 true) (st .a (vals 0x7FFFFFFF 1 0 0)) 8 = 0x7FFFFFFF := by decide +kernel
theorem test_add_extends :
    regAfter (.add .always 8 (.reg 1) (.reg 2) (.reg 0) .i32 false) (st .a (vals 0x7FFFFFFF 1 0 0)) 8 = 0xFFFFFFFF80000000 := by decide +kernel
theorem test_addx_overflow :
    regAfter (.addx .always 8 (.reg 1) (.reg 2) (.reg 0) .i32) (st .a (vals 0x7FFFFFFF 1 0 0)) 8 = 1 := by decide +kernel
theorem test_sub_saturates :
    regAfter (.sub .always 8 (.reg 3) (.reg 2) (.reg 0) .n32 true) (st .a (vals (-1) 5 2 7)) 8 = 0 := by decide +kernel
theorem test_div_toward_zero : regAfter (.div .always 8 (.reg 1) (.reg 2) .i32) (st .a (vals (-7) 2 0 0)) 8 = -3 := by decide +kernel
theorem test_rem_sign : regAfter (.rem .always 8 (.reg 1) (.reg 2) .i32) (st .a (vals (-7) 2 0 0)) 8 = -1 := by decide +kernel
theorem test_div_zero : regAfter (.div .always 8 (.reg 1) (.reg 0) .n32) (st .a (vals 9 0 0 0)) 8 = 0xFFFFFFFF := by decide +kernel
theorem test_shl_immediate : regAfter (.shl .always 8 (.reg 1) (.imm 31) .i64) (st .a (vals 1 0 0 0)) 8 = 0 := by decide +kernel
theorem test_zero_register : regAfter (.movi .always 0 7) (st .a {}) 0 = 0 := by decide +kernel
theorem test_false_guard_skips : after (.movi .top 1 7) (st .a { ae := { preds := [0] } }) (0, 0) (fun u => (u.reg 1, u.pc)) = (0, 0x10010) := by
  decide +kernel
theorem test_empty_stack_faults :
    after (.movi .top 1 7) (st .a {}) none (fun u => u.me.fault.map (·.code)) = some .pstackUnder := by decide +kernel
theorem test_lds_order : after (.lds .always .w64 1 (mo 1 0)) (st .a (vals 0x1FFFFC 0 0 0)) none (fun u => u.me.fault.map (·.code))
    = some .scratchRange := by decide +kernel
theorem test_lds_align : after (.lds .always .w64 1 (mo 1 0)) (st .a (vals 0x1FFFF4 0 0 0)) none (fun u => u.me.fault.map fun f => (f.code, f.addr))
    = some (.align, 0x1FFFF4) := by decide +kernel
theorem test_lds_sign : regAfter (.lds .always .s16 4 (mo 1 6)) (st .a (vals 8 0 0 0) { scratch := [(14, 0x34), (15, 0x92)] }) 4
    = 0xFFFFFFFFFFFF9234 := by decide +kernel
theorem test_trap_frame : after (.trap .always 17) (st .a {}) (0, 0) (fun u => (u.pc, (u.me.fault.map (·.addr)).getD 0)) = (0x10004, 17) := by
  decide +kernel
theorem test_trap_returns_after : (trapStep { run := .stopping, act := (st .a {}).ctx, fault := some { code := .trap, addr := 17 } }).act.ae.pc = 0x10010 := by
  decide +kernel
theorem test_sret_privilege : after (.sret .always 1) (st .a {}) none (fun u => u.me.fault.map (·.code)) = some .privilege := by decide +kernel
theorem test_loop_back : after .nop (st .a { ae := { nest := [1], loops := [(1, { remain := 2, active := true, start := 0x20004, stop := 0x10004 })] } }) 0
    (·.pc) = 0x20004 := by decide +kernel
theorem test_xget_same_tick : after (.xget .always 1 1) (st .a { aq := [{ val := 9, since := some 0 }] }) 0 (·.pc) = 0x10004 := by decide +kernel
theorem test_snap_tick : regAfter (.snap .always 3 0x12) { st .a {} { mode := .s } with dcc := 300 } 3 = 768 := by decide +kernel
theorem test_first_step_runs : (match step (State.reset.withFetchWord 96 0x01000009123456789ABCDEF0) with
    | .next u => (u.hearth 0).act.reg .a 9 | _ => 0) = 0x123456789ABCDEF0 := by decide +kernel


/-! ### Witnesses: the machine's step, its guards and its faults -/

def okIs {ε α : Type} (e : Except ε α) (p : α → Bool) : Bool := match e with | .ok a => p a | .error _ => false
def errIs {ε α : Type} (e : Except ε α) (p : ε → Bool) : Bool := match e with | .ok _ => false | .error c => p c
def fbIs {α : Type} (e : Fb α) (p : α → Bool) : Bool := match e with | .ok a => p a | _ => false
def gotIs (e : Got) (p : List Byte → State → Bool) : Bool := match e with | .ok l u => p (l.map (·.1)) u | _ => false
def someIs {α : Type} (e : Option α) (p : α → Bool) : Bool := match e with | some a => p a | none => false

/-- The agenda names an attempt of the engine on hearth 0. -/
def turn (e : Eng) (s : State) : State := { s with agenda := [.engine 0 e] }
/-- A line whose first slot is the instruction. -/
def lineWith (i : Instr) : LineWord := (encode i).setWidth 512 <<< 32
/-- A window entry that maps 1 GiB at 0 for reading, writing and execution. -/
def win1 : Tbl (BitVec 128) := [(0, 0x1F)]
/-- The same with guest frames 0 to 2 in host frames 1 to 3. -/
def mst (e : Eng) (c : Ctx) (h : Hearth := {}) (p : Part := {}) : State :=
  withPart (st e c { h with win := win1 }) { p with s2 := if p.s2 = [] then [fr 1, fr 2, fr 3] else p.s2 }
/-- The engine comes from another line. -/
def away : EngState := { line := some 0x20000, ord := some 0 }

theorem witness_StepRunsDecoded_due : ({ State.reset with due := [.nop] } : State).due = [.nop] := rfl
theorem witness_StepRunsDecoded_event :
    let s := { State.reset with agenda := [.event .snapshotLatch] }
    s.due = [] ∧ s.agenda = [.event .snapshotLatch] ∧ isEvent .snapshotLatch = true := by decide +kernel
theorem witness_StepRunsDecoded_idle : canAct (turn .a State.reset) 0 .a = false ∧ (turn .a State.reset).due = [] := by decide +kernel
theorem witness_StepRunsDecoded_misaligned :
    let s := turn .a ((st .a {}).setPc 0x10005)
    canAct s 0 .a = true ∧ s.due = [] ∧ isSlot s.pc = false := by decide +kernel
theorem witness_StepRunsDecoded_slot :
    let s := turn .a (st .a {})
    canAct s 0 .a = true ∧ s.due = [] ∧ isSlot s.pc = true ∧ s.es.line = some (lineOf s.pc) ∧ dec .a (slotOf s.es.buf s.pc) = some .nop := by
  decide +kernel
theorem witness_StepRunsDecoded_waits :
    let i := Instr.vmov .always (.v 2) (.v 1) .i32
    let s := turn .x (st .x { xe := { buf := lineWith i } } { matq := [{ instr := .mrd .always false 1 0 (.imm 0) }] })
    canAct s 0 .x = true ∧ isSlot s.pc = true ∧ s.es.line = some (lineOf s.pc) ∧ dec .x (slotOf s.es.buf s.pc) = some i
      ∧ waitsOnQueue s.me.matq i = true := by decide +kernel
theorem witness_StepRunsDecoded_refused :
    let s := turn .a (st .a { ae := { buf := 0x001800000000000000000000#512 <<< 32 } })
    canAct s 0 .a = true ∧ isSlot s.pc = true ∧ s.es.line = some (lineOf s.pc)
      ∧ refusal .a (slotOf s.es.buf s.pc) = some .reservedField := by decide +kernel
/-- Another line, of its own engine and of the other. -/
theorem witness_StepRunsDecoded_line : ([(Eng.a, none), (.x, some FaultCode.lineEngine)].all fun p =>
    let t := mst p.1 {} { asks := [{ who := .code p.1, addr := 0x10000 }] }
    let s := turn p.1 (t.setEs { t.es with line := some 0x20000 })
    let v := lineHere s (lineOf s.pc)
    canAct s 0 p.1 && isSlot s.pc && s.es.line != some (lineOf s.pc) && v.1 && okIs (readLine v.2 0 (lineOf s.pc)) fun w =>
      (w.2.es.icache.find? fun q => q.1 == (lineOf s.pc).toNat) == none && linkFault p.1 w.1 == p.2
        && !(w.2.es.line.isSome && slipHeld w.2.ctx w.2.eng (linkOrd w.1)) && dec p.1 (slotOf w.1 s.pc) == some .nop) = true := by
  decide +kernel
theorem witness_StepRunsDecoded_slip :
    let t := mst .a { xe := { ord := some 2, done := false }, ae := { ord := some 5 } } { asks := [{ who := .code .a, addr := 0x10000 }] }
    let s := turn .a { t.setEs { t.es with line := some 0x20000 } with mem := [(2 ^ 21 + 0x10000, 6)] }
    let v := lineHere s (lineOf s.pc)
    canAct s 0 .a = true ∧ v.1 = true ∧ okIs (readLine v.2 0 (lineOf s.pc)) (fun w => linkFault .a w.1 == none
      && (w.2.es.line.isSome && slipHeld w.2.ctx w.2.eng (linkOrd w.1))) = true := by decide +kernel
theorem witness_StepRunsDecoded_source : ([([], none), ([2], some 2)].all fun (p : List Nat × Option Nat) =>
    let s := turn .a (st .a { ae := { buf := lineWith (.mov .always 2 (.reg 1)) }, bad := p.1 })
    canAct s 0 .a && isSlot s.pc && s.es.line == some (lineOf s.pc) && dec .a (slotOf s.es.buf s.pc) == some (.mov .always 2 (.reg 1))
      && poisonedSource s (.mov .always 2 (.reg 1)) == p.2) = true := by decide +kernel
theorem witness_StepRunsDecoded_misuse :
    let s := turn .a (st .a { ae := { buf := 0x089800050607002000000000#512 <<< 32 } })
    canAct s 0 .a = true ∧ isSlot s.pc = true ∧ s.es.line = some (lineOf s.pc) ∧ refusal .a (slotOf s.es.buf s.pc) = some .guardMisuse := by decide +kernel

theorem witness_EncodeDecode : wf .a (.movi .always 9 0x123456789ABCDEF0) = true ∧ wf .x (.vsel .top (.v 1) (.f 2) (.v 3)) = true := by decide +kernel
theorem witness_StoresInvariant : State.reset.StoresOk ∧ ∃ t, step { State.reset with due := [.nop] } = .next t :=
  ⟨⟨by decide, by decide⟩, _, rfl⟩
theorem witness_GuardsAndModes :
    let i := Instr.winld .always 1
    let t := st .a {}
    let u := st .a { ae := { preds := [0] } } { mode := .s }
    guardOf i = some .always ∧ t.cur < nCores ∧ t.me.mode.allows (needMode i) = false
      ∧ guardOf (.winld .top 1) = some .top ∧ u.me.mode.allows (needMode i) = true ∧ guardMask .top ({ u with eng := .x } : State).es.preds = none
      ∧ guardMask .top u.es.preds = some 0 := by decide +kernel
theorem witness_GuardsAndModes_straight : Straight (st .a { ae := { preds := [0] } }) := straight_of_ready _ (by decide +kernel)
theorem witness_MemoryFrame : guardOf (.stg .always .w64 (mo 1 0) (.reg 2)) = some .always ∧ writesRecords (.stg .always .w64 (mo 1 0) (.reg 2)) = false
    ∧ (match exec (.stg .always .w64 (mo 1 0) (.reg 2)) (mst .a (vals 0x400 7 0 0)) with | .next u => u.me.held.length | _ => 0) = 1 := by
  decide +kernel
theorem witness_FaultEntry :
    let f : FaultRec := { code := .trap }
    let s := st .a {}
    let stop := s.setMe { s.me with run := .stopping, fault := some f }
    s.me.run = .running ∧ (stop.hearth 0).run = .stopping ∧ (stop.hearth 0).fault = some f ∧ ({ src := 0 } : FaultRec).rank < ({ src := 1 } : FaultRec).rank
      ∧ f.rank ≤ f.rank ∧ (State.reset.hearth 0).run = .free := by decide +kernel
theorem witness_FaultEntry_trap : Meets (st .a {}) false True := meets (by decide +kernel) trivial
/-- X stands at a slot that does not decode while A's fault stops the hearth, and the other way round. -/
theorem witness_FaultEntry_meet : ([(0, Eng.x), (1, .a)].all fun (p : BitVec 3 × Eng) =>
    let c : Ctx := match p.2 with
      | .a => { ae := { buf := 0x001800000000000000000000#512 <<< 32 } } | .x => { xe := { buf := 0x001800000000000000000000#512 <<< 32 } }
    let s := (st .a c).modHearth 0 fun x => { x with run := .stopping, fault := some { code := .trap, src := p.1 } }
    (s.hearth 0).run == .stopping && (faultOf s 0 p.2).isSome && ((s.hearth 0).fault.map (·.src)) == some p.1) = true := by decide +kernel
theorem witness_FaultEntry_saving :
    let s := st .a {}
    let s := s.modHearth 0 fun x => { x with run := .saving }
    (s.hearth 0).run = .saving ∧ (s.hearth 0).fault = none := by decide +kernel
theorem test_fault_meets_trap : (match exec (.hearthStop 0) (beforeDue (.hearthStop 0) ((st .a {}).modHearth 0 fun x =>
    { x with run := .stopping, fault := some { code := .trap, addr := 5, src := 5 } })) with
    | .next u => ((u.hearth 0).act.frame.code, (u.hearth 0).act.frame.faddr) | _ => (0, 0)) = (FaultCode.code .trap, 5) := by decide +kernel

/-! ### Witnesses: scalar instructions and control -/

theorem witness_AddSubAddx : Meets (st .a (vals 0x7FFFFFFFFFFFFFFF 1 0 0)) false (WF.scalarTy .i64 = true ∧ WF.scalarTy .n32 = true) :=
  meets (by decide +kernel) (by decide)
theorem witness_MulDivRem : Meets (st .a (vals 0x8000000000000000 (-1) 0 0)) false (WF.scalarTy .i64 = true) :=
  meets (by decide +kernel) (by decide)
theorem witness_LogicalAndShift : Meets (st .a (vals 1 64 63 0)) false (WF.scalarTy .n64 = true) := meets (by decide +kernel) (by decide)
theorem witness_MoveSelectCount : Meets (st .a (vals 1 2 0 0)) false (WF.scalarTy .i32 = true) := meets (by decide +kernel) (by decide)
theorem witness_MoveSelectCount_sel :
    Meets (st .x { xe := { preds := [1] } }) false ((st .x { xe := { preds := [1] } }).es.preds = [1] ∧ (st .x {}).es.preds = []) :=
  meets (by decide +kernel) (by decide +kernel)
/-- The last byte of the scratchpad, one byte past it, and an address that is not aligned. -/
theorem witness_ScratchAndLiterals :
    let s := st .a (vals 0x1FFFF8 0x1FFFFC 12 0)
    Meets s false ((s.reg 1).toNat + 8 ≤ 2 ^ 21 ∧ (s.reg 1).toNat % 8 = 0 ∧ poisoned s.me 0x1FFFF8 8 = false ∧ 2 ^ 21 < (s.reg 2).toNat + 8
      ∧ (s.reg 3).toNat + 8 ≤ 2 ^ 21 ∧ (s.reg 3).toNat % 8 ≠ 0) := meets (by decide +kernel) (by decide +kernel)
theorem witness_ScratchAndLiterals_poison : poisoned ({ poison := [0x7FFFE] } : Hearth) 0x1FFFF8 8 = true
    ∧ NoTail {} 0x1FFFF8 8 ∧ (({} : Hearth).store 0x1FFFF8 [1]).isOk = true := by decide +kernel
/-- A store to the tail word of a kind 4 flue with room for two slots, and to publish three. -/
theorem witness_ScratchAndLiterals_tail : ([(2, true), (3, false)].all fun (p : Nat × Bool) =>
    let f : Flue := { base := 0x2000, kind := 4, cc := 1, opened := true }
    let x : Hearth := { act := { flues := [(5, f)] } }
    let y := x.writeScratch 0x1FF0 (leBytes 8 p.1)
    x.tailTouched 0x1FF0 8 == [5] && x.serves != .stopped && y.readScratch 0x1FF0 4 == p.1 && decide (p.1 ≤ x.act.freeSlots 5) == p.2) = true := by decide +kernel
theorem witness_ScratchAndLiterals_ldl :
    let s := mst .a {}
    Meets s false (((lineOf s.pc + 56).toNat % 8 = 0 ∧ 4 ≤ (lineOf s.pc + 56).toNat % 64) ∧ (lineOf s.pc + 2).toNat % 4 ≠ 0 ∧
      okIs (readLine s 0 (lineOf (lineOf s.pc + 56))) (fun w => linkEng (cachedLine w.2 (lineOf s.pc) w.1).1 != 2) = true) :=
  meets (by decide +kernel) (by decide +kernel)
/-- A literal line: its link word's engine field is 2. -/
theorem witness_ScratchAndLiterals_literal :
    let s := { mst .a {} with mem := [(2 ^ 21 + 0x10003, 0x80)] }
    okIs (readLine s 0 0x10000) (fun w => linkEng (cachedLine w.2 0x10000 w.1).1 == 2) = true := by decide +kernel
theorem witness_SystemRegisters :
    let s := st .a (vals 1 0 0 0)
    Meets s false (s.me.mode = .t ∧ s.cur < 192 ∧ s.ctx.mergeq = [] ∧ s.me.tileBusy 0 = false ∧ okIs (s.ctx.writeSys 0x011 1) (fun _ => true) = true
      ∧ okIs (s.ctx.writeSys 0x013 0x80000000000) (fun _ => true) = true) := meets (by decide +kernel) (by decide +kernel)
theorem witness_SystemRegisters_modes : ([Mode.s, .h].all fun m => (st .a {} { mode := m }).me.mode != .t) = true := by decide +kernel
theorem witness_Predicates : ([16, 15, 2, 1, 0].all fun n => ready (st .a { ae := { preds := List.replicate n 1 } })
    && (st .a { ae := { preds := List.replicate n 1 } }).es.preds.length == n) = true ∧ WF.intTy .i16 = true := by decide +kernel
theorem witness_Branches : Meets (st .x { xe := { b := [(3, 0x20004)] } }) false True := meets (by decide +kernel) trivial
theorem witness_Loops :
    let s := st .a { ae := { b := [(2, 0x30004)] }, a := [(1, 3), (2, 0x100000000), (4, 0xFFFFFFFF)] }
    Meets s false (isSlot (s.pc + 24) = true ∧ s.pc + 24 ≠ s.pc ∧ (s.es.loop 1).active = false ∧ s.es.nest = [] ∧ s.reg 1 ≠ 0
      ∧ (s.reg 4).toNat < 2 ^ 32 ∧ 2 ^ 32 ≤ (s.reg 2).toNat ∧ s.reg 3 = 0 ∧ (s.pc + 24 - lineOf (s.pc + 24)).toNat < 52
      ∧ isSlot (s.breg 2) = true) := meets (by decide +kernel) (by decide +kernel)
theorem witness_Loops_end : ([1, 2].all fun r =>
    let s := st .a { ae := { nest := [1], loops := [(1, { remain := r, active := true, start := 0x20004, stop := 0x10004 })] } }
    s.es.nest == [1] && (s.es.loop 1).active && (s.es.loop 1).stop == s.pc && !(s.es.loop 1).pipe && (s.es.loop 1).remain == r
      && decide (s.cur < nCores) && decide ((s.pc - lineOf s.pc).toNat < 52)) = true := by decide +kernel
theorem witness_CrossQueues : ([0, 7, 8].all fun n =>
    let s := st .a { xq := List.replicate n { val := 1 }, aq := [{ val := 2 }] }
    ready s && (s.ctx.outQ .a).length == n) = true
    ∧ (st .a { aq := [{ val := 2, since := some 0 }] }).dcc = 0 ∧ ((st .a {}).ctx.outQ .x) = [] := by decide +kernel
theorem witness_GuardSlotsAndYield :
    let s := st .a { guards := [(2, .pending)], copyq := [{ held := true, g := 18 }, { held := true, g := 19 }] } { req := some {} }
    let t := st .a { ae := { clamp := some 1 } }
    Meets s false (s.ctx.gstate 2 = .pending ∧ s.ctx.gstate 3 ≠ .pending ∧ s.me.req = some {} ∧ s.es.clamp = none ∧ t.me.req = none ∧ t.es.clamp = some 1) :=
  meets (by decide +kernel) (by decide +kernel)

/-! ### Witnesses: flues, copies and units at their issue -/

/-- An open flue of the given kind in RESTART mode: slots of 64 bytes, two of them, one full. -/
def fl (kind : BitVec 3) : Flue :=
  { base := 0x1000, cc := 1, kind := kind, restart := true, opened := true, head := 0, read := 1, tail := 2, claim := 2 }
/-- A descriptor of four bytes of the scratchpad: N8, rank 1, stride 1. -/
def td4 (ty base : Nat) : BitVec 1024 :=
  BitVec.ofNat 1024 (base + ty * 2 ^ 64 + 2 ^ 68 + 2 * 2 ^ 78 + 4 * 2 ^ 128 + 2 ^ (8 * 0x38))
/-- Descriptor 0 names the bytes from 0x200 on, descriptor 1 those from 0x100 on. -/
def tds : Tbl (BitVec 1024) := [(0, td4 5 0x200), (1, td4 5 0x100)]

theorem witness_FlueOpenClose_open :
    let s := st .a { a := [(1, 64), (2, 65), (3, 0x1FFFC0), (4, 2097152 - 66)], flues := [(5, fl 0), (6, { fl 0 with forked := true, peer := 7 }), (7, { fl 0 with fork := true, peer := 6 })] }
    Meets s false ((s.me.flue 5).opened = true ∧ (s.me.flue 8).opened = false ∧ (s.reg 1).toNat % 64 = 0 ∧ (s.reg 1).toNat + 64 + 2 ≤ 2 ^ 21
      ∧ s.me.act.meets 64 130 = false ∧ (s.reg 2).toNat % 64 ≠ 0 ∧ 2 ^ 21 < (s.reg 3).toNat + 64 + 2 ∧ (s.me.flue 5).fork = false ∧ (s.me.flue 5).forked = false
      ∧ (s.me.flue 5).forked = false ∧ s.me.flueHeld 5 = false ∧ s.me.flueNamed 5 = false ∧ (s.me.flue 7).fork = true ∧ (s.me.flue 7).forked = false) :=
  meets (by decide +kernel) (by decide +kernel)
theorem witness_FlueOpenClose_named :
    let s := st .a { flues := [(5, fl 1)], copyq := [{ op := 0x62, fd := 5 }] }
    Meets s false ((s.me.flue 5).opened = true ∧ (s.me.flue 5).forked = false ∧ s.me.flueHeld 5 = false ∧ s.me.flueNamed 5 = true) :=
  meets (by decide +kernel) (by decide +kernel)
/-- Marks 1 and 2 stand at READ and one before it; mark 3 is later than the READ of flue 6. -/
theorem witness_FlueMarksAndReleases :
    let f : Flue := { fl 0 with mark1 := 0, mark2 := 0, mark3 := 2, mmode := 0b01100100 }
    let s := st .x { flues := [(5, f), (6, { f with read := 1, claim := 3 })] }
    Meets s false ((s.me.flue 5).opened = true ∧ (s.me.flue 8).opened = false ∧ f.markMode 0 = 0 ∧ f.markMode 1 = 1 ∧ earlier f.read (f.mark 1) = false
      ∧ f.markMode 2 = 2 ∧ earlier f.read (f.mark 2) = false ∧ f.markMode 3 = 1 ∧ earlier f.read (f.mark 3) = true
      ∧ (f.claim - f.mark 2).toNat ≤ f.slots ∧ f.slots < ((s.me.flue 6).claim - (s.me.flue 6).mark 2).toNat) :=
  meets (by decide +kernel) (by decide +kernel)
theorem witness_FlueMarksAndReleases_x :
    let s := st .x { flues := [(5, { fl 0 with restart := false })] }
    Meets s true ((s.me.flue 5).opened = true ∧ (s.me.flue 8).opened = false ∧ ((s.me.flue 5).read - (s.me.flue 5).head).toNat = 1
      ∧ (s.src (.imm 1)).toNat = 1 ∧ (s.src (.imm 2)).toNat = 2 ∧ (s.me.flue 5).restart = false ∧ s.es.preds.length < 16) :=
  meets (by decide +kernel) (by decide +kernel)
/-- Flue 5 has one free slot and one full, flue 6 two full slots and none claimed, flue 7 is fed by a copy. -/
theorem witness_FlueClaimsAndWaits :
    let s := st .a { flues := [(5, { fl 0 with head := 1, tail := 2, claim := 2 }), (6, { fl 0 with claim := 3, head := 1 }), (7, fl 1)] }
    Meets s false ((s.me.flue 8).opened = false ∧ (s.me.flue 5).kind = 0 ∧ (s.me.flue 5).fed ≠ 2 ∧ s.me.act.freeSlots 5 = 1 ∧ (s.src (.imm 1)).toNat = 1
      ∧ (s.src (.imm 2)).toNat = 2 ∧ ((s.me.flue 5).claim - (s.me.flue 5).tail).toNat = 0 ∧ ((s.me.flue 6).claim - (s.me.flue 6).tail).toNat = 1
      ∧ (s.me.flue 7).kind ≠ 0 ∧ (s.me.flue 5).slots = 2 ∧ s.me.act.fullSlots 5 = 1 ∧ (s.src (.imm 3)).toNat = 3 ∧ s.me.act.primary 5 = 5) :=
  meets (by decide +kernel) (by decide +kernel)

theorem witness_CopyIssue :
    let c : Ctx := { td := tds, flues := [(1, fl 1), (2, fl 2), (3, fl 0)] }
    let s := st .a c
    Meets s false (Binds .always s false ∧ (tdesc (s.ctx.desc 0)).valid = true ∧ (tdesc (s.ctx.desc 1)).valid = true ∧ (tdesc (s.ctx.desc 2)).valid = false
      ∧ (tdesc (s.ctx.desc 0)).ty = (tdesc (s.ctx.desc 1)).ty ∧ (tdesc (s.ctx.desc 0)).planes = (tdesc (s.ctx.desc 1)).planes
      ∧ (tdesc (s.ctx.desc 0)).byteCount = (tdesc (s.ctx.desc 1)).byteCount ∧ s.ctx.copyq.length < 64 ∧ (s.src (.imm 3)).toNat < 2 ^ 32
      ∧ (s.ctx.flue 1).kind = 1 ∧ (s.ctx.flue 1).opened = true ∧ (s.ctx.flue 2).kind = 2 ∧ (s.ctx.flue 2).fork = false ∧ (s.ctx.flue 3).opened = true) :=
  meets (by decide +kernel) (by simp only [Binds]; decide +kernel)
/-- The last barrier of the scratchpad, a full queue, and the two states of a guard slot that bind. -/
theorem witness_CopyIssue_ends : 8 * ((2 ^ 18 - 2 : Nat)) + 16 ≤ 2 ^ 21 ∧ 8 * ((2 ^ 18 - 2 : Nat)) % 16 = 0
    ∧ (st .a { copyq := List.replicate 64 {} }).ctx.copyq.length = 64 := by decide +kernel
theorem witness_CopyIssue_guards : Binds (.slot 1) (st .a { guards := [(1, .pending)] }) true ∧ Binds (.slot 1) (st .a { guards := [(1, .isTrue)] }) false := by
  simp only [Binds]; decide +kernel
theorem witness_CopyIssue_tdset :
    let s := st .a (vals 0x1FFF80 0x40 0 0) { scratch := mwrite [] 0x1FFF80 (leBytes 128 (td4 5 0x200).toNat) }
    Meets s false ((s.reg 1).toNat + 128 ≤ 2 ^ 21 ∧ (s.reg 1).toNat % 8 = 0 ∧ poisoned s.me (s.reg 1).toNat 128 = false ∧ (s.reg 2).toNat < 2 ^ 48
      ∧ (tdesc (BitVec.ofNat 1024 (leNat (mbytes s.me.scratch (s.reg 1).toNat 128)))).valid = true ∧ s.me.tdNamed 0 = false) :=
  meets (by decide +kernel) (by decide +kernel)
theorem witness_UnitIssue :
    let s := st .a { flues := [(1, fl 3), (2, fl 5), (3, fl 0)], a := [(1, 0xFFFFFFFF)], mergeq := List.replicate 3 {}, blowq := List.replicate 4 {} }
    Meets s false (Binds .always s false ∧ (s.ctx.flue 4).opened = false ∧ (s.ctx.flue 3).kind ≠ 3 ∧ (s.ctx.flue 1).kind = 3 ∧ (s.ctx.flue 1).opened = true
      ∧ (s.ctx.flue 1).fork = false ∧ (s.ctx.flue 2).kind = 5 ∧ (s.reg 1).toNat < 2 ^ 32 ∧ s.ctx.mergeq.length < 4 ∧ ¬ s.ctx.blowq.length < 4
      ∧ (0x1FFFF0 : BitVec 21).toNat + 16 ≤ 2 ^ 21 ∧ (0x1FFFF0 : BitVec 21).toNat % 16 = 0) := meets (by decide +kernel) (by simp only [Binds]; decide +kernel)
/-- A barrier at the end of the scratchpad in phase 1 with 5 pending; one that a credit has brought to −5; addresses
past the end and not aligned. -/
theorem witness_BarrierInstructions :
    let b := barrierBytes { pending := 5, phase := true, err := false, armed := 5 }
    let s := st .a (vals 0x1FFFF0 0x200000 8 0) { scratch := mwrite (mwrite [] 0x100 (barrierBytes { pending := -5, phase := false, err := false, armed := 3 })) 0x1FFFF0 b }
    Meets s false ((s.reg 1).toNat + 16 ≤ 2 ^ 21 ∧ (s.reg 1).toNat % 16 = 0 ∧ 2 ^ 21 < (s.reg 2).toNat + 8 ∧ (s.reg 3).toNat % 16 ≠ 0
      ∧ NoTail s.me (s.reg 1).toNat 16 ∧ poisoned s.me (s.reg 1).toNat 16 = false
      ∧ sextNat 40 (s.src (.imm 0)).toNat = 0 ∧ sextNat 40 (s.src (.imm 31)).toNat < 0 ∧ 0 < sextNat 40 (s.src (.imm 5)).toNat
      ∧ wrap 40 ((readBarrier s.me.scratch 0x1FFFF0).pending + 5) ≠ 0 ∧ wrap 40 ((readBarrier s.me.scratch 0x100).pending + 5) = 0
      ∧ wrap 40 ((readBarrier s.me.scratch 0x100).armed + 5) ≠ 0 ∧ (readBarrier s.me.scratch 0x1FFFF0).phase = (s.src (.imm 1)).getLsbD 0
      ∧ (readBarrier s.me.scratch 0x1FFFF0).phase ≠ (s.src (.imm 0)).getLsbD 0) := meets (by decide +kernel) (by decide +kernel)
theorem witness_BarrierInstructions_word :
    let s := st .a (vals 0x1FFFF8 4 0 0)
    Meets s false ((s.reg 1).toNat + 8 ≤ 2 ^ 21 ∧ (s.reg 1).toNat % 8 = 0 ∧ (s.reg 2).toNat % 8 ≠ 0 ∧ poisoned s.me 0x1FFFF8 8 = false
      ∧ leNat (mbytes s.me.scratch 0x1FFFF8 8) = (s.src (.imm 0)).toNat) := meets (by decide +kernel) (by decide +kernel)
/-- A wait at a barrier, at a word, and one that a write has ended. -/
theorem witness_BarrierInstructions_watch :
    let s := st .a (vals 0x1FFFF0 0x1FFFF8 0 0)
    let w := s.setWatch (some { addr := 0x1FFFF0, bar := true })
    let v := s.setWatch (some { addr := 0x1FFFF8, met := some 3 })
    Meets s false (s.watch = none ∧ w.watch = some { addr := 0x1FFFF0, bar := true } ∧ v.watch = some { addr := 0x1FFFF8, met := some 3 }
      ∧ ({ addr := 0x1FFFF0, bar := true } : Watch).met = none ∧ poisoned w.me 0x1FFFF0 16 = false ∧ poisoned v.me 0x1FFFF8 8 = false) :=
  meets (by decide +kernel) (by decide +kernel)
theorem witness_BarrierInstructions_waiting : ready ((st .a (vals 0x1FFFF0 0 0 0)).setWatch (some { addr := 0x1FFFF0, bar := true })) = true := by decide +kernel

/-! ### Witnesses: memory, slices, firebox instructions -/

/-- A line of the phase cache, and a frame that an address reaches. -/
theorem witness_LoadsAndStores :
    let s := mst .a (vals 0x400 0x401 0x40000000 0) { pcache := [(0x400, 7)] }
    Meets s false ((s.memAddr (mo 1 0)).toNat % 8 = 0 ∧ (s.memAddr (mo 2 0)).toNat % 8 ≠ 0 ∧ errIs (translate s 0 .read (s.memAddr (mo 3 0))) (· != .machineCheck) = true
      ∧ okIs (translate s 0 .read (s.memAddr (mo 1 0))) (fun t => (s.me.pcache.find? fun p => p.1 == lineNo t.gpa).isSome && !s.me.needsRoom (lineNo t.gpa)) = true
      ∧ okIs (translate s 0 .write (s.memAddr (mo 1 0))) (fun _ => true) = true ∧ okIs (translate s 0 .multicast (s.memAddr (mo 1 0))) (fun _ => true) = true
      ∧ errIs (translate s 0 .write (s.memAddr (mo 3 0))) (· != .machineCheck) = true
      ∧ errIs (translate s 0 .multicast (s.memAddr (mo 3 0))) (· != .machineCheck) = true ∧ s.me.held = []) := meets (by decide +kernel) (by decide +kernel)
/-- A load that has waited goes on with the translation of its issue, the last eight bytes of a line. -/
theorem witness_LoadsAndStores_issue :
    let i : Issue := { gpa := 0x438, dva := 0x438, ent := fr 1 }
    let s := mst .a (vals 0x400 0x401 0x40000000 0) { pcache := [(0x400, 7)], issue := some i }
    Meets s false (s.me.issue = some i ∧ i.lost = false ∧ i.poison = none ∧ s.me.held = [] ∧ i.gpa % 64 + 8 ≤ 64 ∧ (mst .a {}).me.issue = none
      ∧ (s.me.pcache.find? fun p => p.1 == lineNo i.gpa).isSome = true) := meets (by decide +kernel) (by decide +kernel)
theorem witness_AmoFencePhase :
    let s := mst .a (vals 0x400 0x401 0 0)
    let sent := mst .a { amo := .sent 1 }
    let got := mst .a { amo := .got 5 }
    Meets s false (s.ctx.amo = .none ∧ (s.reg 1).toNat % 8 = 0 ∧ (s.reg 2).toNat % 4 ≠ 0 ∧ okIs (translate s 0 .both (s.reg 1)) (fun _ => true) = true
      ∧ sent.ctx.amo = .sent 1 ∧ got.ctx.amo = .got 5 ∧ fenceHolds s 3 = true ∧ s.me.held = [] ∧ landedAll s 0 = true) := meets (by decide +kernel) (by decide +kernel)
theorem witness_AmoFencePhase_waits :
    let s := { mst .a { copyq := [{}] } with slices := [(0, { inq := [{}] })] }
    Meets s false (fenceHolds s 0 = false ∧ landedAll s 0 = false) := meets (by decide +kernel) (by decide +kernel)
/-- A window image at guest address 0x1000 whose entry 0 maps 64 KiB; one at 0x2000 whose entry 0 is not aligned. -/
theorem witness_ResidencyInstructions_winld :
    let s := { mst .a (vals 0x1000 0x1004 0x2000 0) { mode := .s } with mem := [(0x201000, 0x1D), (0x202000, 2), (0x202002, 1)] }
    Meets s false (s.me.mode ≠ .t ∧ (s.reg 1).toNat % 4096 = 0 ∧ (s.reg 2).toNat % 4096 ≠ 0 ∧ s.ownerOf 0 = some 0 ∧ s.me.translating = false
      ∧ okIs (readWindowImage s 0 0x1000) (fun w => w.1 == leBytes 16 0x1D ++ List.replicate 4080 0) = true
      ∧ okIs (readWindowImage s 0 0x2000) (fun w => errIs (checkWindows (windowImage w.1)) (· == 0)) = true) := meets (by decide +kernel) (by decide +kernel)
theorem witness_ResidencyInstructions_image : checkWindows (windowImage (leBytes 16 0x1D ++ List.replicate 4080 0)) = .ok [(0, 0x1D)] := by
  rw [windowImage_one _ (by decide)]
  exact checkWindows_one _ _ (by decide) (by decide) (by decide)
theorem witness_ResidencyInstructions_requests :
    let s := mst .a (vals 0x400 0x40000000 0 0)
    let posted := mst .a {} { pg := .posted }
    let served := mst .a {} { pg := .served 3 }
    Meets s false (s.me.mode = .t ∧ s.me.pg = .none ∧ posted.me.pg = .posted ∧ served.me.pg = .served 3 ∧ lookupWin s.me.win (s.reg 2) = none
      ∧ errIs (translate s 0 .any (s.reg 2)) (· != .machineCheck) = true ∧ (lookupWin s.me.win (s.reg 1)).all (·.r) = true
      ∧ okIs (translate s 0 .any (s.reg 1)) (fun t => !t.ent.nr && !t.ent.remote && t.ent.frame.toNat / 2 ^ 21 == dieOf s.cur) = true) :=
  meets (by decide +kernel) (by decide +kernel)
theorem witness_ResidencyInstructions_wait : ([true, false].all fun b =>
    let t : Tbl (BitVec 128) := [(0, 0x1D)]
    let s := mst .a { vals 0x1000 0 0 0 with blowq := if b then [{}] else [] } { mode := .s, winld := some t }
    ready s && s.me.mode != .t && s.me.winld == some t && s.ownerOf 0 == some 0 && s.me.translating == b) = true := by decide +kernel
theorem witness_ResidencyInstructions_first : (mst .a { blowq := [{}] } { mode := .s }).me.winld = none
    ∧ (mst .a { blowq := [{}] } { mode := .s }).me.translating = true ∧ (mst .a {} { mode := .s }).me.translating = false := by decide +kernel
theorem witness_EmberAccumulate :
    let e : Ember := { state := .held, line := 0x10 }
    let c : Ctx := { vals 0x400 0x1FFFC0 0x1FFFC8 0x1FFFD0 with ea := 2, embers := [(0, e), (3, { e with state := .inflight, line := 0x20 })] }
    let s := mst .a c
    Meets s false ((s.memAddr (mo 1 0)).toNat % 64 = 0 ∧ (s.memAddr (mo 3 0)).toNat % 64 ≠ 0 ∧ (s.reg 2).toNat + 64 ≤ 2 ^ 21 ∧ 2 ^ 21 < (s.reg 4).toNat + 64
      ∧ (s.reg 2).toNat % 64 = 0 ∧ poisoned s.me (s.reg 2).toNat 64 = false ∧ okIs (translate s 0 .write 0x400) (fun _ => true) = true
      ∧ s.ctx.emberOf 0x10 = some 0 ∧ s.ctx.emberOf 0x20 = some 3 ∧ s.ctx.emberOf 0x30 = none ∧ s.ctx.ea ≤ s.ctx.emberCount) :=
  meets (by decide +kernel) (by decide +kernel)
theorem witness_EmberAccumulate_new :
    let s := mst .a { vals 0x400 0x1FFFC0 0x1FFF88 0 with ea := 1 }
    Meets s false (s.ctx.emberOf 0x10 = none ∧ s.ctx.emberCount < s.ctx.ea ∧ s.ctx.freeEmber = some 0 ∧ (s.reg 3).toNat + 64 ≤ 2 ^ 21 ∧ (s.reg 3).toNat % 64 ≠ 0
      ∧ s.ctx.embers = [] ∧ accPending s 0 = false) := meets (by decide +kernel) (by decide +kernel)
theorem witness_EmberAccumulate_issue :
    let i : Issue := { dva := 0x400, gpa := 0x400, ent := fr 1, data := 5 }
    let e : Ember := { state := .inflight, line := 0x10 }
    let s := mst .a { ea := 2 } { issue := some i }
    let w := mst .a { ea := 2, embers := [(0, e)] } { issue := some i }
    Meets s false (s.me.issue = some i ∧ s.ctx.emberOf (i.dva.extractLsb' 6 42) = none ∧ s.ctx.emberCount < s.ctx.ea ∧ s.ctx.freeEmber = some 0
      ∧ w.ctx.emberOf (i.dva.extractLsb' 6 42) = some 0 ∧ (w.ctx.ember 0).state = .inflight) := meets (by decide +kernel) (by decide +kernel)
theorem witness_OrderedSequences :
    let q : SeqSlot := { opened := true, issued := true, lo := 4, count := 4, last := 5, span := 8 }
    let s := mst .a { a := [(1, 8 * 2 ^ 32), (2, 4), (3, 4), (4, 5), (5, 0x400), (6, 0x1FFFC0)], seqs := [(1, q), (2, { q with issued := false })] }
    Meets s false (s.ctx.seqWait = none ∧ (s.ctx.seq 0).opened = false ∧ ((s.reg 1).extractLsb' 32 32).toNat = 8 ∧ 8 < 4 + (s.reg 4).toNat ∧ s.ctx.acco = none
      ∧ (s.reg 5).toNat % 64 = 0 ∧ (s.reg 6).toNat + 64 ≤ 2 ^ 21 ∧ (s.reg 6).toNat % 64 = 0 ∧ poisoned s.me (s.reg 6).toNat 64 = false
      ∧ (s.src (.imm 7)).toNat < 4 + 4 ∧ (s.ctx.seq 1).last.toNat < (s.src (.imm 7)).toNat ∧ (s.src (.imm 5)).toNat ≤ (s.ctx.seq 1).last.toNat
      ∧ (s.ctx.seq 2).issued = false ∧ (s.src (.imm 4)).toNat = 4 ∧ (s.src (.imm 8)).toNat = 8 ∧ okIs (translate s 0 .write (s.reg 5)) (fun _ => true) = true) :=
  meets (by decide +kernel) (by decide +kernel)
theorem witness_OrderedSequences_waits :
    let s := { mst .a { seqWait := some { uid := 1 }, acco := some 7 } with seqAcks := [{ uid := 1 }] }
    Meets s false (s.ctx.seqWait = some { uid := 1, stage := .opening } ∧ (s.seqAck 1).left = 0 ∧ (s.seqAck 1).rejected = false ∧ s.ctx.acco = some 7
      ∧ (∀ p ∈ s.slices, ∀ m ∈ p.2.accoq, m.uid ≠ 7) ∧ ({ s with seqAcks := [{ uid := 1, left := 1 }] }.seqAck 1).left ≠ 0
      ∧ (∃ p ∈ ({ s with slices := [(0, { accoq := [{ uid := 7 }] })] } : State).slices, ∃ m ∈ p.2.accoq, m.uid = 7)) :=
  meets (by decide +kernel) (by decide +kernel)
/-- SEQCLOSE of a closed slot, of an open one, with acknowledgements left and without, and at the end of a WAIT. -/
theorem witness_OrderedSequences_close :
    let q : SeqSlot := { opened := true, key := 9, lo := 4, count := 4, span := 8 }
    let s := mst .a { seqs := [(1, q)] }
    let w : SeqWait := { uid := 1, slot := 1, stage := .closing }
    let r : SeqWait := { w with stage := .retiring }
    let v := { mst .a { seqs := [(1, q)], seqWait := some w } with seqAcks := [{ uid := 1 }] }
    let l := { v with seqAcks := [{ uid := 1, left := 3 }] }
    let z := mst .a { seqs := [(1, { q with opened := false })], seqWait := some r }
    Meets s false (s.ctx.seqWait = none ∧ (s.ctx.seq 0).opened = false ∧ (s.ctx.seq 1).opened = true ∧ v.ctx.seqWait = some w ∧ w.slot = 1 ∧ w.stage = .closing
      ∧ (v.seqAck 1).left = 0 ∧ (v.ctx.seq 1).ports = 0 ∧ (∀ p ∈ v.slices, p.2.keyRec v.ctx.part 9 = none) ∧ (l.seqAck 1).left ≠ 0
      ∧ z.ctx.seqWait = some r ∧ r.stage = .retiring ∧ (z.ctx.seq 1).ports = 0 ∧ (∀ p ∈ z.slices, p.2.keyRec z.ctx.part 9 = none)) :=
  meets (by decide +kernel) (by decide +kernel)
theorem witness_OrderedSequences_ready : ready { mst .a { seqWait := some { uid := 1, slot := 1, stage := .closing } } with seqAcks := [{ uid := 1 }] } = true := by
  decide +kernel

/-- A task of region 0x4000, whose launch is live, runs on hearth 0. Guest frame 0 stands in host frame 1. -/
def fbst (rsv : Bool) (ple : Nat) : State :=
  { mst .a { vals 0x800 0x900 0x801 (2 ^ 40) with task := 0x2000, region := 0x4000 } {} { ple := ple } with
    fb := { tasks := [{ gpa := 0x2000, region := 0x4000, st := .dispatched, rsv := rsv }]
            launches := [(0, { live := 1 })], regions := [{ gpa := 0x4000, ple := 4, hcap := 4, run := 1 }] }
    mem := mwrite [] 0x200800 (leBytes 8 0x10000 ++ leBytes 8 0 ++ leBytes 8 0x4000) }
theorem witness_LaunchAndPark_launch : ([(false, 0, false), (false, 4, true), (true, 0, false)].all fun p =>
    let s := fbst p.1 p.2.1
    ready s && (s.reg 1).toNat % 128 == 0 && okIs (translate s 0 .read (s.reg 1)) fun t => !t.ent.remote
      && (let b := (boundary s 0 .a).1
          (boundary s 0 .a).2 && someIs (launcherOf b) fun q => fbIs (checkRecord b t.part t.gpa) fun r => fbIs (makeLive b t.part r.region) fun v =>
            inSubtree v t.part r.region q.region && !(b.launch q.launch).draining && q.rsv == p.1 && plRoom v t.part r.region == p.2.2)) = true := by
  decide +kernel
theorem witness_LaunchAndPark_stops :
    let s := fbst false 4
    let none_ := { s with fb := {} }
    let waits := { s with slices := [(0, { inq := [{}] })] }
    let far := withPart s { (s.part 0) with s2 := [{ v := true, remote := true }], routes := [(0, { ports := 1 })] }
    Meets s false ((s.reg 3).toNat % 128 ≠ 0 ∧ errIs (translate s 0 .read (s.reg 4)) (· != .machineCheck) = true ∧ launcherOf (boundary none_ 0 .a).1 = none
      ∧ (boundary waits 0 .a).2 = false ∧ okIs (translate far 0 .read (far.reg 1)) (fun t => t.ent.remote && (boundary far 0 .a).2 && (launcherOf (boundary far 0 .a).1).isSome) = true) :=
  meets (by decide +kernel) (by decide +kernel)
/-- PARK on a2 at 0x900, resuming at b1. X has finished; in the second state it has not; in the third a flue is open; in
the last a command is held on a guard slot. -/
def parkst (c : Ctx → Ctx) : State :=
  let s := fbst false 4
  (s.setCtx { s.ctx with a := [(1, 0x900), (2, 6), (3, 0x901)], ae := { s.ctx.ae with b := [(1, 0x20004)] }, xe := { s.ctx.xe with done := true } }).modCtx 0 c
theorem witness_LaunchAndPark_park : ([(id, false, true, true), (fun c => { c with xe := { c.xe with done := false } }, false, true, false),
      (fun c => { c with flues := [(0, fl 0)] }, true, true, true),
      (fun c => { c with copyq := [{ held := true, g := 16 }] }, false, false, true)].all fun (p : (Ctx → Ctx) × Bool × Bool × Bool) =>
    let s := parkst p.1
    let c := s.ctx
    ready s && s.eng == .a && (s.reg 1).toNat % 256 == 0 && (s.reg 3).toNat % 256 != 0 && okIs (translate s 0 .both (s.reg 1)) fun t =>
      let q := (peekBytes s t 256).2
      let w := fun o => field (peekBytes s t 256).1 o 8
      ((List.range 32).any (fun n => (c.flue n).opened) || !c.xq.isEmpty || !c.aq.isEmpty || c.defCount != 0 || (List.range 16).any (fun q => (c.seq q).opened)
        || !isSlot (s.breg 1) || !maskOk (s.reg 2)) == p.2.1 && w 0x20 == 0 && w 0x38 == 0 && (List.range 4).all (fun i => w (0xE0 + 8 * i) == 0)
        && c.heldSlots.isEmpty == p.2.2.1 && (parkedX q).isSome == p.2.2.2 && (c.copyq.isEmpty || !p.2.2.1) && s.me.matq.isEmpty && c.embers.isEmpty && !accPending q 0
        && s.me.held.isEmpty && landedAll q 0) = true := by decide +kernel
theorem witness_LaunchAndPark_wait : ([false, true].all fun b =>
    let k : ParkWait := { gpa := 0x900, ent := fr 1, resume := 0x20004 }
    let s := parkst id
    let s := s.setMe { s.me with parkW := some k }
    let s := s.modCtx 0 fun c => { c with xe := { c.xe with done := b } }
    let p := s.setMe { s.me with parkW := none }
    ready s && s.eng == .a && s.me.parkW == some k && bits k.ev.toNat 0 2 == 0 && k.child == none && k.watch == 0 && (parkedX p).isSome == b
      && p.ctx.copyq.isEmpty && p.me.matq.isEmpty && p.ctx.embers.isEmpty && !accPending p p.cur && p.me.held.isEmpty && landedAll p p.cur) = true := by
  decide +kernel
theorem witness_EndingInstructions :
    let s := st .a { xe := { done := false } } { mode := .s, serves := .stopped }
    let h := st .a {} { mode := .h }
    let u := (st .a {} { mode := .s, serves := .stopped })
    let u := u.modCtx 0 fun c => { c with xe := { c.xe with sret := some 0x20004 } }
    Meets s false ((st .a {}).me.mode = .t ∧ h.me.mode = .h ∧ s.me.mode = .s ∧ (s.ctx.es .x).sret = none ∧ (u.ctx.es .x).sret = some 0x20004 ∧ s.me.serves = .stopped
      ∧ s.snap = none ∧ (st .a { copyq := [{ held := true, g := 17 }] }).ctx.heldSlots.head? = some 1) := meets (by decide +kernel) (by decide +kernel)
/-- DONE of one engine and of the second, and in a handler of a served context and of a launch deadlock. -/
theorem witness_EndingInstructions_done : ([(Run.running, Serves.none, false), (.running, .none, true), (.handler, .stopped, false), (.handler, .deadlock 0 0x4000, false)].all
    fun (p : Run × Serves × Bool) =>
      let s := ((st .a {} { serves := p.2.1 }).modHearth 0 fun x => { x with run := p.1 }).modCtx 0 fun c => { c with xe := { c.xe with done := p.2.2 } }
      ready s && s.ctx.heldSlots.isEmpty && s.me.run == p.1 && s.me.serves == p.2.1 && (s.ctx.es (Eng.other s.eng)).done == p.2.2) = true := by decide +kernel
/-- SRET of either engine in S mode, as the first and as the second, with each context that a handler serves. -/
theorem witness_EndingInstructions_sret : ([(Eng.a, none, Serves.stopped), (.a, some 0x20004, .stopped), (.x, some 0x20004, .stopped), (.a, some 0x20004, .deadlock 0 0x4000)].all
    fun (p : Eng × Option Word × Serves) =>
      let s := (st p.1 {} { mode := .s, serves := p.2.2 }).modCtx 0 fun c =>
        c.setEs (Eng.other p.1) { c.es (Eng.other p.1) with sret := p.2.1 }
      ready s && s.me.mode == .s && (s.ctx.es (Eng.other s.eng)).sret == p.2.1 && s.me.serves == p.2.2) = true := by decide +kernel
theorem witness_EndingInstructions_snap :
    let t : SnapTrig := { at_ := 512, tag := 3, bySnap := false }
    let s := { st .a {} { mode := .s } with snap := some t }
    Meets s false (s.me.mode ≠ .t ∧ s.snap = some t ∧ (st .a {} { mode := .s }).snap = none) := meets (by decide +kernel) (by decide +kernel)
/-- TREL on a hearth without a task of the firebox, of a task that has released its successors, and of one that has not.
-/
theorem witness_EndingInstructions_trel : ([none, some true, some false].all fun (b : Option Bool) =>
    let s := fbst false 4
    let s := match b with
      | none => { s with fb := {} }
      | some b => { s with fb := { s.fb with tasks := s.fb.tasks.map fun t => { t with treled := b } } }
    let v := s.setMe { s.me with trel := some 0 }
    let q := (boundary v v.cur .a).1
    let free := q.setMe { q.me with trel := none }
    ready s && s.eng == .a && s.ctx.copyq.isEmpty && s.ctx.mergeq.isEmpty && s.ctx.blowq.isEmpty && s.me.trel.getD s.me.matq.length == 0 && s.ctx.embers.isEmpty
      && !accPending s s.cur && s.me.held.isEmpty && landedAll s s.cur && !underWay s s.cur && (launcherOf free).map (·.treled) == b
      && (launcherOf free).all fun t => (releaseSuccs free t false).2) = true := by decide +kernel
theorem witness_EndingInstructions_trel_waits : ([(st .a { copyq := [{}] }), (st .a {} { matq := [{ instr := .nop }] })].all fun s =>
    ready s && s.eng == .a && (!s.ctx.copyq.isEmpty || s.me.trel.getD s.me.matq.length != 0)) = true := by decide +kernel

/-! ### Witnesses: vector and matrix instructions, and the units' steps -/

/-- The state is one in which an unguarded X instruction works on all lanes. -/
def VMeets (s : State) (p : Prop) : Prop := Straight s ∧ GuardMask .always true s (BitVec.allOnes 64) ∧ p
theorem vmeets {s : State} {p : Prop} (h : ready s = true) (e : s.eng = .x) (q : p) : VMeets s p :=
  ⟨straight_of_ready s h, ⟨rfl, by rw [e]; decide⟩, q⟩
def vIs (r : VRead) (p : List Nat → Option Nat → Bool) : Bool := match r with | .ok l f => p l f | _ => false
/-- Flue 5 has a full slot of 256 bytes and flue 6 two free ones. -/
def vfl : Tbl Flue :=
  [(5, { fl 0 with ss := 2 }), (6, { fl 0 with base := 0x3000, ss := 2, head := 2, read := 2 })]
def vst (c : Ctx) : State := st .x { c with flues := vfl }

theorem witness_VectorAccess_result :
    let s := vst {}
    (vectorResult s (.v 3) 5 32 (BitVec.ofNat 32) [] (fun j => j)).isSome = true := by decide +kernel
/-- The last 256 bytes of the scratchpad, one byte further, and an odd address. -/
theorem witness_VectorAccess :
    let s := st .x (vals 0x1FFF00 0x1FFF04 2 0)
    VMeets s ((s.reg 1).toNat + 256 ≤ 2 ^ 21 ∧ (s.reg 1).toNat % 4 = 0 ∧ 2 ^ 21 < (s.reg 2).toNat + 256 ∧ (s.reg 3).toNat + 256 ≤ 2 ^ 21 ∧ (s.reg 3).toNat % 4 ≠ 0
      ∧ poisoned s.me 0x1FFF00 256 = false ∧ vIs (readV s.ctx s.me.scratch 32 [] (.v 2)) (fun l _ => l.length == 64) = true
      ∧ (∀ f, f < 32 → (s.ctx.flue f).opened = true → (s.ctx.flue f).kind ≠ 4) ∧ NoTail s.me 0x1FFF00 256 ∧ s.me.serves ≠ .stopped ∧ s.me.poison = []) :=
  vmeets (by decide +kernel) rfl (by decide +kernel)
/-- A vector register and a flue as sources, each kind of destination, and a predicate for VSEL. -/
theorem witness_VectorLaneOperations :
    let s := vst { xe := { preds := [5] } }
    VMeets s (vIs (readV s.ctx s.me.scratch 32 [] (.f 5)) (fun _ f => f == some 5
        && vIs (readV s.ctx s.me.scratch 32 f.toList (.v 2)) (fun _ g => (vectorResult s (.f 6) (BitVec.allOnes 64) 32 (BitVec.ofNat 32) (f.toList ++ g.toList) (fun j => j)).isSome
          && (vectorResult s (.v 6) (BitVec.allOnes 64) 32 (BitVec.ofNat 32) (f.toList ++ g.toList) (fun j => j)).isSome)) = true
      ∧ s.es.preds = [5] ∧ (s.src (.imm 31)).toNat % 2 ^ 32 = 0xFFFFFFFF) := vmeets (by decide +kernel) rfl (by decide +kernel)
theorem witness_VectorRounding :
    let s := vst {}
    VMeets s (vIs (readV s.ctx s.me.scratch 16 [] (.v 1)) (fun _ f => vIs (readV s.ctx s.me.scratch 16 f.toList (.v 2)) fun _ g =>
        vIs (readV s.ctx s.me.scratch 16 (f.toList ++ g.toList) (.v 3)) fun _ _ => true) = true
      ∧ (vectorResult s (.v 4) (BitVec.allOnes 64) 16 (fillLane .bf16) [] (fun j => (drawLanes true (BitVec.allOnes 64) s.ctx.srseed fun j u => j + u % 2).1.getD j 0)).isSome = true
      ∧ vIs (readV s.ctx s.me.scratch (tyBits .f32) [] (.v 1)) (fun _ _ => true) = true) := vmeets (by decide +kernel) rfl (by decide +kernel)
theorem witness_VectorCountsAndReductions :
    let s := vst { bins := [(0, 1), (200, 3)] }
    let full := vst { xe := { preds := List.replicate 16 1 } }
    VMeets s (vIs (readV s.ctx s.me.scratch 32 [] (.v 1)) (fun _ f => vIs (readV s.ctx s.me.scratch 32 f.toList (.v 2)) fun _ _ => true) = true
      ∧ full.es.preds.length = 16 ∧ s.es.preds.length ≠ 16 ∧ s.es.preds = [] ∧ ((List.range 256).map fun i => (s.ctx.bin i).toNat).sum = 4
      ∧ ((List.range 256).map fun i => ((vst {}).ctx.bin i).toNat).sum = 0 ∧ max 1 ((65536 * 4 + 65535) / 65536) = 4
      ∧ 4 ≤ ((List.range (200 + 1)).map fun i => (s.ctx.bin i).toNat).sum ∧ ((List.range 200).map fun i => (s.ctx.bin i).toNat).sum < 4) :=
  vmeets (by decide +kernel) rfl (by decide +kernel)
theorem witness_Deferral :
    let s := st .x { defBase := 0x1FFE00, defCap := 16, defCount := 0 }
    let t := st .x { defBase := 0, defCap := 2048, defCount := 2047, defHead := 2047 }
    VMeets t (((List.range 64).filter fun j => (BitVec.allOnes 64).getLsbD j).length = 64 ∧ t.ctx.defCap.toNat < t.ctx.defCount.toNat + 64 ∧ t.ctx.defCap.toNat ≤ 2048
      ∧ t.me.poison = [] ∧ t.ctx.defCount.toNat ≤ t.ctx.defCap.toNat ∧ t.ctx.defHead.toNat < max 1 t.ctx.defCap.toNat
      ∧ NoTail s.me 0x1FFE00 (32 * 16) ∧ (31 : Reg).toNat + 0 < 32 ∧ (0 : BitVec 5).toNat ≤ 4) := vmeets (by decide +kernel) rfl (by decide +kernel)
theorem witness_Deferral_room :
    let s := st .x { defBase := 0x1FF800, defCap := 64, defCount := 0 }
    VMeets s (s.ctx.defCount.toNat + 64 ≤ s.ctx.defCap.toNat ∧ NoTail s.me 0x1FF800 (32 * 64)) := vmeets (by decide +kernel) rfl (by decide +kernel)

/-- TCFG of a tile of the type, rows, columns and planes. -/
def tcfg (t : DType) (r c p : Nat) : Word := BitVec.ofNat 64 (t.code.toNat + r * 2 ^ 7 + c * 2 ^ 16 + p * 2 ^ 28)
/-- Tiles 1 and 2 are INT8, two rows of 64; 3 has a row of 8 metadata elements; 4 is a bit-plane tile; 5 has 32 columns.
-/
def tiles : Tbl Word := [(1, tcfg .i8 2 64 0), (2, tcfg .i8 2 64 0), (3, tcfg .n8 2 8 0), (4, tcfg .bp 2 64 2), (5, tcfg .i8 2 8 0)]
theorem witness_TileTransfersIssue :
    let d := td4 5 0x200 + (124 : BitVec 1024) <<< 128
    let s := st .x { tcfg := tiles, flues := [(5, { fl 0 with ss := 2, read := 1 }), (6, { fl 0 with ss := 2, head := 2, read := 2, base := 0x3000 })], td := [(0, d)] }
    VMeets s (GuardReady .always s ∧ (s.ctx.tile 0).set = false ∧ (s.ctx.tile 1).set = true ∧ (s.ctx.flue 7).opened = false ∧ (s.ctx.flue 5).opened = true
      ∧ cdiv (s.ctx.tile 1).bytes (s.ctx.flue 5).slotBytes = 1 ∧ s.ctx.fullSlots 5 = 1 ∧ s.ctx.fullSlots 6 = 0 ∧ s.me.matq.length < 4 ∧ (∀ q ∈ s.ctx.taken, q.1 ≠ 5)
      ∧ (s.ctx.flue 6).kind = 0 ∧ (s.ctx.flue 6).fed ≠ 1 ∧ s.ctx.freeSlots 6 = 2
      ∧ cdiv (tstSize s.ctx (.tile 1) { arows := 0, acols := 0 }) (s.ctx.flue 6).slotBytes = 1 ∧ tstDesc s.ctx (.tile 1) .i8 { arows := 0, acols := 0 } (tdesc d) = true
      ∧ tstDesc s.ctx (.tile 2) .i8 { arows := 0, acols := 0 } (tdesc 0) = false ∧ (tdesc d).base % (tdesc d).unitBytes = 0) :=
  vmeets (by decide +kernel) rfl (by simp only [GuardReady]; decide +kernel)
theorem witness_GuardReady_slot : GuardReady (.slot 1) (st .x { guards := [(1, .isTrue)] }) := by simp only [GuardReady]; decide +kernel
theorem witness_MatrixIssue :
    let s := withPart { st .x { tcfg := tiles, k := [(1, 63), (2, 64), (3, 0x80000000)] } with dcc := 1 } { fixclk := true }
    let c := s.ctx
    VMeets s (GuardReady .always s ∧ s.me.matq.length < 4 ∧ mmaTile (c.tile 0) = false ∧ mmaTile (c.tile 1) = true ∧ mmaTile (c.tile 2) = true
      ∧ mmaPair (c.tile 1).ty (c.tile 2).ty = true ∧ (c.tile 1).cols = (c.tile 2).cols ∧ (c.tile 1).cols ≠ (c.tile 5).cols ∧ (s.src (.reg 1)).toNat < 64
      ∧ 64 ≤ (s.src (.reg 2)).toNat ∧ (c.tile 2).cols % 64 = 0 ∧ (c.tile 3).ty = .n8 ∧ (c.tile 5).cols = (c.tile 2).cols * 8 / 64 ∧ mmaPair (c.tile 5).ty (c.tile 2).ty = true
      ∧ (c.tile 3).rows = (c.tile 5).rows ∧ (c.tile 3).cols = (c.tile 5).cols ∧ (c.tile 4).ty = .bp ∧ (2 : BitVec 4).toNat ≤ (c.tile 4).planes ∧ (c.tile 4).cols = (c.tile 1).cols
      ∧ (c.tile 1).rows ≤ 64 ∧ (c.tile 1).ty ≠ .bp ∧ (c.tile 0).set = false
      ∧ (match s.ownerOf s.cur with | some p => (s.part p).fixclk | none => false) = true
      ∧ 0 < ((s.reg 1).setWidth 32 - s.dcc.setWidth 32).toInt ∧ ((s.reg 3).setWidth 32 - s.dcc.setWidth 32).toInt > 0 ∧ (((1 : Word)).setWidth 32 - s.dcc.setWidth 32).toInt ≤ 0
      ∧ (match (vst {}).ownerOf 0 with | some p => ((vst {}).part p).fixclk | none => false) = false) :=
  vmeets (by decide +kernel) rfl (by simp only [GuardReady]; decide +kernel)
theorem witness_MatrixSteps : ([Instr.mzero .always 1, .mma .always 1 1 2, .mrd .always true 3 1 (.imm 0), .mmas .always .n8 1 5 2 3, .mmab .always 2 1 4 1].all fun i =>
    let c : MatCmd := { instr := i, mask := 3 }
    let s := st .x { tcfg := tiles } { matq := [c] }
    let u := st .x { tcfg := tiles } { matq := [{ c with started := true }] }
    let v := { st .x { tcfg := tiles } { matq := [{ c with due := true, stamp := some 9 }] } with dcc := 9 }
    let w := st .x { tcfg := tiles } { matq := [{ c with due := true }] }
    (s.hearth 0).matq == [c] && unitsRun u 0 && ((u.hearth 0).matq.headD {}).left == 0 && ((u.hearth 0).matq.headD {}).started
      && ((v.hearth 0).matq.headD {}).stamp == some v.dcc && !(v.hearth 0).stalled && !(w.hearth 0).stalled && ((w.hearth 0).matq.headD {}).due && !c.started) = true := by
  decide +kernel

/-! ### Witnesses: steps of the units -/

theorem witness_CopySteps_idle : unitsRun State.reset 0 = false := by decide +kernel
/-- A CPY within the scratchpad at its start, with a byte landed, and at its end. -/
def cpyst (c : CopyCmd) : State := st .a { copyq := [{ c with op := 0x61, tda := td4 5 0x200, tdb := td4 5 0x100 }] }
theorem witness_CopySteps_start :
    let s := cpyst {}
    unitsRun s 0 = true ∧ 0 < (s.hearth 0).act.copyq.length ∧ ((s.hearth 0).copyAt 0).started = false ∧ mayStart (s.hearth 0) 0 = true
      ∧ ((s.hearth 0).copyAt 0).produces = false := by decide +kernel
theorem witness_CopySteps_move :
    let s := cpyst { started := true }
    let c := (s.hearth 0).copyAt 0
    let d := tdesc c.tda
    let r := tdesc c.tdb
    c.started = true ∧ c.elem.toNat < c.total ∧ (match moveElem s 0 0 with | .ok _ => true | _ => false) = true ∧ d.space = 2 ∧ r.space = 2 ∧ d.badScale = false
      ∧ r.badScale = false ∧ poisoned (s.hearth 0) (r.unitAddr 0) r.unitBytes = false ∧ NoTail (s.hearth 0) (d.unitAddr 0) r.unitBytes := by decide +kernel
theorem witness_CopySteps_end : ([0, 1, 2].all fun k =>
    let s := cpyst { started := true, elem := 4, sub := BitVec.ofNat 11 k, landed := if k = 2 then 1 else 0, ctgt := 0x40 }
    let c := (s.hearth 0).copyAt 0
    c.started && c.elem.toNat == c.total && c.sent == 0 && c.op == 0x61 && !c.viaMap 0 && c.sub == BitVec.ofNat 11 k) = true := by decide +kernel
/-- The last element of a slot that CPYF fills, and a read of another scratchpad of the partition. -/
theorem witness_CopySteps_publish :
    let c : CopyCmd := { op := 0x62, started := true, fd := 1, tda := td4 5 0x100, elem := 3 }
    let s := st .a { copyq := [c], flues := [(1, { fl 1 with active := true, unit := 1, head := 2, read := 2, slot := 2, sofs := 63 })] }
    let u := match moveElem s 0 0 with | .ok u => u | _ => s
    c.produces = true ∧ c.fd.toNat = 1 ∧ ((s.hearth 0).act.copyq.take 0).all (fun c => !(c.started && c.produces && c.fd.toNat == 1)) = true
      ∧ ((u.hearth 0).flue 1).tail ≠ ((s.hearth 0).flue 1).tail := by decide +kernel
theorem witness_CopySteps_map :
    let c : CopyCmd := { op := 0x61, started := true, tda := td4 5 0x200, tdb := td4 5 (2 ^ 22 + 0x100) - (1 : BitVec 1024) <<< 78 }
    let s := withPart (st .a { copyq := [c] }) {}
    let m : OcmMsg := { src := 0, addr := BitVec.ofNat 40 (2 ^ 22 + 0x100), kind := .credit, smode := false, bytes := [1] }
    let n : OcmMsg := { m with kind := .data }
    (tdesc c.tdb).space = 1 ∧ c.elem.toNat < c.total ∧ (match moveElem s 0 0 with | .ok _ => true | _ => false) = true
      ∧ windowOk s m.src (m.addr.toNat / 2 ^ 22) = true ∧ (({ s with ocm := [m] } : State).ocm.find? fun q => q.src == m.src && q.addr.toNat / 2 ^ 22 == m.addr.toNat / 2 ^ 22) = some m ∧ n.kind ≠ .credit := by decide +kernel
/-- Credits within the scratchpad, and a CPY over the on-chip map. -/
theorem witness_CopySteps_credit :
    let s := cpyst { started := true, sub := 2, landed := 4 }
    let m := st .a { copyq := [{ op := 0x61, started := true, tda := td4 5 (2 ^ 22 + 0x200) - (1 : BitVec 1024) <<< 78, tdb := td4 5 0x100 }] }
    unitsRun s 0 = true ∧ ((s.hearth 0).copyAt 0).started = true ∧ ((s.hearth 0).copyAt 0).sub = 2 ∧ ((s.hearth 0).copyAt 0).viaMap 0 = false
      ∧ unitsRun m 0 = true ∧ ((m.hearth 0).copyAt 0).viaMap 0 = true ∧ ((m.hearth 0).copyAt 0).elem.toNat < ((m.hearth 0).copyAt 0).total := by decide +kernel
/-- The merge unit between indices 1 and 2, at equal indices, and at an index out of order. -/
theorem witness_UnitSteps_merge : ([(1, 2, none), (2, 1, none), (3, 3, none), (1, 2, some 1)].all fun (p : Nat × Nat × Option (BitVec 32)) =>
    let m : MergeCmd := { fd := 1, f1 := 2, f2 := 3, started := true, prev1 := p.2.2 }
    let s := st .a { mergeq := [m], flues := [(1, { fl 3 with head := 2, read := 2 }), (2, { fl 0 with base := 0x2000 }), (3, { fl 0 with base := 0x3000 })] }
      { scratch := mwrite (mwrite [] 0x2040 (leBytes 4 p.1 ++ leBytes 4 7)) 0x3040 (leBytes 4 p.2.1 ++ leBytes 4 8) }
    let x := s.hearth 0
    let u := s.setHearth 0 (mergeProgress x)
    unitsRun s 0 && x.act.mergeq == [m] && someIs (nextPair x m.f1.toNat m.o1) fun a => someIs (nextPair x m.f2.toNat m.o2) fun b =>
      (a.good m.prev1 == p.2.2.isNone) && b.good m.prev2 && a.idx.toNat == p.1 && b.idx.toNat == p.2.1 && (emitPair u 0 m a.idx a.val).isSome
        && (emitPair u 0 m b.idx b.val).isSome && (emitPair u 0 m a.idx 0).isSome && a.idx != 0xFFFFFFFF
        && !(m.dropz && zeroVal m.ty (combineVals m.combine m.ty m.rs x.act.mseed a.val.toNat b.val.toNat).1)) = true := by decide +kernel
/-- The bellows with no block left, before a header that is right and one that is not, at a claim with and without room,
and before the bytes of a block of codec 0 with the right checksum and with a wrong one. -/
def blowst (b : BlowCmd) (hd : List Byte) : State :=
  { mst .a { blowq := [{ b with fd := 1, hdr := 0x400 }], flues := [(1, { fl 5 with head := 2, read := 2 })] } with mem := mwrite [] 0x200400 hd }
theorem witness_UnitSteps_bellows :
    let s := blowst { count := 1, idx := 1 } []
    let r := blowst { count := 2, phase := .header, elen := 3 } []
    let f := blowst { count := 2, phase := .header, elen := 200 } []
    unitsRun s 0 = true ∧ ((s.hearth 0).act.blowq.headD {}).count ≤ ((s.hearth 0).act.blowq.headD {}).idx
      ∧ ((r.hearth 0).act.blowq.headD {}).phase = .header ∧ (r.hearth 0).act.freeSlots 1 = 2 ∧ (3 + 63) / 64 ≤ 2 ∧ 2 < (200 + 63) / 64
      ∧ ((f.hearth 0).act.blowq.headD {}).phase = .header := by decide +kernel
theorem witness_UnitSteps_header : ([(0x5A6C, true), (0, false)].all fun p =>
    let s := blowst { count := 2 } (leBytes 2 p.1 ++ [0, 0] ++ leBytes 4 3 ++ leBytes 4 3)
    let c := (s.hearth 0).act.blowq.headD {}
    let f := (s.hearth 0).flue 1
    unitsRun s 0 && decide (c.idx < c.count) && c.slots == 0 && gotIs (readVirtual (s.modHearth 0 fun x =>
          (x.setFlue c.fd.toNat { f with active := true, unit := 5, slot := f.claim.setWidth 64, sofs := 0, qent := 0
                                         elem := BitVec.ofNat 64 c.idx, lenk := 0, faddr := 0, cmpl := 0, cval := 0 }).modBlow fun b =>
            { b with started := true, pos := f.claim }) 0 0 false c.hdr.toNat 16) fun b _ =>
      (leNat (b.take 2) == 0x5A6C) == p.2 && (b.getD 2 0).toNat ≤ 1 && b.getD 3 0 == 0 && decide ((leNat ((b.drop 4).take 4) + f.slotBytes - 1) / f.slotBytes ≤ f.slots)) = true := by
  decide +kernel
theorem witness_UnitSteps_block : ([(crc32c [1, 2, 3], true), (0, false)].all fun (p : BitVec 32 × Bool) =>
    let s := blowst { count := 2, phase := .claimed, elen := 3, clen := 3, crc := p.1 } (List.replicate 16 0 ++ [1, 2, 3])
    let c := (s.hearth 0).act.blowq.headD {}
    unitsRun s 0 && c.phase == .claimed && c.idx + 1 != c.count && gotIs (readVirtual s 0 0 false (c.hdr + 16).toNat c.clen) fun l _ =>
      okIs (expand c.codec c.elen c.crc l) (fun _ => true) == p.2) = true := by decide +kernel

/-! ### Witnesses: home slices, residency, links -/

def sl (x : Slice) (s : State := mst .a {}) : State := { s with slices := [(0, x)] }
theorem witness_SliceSteps_grant :
    let a : WOp := { kind := .acc .add .i32 1, line := 64 }
    let s := sl { inq := [a], wq := [a] }
    let t := sl { inq := [{}] }
    let u := sl { inq := [{}], wq := [{}], cfg := [(1, { rsvq := 255 })] }
    s.pw.cur = 0 ∧ (s.slice 0).inq[0]? = some a ∧ ((s.slice 0).inq.take 0).any (sameOrder a) = false ∧ (s.slice 0).mergeAt a = some 0
      ∧ (t.slice 0).mergeAt {} = none ∧ (t.slice 0).entryFor 0 = some .shared ∧ (u.slice 0).mergeAt {} = none ∧ (u.slice 0).entryFor 0 = none := by decide +kernel
theorem witness_SliceSteps_landing : ([WKind.store, .fill (2 ^ 21), .amo .add true (some 3) 56 1 0, .acc .add .i32 1].all fun k =>
    let op : WOp := { kind := k, line := 2 ^ 21, bytes := [(63, 7)] }
    let s := sl { wq := [op] }
    s.pw.cur == 0 && (s.slice 0).wq[0]? == some op && !((s.slice 0).wq.take 0).any (fun o => o.line == op.line)
      && someIs (s.stage2 op.part (op.gline / frameSize)) (fun e => !e.remote && (s.copiesOf op.part e op.gline).isEmpty)
      && (s.slice 0).bad.isEmpty && !s.poison.contains op.line && (s.vfs.all fun v => v.2.part != some op.part || v.2.qtn == 0)) = true := by decide +kernel
theorem witness_SliceSteps_damper : ([(({} : AccMsg), [(0, 1)], 0, 0), ({}, [], 0, 0), ({}, [], 1, 0), ({ force := true }, [], 7, 7)].all
    fun (p : AccMsg × Tbl Nat × Nat × Nat) =>
      let s := sl { accq := [p.1], tokens := p.2.1, sht := 0, wq := List.replicate p.2.2.1 { cls := if p.1.force then .forced else .shared } }
      (s.slice 0).accq[0]? == some p.1 && (s.slice 0).busy .forced == p.2.2.2 && (s.slice 0).busy .shared == (if p.1.force then 0 else p.2.2.1)
        && !((s.slice 0).accq.take 0).any (·.force)) = true := by decide +kernel
theorem witness_SliceSteps_ticks : (([1024, 2048, 256, 1023].map fun n => n % 1024) = [0, 0, 256, 1023]) ∧ ([256, 255].map fun n => n % 256) = [0, 255] := by decide
theorem witness_SliceSteps_answers :
    let s := { mst .a {} with answers := [{ uid := 4 }] }
    s.answers[0]? = some { uid := 4 } ∧ s.hearths = [(0, s.hearth 0)] ∧ resident s 0 = true ∧ (s.hearth 0).run ≠ .handler ∧ s.dcc.toNat % 256 = 0 ∧
      ({ state := .inflight, uid := 4 } : Ember).state = .inflight := by decide +kernel
theorem witness_SliceSteps_fetch :
    let k : Issue := { gpa := 0x400, dva := 0x400, ent := fr 1 }
    let s := mst .a {} { fetch := some 0x400, issue := some k }
    (s.hearth 0).fetch = some 0x400 ∧ (s.hearth 0).issue = some k ∧ gatedAt s 0 = false ∧ k.lost = false ∧ k.ent.remote = false ∧ k.ent.repOn (dieOf 0) = false
      ∧ anyOp s (fun op => op.src == 0 && op.gline == 0x400 && op.kind == .store) = false ∧ (s.hearth 0).needsRoom 0x400 = false
      ∧ poisonedMem s (k.ent.home 0x400) 64 = false ∧ (s.slice (sliceOf (k.ent.home 0x400))).bad = [] := by decide +kernel
theorem witness_SequenceSteps_open : ([(([] : List KeyRec), 256), ([], 0), ([{ span := 8 }], 0), ([{ span := 9 }], 0), ([{ span := 8, ranges := [{ lo := 3, n := 1 }] }], 0)].all
    fun (p : List KeyRec × Nat) =>
      let m : SeqMsg := { span := 8, lo := 0, n := 4 }
      let s := { sl { keys := p.1, cfg := [(0, { rsvs := 1 })] } with seqMsgs := [m] }
      s.pw.cur == 0 && s.seqMsg 0 0 true == some m && (s.slice 0).keyRec 0 0 == p.1.head?) = true
    ∧ ((sl { cfg := [(0, { rsvs := 1 })] }).slice 0).keyRoom 0 = true := by decide +kernel
theorem witness_SequenceSteps_full :
    ((sl { keys := List.replicate 256 { key := 1, part := 1 }, cfg := [(1, { rsvs := 15 })] }).slice 0).keyRoom 0 = false := by decide +kernel
theorem witness_SequenceSteps_close :
    ({ mst .a {} with seqMsgs := [{ isOpen := false }] } : State).seqMsg 0 0 false = some { isOpen := false } := by decide +kernel
/-- Index 0 can be applied at once, index 4 not while nothing of the open range [0, 4) has come; then with room in the
reorder buffer and without. -/
theorem witness_SequenceSteps_acco : ([(0, 0, true), (4, 511, false), (4, 512, false)].all fun (p : Nat × Nat × Bool) =>
    let m : AccoMsg := { index := p.1 }
    let x : Slice := { keys := [{ span := 8, ranges := [{ n := 4 }, { lo := 4, n := 4 }] }], accoq := [m], rob := List.replicate p.2.1 { key := 7 } }
    (sl x).slice 0 == x && (({ x with accoq := ldel x.accoq 0 } : Slice).note m).canApply m == p.2.2) = true := by decide +kernel
theorem witness_ResidencySteps :
    let r : HobReq := { g := 1 }
    let q : HobReq := { g := 0, replica := true }
    let part : Part := { s2 := [fr (2 ^ 21 + 1), { fr 2 with nr := true }, { fr 3 with repd0 := true, rframe0 := 9 }], freeFrames := [7] }
    let s := { mst .a {} {} part with hobReqs := [r, q, { g := 2, replica := true }, { g := 2 }, { g := 3 }] }
    s.pw.cur = 0 ∧ (s.part 0).busyFrames = [] ∧ s.stage2 0 3 = none ∧ someIs (s.stage2 0 1) (fun e => e.nr && !e.remote) = true ∧ backing s 0 1 = none
      ∧ someIs (s.stage2 0 0) (fun e => !e.nr && !requestDone e 0 true && !e.remote) = true
      ∧ someIs (s.stage2 0 2) (fun e => !e.nr && requestDone e 0 true) = true ∧ (∀ f ∈ ((mst .a {} {} { part with freeFrames := [2 ^ 21 + 7] }).part 0).freeFrames, f / 2 ^ 21 ≠ 0)
      ∧ (∀ p ∈ s.hearths, p.2.held = []) ∧ frameOps s 0 0 = false ∧ (s.part 0).freeFrames.find? (fun f => f / 2 ^ 21 == 0) = some 7 := by decide +kernel
/-- Requests for a resident frame, for one that is not and has no copy, for a replica in each of its stages, and at no
entry. -/
def hobst (r : HobReq) (e : S2Ent) (p : Part := {}) : State := { mst .a {} {} { p with s2 := [e] } with hobReqs := [r] }

theorem aesBlock_length (b : List Nat) : (aesBlock (roundKeys (toBe 32 0)) b).length = 16 := by
  have h : ((roundKeys (toBe 32 0)).getD 14 []).length = 16 := by decide +kernel
  generalize roundKeys (toBe 32 0) = ks at h
  simp only [aesBlock, xorList, shiftRows, List.length_zipWith, List.length_map, List.length_range, h, Nat.min_self]
theorem gcmTag_length (iv aad c : List Byte) : (gcmTag 0 iv aad c).length = 16 := by
  have h := aesBlock_length (iv.map (·.toNat) ++ toBe 4 1)
  simp only [gcmTag, xorList, List.length_map, List.length_zipWith]
  rw [toBe, List.length_map, beBytes, List.length_reverse, leBytes_length]
  exact congrArg (min 16) h
theorem slot_parts (a t z c : List Byte) (ha : a.length = 16) (ht : t.length = 16) (hz : z.length = 4064) :
    (a ++ (t ++ (z ++ c))).take 16 = a ∧ ((a ++ (t ++ (z ++ c))).drop 16).take 16 = t ∧ (a ++ (t ++ (z ++ c))).drop 4096 = c := by
  refine ⟨List.take_left' ha, ?_, ?_⟩
  · rw [List.drop_left' ha, List.take_left' ht]
  · rw [← List.append_assoc, ← List.append_assoc, List.drop_left']
    simp only [List.length_append, ha, ht, hz]
/-- A backing slot under key 0 that holds a ciphertext and its tag gives the frame. -/
theorem backing_of (s : State) (c : List Byte) (hk : (s.part 0).pkey = some 0) (hv : (s.part 0).versions = []) (hb : (s.part 0).backBase = 0)
    (hl : (s.part 0).backLen = 0x400000) (hh : mbytes s.host 0 backSlot =
      slotClear 0 0 ++ (gcmTag 0 (slotIv 0 0) (slotClear 0 0) c ++ (List.replicate 4064 0 ++ c))) :
    backing s 0 0 = some (gcmStream 0 (slotIv 0 0) c) := by
  obtain ⟨h1, h2, h3⟩ := slot_parts _ _ _ c (show (slotClear 0 0).length = 16 by decide) (gcmTag_length (slotIv 0 0) (slotClear 0 0) c)
    (show (List.replicate 4064 (0 : Byte)).length = 4064 by simp only [List.length_replicate])
  have hv' : tget 0 (s.part 0).versions 0 = 0 := by rw [hv]; rfl
  have hb' : (s.part 0).backBase.toNat + 0 * backSlot = 0 := by rw [hb]; rfl
  have hl' : (0 + 1) * backSlot ≤ (s.part 0).backLen.toNat := by rw [hl]; decide
  unfold backing
  simp only [hk, hv', hb', hh, h1, h2, h3, hl', decide_true, beq_self_eq_true, Bool.and_self, if_true, gcmOpen]
/-- A host memory that holds the slot of a frame of 2 MiB. -/
theorem witness_ResidencySteps_backing (c : List Byte) (hc : c.length = 0x200000) : ∃ s : State, s.pw.cur = 0 ∧ s.hobReqs = [{ g := 0 }]
    ∧ (s.part 0).busyFrames = [] ∧ s.stage2 0 0 = some { fr 2 with nr := true } ∧ pickFrame (s.part 0).freeFrames 2 = some 7 ∧ backing s 0 0 = some (gcmStream 0 (slotIv 0 0) c) := by
  obtain ⟨l, el⟩ : ∃ l, l = slotClear 0 0 ++ (gcmTag 0 (slotIv 0 0) (slotClear 0 0) c ++ (List.replicate 4064 0 ++ c)) := ⟨_, rfl⟩
  have hl : l.length = backSlot := by
    rw [el]
    simp only [List.length_append, gcmTag_length, List.length_replicate, hc, show (slotClear 0 0).length = 16 by decide]
    decide
  have h := mbytes_mwrite l [] 0
  rw [hl] at h
  obtain ⟨m, em⟩ : ∃ m, m = mwrite [] 0 l := ⟨_, rfl⟩
  rw [← em] at h
  exact ⟨{ State.reset with
      hobReqs := [{ g := 0 }], host := m
      parts := [(0, { alive := true, backLen := 0x400000, pkey := some 0, s2 := [{ fr 2 with nr := true }], freeFrames := [7] })] },
    rfl, rfl, rfl, rfl, rfl, backing_of _ c rfl rfl rfl rfl (h.trans el)⟩
theorem witness_ResidencySteps_frame : pickFrame [7, 9] 9 = some 9 ∧ pickFrame [7] 9 = some 7 := by decide
theorem witness_ResidencySteps_collapse : ([(fr 1, false, false, false), ({ fr 1 with building := true }, false, false, true), ({ v := true, remote := true, peer := 5 }, false, false, false),
    ({ v := true, remote := true, peer := 5 }, true, false, false), ({ v := true, remote := true, peer := 5 }, true, true, false)].all fun (p : S2Ent × Bool × Bool × Bool) =>
      let s := mst .a { frame := { code := 0x14, faddr := 0x400 } } {} { s2 := [p.1], routes := [(5, { ports := 1 })] }
      let s := { s with peerAsks := if p.2.1 then [{ peer := 5, part := 0, g := 0, acked := p.2.2.1 }] else [] }
      let s := s.modHearth 0 fun x => { x with run := .stopped }
      (s.hearth 0).run == .stopped && (s.hearth 0).act.frame.code == 0x14 && s.ownerOf 0 == some 0 && guestFrame s 0 0x400 == some 0 && s.stage2 0 0 == some p.1
        && (!p.1.remote || s.peerUp 0 5) && (askOf s p.1.peer.toNat 0 0).map (·.acked) == (if p.2.1 then some p.2.2.1 else none) && collapseWaits s 0 0 p.1 == p.2.2.2) = true := by
  decide +kernel
theorem witness_ResidencySteps_request : ([({}, fr 1, false, false), ({}, { fr 1 with nr := true }, true, false), ({ replica := true }, fr 1, false, true),
    ({ replica := true }, { fr (2 ^ 21 + 1) with building := true }, false, false), ({ replica := true }, fr (2 ^ 21 + 1), false, false)].all fun (p : HobReq × S2Ent × Bool × Bool) =>
      let s := hobst p.1 p.2.1
      s.pw.cur == 0 && s.hobReqs[0]? == some p.1 && !(s.part 0).busyFrames.contains 0 && s.stage2 0 0 == some p.2.1 && p.2.1.nr == p.2.2.1 && !p.2.1.remote
        && p.1.frame == none && !(s.hobReqs.any fun q => q.part == 0 && q.g == 0 && q.frame.isSome) && (backing s 0 0).isNone
        && (!p.1.replica || requestDone p.2.1 0 true == p.2.2.2) && (s.part 0).freeFrames.isEmpty) = true
    ∧ (hobst { g := 5 } (fr 1)).stage2 0 5 = none := by decide +kernel
theorem witness_ResidencySteps_find : ((hobst { replica := true } (fr (2 ^ 21 + 1)) { freeFrames := [2 ^ 21 + 7, 7] }).part 0).freeFrames.find? (fun f => f / 2 ^ 21 == 0) = some 7
    ∧ (∀ f ∈ ((hobst {} (fr 1) { freeFrames := [2 ^ 21 + 7] }).part 0).freeFrames, f / 2 ^ 21 ≠ 0) := by decide +kernel
/-- A frame whose lines are on their way, or have all landed: to be resident, and to be a replica. -/
theorem witness_ResidencySteps_fills : ([(false, true), (true, true), (false, false), (true, false)].all fun (p : Bool × Bool) =>
    let r : HobReq := { frame := some 7, replica := p.1 }
    let s := hobst r (if p.1 then { fr (2 ^ 21 + 1) with building := true } else { fr 1 with nr := true })
    let s := if p.2 then { s with slices := [(0, { inq := [{ kind := .fill 0, src := hobSrc 0 }] })] } else s
    s.hobReqs[0]? == some r && fillsPending s r == p.2 && (s.stage2 0 0).any fun e => e.nr == !p.1 && !e.remote) = true := by decide +kernel
theorem witness_LinkSteps :
    let s := mst .a {}
    let t := { s with fab := { s.fab with portDown := [11], losing := [(255, 5)] } }
    s.fab.portDown.contains 11 = false ∧ t.fab.portDown.contains 11 = true ∧ (s.parts.any fun q => q.1 == 0) = true
      ∧ (t.fab.losing.any fun p => p.1 == 255) = true ∧ s.fab.ridge.getLsbD 15 = true ∧ (s.part 0).alive = true ∧ s.pw.cur = 0
      ∧ someIs (s.stage2 0 (60 / frameSize)) (fun e => !e.remote && !e.nr && frameOk e.frame.toNat) = true ∧ 60 % 64 + ([1, 2, 3, 4] : List Byte).length ≤ 64
      ∧ s.stage2 0 9 = none := by decide +kernel
theorem witness_LinkSteps_route : someIs (((withPart State.reset { routes := [(5, { ports := 1 })] }).part 0).routes.find? fun q => q.1 == 5) (fun _ => true) = true := by
  decide +kernel
/-- A package that wakes for a peer's access, or takes it: a write, and an update of a replica of the peer's frame. -/
theorem witness_LinkSteps_arrival : ([(0, Machine.Trans.none, false), (1, .none, true), (2, .none, true), (0, .entering 1, true)].all fun (p : BitVec 2 × Machine.Trans × Bool) =>
    let s := mst .a {} {} { s2 := [fr 1, { v := true, remote := true, peer := 5, repd0 := true, rframe0 := 9 }] }
    let s := { s with pw := { s.pw with cur := p.1, trans := p.2.1 } }
    shallow s == p.2.2 && !s.fab.portDown.contains 11 && (s.part 0).alive && someIs (s.stage2 0 0) (fun e => !e.remote && !e.nr && frameOk e.frame.toNat)
      && someIs (s.stage2 0 1) (fun e => e.remote && e.peer.toNat == 5) && decide (60 % 64 + ([1, 2, 3, 4] : List Byte).length ≤ 64)) = true := by decide +kernel
theorem witness_LinkSteps_cut :
    let s := withPart State.reset { routes := [(5, { ports := 1 })] }
    let t := { s with fab := { s.fab with portDown := [0], losing := [(5, 3)] } }
    cutTo s 5 = [] ∧ cutTo t 5 = [0] ∧ (t.fab.losing.any fun p => p.1 == 5) = true ∧ (∀ p ∈ t.parts, p.2.s2base = none) := by decide +kernel

/-! ### Witnesses: stops, handlers, saves -/

/-- Region 0x4000 of partition 0 with a handler record at 0x700, whose entries are 0x10000 and 0x20000; its window image
at 0x1000 is empty. -/
def dst (h : Hearth) (p : Part := {}) : State :=
  let s := mst .a {} {} p
  { s with
    hearths := [(0, { h with win := win1, act := { h.act with task := 0x2000, region := 0x4000 } })]
    fb := { tasks := [{ gpa := 0x2000, region := 0x4000, st := .dispatched }], launches := [(0, { live := 1 })]
            regions := [{ gpa := 0x4000, ple := 4, hcap := 4, run := 1, handler := 0x700, winimg := 0x1000 }] }
    mem := mwrite [] 0x200700 (leBytes 8 0x10000 ++ leBytes 8 0x20000) }
theorem witness_StopsAndHandlers_stop : ([Mode.t, .s].all fun m =>
    let s := dst { run := .stopping, mode := m, fault := some { code := .align, addr := 5 } }
    let v := stopUnits s 0
    let w := v.modHearth 0 fun z => { z with act := { z.act with frame := frameOf v 0 0 }, fault := none, run := .stopped }
    (s.hearth 0).run == .stopping && (s.hearth 0).req == none && (v.hearth 0).fault.isSome && (v.hearth 0).mode == m
      && (domainOf w (v.hearth 0).act.part (v.hearth 0).act.region).isSome) = true ∧ ((dst {}).hearth 0).run ≠ .stopping := by decide +kernel
theorem witness_StopsAndHandlers_entry :
    let s := dst { run := .stopped, act := { frame := { code := 0x11 } } }
    let x := s.hearth 0
    x.run = .stopped ∧ x.act.frame.smode = false ∧ x.act.frame.code ≠ 0 ∧ counts s 0 = true ∧ x.out = none ∧ x.pre = none
      ∧ someIs (domainOf s x.act.part x.act.region) (fun d =>
        fbIs (fbRead s x.act.part d.handler 128) fun l => (recOf l).entryA != 0 && (recOf l).entryX != 0) = true := by decide +kernel
/-- The one task of the region waits for an entry of its own region's pool. -/
def stallst (handler : Nat) : State :=
  let s := dst { run := .free }
  { s with fb := { s.fb with
      tasks := [{ gpa := 0x2000, region := 0x4000, st := .parked, event := 2, eaddr := 0x4000 }]
      regions := [{ gpa := 0x4000, ple := 0, hcap := 4, handler := handler, winimg := 0x1000 }] } }
theorem witness_StopsAndHandlers_deadlock :
    let s := stallst 0x700
    s.pw.cur = 0 ∧ fbIs (makeLive s 0 0x4000) (fun t => !inDeadlock t 0 0x4000 && stalled t 0 0x4000
        && someIs (t.region 0 0x4000) (fun r => fbIs (fbRead t 0 r.winimg 4096) fun i => i == leBytes 16 0 ++ List.replicate 4080 0)
        && someIs (domainOf t 0 0x4000) fun d => fbIs (fbRead t 0 d.handler 128) fun l => (recOf l).entryA != 0
          && fbIs (fbRead t 0 (recOf l).ops (128 * (recOf l).nop)) fun o =>
            (List.range (recOf l).nop).all fun n => (tdesc (BitVec.ofNat 1024 (leNat ((o.drop (128 * n)).take 128)))).valid) = true
      ∧ (freeHearths s 0 0 ++ freeHearths s 0 1).head? = some 0 := by decide +kernel
theorem witness_StopsAndHandlers_alone :
    fbIs (makeLive (stallst 0) 0 0x4000) (fun t => !inDeadlock t 0 0x4000 && stalled t 0 0x4000 && (domainOf t 0 0x4000).isNone) = true
      ∧ fbIs (makeLive (stallst 0x700) 0 0x4000) (fun t => stalled t 0 0x4000) = true
      ∧ fbIs (makeLive (dst {}) 0 0x4000) (fun t => !stalled t 0 0x4000) = true := by decide +kernel
/-- An image without entries loads an empty table. -/
theorem witness_windows : checkWindows (windowImage (leBytes 16 0 ++ List.replicate 4080 0)) = .ok [] := by
  rw [windowImage_one _ (by decide)]
  exact checkWindows_none _

theorem witness_SavesAndResumes_requests : ([0, 1].all fun n =>
    let s := dst { run := .running, act := { ae := { done := false }, xe := { done := false } } } { csn := n }
    let x := s.hearth 0
    x.run == .running && x.req == none && x.serves == .none && !atRest x && !x.ended && s.ownerOf 0 == some 0 && (freeSlot (s.part 0)).isSome == (n == 1)) = true
    ∧ ([Run.running, .handler, .stopped].all fun r => ((dst { run := r }).hearth 0).ended) = true := by decide +kernel
theorem witness_SavesAndResumes_deadline : ([(ReqKind.save, 0, true), (.save, 85000, false), (.abort, 0, true), (.save, 1, true)].all fun (p : ReqKind × Nat × Bool) =>
    let s := dst { run := .running, req := some { kind := p.1, left := p.2.1 }
                   act := { ae := { done := false, stopped := p.2.2 }, xe := { done := false, stopped := p.2.2 } } }
    let x := s.hearth 0
    x.run == .running && x.serves == .none && atRest x == p.2.2 && counts s 0 && x.out == none) = true := by decide +kernel
theorem witness_SavesAndResumes_save :
    let s := dst { run := .saving, req := some { kind := .save, slot := some 0 } } { csn := 1, images := [(0, { reserved := true })] }
    let x := s.hearth 0
    x.run = .saving ∧ counts s 0 = true ∧ x.out = none ∧ x.pre = none ∧ x.fault = none ∧ x.held = [] ∧ x.act.copyq = [] ∧ landedAll s 0 = true
      ∧ saveReady s 0 = true ∧ x.req.bind (·.slot) = some 0 ∧ s.ownerOf 0 = some 0 := by decide +kernel
theorem witness_SavesAndResumes_abort : ([EState.held, .inflight].all fun e =>
    let s := dst { run := .aborting, act := { embers := [(0, { state := e })] } }
    (s.hearth 0).run == .aborting && ((s.hearth 0).act.embers.any fun p => p.2.state == .inflight) == (e == .inflight) && counts s 0 && !underWay s 0) = true := by
  decide +kernel
/-- A saved task that hearth 0 takes up, and a free task on the same region. -/
def taskst (t : Task) (im : Image := {}) : State :=
  let s := dst { run := .free } { csn := 1, cur := 0, images := [(0, im)] }
  { s with
    vfs := [(0, { part := some 0 })]
    fb := { s.fb with
      tasks := [{ t with gpa := 0x2000, region := 0x4000 }], regions := s.fb.regions.map fun r => { r with run := 0 } } }
theorem witness_SavesAndResumes_resume :
    let s := taskst { st := .saved, slot := some 0 } { state := 2, ctx := { frame := { kind := 1, xdone := true, aslot := 0x10010 } } }
    someIs (chosenFor s 0) (fun t => t.st == .saved && t.slot == some 0 && (tget {} (s.part t.part).images 0).ctx.frame.kind == 1
      && fbIs (fbRead s t.part (winimgOf s t) 4096) fun l => l == leBytes 16 0 ++ List.replicate 4080 0) = true := by decide +kernel
theorem witness_SavesAndResumes_slip : ([6, 0].all fun (n : Nat) =>
    let s := mst .a { ae := { ord := some 5, slipWait := true, slipOrd := BitVec.ofNat 12 n }, xe := { ord := some 2, done := false } }
    let g := (s.hearth 0).act.es .a
    g.slipWait && counts s 0 && slipHeld (s.hearth 0).act .a g.slipOrd == (n == 6)) = true := by decide +kernel
/-- An image on its way to the slot, at guest address 0x8000 with its frames resident. -/
theorem witness_SavesAndResumes_out :
    let o : OutImage := { part := 0, slot := 0 }
    let s := dst { run := .free, out := some o } { csn := 1, csbase := 0x8000, images := [(0, { state := 1 })] }
    (s.hearth 0).out = some o ∧ counts s 0 = true ∧ reach s o.part (slotBase (s.part o.part) o.slot) 0x280000 = .ok
      ∧ (tget {} (s.part o.part).images o.slot).discard = false := by decide +kernel
/-- Hearth 0 runs with a SAVE request to slot 1 while a saved task waits for slot 0 and every other hearth of the die
runs. -/
theorem witness_SavesAndResumes_preload :
    let t := taskst { st := .saved, slot := some 0 } { state := 2 }
    let run : Hearth := { run := .running, act := { ae := { done := false } } }
    let s := { t with hearths := (0, { run with req := some { kind := .save, slot := some 1 } }) :: (List.range 7).map fun i => (i + 1, run) }
    let x := s.hearth 0
    s.ownerOf 0 = some 0 ∧ x.run = .running ∧ counts s 0 = true ∧ s.pw.trans = .none ∧ x.out = none ∧ x.pre = none ∧ freeHearths s 0 (dieOf 0) = []
      ∧ x.req.map (·.kind) = some .save ∧ x.req.bind (·.slot) = some 1
      ∧ someIs (nextTask s 0 (dieOf 0)) (fun t => t.st == .saved && t.slot == some 0) = true := by decide +kernel
theorem witness_SnapshotsAndScrubs :
    let t : SnapTrig := { at_ := 512, tag := 0x12, bySnap := true }
    let s := { State.reset with dcc := 512, snap := some t, pw := { State.reset.pw with ready := true, tlbase := 0x9000 } }
    let u := { s with dcc := 1700000 }
    State.reset.snap = none ∧ s.snap = some t ∧ s.dcc = t.at_ ∧ State.reset.dcc ≠ t.at_ ∧ s.pw.ready = true ∧ s.pw.cur.toNat < 2 ∧ 64 % 64 = 0 ∧ frameOk (64 / frameSize) = true
      ∧ (191 < 192 ∧ 2 ^ 17 - 1 < 2 ^ 17) ∧ (63 < 64 ∧ 3 * 2 ^ 18 - 1 < 3 * 2 ^ 18) ∧ (groupOf (4 * 2)).isSome = true ∧ s.pw.tlbase ≠ 0 ∧ State.reset.pw.ready = false
      ∧ u.dcc.toNat % 1700000 = 0 ∧ u.pw.sampled ≠ some u.dcc ∧ s.dcc.toNat % 1700000 ≠ 0 := by decide +kernel

/-! ### Witnesses: queues, dispatch, parks -/

/-- Function 0 of partition 0: queue 0's descriptor is at 0x800 with its ring of four packets at 0x300. -/
def qst (q : Queue) (head tdown : Nat) (packet : List Byte := []) (cur : BitVec 2 := 0) (f : Vf := {}) : State :=
  let s := mst .a {}
  let desc := leBytes 8 (0x300 + 2 ^ 46 * 2) ++ leBytes 8 head ++ leBytes 8 tdown
  { s with
    vfs := [(0, { f with part := some 0, qtn := 4, qtbase := 0x800 })], hearths := [], pw := { s.pw with ready := true, cur := cur }
    mem := mwrite (mwrite (mwrite [] 0x200800 desc) 0x200300 packet) 0x201000 (leBytes 8 0x10000 ++ leBytes 8 0 ++ leBytes 8 0x4000)
    fb := { queues := [(0, q)], regions := [{ gpa := 0x4000, ple := 4, hcap := 4, run := 1, winimg := 0x1000 }] } }
theorem witness_QueueSteps_held : ([0, 1, 2, 3].all fun c =>
    let s := qst {} 0 0 [] c
    (s.vf 0).part == some 0 && s.pw.ready && decide (3 < (s.vf 0).qtn.toNat) && awake s == (c == 0) && s.pw.trans == .none) = true
    ∧ (State.reset.vf 0).part = none ∧ State.reset.pw.ready = false := by decide +kernel
theorem witness_QueueSteps_order :
    let s := qst {} 0 0 [] 0 { txtail := 1 }
    awake s = true ∧ (s.vf 0).txhead ≠ (s.vf 0).txtail ∧ bellReady s { vf := 0, q := 0, tail := 4, tx := (s.vf 0).txtail } = false := by decide +kernel
/-- TAIL 4 over HEAD 0 of a ring of four just fits and 5 does not; with a slot, without one, and in each teardown. -/
theorem witness_QueueSteps_served : ([(4, 0, some 0), (5, 0, none), (4, 1, some 0), (4, 2, some 0), (4, 0, none)].all fun (p : Nat × Nat × Option Nat) =>
    let s := qst { slotNo := p.2.2 } 0 p.2.1
    awake s && bellReady s { vf := 0, q := 0, tail := 4, tx := 0 } && !(s.fb.bells.any fun c => c.vf == 0 && c.q == 0)
      && fbIs (fbRead s 0 (queueDesc s 0 0) 64) (fun l => (qdesc l).tdown == p.2.1 && decide (2 ^ (qdesc l).logn < p.1) == (p.1 == 5))
      && (p.2.2.isSome || freeQueueSlot s == some 0)) = true := by decide +kernel
theorem witness_QueueSteps_teardown :
    let t : Task := { gpa := 0x2000, region := 0x4000, launch := 1, st := .accepted }
    let s := { qst { tdown := 1 } 0 0 with fb := { (qst {} 0 0).fb with tasks := [t], launches := [(1, { live := 1 })] } }
    s.fb.tasks = [t] ∧ (queueLaunches s 0 0).contains t.launch = true ∧ t.cont = none := by decide +kernel
theorem witness_QueueSteps_notify :
    let s := qst { heldSince := some 3, heldFor := 5 } 0 0
    nextHeld s = some 0 ∧ freeQueueSlot s = some 0 ∧ awake s = true ∧ nextHeld (qst {} 0 0) = none ∧ (s.queue 0 0).heldSince ≠ none
      ∧ (s.queue 0 0).starved = false := by decide +kernel
theorem witness_QueueSteps_starve : ([(0, true), (5, false)].all fun (p : Word × Bool) =>
    let s := qst { heldSince := some 3, heldFor := 5 } 0 0
    let s := { s with ch := { s.ch with starve := p.1 } }
    decide (s.ch.starve.toNat < (s.queue 0 0).heldFor) == p.2) = true := by decide +kernel
theorem witness_QueueSteps_entering : ([1, 2].all fun n =>
    let s := qst {} 0 0
    let s := { s with pw := { s.pw with trans := .entering n } }
    (s.vf 0).part == some 0 && s.pw.ready && decide (0 < (s.vf 0).qtn.toNat) && !awake s && s.pw.trans == .entering n && s.pw.cur != 3) = true := by decide +kernel

def pkt (kind tasks nt lcmpl : Nat) : List Byte := leBytes 8 kind ++ leBytes 8 tasks ++ leBytes 8 nt ++ leBytes 8 lcmpl ++ leBytes 8 5
theorem witness_LaunchPackets : ([pkt 0 0 0 0, pkt 1 0x1000 1 0x8000000, pkt 1 0x1000 1 0x900, pkt 1 0x1000 4096 0x900].all fun k =>
    let s := qst { slotNo := some 0, tail := 3 } 0 0 k
    let x := s.queue 0 0
    x.slotNo.isSome && x.tdown == 0 && !x.waiting && awake s && (s.part 0).busyOp != 14 && fbIs (fbRead s 0 (queueDesc s 0 0) 64) fun l =>
      (qdesc l).head != x.tail && fbIs (fbRead s 0 (qdesc l).ring 64) fun l =>
        let p := packetOf l
        p.reserved && decide (p.tasks % 128 = 0) && (p.kind == 0 || (translatable s 0 p.lcmpl 32 == (p.lcmpl == 0x900) && decide (1 ≤ p.nt) && decide (p.nt ≤ 4096)))) = true := by
  decide +kernel
theorem witness_LaunchPackets_records : ([(0x1000, true), (0x1080, false)].all fun (p : Nat × Bool) =>
    let l : Launch := { part := 0, vf := 0, q := 0, lcmpl := 0x900, irq := false, vec := 5, overlap := false, pred := none }
    let s := qst { slotNo := some 0, tail := 3 } 0 0
    let v : State := ({ s with fb := { s.fb with nextLaunch := 1, launches := tput s.fb.launches 1 l } } : State).modQueue 0 0
      fun x => { x with last := some 1, idleSince := s.dcc }
    match acceptRecords 0 0 0 1 [p.1] v with | .ok _ => p.2 | .bad _ => !p.2 | _ => false) = true := by decide +kernel
theorem witness_LaunchPackets_unread : ([0, 0x8000000].all fun (base : Nat) =>
    let s := qst { slotNo := some 0, tail := 3 } 0 0
    let t := { s with vfs := [(0, { part := some 0, qtn := 4, qtbase := BitVec.ofNat 64 base })] }
    match fbRead t 0 (queueDesc t 0 0) 64 with | .bad _ => base != 0 | .ok _ => base == 0 | _ => false) = true := by decide +kernel
/-- A queue whose turn it is, and one of two that wait where it is the other's. -/
theorem witness_LaunchPackets_turn : ([(0, true), (1, false)].all fun (p : Nat × Bool) =>
    let s := qst { slotNo := some p.1, tail := 3 } 0 0 (pkt 0 0 0 0)
    let s := if p.2 then s else { s with vfs := s.vfs.map (fun v => (v.1, { v.2 with qtn := 4 })), fb := { s.fb with queues := [(0, { slotNo := some 1, tail := 3 }), (1, { slotNo := some 0, tail := 3 })] } }
    let d := queueDesc s 0 0
    fbIs (fbRead s 0 d 64) fun l => (qdesc l).head != (s.queue 0 0).tail && (turnOf s (qdesc l).prio == (s.queue 0 0).slotNo) == p.2) = true := by decide +kernel

/-- A task of region 0x4000 whose record asks for one operand at 0x800 and whose continuation at 0x600 names a3. -/
def disst (t : Task) (valid : Bool := true) (slot0 : List Byte := leBytes 16 0) (aPc : Nat := 0x10000) : State :=
  let s := taskst t
  let rec_ := leBytes 8 0x10000 ++ leBytes 8 0 ++ leBytes 8 0x4000 ++ leBytes 8 (0x800 + 2 ^ 46)
  let cont := leBytes 8 0x2000 ++ leBytes 8 aPc ++ leBytes 8 0 ++ leBytes 8 8
  { s with mem := mwrite (mwrite (mwrite (mwrite [] 0x202000 rec_) 0x200800 (leBytes 128 (if valid then (td4 5 0x1000).toNat else 0))) 0x200600 cont) 0x201000 slot0 }
theorem witness_Dispatching_fresh : ([true, false].all fun v =>
    let s := disst { st := .ready } v
    someIs (chosenFor s 0) fun t => t.st == .ready && t.cont == none && fbIs (fbRead s t.part t.gpa 128) fun l =>
      fbIs (fbRead s t.part (winimgOf s t) 4096) (fun i => i == leBytes 16 0 ++ List.replicate 4080 0) && fbIs (fbRead s t.part (recOf l).ops 128) fun o =>
        (recOf l).nop == 1 && (tdesc (BitVec.ofNat 1024 (leNat o))).valid == v) = true := by decide +kernel
theorem witness_Dispatching_conflict :
    let e := leBytes 16 0x1F0
    let s := disst { st := .ready } true e
    someIs (chosenFor s 0) (fun t => fbIs (fbRead s t.part (winimgOf s t) 4096) fun i => i == e ++ List.replicate 4080 0) = true
      ∧ errIs (checkWindows (windowImage (e ++ List.replicate 4080 0))) (· == 0) = true := by
  refine ⟨by decide +kernel, ?_⟩
  rw [windowImage_one _ (by decide)]
  decide +kernel
theorem witness_Dispatching_parked : ([0x10000, 0].all fun pc =>
    let s := disst { st := .ready, cont := some 0x600 } true (leBytes 16 0) pc
    someIs (chosenFor s 0) fun t => t.st == .ready && t.cont == some 0x600 && fbIs (fbRead s t.part 0x600 256) fun c =>
      field c 8 8 == pc && field c 0x10 8 == 0 && field c 0x18 8 == 8 && maskOk 8 && (maskRegs 8)[0]? == some (.a, 3)) = true := by decide +kernel
theorem witness_Dispatching_none : chosenFor State.reset 0 = none := by decide +kernel

theorem witness_ParksEndsAndQuanta_park : ([(0, true), (1, false)].all fun (p : Nat × Bool) =>
    let s := disst { st := .parked, event := 1, eaddr := 0x908, cond := p.1 }
    someIs (s.taskOf 0 0x2000) fun t => t.st == .parked && t.event == 1 && !t.met && !ending s 0 0x2000 && parkHolds s t == p.2
      && someIs (s.stage2 0 (t.eaddr / frameSize)) (fun e => !e.remote)) = true := by decide +kernel
theorem witness_ParksEndsAndQuanta_end : ([Serves.none, .deadlock 0 0x4000].all fun v =>
    let s := dst { run := .ending, serves := v }
    (s.hearth 0).run == .ending && unitsRun s 0 && (finishWork s 0).2 && ((finishWork s 0).1.hearth 0).serves == v) = true ∧ (State.reset.hearth 0).run ≠ .ending := by
  decide +kernel
theorem witness_ParksEndsAndQuanta_unended :
    (finishWork (dst { run := .ending, act := { seqs := [(0, { opened := true })] } }) 0).2 = false := by decide +kernel
theorem witness_ParksEndsAndQuanta_quantum :
    let p : Part := { qleft := 0, slist := [(3, 2000)] }
    let s := mst .a {} {} p
    (s.part 0).alive = true ∧ (s.part 0).qleft = 0 ∧ (s.part 0).slist[nextPlace s (s.part 0)]? = some (3, 2000) := by decide +kernel

/-! ### Witnesses: the chimney -/

/-- A policy blob of version 2, signed by the key 1 that it names. -/
def blob : List Byte :=
  leBytes 2 0x5950 ++ [1, 0] ++ leBytes 4 2 ++ pointBytes pG ++ List.replicate 3 0 ++ [1, 1, 3, 1] ++ leBytes 4 8 ++ [4, 0] ++ leBytes 2 0
    ++ leBytes 4 100 ++ leBytes 4 1000 ++ leBytes 2 0xFFFF ++ [3, 0] ++ leBytes 32 3 ++ List.replicate 252 0
    ++ leBytes 96 340831021580468651108932552411664820107872368588517048279944886861092063226025292266853724050775047019681711152638635640620407791191399236539492274514976159028412314457017769757525800823316401511579592708362505606154817453405362440
theorem blob_length : blob.length = 512 := by decide +kernel
/-- A host memory that holds the blob at 0x4000 gives its policy. -/
theorem witness_policy (s : State) (m : Memory) (h : s.host = mwrite m 0x4000 blob) :
    someIs (policyOf s 0x4000 512) (fun n => n.pver == 2 && n.tkey == pointBytes pG) = true := by
  have e : mbytes s.host 0x4000 512 = blob := by rw [h, ← blob_length, mbytes_mwrite]
  unfold policyOf
  rw [e]
  decide +kernel
theorem witness_policy_none : (policyOf State.reset 0x4000 512).isSome = false := by decide +kernel
/-- A command block at 0x1000 of host memory over partition 0, of handle 5, which permits everything. -/
def cst (opc handle : Nat) (args : List Nat) (p : Part := {}) (pol : Policy := { cmds := 0xFFFF, flags := 3, peers := 3, rmin := 1, rmax := 24, dies := 3, fmax := 2 ^ 22, vfmax := 2, qumin := 100, qumax := 1000, qmin := 4, pver := 1 }) : State :=
  let s := mst .a {} {} { p with handle := 5, policy := pol }
  { s with
    pw := { s.pw with ready := true }, hearths := []
    host := mwrite [] 0x1000 (leBytes 8 opc ++ leBytes 8 9 ++ leBytes 8 handle ++ args.flatMap (leBytes 8)), ch := { s.ch with crbase := 0x1000, crtail := 1 } }
def cmdIs (s : State) (f : Cmd → Bool) : Bool := someIs (cmdAt s) fun c => c.plain && f c
theorem witness_commands_none : cmdAt State.reset = none := by decide +kernel
theorem witness_ResourceCommands_opcodes : ([0, 15, 255].all fun n => cmdIs (cst n 5 []) fun c => c.opc == 0 || 14 < c.opc) = true := by decide +kernel
/-- Arguments in range and not; limits met and not, also those of FIXCLK; a free number, frames, rafters and slices and
none. -/
theorem witness_ResourceCommands_create : ([(0, 1, 1, 0, 1, true, true), (0, 2 ^ 23, 1, 1, 1, true, true), (0, 0, 1, 0, 1, false, false), (7, 1, 1, 0, 1, false, false),
      (0, 1, 1, 2, 1, false, false), (0, 3, 1, 0, 1, true, false), (0, 1, 9, 0, 1, true, false), (0, 1, 1, 1, 0, true, false)].all
    fun (p : Nat × Nat × Nat × Nat × Nat × Bool × Bool) =>
      let s := { cst 1 p.1 [0x4000, 512, p.2.1, p.2.2.1, 0, p.2.2.2.1] with parts := [] }
      let pol : Policy := { rmin := 1, rmax := 1, dies := 3, fmax := 8, qmin := 32, flags := BitVec.ofNat 8 p.2.2.2.2.1 }
      let m := BitVec.ofNat 24 p.2.1
      cmdIs s (fun c => c.opc == 1 && (c.handle == 0 && decide (c.arg 2 < 2 ^ 24) && BitVec.ofNat 24 (c.arg 2) != 0 && decide (c.arg 5 < 2)
          && decide (c.arg 3 ≤ hbmFrames) && decide (c.arg 4 ≤ hbmFrames)) == p.2.2.2.2.2.1)
        && (!p.2.2.2.2.2.1 || (pol.raftersOk m && pol.framesOk [] p.2.2.1 0 && (p.2.2.2.1 == 0 || pol.flags.getLsbD 0)) == p.2.2.2.2.2.2)
        && raftersFree s none 1 && reserveOk s 0 128 (max 4 pol.qmin) (·.rsvq.toNat) && ((List.range 24).find? fun i => !(s.part i).alive) == some 0
        && (framesFor s 1 0).isSome) = true := by decide +kernel
theorem witness_ResourceCommands_create_full :
    let s := cst 1 0 [0x4000, 512, 1, 1, 0, 0]
    let t := { s with slices := [(0, { cfg := [(3, { rsvq := 128 })] })] }
    let full := { s with parts := (List.range 24).map fun i => (i, { alive := true }) }
    raftersFree s none 1 = false ∧ ((List.range 24).find? fun i => !(s.part i).alive) = some 1 ∧ reserveOk t 1 128 4 (·.rsvq.toNat) = false
      ∧ ((List.range 24).find? fun i => !(full.part i).alive) = none := by decide +kernel
theorem witness_ResourceCommands_frames : (framesFor (cst 3 5 [0, 0, 0, hbmFrames, 0] { freeFrames := [9] }) 1 0).isSome = true
    ∧ (takeFrames [4] 5 6 0).length ≠ 6 := by decide +kernel
theorem witness_ResourceCommands_plain : ([(1, false), (6, false)].all fun (p : Nat × Bool) =>
    someIs (cmdAt (cst (p.1 + 2 ^ 8) 5 [])) fun c => c.opc == p.1 && c.plain == p.2) = true := by decide +kernel
theorem witness_ResourceCommands_handle : ([(2, 5), (2, 6), (3, 5), (3, 6)].all fun (p : Nat × Nat) =>
    let s := cst p.1 p.2 [6, 0, 0, 1, 1]
    cmdIs s fun c => partOf s c.handle == (if p.2 = 5 then some 0 else none) && c.arg 0 == 6 && decide (c.arg 3 ≤ hbmFrames) && decide (c.arg 4 ≤ hbmFrames)) = true := by
  decide +kernel
theorem witness_ResourceCommands_busy : ([(2, 10), (3, 14), (11, 10), (13, 14), (14, 10)].all fun (p : Nat × Nat) =>
    let s := cst p.1 5 [6] { busyOp := p.2 }
    cmdIs s fun c => partOf s c.handle == some 0 && (s.part 0).busyOp == p.2 && c.opc == p.1) = true := by decide +kernel
/-- Mask 6 drops rafter 0, on which a context stands or none does; a policy permits it or not; another partition has
rafter 1 or not. Masks out of range. -/
theorem witness_ResourceCommands_rafters : ([(true, true, true), (true, false, true), (false, true, true), (true, true, false)].all fun (p : Bool × Bool × Bool) =>
    let s := if p.2.1 then cst 2 5 [6] else cst 2 5 [6] {} { cmds := 0 }
    let s := if p.1 then s else { s with hearths := [(0, { run := .running })] }
    let s := if p.2.2 then s else { s with parts := s.parts ++ [(1, { alive := true, rafters := 2 })] }
    cmdIs s fun c => c.arg 0 == 6 && raftersBusy s (raftersOf ((s.part 0).rafters &&& ~~~6)) == !p.1 && ((s.part 0).permits 2 && (s.part 0).policy.raftersOk 6) == p.2.1
      && raftersFree s (some 0) 6 == p.2.2) = true ∧ ([0, 2 ^ 24].all fun m => cmdIs (cst 2 5 [m]) fun c => c.arg 0 == m) = true := by decide +kernel
theorem witness_ResourceCommands_grow : ([(1, 2 ^ 22, true, true), (hbmFrames + 1, 2 ^ 22, false, true), (1, 1, true, false)].all fun (p : Nat × Nat × Bool × Bool) =>
    let s := cst 3 5 [0, 0, 0, p.1, 0] {} { cmds := 0xFFFF, dies := 3, fmax := p.2.1 }
    cmdIs s fun c => c.arg 3 == p.1 && decide (c.arg 3 ≤ hbmFrames) == p.2.2.1
      && (!p.2.2.1 || ((s.part 0).permits 3 && (s.part 0).policy.framesOk (s.allotment 0) p.1 0) == p.2.2.2)) = true := by decide +kernel
/-- SLOTS over entries in range and not, on a die that is permitted and not, with the other die's minimum met and not,
and over another partition's entry. -/
theorem witness_ResourceCommands_slots : ([(0, 0, 3, 0, true, true, true), (1, 55, 3, 1, true, true, true), (2, 0, 3, 0, false, true, true), (0, 56, 3, 0, false, true, true),
      (1, 0, 1, 0, true, false, true), (1, 0, 3, 3, true, false, true), (0, 9, 3, 0, true, true, false)].all fun (p : Nat × Nat × Nat × Nat × Bool × Bool × Bool) =>
    let s := cst 4 5 [p.1, 0, 0, 0, 0, 0, 0, 0, 2 ^ p.2.1] {} { cmds := 0xFFFF, dies := BitVec.ofNat 8 p.2.2.1, slmin := p.2.2.2.1 }
    let s := { s with fab := { s.fab with slots0 := [(3, 0), (4, 0), (457, 1)] } }
    let m := BitVec.ofNat 512 (2 ^ p.2.1 * 2 ^ 448)
    let set := (List.range 512).filter m.getLsbD
    let pol := (s.part 0).policy
    cmdIs s fun c => c.arg 0 == p.1 && BitVec.ofNat 512 ((List.range 8).foldl (fun a i => a + c.arg (i + 1) * 2 ^ (64 * i)) 0) == m
      && (decide (c.arg 0 ≤ 1) && set.all (· < 504)) == p.2.2.2.2.1 && set.length == 1
      && (!p.2.2.2.2.1 || ((s.part 0).permits 4 && pol.dieOk p.1
        && [0, 1].all fun d => !pol.dieOk d || decide (pol.slmin ≤ if d = p.1 then set.length else ownedSlots (withNewSlots s) 0 d)) == p.2.2.2.2.2.1)
      && (set.all fun i => 24 ≤ slotOwner (withNewSlots s) p.1 i || slotOwner (withNewSlots s) p.1 i == 0) == p.2.2.2.2.2.2) = true := by decide +kernel
/-- The ends of the ranges, one value out of each, a QMIN above RSVQ, and a slice whose reservations are spent. -/
theorem witness_ResourceCommands_quota : ([(4 + 2 ^ 22 * 8192, 4, 0, true, true, true), (32 + 256 * 4 + 2 ^ 12 * 1023, 4, 0, true, true, true), (3, 4, 0, false, true, true),
      (33, 4, 0, false, true, true), (4 + 256 * 3, 4, 0, false, true, true), (4 + 2 ^ 22 * 8193, 4, 0, false, true, true), (4, 5, 0, true, false, true), (5, 4, 124, true, true, false)].all
    fun (p : Nat × Nat × Nat × Bool × Bool × Bool) =>
      let w := p.1
      let s := { cst 5 5 [w] {} { cmds := 0xFFFF, qmin := p.2.1 } with slices := [(0, { cfg := [(3, { rsvq := BitVec.ofNat 8 p.2.2.1 })] })] }
      cmdIs s fun c => c.arg 0 == w && (decide (w < 2 ^ 36) && decide (4 ≤ bits w 0 8) && decide (bits w 0 8 ≤ 32) && (bits w 8 4 == 0 || decide (4 ≤ bits w 8 4))
          && decide (bits w 22 14 ≤ 8192)) == p.2.2.2.1
        && (!p.2.2.2.1 || ((s.part 0).permits 5 && decide ((s.part 0).policy.qmin ≤ bits w 0 8)) == p.2.2.2.2.1)
        && (!p.2.2.2.1 || (reserveOk s 0 128 (bits w 0 8) (·.rsvq.toNat) && reserveOk s 0 128 (bits w 8 4) (·.rsvs.toNat)
          && decide (((s.parts.filter fun x => x.2.alive && x.1 != 0).map fun x => x.2.ple).foldl (· + ·) 0 + bits w 22 14 ≤ 8192)) == p.2.2.2.2.2)) = true := by
  decide +kernel
theorem witness_ResourceCommands_store : ([([], 0, 0xFFFF, true), ([(0, ({} : Image))], 0, 0xFFFF, true), ([], 0x1000, 0xFFFF, false), ([], 0, 0, true)].all
    fun (p : Tbl Image × Nat × Nat × Bool) =>
      let s := cst 6 5 [p.2.1, 1] { images := p.1 } { cmds := BitVec.ofNat 16 p.2.2.1 }
      cmdIs s fun c => c.arg 0 == p.2.1 && c.arg 1 == 1 && (c.arg 0 % frameSize == 0 && translatable s 0 p.2.1 0x280000) == p.2.2.2 && (s.part 0).images == p.1
        && (s.part 0).permits 6 == (p.2.2.1 != 0)) = true := by decide +kernel
theorem witness_ResourceCommands_update : ([1, 512].map fun n => n % 512) = [1, 0] ∧ (0 : Nat) < 24 ∧
    slotOwner { State.reset with fab := { State.reset.fab with slots0 := [(503, 0)] } } 0 503 = 0 := by decide +kernel

/-- Function 3 of handle 8, of partition 0 or of none. -/
def vcst (opc handle : Nat) (args : List Nat) (f : Option Vf) (p : Part := {}) : State :=
  { cst opc handle args p with vfs := match f with | some f => [(3, { f with handle := 8 })] | none => [] }
theorem witness_FunctionCommands_assign : ([none, some { part := some 0 }].all fun (f : Option Vf) =>
    let s := vcst 7 5 [3] f
    cmdIs s fun c => partOf s c.handle == some 0 && c.arg 0 == 3 && (s.part 0).permits 7 && decide ((vfsOf s 0).length < (s.part 0).policy.vfmax)
      && (s.vf 3).part == f.bind (·.part) && !(s.part 0).schedSet) = true := by decide +kernel
theorem witness_FunctionCommands_full :
    let s := cst 7 5 [0] {} { cmds := 0xFFFF, vfmax := 0 }
    (s.part 0).policy.vfmax ≤ (vfsOf s 0).length ∧ (s.part 0).permits 7 = true := by decide +kernel
theorem witness_FunctionCommands_unassign : ([true, false].all fun b =>
    let s := vcst 7 5 [67] (some { part := some 0 })
    let t : Task := { gpa := 0x2000, region := 0x4000, launch := 1, st := .dispatched }
    let s := if b then { s with fb := { s.fb with launches := [(1, { vf := 3, live := 1 })], tasks := [t] }, hearths := [(0, { run := .running, act := { task := 0x2000, region := 0x4000 } })] } else s
    cmdIs s (fun c => c.opc == 7 && c.arg 0 == 67 && (s.vf (67 % 64)).part == some 0 && (s.part 0).permits 7)
      && ((abortVf s 3).fb.launches.any (fun l => l.2.vf == 3) || (abortVf s 3).fb.tasks.any fun t => t.vf == 3) == b) = true
    ∧ ((vcst 7 5 [67] none).vf 3).part = none := by decide +kernel
/-- Quanta of 100, 1000 and 1001 us, and a function of another partition. -/
theorem witness_FunctionCommands_sched : ([(100, 3, true), (1000, 3, true), (1001, 3, false), (100, 4, true)].all fun (p : Nat × Nat × Bool) =>
    let s := vcst 8 5 [1, p.2.1 + 2 ^ 32 * p.1] (some { part := some 0 }) { cur := 3 }
    cmdIs s fun c => c.arg 0 == 1 && bits (c.arg 1) 6 26 == 0 && c.arg 1 % 64 == p.2.1 && ((s.vf p.2.1).part != some 0) == (p.2.1 == 4)
      && (decide ((s.part 0).policy.qumin ≤ bits (c.arg 1) 32 32) && decide (bits (c.arg 1) 32 32 ≤ (s.part 0).policy.qumax)) == p.2.2 && (s.part 0).permits 8) = true := by
  decide +kernel
theorem witness_FunctionCommands_pause : ([(0, true, 0), (0, false, 0), (0, false, 1), (1, true, 0), (2, true, 0)].all fun (p : Nat × Bool × Nat) =>
    let s := vcst 9 8 [p.1] (some { part := some 0, paused := p.2.1 }) { csn := p.2.2 }
    let s := { s with hearths := [(0, { run := .running, act := { vf := 3, task := 0x2000, ae := { done := false } } })] }
    cmdIs s fun c => (s.vfs.find? fun v => v.2.part.isSome && v.2.handle.toNat == c.handle).map (·.1) == some 3 && c.arg 0 == p.1
      && (s.part 0).permits 9 && (s.vf 3).paused == p.2.1 && contextsOf s 0 3 == [0] && (s.part 0).csn - (s.part 0).images.length == p.2.2) = true := by
  decide +kernel

theorem witness_MemoryCommands_evict : ([none, some 7].all fun (k : Option (BitVec 256)) =>
    let s := cst 10 5 [0, 2] { pkey := k, backLen := 0x1000000 }
    cmdIs s fun c => partOf s c.handle == some 0 && (s.part 0).busyOp == 0 && c.arg 0 + c.arg 1 == 2
      && (List.range 2).all (fun g => someIs (s.stage2 0 g) fun e => !e.nr && !e.remote) && (s.part 0).permits 10 && (s.part 0).policy.flags.getLsbD 1
      && decide (2 * backSlot ≤ (s.part 0).backLen.toNat) && (s.part 0).pkey == k) = true := by decide +kernel
theorem witness_MemoryCommands_route : ([(0, 11, true), (2, 11, false), (0, 0, false)].all fun (p : Nat × Nat × Bool) =>
    let s := cst 12 5 [p.1 + 2 ^ 8 * 2 ^ p.2.1 + 2 ^ 20 * 23]
    let s := { s with fab := { s.fab with portDown := [0] } }
    cmdIs s fun c => decide (c.arg 0 < 2 ^ 25) && decide (bits (c.arg 0) 20 5 < 24) && (s.part 0).permits 12
      && (s.part 0).policy.peers.getLsbD (bits (c.arg 0) 0 8) == (p.1 == 0)
      && ((List.range 12).any fun k => (BitVec.ofNat 12 (bits (c.arg 0) 8 12)).getLsbD k && !s.fab.portDown.contains k) == (p.2.1 == 11)) = true := by decide +kernel
theorem witness_MemoryCommands_policy :
    let s := cst 13 5 [0x4000, 512] {} { cmds := 0xFFFF, pver := 1, tkey := pointBytes pG }
    (s.part 0).policy.pver.toNat < 2 ∧ (s.part 0).policy.tkey = pointBytes pG ∧ (s.part 0).permits 13 = true
      ∧ cmdIs s (fun c => c.opc == 13 && c.arg 0 == 0x4000 && c.arg 1 == 512) = true := by decide +kernel
theorem witness_MemoryCommands_reclaim : cmdIs (cst 14 5 [] { images := [(0, {})] }) (fun c => c.opc == 14) = true := by decide +kernel
theorem witness_MemoryCommands_complete : ([([], 10, true), ([0], 10, true), ([0], 10, false), ([], 14, true), ([], 14, false)].all fun (p : List Nat × Nat × Bool) =>
    let s := { mst .a {} {} { busyOp := p.2.1, busyFrames := p.1 } with hearths := if p.2.2 then [] else [(0, { run := .running, fetch := some 0 })] }
    (s.part 0).busyOp == p.2.1 && (s.part 0).busyFrames == p.1 && awake s && (s.stage2 0 0).isSome && (frameBusy s 0 0 || frameFetched s 0 0) == !p.2.2
      && partQuiet s 0 == p.2.2 && s.ch.events.isEmpty && decide ((s.ch.evtail - s.ch.evhead).toNat < 256)) = true := by decide +kernel

/-! ### Witnesses: transfers, attestation, registers, banked states -/

/-- Function 0 of partition 0 with an entry at 0x1000 of host memory and a record of counter 2 at 0x2000, whose
ciphertext and tag are the number given. -/
def txst (dir len gpa text : Nat) (f : Vf) (p : Part := {}) : State :=
  let s := mst .a {} {} p
  let ent : List Byte := leBytes 8 dir ++ leBytes 8 0x2000 ++ leBytes 8 gpa ++ leBytes 8 len
  { s with
    vfs := [(0, { f with part := some 0, txbase := 0x1000, txtail := 1 })]
    host := mwrite (mwrite [] 0x1000 ent) 0x2000 (txHead 2 (txEnt ent) 0 ++ leBytes (len + 16) text) }
theorem witness_SealedTransfers_none : (txNext State.reset 0).isNone = true := by decide +kernel
/-- A reserved byte, a LEN of 0 and of 4097, and the three directions. -/
theorem witness_SealedTransfers_form : ([(0, 5, 0, true), (0, 0, 0, false), (0, 4097, 0, false), (0, 5, 1, false), (1, 4096, 0, true), (2, 32, 0, true), (3, 32, 0, false)].all
    fun (p : Nat × Nat × Byte × Bool) =>
      let ent : List Byte := [BitVec.ofNat 8 p.1, p.2.2.1, 0, 0, 0, 0, 0, 0] ++ leBytes 8 0x2000 ++ leBytes 8 0 ++ leBytes 4 p.2.1 ++ leBytes 4 0
      let s := { mst .a {} with vfs := [(0, { part := some 0, txbase := 0x1000, txtail := 1 })], host := mwrite [] 0x1000 ent }
      someIs (txNext s 0) fun e => e.good == p.2.2.2 && e.dir == p.1) = true := by decide +kernel
/-- Five bytes sealed by key 0 for guest address 0x400, and the same with a bit changed. -/
theorem witness_SealedTransfers_in : ([(284470293800297874912273209676146312408156322590355, true), (284470293800297874912273209676146312408156322590354, false)].all
    fun (p : Nat × Bool) =>
      let s := txst 0 5 0x400 p.1 { kin := some 0, ctrin := 1 }
      someIs (txNext s 0) fun e =>
        let head := mbytes s.host e.haddr 32
        let c := BitVec.ofNat 64 (field head 0 8)
        e.good && head == txHead c e 0 && c == 2 && (s.vf 0).kin == some 0 && decide ((s.vf 0).ctrin.toNat < c.toNat)
          && (gcmOpen 0 (txIv c 0 0) head (mbytes s.host (e.haddr + 32) e.len) (mbytes s.host (e.haddr + 32 + e.len) 16)).isSome == p.2) = true := by decide +kernel
theorem witness_SealedTransfers_place : ([({ s2 := [fr 1] }, true, false), ({ s2 := [{ fr 1 with nr := true }] }, false, false), ({ s2 := [fr 1], csn := 1 }, true, true)].all
    fun (p : Part × Bool × Bool) =>
      let s := txst 0 5 0x400 0 { kin := some 0, ctrin := 2 } p.1
      gpaResident s 0 0x400 5 == p.2.1 && inStore (s.part 0) 0x400 5 == p.2.2) = true := by decide +kernel
theorem witness_SealedTransfers_store : inStore { csbase := 0x200000, csn := 1 } 0x200000 5 = true ∧ inStore { csbase := 0x200000, csn := 1 } 0x1FFFFB 5 = false
    ∧ (txst 0 5 0x400 0 {}).vf 0 = { part := some 0, txbase := 0x1000, txtail := 1 } ∧ ((txst 0 5 0x400 0 {}).vf 0).kin = none := by decide +kernel
theorem witness_SealedTransfers_head :
    let s := { txst 0 5 0x400 0 { kin := some 0 } with host := mwrite [] 0x1000 (leBytes 8 0 ++ leBytes 8 0x2000 ++ leBytes 8 0x400 ++ leBytes 8 5) }
    someIs (txNext s 0) (fun e => e.good && mbytes s.host e.haddr 32 != txHead (BitVec.ofNat 64 (field (mbytes s.host e.haddr 32) 0 8)) e 0) = true := by decide +kernel
theorem witness_SealedTransfers_out : ([(0x400, true), (0x8000000, false)].all fun (p : Nat × Bool) =>
    let s := txst 1 5 p.1 0 { kout := some 0 }
    someIs (txNext s 0) fun e => e.good && e.dir == 1 && (s.vf 0).kout == some 0 && gpaResident s 0 e.gpa e.len == p.2 && (readGpa s 0 e.gpa e.len).isSome == p.2
      && s.fb.bells.isEmpty) = true := by decide +kernel
theorem witness_SealedTransfers_key : ([(none, 30867815442401455588520779208447107233987970626723605225470930325450437971597527578659373360970894380185537002981642, true), (some 3, 0, false), (none, 0, false)].all
    fun (p : Option (BitVec 256) × Nat × Bool) =>
      let s := txst 2 32 0 p.2.1 { kin := if p.2.2 then some 0 else none } { pkey := p.1 }
      someIs (txNext s 0) fun e => e.good && e.dir == 2 && (s.part 0).pkey == p.1
        && (if p.2.2 then okIs (openRecord s 0 e) fun r => r.1 == 2 else errIs (openRecord s 0 e) fun n => n == 1)) = true := by decide +kernel

def attst (l : List Byte) : State :=
  { mst .a {} with vfs := [(0, { part := some 0, attGo := true, attreq := 0x5000 })], host := mwrite [] 0x5000 l }
theorem witness_AttestationAndSealing_request : ([(0, List.replicate 97 3, false), (1, List.replicate 97 3, true), (1, pointBytes pG, true)].all
    fun (p : Byte × List Byte × Bool) =>
      let s := attst ([0x41, 0x51, p.1, 0, 0, 0, 0, 0] ++ List.replicate 48 7 ++ p.2.1)
      let rq := mbytes s.host (s.vf 0).attreq.toNat 256
      (s.vf 0).part == some 0 && (s.vf 0).attGo && (field rq 0 2 == 0x5141 && field rq 2 1 == 1 && ((rq.drop 3).take 5).all (· == 0) && ((rq.drop 153).take 103).all (· == 0)) == p.2.2
        && (pointOf ((rq.drop 56).take 97)).isSome == (p.2.1 != List.replicate 97 3)) = true ∧ (State.reset.vf 0).attGo = false := by decide +kernel
theorem witness_AttestationAndSealing_make : ([some 5, none].all fun (k : Option (BitVec 256)) =>
    let s := mst .a {} {} { pkey := k, csn := 2, images := [(0, { state := 2 })] }
    (s.part 0).pkey == k && (s.part 0).alive && awake s && (tget {} (s.part 0).images 0).state == 2 && (tget {} (s.part 0).images 1).state == 0
      && !thas (s.part 0).images 1) = true := by decide +kernel
/-- What a restore finds of a stream under key 5: a good magic, a tag that verifies, only known records, a header
record. -/
def opens (st : List Byte) : Bool × Bool × Bool × Bool :=
  let host := mwrite [] 0x6000 st
  let clear := mbytes host 0x6000 64
  let iv := sealIv (BitVec.ofNat 64 (field clear 16 8))
  let rl := readRecords host (0x6000 + 64) 5 iv (field clear 24 4) 0
  (field clear 0 2 == 0x5A53 && field clear 2 1 == 1, (gcmOpen 5 iv clear (mbytes host (0x6000 + 64) rl.2) (mbytes host (0x6000 + 64 + rl.2) 16)).isSome,
    !(rl.1.any fun r => decide (r.ty < 0x80) && !r.known), (rl.1.find? (·.ty == 1)).isSome)
/-- One header record of 256 zeros, a stream without records and a false tag, a false magic, and one record of type 7.
-/
theorem witness_AttestationAndSealing_restore : ([(sealHeader 0 9 4 1 ++ leBytes 280 109604318432075763963230292594109823693209516646062756097293828680476561468535656823230781335953913577234654157534239742380229906833303497024804695577647011035927799660804643059412617097692149917961039628225487940870989519113160996893152052044270579266619277650356364465767683361265227191266339617103817168144629570634839680746038599741618970256796651897050549785954051255560831860469499613265034139757699013259361967281933813373829499140296657363743965830916639117845436391796680184330814591699610983281670160569949952990328191222142770113241418721502091159436094843872660203615461529487393859734566351330188045584527030518814283534859406612301711020351081363736609590634093,
      (true, true, true, true)), (sealHeader 0 9 4 0, (true, false, true, false)), (sealHeader 0 9 4 1 ++ leBytes 24 3106306891657251673324574627323620546049961638290154612331, (true, true, false, false))].all
    fun (p : List Byte × Bool × Bool × Bool × Bool) => opens p.1 == p.2) = true := by decide +kernel
theorem witness_AttestationAndSealing_magic : (opens (0 :: (sealHeader 0 9 4 0).drop 1)).1 = false := by decide +kernel
/-- The region of a restored image: a live one, and one at an address without an entry. -/
theorem witness_AttestationAndSealing_region : ([(0x4000, true), (0x8000000, false)].all fun (p : Nat × Bool) =>
    match makeLive (dst {} { pkey := some 5, csn := 2 }) 0 p.1 with | .ok _ => p.2 | .bad _ => !p.2 | _ => false) = true := by decide +kernel

theorem witness_HostRegisters : ([none, some 0].all fun (n : Option Nat) =>
    let s := { mst .a {} with vfs := [(63, { part := n })] }
    let s := { s with pw := { s.pw with ready := true } }
    s.pw.ready && s.ch.events.isEmpty && (s.vf 63).part == n && !(s.fb.regions.any fun r => r.part == 0)
      && ({ s with fb := { s.fb with regions := [{ gpa := 0x400 }] } } : State).fb.regions.any fun r => r.part == 0) = true
    ∧ State.reset.pw.ready = false ∧ (2 : Word).toNat % 128 = 2 ∧ (0x40 : Word).toNat % 128 = 64 := by decide +kernel
def pst (cur : BitVec 2) (t : Machine.Trans) (hs : Tbl Hearth := []) (csn : Nat := 0) : State :=
  let s := mst .a {} {} { csn := csn }
  { s with pw := { s.pw with ready := true, cur := cur, trans := t, target := 3 }, hearths := hs }
theorem witness_BankedStates_targets : ([0, 1, 2, 3].all fun c =>
    let s := pst c .none
    s.pw.ready && s.pw.trans == .none && s.pw.cur == c && !s.fab.portDown.contains 11) = true := by decide +kernel
theorem witness_BankedStates_slots : ([(0, false), (1, true)].all fun (p : Nat × Bool) =>
    let s := pst 0 .none [(0, { run := .running, act := { ae := { done := false } } })] p.1
    (s.parts.all fun q => slotsCover s q.1) == p.2 && needsSave (s.hearth 0)) = true := by decide +kernel
theorem witness_BankedStates_transitions : ([(Run.free, true, true), (.banked, true, false), (.running, false, false)].all fun (p : Run × Bool × Bool) =>
    let s := pst 0 (.entering 3) [(0, { run := p.1 })]
    s.pw.trans == .entering 3 && s.pw.target == 3 && drained s && (s.hearths.all fun q => (q.2.run == .free || q.2.run == .banked) && q.2.out.isNone) == p.2.1
      && (s.hearths.all fun q => q.2.run == .free && q.2.out.isNone) == p.2.2 && (s.hearths.all fun q => q.2.pre.isNone)) = true
    ∧ drained { pst 0 (.entering 2) with slices := [(0, { inq := [{}] })] } = false ∧ (pst 2 (.waking 0)).pw.trans = .waking 0 ∧ (pst 2 (.waking 680000)).pw.trans = .waking 680000
    ∧ (pst 3 (.waking 0)).pw.trans = .waking 0 ∧ (pst 0 (.entering 1)).pw.trans = .entering 1 ∧ (pst 0 (.entering 2)).pw.trans = .entering 2 := by decide +kernel
theorem witness_BankedStates_wakes : ([1, 2, 3].all fun n =>
    let s := pst 0 (.entering n)
    s.pw.trans == .entering n && s.pw.ready && s.pw.cur != 3 && !s.fab.portDown.contains 11) = true := by decide +kernel

/-! ### Witnesses: further clauses, in the order of the statements -/

/-- A word of the instruction caches that is poisoned; that a line meets it is a free choice. -/
theorem witness_StepRunsDecoded_cache (h : (Config.freeWord 0).toNat % 2 = 0) :
    (meetWord [16384] State.reset).1 = some 16384 := by
  have g : ([16384] : List Nat)[(Config.freeWord 0).toNat % 2]? = some 16384 := by rw [h]; rfl
  exact g
theorem witness_StepRunsDecoded_privilege :
    let i := Instr.movs .always (.reg 1) 0x011
    let s := turn .a (st .a { ae := { buf := lineWith i }, bad := [2] })
    canAct s 0 .a = true ∧ s.me.mode.allows (needMode i) = false ∧ (poisonedSource s i).isSome = true := by decide +kernel
theorem witness_FaultEntry_trapStep :
    let f : FaultRec := { code := .trap, src := 1 }
    let s := (st .x {}).modHearth 0 fun x => { x with run := .saving, fault := some f }
    let x := s.hearth 0
    x.run = .saving ∧ x.fault = some f ∧ f.src = engSrc .x ∧ ((x.act.es .x).pc - lineOf (x.act.es .x).pc).toNat < 52 ∧ (x.act.es .x).nest = [] := by decide +kernel
/-- DEFCFG: in range, a base and a capacity out of range, and a ring past the end. TCFG: 0, a tile of each kind, and a
shape that breaks each check. -/
theorem witness_SystemRegisters_rules : ([0x20, 0x80100000000, 0x2001FFFE0].all fun v => decide (v % 2 ^ 21 % 32 ≠ 0 ∨ 2048 < v / 2 ^ 32 % 2 ^ 12
      ∨ 2 ^ 21 < v % 2 ^ 21 + 32 * (v / 2 ^ 32 % 2 ^ 12)) == (v != 0x20)) = true
    ∧ ([0, 7 + 2 ^ 7 * 64 + 2 ^ 16 * 4, 12 + 2 ^ 7 + 2 ^ 16 * 64 + 2 ^ 28 * 8, 2 + 2 ^ 7 + 2 ^ 16, 12 + 2 ^ 7 + 2 ^ 16 * 63 + 2 ^ 28, 2 ^ 7 * 65 + 2 ^ 16].map fun (v : Nat) =>
      decide (1 ≤ v / 2 ^ 7 % 2 ^ 7 ∧ v / 2 ^ 7 % 2 ^ 7 ≤ 64 ∧ 1 ≤ v / 2 ^ 16 % 2 ^ 12 ∧ v % 16 ≠ 2 ∧ (v % 16 = 12 → v / 2 ^ 16 % 2 ^ 12 % 64 = 0))) = [false, true, true, false, false, false]
    ∧ ((st .a { copyq := [] } { matq := [{ instr := .mma .always 1 0 2 }] }).me.tileBusy 0 = true) := by decide +kernel
/-- A LOOPP at its END slot: iterations left, a request with and without an earlier clamp, and the last one. -/
theorem witness_Loops_pipe : ([(2, false, none), (2, true, none), (2, true, some 1), (1, false, none)].all fun (p : Nat × Bool × Option Nat) =>
    let l : Loop := { remain := BitVec.ofNat 32 p.1, active := true, pipe := true, start := 0x20004, stop := 0x10004, restart := 0x30004, cntReg := 2, doneReg := 3 }
    let s := st .a { ae := { nest := [1], loops := [(1, l)], clamp := p.2.2 } } { req := if p.2.1 then some {} else none }
    s.es.nest == [1] && (s.es.loop 1).active && (s.es.loop 1).pipe && (s.es.loop 1).stop == s.pc && (s.es.loop 1).remain == BitVec.ofNat 32 p.1
      && s.me.req.isSome == p.2.1 && s.es.clamp == p.2.2) = true := by decide +kernel
/-- The checks of LOOP and LOOPP: ends at no slot, a loop that ends there already, and a loop that is active but not
innermost. -/
theorem witness_Loops_nest :
    let s := st .a { ae := { nest := [1, 2], loops := [(1, { active := true, stop := 0x10010 }), (2, { active := true, stop := 0x10028 })], b := [(1, 0x30001), (2, 0x30004)] } }
    isSlot (s.pc + 3) = false ∧ isSlot (s.pc + 12) = true ∧ isSlot (s.breg 1) = false ∧ isSlot (s.breg 2) = true ∧ (s.es.loop 1).stop = s.pc + 12
      ∧ (s.es.loop 2).active = true ∧ s.es.nest.head? ≠ some 2 ∧ s.reg 5 = 0 := by decide +kernel
/-- Commands of each unit held on slot 2 and on slot 3, and the X engine's wait on slot 2 or on another. -/
theorem witness_GuardSlotsAndYield_held : ([2, 3].all fun n =>
    let s := st .a { guards := [(2, .pending)], copyq := [{ held := true, g := 18 }, { held := true, g := 19 }], mergeq := [{ held := true, g := 18 }],
                     blowq := [{ held := true, g := 18 }], xbind := some (n, none) }
    ready s && s.ctx.gstate 2 == .pending && (s.ctx.xbind == some (2, none)) == (n == 2) && s.ctx.mergeq.any (fun c => c.held && c.g.toNat == 18)
      && s.ctx.blowq.any fun c => c.held && c.g.toNat == 18) = true := by decide +kernel
/-- FLUE_STATE: a ring of kind 5 with ZERO, one that meets an open ring, a source that is closed, a fork or forked, and
a flue that is forked or held. -/
theorem witness_FlueOpenClose_state :
    let s := st .a { a := [(1, 0x1000)], flues := [(5, fl 0), (6, { fl 0 with base := 0x4000, forked := true, peer := 7 }), (7, { fl 0 with base := 0x5000, fork := true, peer := 6 })],
                     copyq := [{ op := 0x62, fd := 5, held := true, g := 18 }] }
    (s.reg 1).toNat % 64 = 0 ∧ (s.reg 1).toNat + 130 ≤ 2 ^ 21 ∧ s.me.act.meets 0x1000 0x1080 = true ∧ s.me.act.meets 0x40 0xC0 = false
      ∧ (s.me.flue 8).opened = false ∧ (s.me.flue 7).fork = true ∧ (s.me.flue 6).forked = true ∧ (s.me.flue 5).opened = true ∧ s.me.flueHeld 5 = true := by decide +kernel
theorem witness_FlueMarksAndReleases_resp : ([(true, 1, 16), (false, 0, 16), (false, 1, 16)].all fun (p : Bool × Nat × Nat) =>
    let s := st .x { flues := [(5, { fl 0 with restart := p.1, head := 0, read := BitVec.ofNat 32 p.2.1 })], xe := { preds := List.replicate p.2.2 1 } }
    ready s && (s.me.flue 5).opened && ((s.me.flue 5).restart || (s.me.flue 5).read == (s.me.flue 5).head) == (p.1 || p.2.1 == 0) && s.es.preds.length == 16) = true := by
  decide +kernel
/-- Loads whose bytes a held store gives, whose line is not there, with a fetch under way and without, and whose peer
was lost. -/
theorem witness_LoadsAndStores_held : ([(true, none), (false, none), (false, some 0x800)].all fun (p : Bool × Option Nat) =>
    let s := mst .a (vals 0x400 0 0 0) { held := if p.1 then [{ gpa := 0x400, bytes := List.replicate 8 7 }] else [], fetch := p.2 }
    ready s && okIs (translate s 0 .read (s.memAddr (mo 1 0))) (fun t =>
      let v := visibleHeld s t.gpa 8
      ((List.range 8).all fun k => (loadByte v.2.me v.1 (t.gpa + k)).isSome) == p.1 && v.2.me.fetch == p.2 && !v.2.me.needsRoom (lineNo t.gpa)
        && !poisonedCopy v.2 (dieOf v.2.cur) t.ent (lineNo t.gpa) 64) && phaseBad s.me == []) = true := by decide +kernel
theorem witness_LoadsAndStores_order :
    let x : Held := { eng := .x, no := 3, gpa := 0x400, bytes := [1, 2] }
    let s := mst .a { ae := { seen := 4 } } { held := [x] }
    s.me.held[0]? = some x ∧ x.met 0x401 4 ≠ [] ∧ x.eng ≠ s.eng ∧ x.no < s.es.seen ∧ x.covers 0x401 = true
      ∧ ({ gpa := 0x400, dva := 0x400, ent := fr 1, lost := true } : Issue).lost = true := by decide +kernel
/-- Images at no frame, in a lost peer's, in one that is not resident, with a poisoned line and without. -/
theorem witness_ResidencyInstructions_faults : ([(9, {}), (0, { fr 1 with nr := true }), (0, { v := true, remote := true, peer := 5 })].all fun (p : Nat × S2Ent) =>
    let s := mst .a { vals 0x1000 0 0 0 with a := [(1, BitVec.ofNat 64 (p.1 * 2 ^ 21))] } { mode := .s } { s2 := [p.2] }
    let s := { s with fab := { s.fab with lost := [5] } }
    ready s && s.guestOf s.cur == 0 && s.me.mode != .t && (s.reg 1).toNat % 4096 == 0 && (s.stage2 0 ((s.reg 1).toNat / frameSize)).isSome == (p.1 == 0)
      && (p.1 != 0 || p.2.nr || (p.2.remote && s.lostTo 0 5))) = true
    ∧ (windowPoison { mst .a {} with poison := [0x201040] } 0 0x1000).isSome = true ∧ (windowPoison (mst .a {}) 0 0x1000).isSome = false := by decide +kernel
/-- Requests for a frame that is not resident, with a place at the hob and without. -/
theorem witness_ResidencyInstructions_post : ([(0, true), (256, false)].all fun (p : Nat × Bool) =>
    let s := { mst .a (vals 0x400 0 0 0) {} { s2 := [{ fr 1 with nr := true }] } with hobReqs := (List.range p.1).map fun k => { g := k + 9 } }
    ready s && s.me.pg == .none && (lookupWin s.me.win (s.reg 1)).all (·.r) && okIs (translate s 0 .any (s.reg 1)) fun t =>
      !requestDone t.ent (dieOf s.cur) true && !requestDone t.ent (dieOf s.cur) false
        && (postRequest s (dieOf s.cur) t.part (t.gpa / frameSize) true (some s.cur)).isSome == p.2) = true := by decide +kernel
theorem witness_ResidencyInstructions_place : ((mst .a {} { pg := .place 0 3 }).me.pg = .place 0 3)
    ∧ (lookupWin [(0, 0x1B)] 0x400).all (·.r) = false := by decide +kernel
/-- FLUSHE with an ember on its way, and with an addend not landed. -/
theorem witness_EmberAccumulate_flush : ([(true, 1), (false, 0)].all fun (p : Bool × Nat) =>
    let s := mst .a { ea := 2, embers := if p.1 then [(0, { state := .inflight, line := 0x10 })] else [] }
    let u := sendHeld s 0 false
    ready s && u.ctx.emberCount == p.2 && !accPending u 0) = true := by decide +kernel
/-- SEQOPEN without room on its path and with it, a count of 0 and one past the span, and an answer that rejects. -/
theorem witness_OrderedSequences_open : ([(4, 4, true), (0, 4, true), (4, 4, false), (5, 4, true)].all fun (p : Nat × Nat × Bool) =>
    let s := { mst .a { a := [(1, 8 * 2 ^ 32 + 9), (2, BitVec.ofNat 64 p.2.1), (3, BitVec.ofNat 64 p.1)], region := 0x4000 } with
      fb := { launches := [(0, { live := 1 })], regions := [{ gpa := 0x4000, sqa := if p.2.2 then 1 else 0 }] } }
    ready s && s.ctx.seqWait.isNone && !(s.ctx.seq 0).opened && decide ((s.reg 3).toNat ≠ 0 ∧ (s.reg 2).toNat + (s.reg 3).toNat ≤ 8) == (p.1 == 4)
      && pathRoom s s.ctx.part s.ctx.region (fun r => r.squ < r.sqa) == p.2.2) = true := by decide +kernel
theorem witness_OrderedSequences_rejected :
    let s := { mst .a { seqWait := some { uid := 1 } } with seqAcks := [{ uid := 1, rejected := true }] }
    ready s = true ∧ s.ctx.seqWait = some { uid := 1, stage := .opening } ∧ (s.seqAck 1).left = 0 ∧ (s.seqAck 1).rejected = true := by decide +kernel
/-- A record of another region's subtree, a launch that drains, a partition under RECLAIM, and a record in another
package. -/
theorem witness_LaunchAndPark_refused : ([0, 1, 2, 3].all fun k =>
    let s := fbst true 4
    let s := if k = 0 then { s with fb := { s.fb with tasks := [{ gpa := 0x2000, region := 0x5000, st := .dispatched, rsv := true }] } }
      else if k = 1 then { s with fb := { s.fb with launches := [(0, { live := 1, draining := true })] } }
      else if k = 2 then s.modPart 0 fun p => { p with busyOp := 0x0E }
      else withPart s { (s.part 0) with s2 := [{ v := true, remote := true }], routes := [(0, { ports := 1 })] }
    ready s && (s.reg 1).toNat % 128 == 0 && okIs (translate s 0 .read (s.reg 1)) fun t =>
      let b := (boundary s 0 .a).1
      (boundary s 0 .a).2 && someIs (launcherOf b) fun p => t.ent.remote == (k == 3) && (k == 3 || fbIs (checkRecord b t.part t.gpa) fun r => fbIs (makeLive b t.part r.region) fun v =>
        (!inSubtree v t.part r.region p.region) == (k == 0) && (b.launch p.launch).draining == (k == 1) && ((b.part t.part).busyOp == 0x0E) == (k == 2))) = true := by
  decide +kernel
/-- A flue operand whose slot is poisoned, and clean sources. -/
theorem witness_VectorLaneOperations_poison :
    let s := st .x { flues := vfl } { poison := [0x440] }
    VMeets s ((sourcePoison s.me [(32, .f 5)]).isSome = true ∧ flueDestOk s.ctx 6 256 = true ∧ vIs (readV s.ctx s.me.scratch 32 [] (.f 5)) (fun _ _ => true) = true)
      ∧ CleanSources (vst {}) [.f 5, .v 2] ∧ CleanSources s [.v 1, .v 2] :=
  ⟨vmeets (by decide +kernel) rfl (by decide +kernel), Or.inl (by decide +kernel), Or.inr (by decide)⟩
/-- A full queue, flues without a full slot, of another kind, fed by another producer and too small, and a base out of
line. -/
theorem witness_TileTransfersIssue_waits :
    let s := st .x { tcfg := tiles, flues := [(5, { fl 0 with ss := 2, read := 2, head := 2 }), (6, { fl 0 with ss := 2, base := 0x3000, fed := 1 }), (7, { fl 1 with base := 0x5000 }), (8, { fl 0 with base := 0x7000, ss := 0 })], td := [(0, td4 DType.i32.code.toNat 0x201)] } { matq := List.replicate 4 {} }
    VMeets s (4 ≤ s.me.matq.length ∧ GuardReady .always s ∧ s.ctx.fullSlots 5 < 1 ∧ (s.ctx.flue 5).opened = true ∧ (s.ctx.flue 6).fed = 1 ∧ (s.ctx.flue 7).kind ≠ 0
      ∧ cdiv (s.ctx.tile 1).bytes (s.ctx.flue 5).slotBytes = 1 ∧ (s.ctx.flue 8).slots < cdiv (tstSize s.ctx (.acc 0) { arows := 64, acols := 64 }) (s.ctx.flue 8).slotBytes
      ∧ s.ctx.freeSlots 6 < 2 ∧ tstDesc s.ctx (.acc 0) .i32 { arows := 2, acols := 2 } (tdesc (s.ctx.desc 0)) = true ∧ (tdesc (s.ctx.desc 0)).isBp = false
      ∧ (tdesc (s.ctx.desc 0)).base % (tdesc (s.ctx.desc 0)).unitBytes ≠ 0) := vmeets (by decide +kernel) rfl (by simp only [GuardReady]; decide +kernel)
/-- The guard slot of a matrix instruction: pending, false and empty while X is not bound, and the wait it keeps. -/
theorem witness_GuardWaits :
    let s := st .x { guards := [(1, .pending), (2, .isFalse)] }
    s.ctx.xbind = none ∧ s.ctx.gstate 1 = .pending ∧ s.ctx.gstate 2 = .isFalse ∧ s.ctx.gstate 3 = .empty
      ∧ (st .x { xbind := some (1, none) }).ctx.xbind = some (1, none) ∧ (st .x { xbind := some (1, some false) }).ctx.xbind = some (1, some false) := by decide +kernel
/-- Shapes that each check refuses: a tile A or B not configured or of bit planes, types or columns that do not fit,
metadata that is no tile of 8-bit elements, or is one of the operands, or has other rows; a tile of too few planes, and
one too wide for MCVT. -/
theorem witness_MatrixIssue_shapes :
    let t : Tbl Word := tput tiles 6 (tcfg .n8 3 8 0)
    let c := (st .x { tcfg := tput t 7 (tcfg .i8 2 128 0) }).ctx
    mmaTile (c.tile 0) = false ∧ mmaTile (c.tile 4) = false ∧ mmaTile (c.tile 1) = true ∧ mmaPair (c.tile 1).ty (c.tile 5).ty = true ∧ (c.tile 1).cols ≠ (c.tile 5).cols
      ∧ mmaPair .i8 .f32 = false ∧ (c.tile 5).cols % 64 ≠ 0 ∧ ¬((c.tile 0).set = true) ∧ (c.tile 1).ty ≠ .n8 ∧ (c.tile 6).set = true ∧ (c.tile 6).ty = .n8
      ∧ (c.tile 6).rows ≠ (c.tile 5).rows ∧ (c.tile 1).cols ≠ (c.tile 2).cols * 8 / 64 ∧ (c.tile 1).ty ≠ .bp ∧ (c.tile 4).planes < (3 : BitVec 4).toNat
      ∧ (c.tile 3).ty ≠ .i8 ∧ 64 < (c.tile 7).cols := by decide +kernel
/-- A stamp whose tick comes for a command that is not the head, comes while the array is stalled, or has passed. -/
theorem witness_MatrixSteps_late : ([(0, false), (1, false), (2, false), (3, true)].all fun (p : Nat × Bool) =>
    let c : MatCmd := { instr := .mmaStamped .always 1 1 2 { reg := 1, ofs := 0 }, stamp := some (if p.1 = 2 then 8 else 9) }
    let s := { st .x { tcfg := tiles } { matq := if p.1 = 1 then [{ instr := .mzero .always 1, started := true, left := 3 }, c] else [c], stall := p.2, stallOn := { reads := [(5, 1)] } } with dcc := 9 }
    let x := s.hearth 0
    settleHold s 0 == s && (x.matq.find? fun c => !c.started && c.stamp.any fun v => v.toNat ≤ s.dcc.toNat) == some c && x.stalled == p.2
      && (c.stamp == some s.dcc && x.matq.head? == some c && !x.stalled) == (p.1 == 0)) = true := by decide +kernel
theorem witness_MatrixSteps_plain : ([(true, false, 0), (false, false, 0), (false, true, 1), (false, true, 2)].all fun (p : Bool × Bool × Nat) =>
    let c : MatCmd := { instr := .mzero .always 1, started := p.2.1, left := p.2.2 }
    let s := st .x {} { matq := [c], stall := p.1, stallOn := { reads := [(5, 1)] } }
    let x := s.hearth 0
    settleHold s 0 == s && (x.matq.find? fun c => !c.started && c.stamp.any fun v => v.toNat ≤ s.dcc.toNat).isNone && x.stalled == p.1 && x.matq == [c] && c.stamp.isNone) = true := by
  decide +kernel
/-- A poisoned word under an operand, and under none. -/
theorem witness_MatrixSteps_poison : ([(0x4000, true), (0, false)].all fun (p : Nat × Bool) =>
    let c : MatCmd := { instr := .mma .always 1 0 2, started := true }
    let s := st .x { tcfg := tiles, bad := [p.1] } { matq := [c] }
    let x := s.hearth 0
    unitsRun s 0 && x.matq == [c] && c.left == 0 && (badIn x.act.bad (matrixPlaces c.instr)).isSome == p.2 && (tldPoison x c).isNone) = true := by decide +kernel
/-- The last cycles of the commands with a start stamp, of TLD, of both forms of TST and of MCVT. -/
theorem witness_MatrixSteps_ends : (([.mmaStamped .always 1 1 2 { reg := 1, ofs := 0 }, .mmasStamped .always .n8 1 5 2 3 { reg := 1, ofs := 0 },
      .mmabStamped .always 2 1 4 1 { reg := 1, ofs := 0 }, .tld .always 1 5, .tstFlue .always 6 (.tile 1) .i8 { arows := 0, acols := 0 },
      .mcvt .always 1 1 0 .i32 { rnd := .rne, sat := false }] : List Instr).all fun i =>
    let c : MatCmd := { instr := i, started := true, mask := 3, pos := 1, slots := 1, stamp := some 3 }
    let s := st .x { tcfg := tiles, flues := vfl } { matq := [c] }
    let x := s.hearth 0
    let v := x.act.tile 1
    unitsRun s 0 && x.matq == [c] && c.left == 0 && badIn x.act.bad (matrixPlaces c.instr) == none && tldPoison x c == none && decide (v.rowBytes ≤ 256)
      && c.data.isEmpty && decide (v.bytes ≤ c.slots * (x.flue (x.act.primary 5)).slotBytes) && (x.flue 6).kind == 0 && decide (c.slots ≤ (x.flue 6).slots)
      && decide (v.cols * tyBits v.ty ≤ 2048) && v.ty != .bp) = true := by decide +kernel
theorem witness_MatrixSteps_tldData : (match (tldPoison (st .x { tcfg := tiles }).me { instr := .tld .always 1 5, data := List.replicate 128 1, bad := some 7 }) with
    | some w => w == 7 | none => false) = true := by decide +kernel
/-- A TST to memory whose elements all move, and one whose next element has no room in the phase cache. -/
theorem witness_MatrixSteps_store :
    let d := td4 5 0x200 + (124 : BitVec 1024) <<< 128
    let i : Instr := .tstMemory .always (.tile 1) .i8 0 { arows := 0, acols := 0 }
    let c : MatCmd := { instr := i, started := true, mask := 3, td := d }
    let s := st .x { tcfg := tiles } { matq := [c] }
    unitsRun s 0 = true ∧ (s.hearth 0).matq = [c] ∧ (tdesc d).space = 2
      ∧ (tstGo 0 (tdesc d) ((tstUnits (s.hearth 0).act (.tile 1) { arows := 0, acols := 0 } 3 (tdesc d)).drop 0) s).2 = true := by decide +kernel
theorem witness_MatrixSteps_held :
    let d := td4 5 0x400 - (2 : BitVec 1024) <<< 78
    let s := mst .x {}
    (tdesc d).space ≠ 2 ∧ piecesOf ((tdesc d).unitAddr 0) 4 = [((tdesc d).unitAddr 0, 4)]
      ∧ okIs (translate s 0 .write (BitVec.ofNat 64 ((tdesc d).unitAddr 0))) (fun t => !(s.hearth 0).needsRoom (lineNo t.gpa)) = true := by decide +kernel
/-- A credit over the map while elements are left, while bytes sent have not landed, and once they have. -/
theorem witness_CopySteps_landing : ([(0, 4), (4, 4), (4, 0)].all fun (p : Nat × Nat) =>
    let c : CopyCmd := { op := 0x61, started := true, sub := 2, elem := BitVec.ofNat 64 p.1, sent := p.2, landed := 4, tda := td4 5 (2 ^ 22 + 0x200) - (1 : BitVec 1024) <<< 78, tdb := td4 5 0x100 }
    let s := st .a { copyq := [c] }
    let x := s.hearth 0
    unitsRun s 0 && (x.copyAt 0).viaMap 0 && decide ((x.copyAt 0).elem.toNat < (x.copyAt 0).total ∨ (x.copyAt 0).sent ≠ 0) == (p != (4, 0)) && (x.copyAt 0).landed != 0) = true := by decide +kernel
theorem witness_CopySteps_signal :
    let c : CopyCmd := { op := 0x61, started := true, sub := 1, elem := 4, tda := td4 5 (2 ^ 22 + 0x200) - (1 : BitVec 1024) <<< 78, tdb := td4 5 0x100 }
    let x := (st .a { copyq := [c] }).hearth 0
    (x.copyAt 0).elem.toNat = (x.copyAt 0).total ∧ (x.copyAt 0).viaMap 0 = true ∧ (x.copyAt 0).sent = 0 := by decide +kernel
theorem witness_CopySteps_rings : ({ src := 0, addr := 0, kind := .data, smode := false, bytes := [1], path := { rings := [{ ring := some 0 }] } } : OcmMsg).path.rings ≠ []
    ∧ (tdesc (td4 5 0x200)).badScale = false := by decide +kernel
/-- A poisoned word of the record of a unit's flue. -/
theorem witness_UnitSteps_poison :
    let c : MergeCmd := { fd := 1, f1 := 2, f2 := 3 }
    let s := st .a { mergeq := [c], blowq := [{ fd := 1 }], bad := [(flueRecord 1).1 / 4] }
    unitsRun s 0 = true ∧ badIn (s.hearth 0).act.bad [flueRecord c.fd, flueRecord c.f1, flueRecord c.f2] = some ((flueRecord 1).1 / 4)
      ∧ badIn (s.hearth 0).act.bad [flueRecord 1] = some ((flueRecord 1).1 / 4) := by decide +kernel
/-- Packets that wait for a turn on a ring. -/
theorem witness_SliceSteps_rings :
    let p : Path := { rings := [{ ring := some 0 }] }
    let s := sl { inq := [{ path := p }], accq := [{ path := p }], accoq := [{ path := p }] } (mst .a {} { fetch := some 0x400, issue := some { gpa := 0x400, dva := 0x400, ent := fr 1 }, fetchPath := p })
    let t := { s with seqMsgs := [{ path := p }, { isOpen := false, path := p }] }
    s.pw.cur = 0 ∧ (s.slice 0).inq[0]? = some { path := p } ∧ (s.slice 0).accq[0]? = some { path := p } ∧ (s.slice 0).accoq[0]? = some { path := p } ∧ p.rings ≠ []
      ∧ (s.hearth 0).fetch.isSome = true ∧ (s.hearth 0).issue.isSome = true ∧ (s.hearth 0).fetchPath.rings ≠ []
      ∧ t.seqMsg 0 0 true = some { path := p } ∧ t.seqMsg 0 1 false = some { isOpen := false, path := p } := by decide +kernel
/-- A line with bytes of a queue descriptor, and the tick at which held embers are sent again by a handler's hearth too.
-/
theorem witness_SliceSteps_soft :
    let op : WOp := { line := 2 ^ 21, bytes := [(63, 7)] }
    let s := { sl { wq := [op] } with vfs := [(0, { part := some 0, qtn := 4 })], dcc := 512 }
    s.pw.cur = 0 ∧ (s.slice 0).wq[0]? = some op ∧ someIs (s.stage2 0 0) (fun e => !e.remote) = true ∧ (s.slice 0).bad = [] ∧ s.dcc.toNat % 256 = 0
      ∧ resident s 0 = true ∧ ((s.modHearth 0 fun x => { x with run := .handler }).hearth 0).run = .handler := by decide +kernel
/-- A replica whose lines are on their way while an access translated before is under way, and none. -/
theorem witness_ResidencySteps_used : ([true, false].all fun b =>
    let s := hobst { frame := some 7, replica := true } { fr (2 ^ 21 + 1) with building := true }
    let s := if b then { s with slices := [(0, { inq := [{ kind := .fill 0, src := hobSrc 0 }] })] } else s
    s.hobReqs[0]? == some { frame := some 7, replica := true } && frameUsed s 0 0 == b && 0 != hostPart) = true := by decide +kernel
/-- A collapse with a replica on one die while a read of it waits, and with none. -/
theorem witness_ResidencySteps_leaving : ([true, false].all fun b =>
    let e := { fr 1 with repd1 := true, rframe1 := 9 }
    let s := mst .a { frame := { code := 0x14, faddr := 0x400 } } { issue := if b then some { gpa := 0x400, dva := 0x400, ent := e } else none, fetch := if b then some 0x400 else none } { s2 := [e] }
    let s := s.modHearth 0 fun x => { x with run := .stopped }
    counts s 0 && guestFrame s 0 0x400 == some 0 && s.stage2 0 0 == some e && !e.building && e.repOn 1 && frameUsed s 0 0 == b && !collapseWaits (collapse s 0 0 e) 0 0 e == !b) = true := by
  decide +kernel
/-- The event ring with room, with events held, and full. -/
theorem witness_LinkSteps_events : ([(255, true), (256, false)].all fun (p : Nat × Bool) =>
    let s := { State.reset with ch := { State.reset.ch with evtail := BitVec.ofNat 32 p.1 } }
    s.ch.events == [] && decide ((s.ch.evtail - s.ch.evhead).toNat < 256) == p.2) = true := by decide +kernel
/-- Link 11 comes back for a route that is down, and a range that a lost peer had opened here. -/
theorem witness_LinkSteps_up :
    let s := withPart State.reset { routes := [(5, { ports := 2 ^ 11, up := false })] }
    let t := { s with slices := [(0, { keys := [{ ranges := [{ src := 256 + 5, n := 4 }] }] })], fab := { s.fab with losing := [(5, 0)] } }
    (s.part 0).routes.find? (fun q => q.1 == 5) = some (5, { ports := 2 ^ 11, up := false }) ∧ s.routed 0 5 = false ∧ (2 ^ 11 : BitVec 12).getLsbD 11 = true
      ∧ (∃ q ∈ t.slices, ∃ r ∈ q.2.keys, ∃ g ∈ r.ranges, g.src = 256 + 5) ∧ (∀ p ∈ s.parts, p.2.s2base = none ∧ p.2.images = []) := by decide +kernel
/-- A stop that waits for its gate, one that meets a save at rest, and an image on its way out. -/
theorem witness_StopsAndHandlers_waits :
    let s := dst { run := .stopping, fault := some { code := .align, addr := 5 } }
    let g := { s with pw := { s.pw with gates := [(0, 1)] } }
    let r := dst { run := .stopping, req := some { kind := .save, slot := some 0 }, fault := some { code := .align, addr := 5 }
                   act := { ae := { done := false, stopped := true }, xe := { done := true } } }
    (s.hearth 0).run = .stopping ∧ (r.hearth 0).mode = .t ∧ ((r.hearth 0).req.map (·.kind)) = some .save ∧ atRest (r.hearth 0) = true ∧ counts r 0 = true ∧ counts s 0 = true
      ∧ counts g 0 = false := by decide +kernel
theorem witness_StopsAndHandlers_bank : ([(0, Machine.Trans.none), (1, .none), (0, .entering 2)].all fun (p : BitVec 2 × Machine.Trans) =>
    let s := stallst 0x700
    let s := { s with pw := { s.pw with cur := p.1, trans := p.2 } }
    (decide (s.pw.cur ≠ 0 ∨ s.pw.trans ≠ .none) == (p != (0, .none)))) = true := by decide +kernel
/-- A save at rest of a hearth that runs a handler of its stopped context. -/
theorem witness_SavesAndResumes_handler : ([(0, false), (7, true)].all fun (p : Nat × Bool) =>
    let s := dst { run := .handler, serves := .stopped, req := some { kind := .save, slot := some 0, left := p.1 }
                   act := { ae := { done := false, stopped := p.2 }, xe := { done := false, stopped := p.2 } } } { csn := 1, images := [(0, { reserved := true })] }
    let x := s.hearth 0
    x.run == .handler && x.serves == .stopped && (atRest x || p.1 == 0) && counts s 0 && x.out.isNone) = true := by decide +kernel
/-- The ends of the ranges of each SRAM. -/
theorem witness_SnapshotsAndScrubs_arrays : 191 < 192 ∧ 20479 < 20480 ∧ 1023 < 1024 ∧ 1 < 2 ∧ (groupOf (4 * 0x400)).isSome = true
    ∧ poisoned { poison := [3] } 12 4 = true ∧ poisoned { poison := [3] } 16 4 = false := by decide +kernel
/-- A fresh task whose region has an entry, and a parked one whose continuation ends both engines. -/
theorem witness_Dispatching_region :
    let s := disst { st := .ready }
    someIs (s.region 0 0x4000) (fun g => g.run == 0) = true ∧ s.hearths ≠ [] ∧ (maskRegs 8).contains (.a, 4) = false
      ∧ (Ctx.fresh 0).reg .a 9 = 0 := by decide +kernel
/-- A task that ends while its event is met, and one whose event has come and gone. -/
theorem witness_ParksEndsAndQuanta_met :
    let s := disst { st := .parked, event := 1, eaddr := 0x908, cond := 1, met := true }
    let d := { s with fb := { s.fb with launches := [(0, { live := 1, draining := true })] } }
    someIs (s.taskOf 0 0x2000) (fun t => t.met && !ending s 0 0x2000 && !parkHolds s t) = true ∧ (d.taskOf 0 0x2000).isSome = true
      ∧ (dst { run := .ending }).me.run = .ending ∧ unitsRun State.reset 0 = false := by decide +kernel
/-- A quantum that hands over to another function while a context of the last one is preloaded. -/
theorem witness_ParksEndsAndQuanta_pre :
    let s := mst .a {} { pre := some 0, ina := { vf := 1 } } { qleft := 0, slist := [(3, 2000)], cur := 1 }
    (s.part 0).slist[nextPlace s (s.part 0)]? = some (3, 2000) ∧ s.ownerOf 0 = some 0 ∧ (s.hearth 0).preCtx.vf ≠ 3 ∧ (s.hearths.all fun x => x.2.pre.isNone) = false
      ∧ ((mst .a {}).hearths.all fun x => x.2.pre.isNone) = true := by decide +kernel
theorem witness_FunctionCommands_pre :
    let s := { vcst 9 8 [0] (some { part := some 0 }) { csn := 1 } with hearths := [(0, { run := .running, pre := some 0, ina := { vf := 3 } })] }
    s.ownerOf 0 = some 0 ∧ (s.hearth 0).preCtx.vf = 3 ∧ (s.part 0).busyOp ≠ 14 := by decide +kernel
/-- EVICT over a remote entry, without the policy's bits, and without a backing large enough; a policy that does not
verify. -/
theorem witness_MemoryCommands_fails : ([(true, 3, 0x1000000), (false, 0, 0x1000000), (false, 3, 0)].all fun (p : Bool × Nat × Nat) =>
    let s := cst 10 5 [0, 1] { s2 := [if p.1 then { v := true, remote := true } else fr 1], pkey := some 7, backLen := BitVec.ofNat 64 p.2.2 }
      { cmds := 0xFFFF, flags := BitVec.ofNat 8 p.2.1 }
    cmdIs s fun c => decide (c.arg 0 + c.arg 1 ≤ 2 ^ 25) && ((List.range 1).any fun g => match s.stage2 0 g with | some e => e.remote | none => true) == p.1
      && (s.part 0).permits 10 && (s.part 0).policy.flags.getLsbD 1 == (p.2.1 == 3) && decide (backSlot ≤ (s.part 0).backLen.toNat) == (p.2.2 != 0)) = true
    ∧ (policyOf (cst 13 5 [0x8000, 512]) 0x8000 512).isSome = false := by decide +kernel
/-- A restore into a slot of a partition under RECLAIM, and of a saved task that has no slot. -/
theorem witness_AttestationAndSealing_saved :
    let s := dst {} { pkey := some 5, csn := 2, busyOp := 14 }
    let t := { dst {} { pkey := some 5, csn := 2 } with fb := { tasks := [{ gpa := 0x2000, region := 0x4000, st := .saved }] } }
    (s.part 0).busyOp = 14 ∧ (s.part 0).pkey = some 5 ∧ someIs (t.taskOf 0 0x2000) (fun o => o.st == .saved && o.slot == none) = true
      ∧ (t.part 0).busyOp ≠ 14 ∧ thas (t.part 0).images 1 = false := by decide +kernel
/-- A refused write of TARGET = 3 in each banked state, and the other bank that a banked package may ask for. -/
theorem witness_BankedStates_refused : ([0, 1, 2].all fun c =>
    let s := pst c .none [(0, { run := .running, act := { ae := { done := false } } })]
    s.pw.cur != 3 && !(s.parts.all fun q => slotsCover s q.1) && s.pw.ready && s.pw.trans == .none) = true := by decide +kernel

/-! ### Witnesses: waits for a ring, poison, and the corners of the rules -/

/-- A hop on a die's ring. -/
def onRing : Path := { rings := [{ ring := some 0 }] }
/-- A code line that is under way, one that has come, and one that the instruction cache holds. -/
theorem witness_StepRunsDecoded_here : ([([], [], false), ([{ who := .code .a, addr := 0x10000 }], [], true), ([], [(0x10000, 0)], true)] : List (List Ask × Tbl LineWord × Bool)).all
    (fun p =>
      let t := mst .a {} { asks := p.1 }
      let s := turn .a (t.setEs { t.es with line := some 0x20000, icache := p.2.1 })
      let v := lineHere s (lineOf s.pc)
      canAct s 0 .a && isSlot s.pc && s.es.line != some (lineOf s.pc) && v.1 == p.2.2 && okIs (readLine v.2 0 (lineOf s.pc)) fun w =>
        let u := cacheTouch w.2 (lineOf s.pc)
        u.1 == none && (u.2.es.icache.find? fun q => q.1 == (lineOf s.pc).toNat).isNone == p.2.1.isEmpty && linkFault .a w.1 == none
          && dec .a (slotOf w.1 s.pc) == some .nop) = true := by decide +kernel
/-- The record of a loop that ends at the slot, poisoned and sound. -/
theorem witness_StepRunsDecoded_loop : ([([], none), ([(ctlOfs .a + 0x60) / 4], some ((ctlOfs .a + 0x60) / 4))] : List (List Nat × Option Nat)).all (fun p =>
    let l : Loop := { remain := 2, active := true, start := 0x20004, stop := 0x10004 }
    let s := turn .a (st .a { bad := p.1, ae := { nest := [1], loops := [(1, l)] } })
    canAct s 0 .a && s.es.line == some (lineOf s.pc) && poisonedSource s .nop == none && after .nop s false fun u => loopRead s u == p.2) = true := by decide +kernel
theorem witness_GuardsAndModes_system : needMode (.movs .always (.reg 1) 0x012) = .s ∧ needMode (.movf .always 1 0x040) = .s
    ∧ needMode (.sret .always 1) = .s ∧ needMode (.movs .always (.reg 1) 0x013) = .t := by decide +kernel
theorem witness_ScratchAndLiterals_sound :
    let s := mst .a (vals 0x1FFFF8 0 0 0)
    lateBad s (.sts .always .w64 (mo 1 0) (.reg 2)) = none ∧ (lineHere s (lineOf (lineOf s.pc + 56))).1 = false
      ∧ (lineHere (mst .a {} { asks := [{ who := .code .a, addr := 0x10000 }] }) (lineOf (lineOf s.pc + 56))).1 = true := by decide +kernel
/-- A LOOP in slot 4 of a line that has a next one, with its END there; one at the END of a loop that is active; and two
loops that share an END. -/
theorem witness_Loops_corners :
    let b : LineWord := 1 <<< 12
    let s := { st .a { ae := { buf := b } } with eng := .a }
    let t := s.setPc 0x10034
    let l : Loop := { remain := 1, active := true, start := 0x20004, stop := 0x10004 }
    let n := st .a { ae := { nest := [1, 2], loops := [(1, l), (2, { l with remain := 3 })] } }
    t.cur < nCores ∧ okIs (advanceIn t.es.buf t.pc) (fun a => a == 0x10044) = true ∧ isSlot (s.pc + 48) = true ∧ 52 ≤ (s.pc + 48 - lineOf (s.pc + 48)).toNat
      ∧ lineOf (s.pc + 48) = lineOf s.pc ∧ okIs (advanceIn s.es.buf (s.pc + 48)) (fun a => a == 0x10044) = true
      ∧ (∃ j ∈ n.es.nest, (n.es.loop j).active = true ∧ (n.es.loop j).stop = n.pc) ∧ n.es.nest = 1 :: [2] ∧ (n.es.loop 1).remain = 1
      ∧ (n.es.loop 2).remain ≠ 1 ∧ (n.es.loop 2).pipe = false ∧ (n.es.loop 2).stop = n.pc ∧ okIs (advanceIn n.es.buf n.pc) (fun a => a == 0x10010) = true := by decide +kernel
/-- FLCLOSE of a flue that X waits to read, and of one that it does not. -/
theorem witness_FlueOpenClose_awaited : ([true, false].all fun b =>
    let s := st .a { flues := [(5, fl 0)] } { stall := b, stallOn := { reads := [(5, 1)] } }
    ready s && (s.me.flue 5).opened && !(s.me.flue 5).forked && !s.me.flueHeld 5 && !s.me.flueNamed 5 && !(s.me.flue 5).fork && s.me.awaits 5 == b) = true := by decide +kernel
/-- A residency map with a poisoned word, and without. -/
theorem witness_FlueMarksAndReleases_map : ([true, false].all fun b =>
    let s := st .x { flues := [(5, { fl 0 with restart := false })] } { poison := if b then [0x420] else [] }
    let m := residencyBytes (s.me.flue 5) ((s.me.flue 5).read - 1) 0
    ready s && (s.me.flue 5).opened && (s.me.flue 5).read != (s.me.flue 5).head && s.me.act.primary 5 == 5 && poisoned s.me m.1 m.2 == b
      && decide (s.es.preds.length < 16)) = true := by decide +kernel
/-- An access that goes on with an implicit boundary: one that completes at once, and one that waits for a write of the
hearth. -/
theorem witness_LoadsAndStores_full : ([true, false].all fun b =>
    let s := mst .a { vals 0x400 0 0 0 with ae := { imp := some 0x10004 } } { pubA := true }
    let s := if b then s else { s with slices := [(0, { inq := [{}] })] }
    let v := implicitBoundary s s.cur s.eng
    ready s && okIs (translate s 0 .write (s.memAddr (mo 1 0))) (fun t => !s.hasRoom (lineNo t.gpa) && v.2 == b && (!b || !v.1.me.needsRoom (lineNo t.gpa)))
      && lateBad v.1 (.stg .always .w64 (mo 1 0) (.reg 2)) == none) = true := by decide +kernel
theorem witness_LoadsAndStores_room :
    let s := mst .a (vals 0x400 0 0 0)
    let u := s.setEs { s.es with imp := some s.pc }
    s.hasRoom 0x400 = true ∧ u.hasRoom 0x400 = false ∧ lateBad s (.stm .always .w64 (mo 1 0) (.reg 2)) = none
      ∧ lateBad s (.amo .always .add true false 1 2 (.reg 3) 0 0) = none ∧ (mst .a {} { issue := some { lost := true } }).me.issue = some { lost := true } := by decide +kernel
/-- A window image whose lines are asked for, and have come. -/
theorem witness_ResidencyInstructions_here : ([true, false].all fun b =>
    let s := mst .a (vals 0x1000 0 0 0) { mode := .s, asks := if b then (List.range 64).map fun i => { who := .image, addr := 0x1000 + 64 * i } else [] }
    let v := askAll s s.cur .image (imageAsks s 0 0x1000)
    ready s && s.me.winld.isNone && v.1 == b && (!b || okIs (readWindowImage v.2 0 0x1000) fun w => windowPoison w.2 0 0x1000 == none)) = true := by decide +kernel
/-- A poisoned index of the ember table, which ACC meets, and none; a poisoned sequence record, and none. -/
theorem witness_EmberAccumulate_sound : badIn [0x2800] (emberReads {} 0x10) = some 0x2800 ∧ badIn [] (emberReads {} 0x10) = none
    ∧ badIn [0x2A00] [seqPlace 0] = some 0x2A00 ∧ badIn [0x2A00] [seqPlace 1] = none := by decide +kernel
/-- A contribution of the slot that its slice has not taken, and none; an acknowledgement on its way to an ACCO. -/
theorem witness_OrderedSequences_untaken : ([true, false].all fun b =>
    let s := mst .a { seqs := [(1, { opened := true })], acco := some 7 }
    let s := { s with slices := if b then [(0, { accoq := [{ slot := 1 }] })] else [], acks := [{ uid := 7 }] }
    ready s && s.ctx.seqWait.isNone && (s.ctx.seq 1).opened && untaken s s.ctx 1 == b && s.acks.any fun m => m.uid == 7) = true := by decide +kernel
/-- A PARK whose condition list is met, in a task's context and in a handler that serves a stopped context. -/
theorem witness_LaunchAndPark_quiet : ([Serves.none, .stopped].all fun v =>
    let s := parkst id
    let s := s.setMe { s.me with serves := v, ina := { task := 0x2000, region := 0x4000 }, run := if v = .none then .running else .handler }
    ready s && s.eng == .a && s.me.serves == v && s.me.parked == 0x2000 && (parkedX s).isSome && s.ctx.copyq.isEmpty && s.me.matq.isEmpty && s.ctx.embers.isEmpty
      && !accPending s s.cur && s.me.held.isEmpty && landedAll s s.cur && !underWay s s.cur) = true := by decide +kernel
/-- A task's successors released, and waiting for a frame of its record. -/
theorem witness_EndingInstructions_release : ([true, false].all fun b =>
    let s := fbst false 4
    let s := if b then s else withPart s { (s.part 0) with s2 := [{ fr 1 with nr := true }] }
    let v := s.setMe { s.me with trel := some 0 }
    let q := (boundary v v.cur .a).1
    let free := q.setMe { q.me with trel := none }
    ready s && s.ctx.copyq.isEmpty && landedAll s s.cur && someIs (launcherOf free) fun t => !t.treled && (releaseOnce free t false).2 == b) = true := by decide +kernel
theorem witness_VectorAccess_sound :
    let s := st .x (vals 0x1FFF00 0 0 0)
    lateBad s (.vst .always (mo 1 0) (.v 2) .i32) = none ∧ vIs (readV s.ctx s.me.scratch 32 [] (.v 2)) (fun _ f => f == none) = true ∧ NoTail s.me 0x1FFF00 256 := by
  decide +kernel
/-- A TLD some of whose slots were freed, and taken, before its end. -/
theorem witness_MatrixSteps_data :
    let c : MatCmd := { instr := .tld .always 1 5, started := true, mask := 3, pos := 2, slots := 1, data := List.replicate 256 7 }
    let s := st .x { tcfg := tiles, flues := vfl } { matq := [c] }
    let x := s.hearth 0
    let b := (x.flue (x.act.primary 5)).slotBytes
    unitsRun s 0 = true ∧ badIn x.act.bad (matrixPlaces c.instr) = none ∧ tldPoison x c = none ∧ c.data.length % b = 0 ∧ c.data.length ≤ c.slots * b
      ∧ (x.act.tile 1).bytes ≤ c.slots * b := by decide +kernel
/-- An element whose bytes have to come over a ring. -/
theorem witness_CopySteps_ask :
    let c : CopyCmd := { op := 0x61, started := true, tda := td4 5 0x200, tdb := td4 5 0x400 - (2 : BitVec 1024) <<< 78 }
    let s := mst .a { copyq := [c] }
    unitsRun s 0 = true ∧ ((s.hearth 0).copyAt 0).started = true ∧ ((s.hearth 0).copyAt 0).elem.toNat < ((s.hearth 0).copyAt 0).total
      ∧ (match moveElem s 0 0 with | .ask _ => true | _ => false) = true := by decide +kernel
/-- A credit of nothing, over a poisoned barrier, and over a sound one. -/
theorem witness_CopySteps_barrier : leNat ([0] : List Byte) = 0 ∧ leNat ([4] : List Byte) ≠ 0 ∧ poisoned ({ poison := [0x10] } : Hearth) 0x40 16 = true
    ∧ poisoned ({} : Hearth) 0x40 16 = false := by decide +kernel
/-- The merge unit: a flue without a full slot, an index out of order, no room for a pair and room, both end markers. -/
theorem witness_UnitSteps_corners : ([(1, 2, none, 2), (1, 2, some 1, 2), (1, 2, none, 0), (0xFFFFFFFF, 0xFFFFFFFF, none, 2)] : List (Nat × Nat × Option (BitVec 32) × Nat)).all (fun p =>
    let m : MergeCmd := { fd := 1, f1 := 2, f2 := 3, started := true, prev1 := p.2.2.1 }
    let s := st .a { mergeq := [m], flues := [(1, { fl 3 with head := BitVec.ofNat 32 p.2.2.2, read := 2 }), (2, { fl 0 with base := 0x2000 }), (3, { fl 0 with base := 0x3000 })] }
      { scratch := mwrite (mwrite [] 0x2040 (leBytes 4 p.1 ++ leBytes 4 7)) 0x3040 (leBytes 4 p.2.1 ++ leBytes 4 8) }
    let x := s.hearth 0
    unitsRun s 0 && x.act.mergeq == [m] && x.act.freeSlots 1 == p.2.2.2 && (x.flue 1).sofs == 0 && someIs (nextPair x 2 m.o1) fun a => someIs (nextPair x 3 m.o2) fun b =>
      a.good m.prev1 == p.2.2.1.isNone && b.good m.prev2 && (a.idx == b.idx && a.idx == 0xFFFFFFFF) == (p.1 == p.2.1)) = true
    ∧ nextPair (st .a { flues := [(2, { fl 0 with head := 2, read := 2 })] }).me 2 0 = none := by decide +kernel
theorem witness_UnitSteps_start :
    let s := st .a { mergeq := [{ fd := 1, f1 := 2, f2 := 3 }], flues := [(1, fl 3)] }
    unitsRun s 0 = true ∧ (s.hearth 0).act.mergeq = [{ fd := 1, f1 := 2, f2 := 3 }] ∧ ({} : MergeCmd).started = false := by decide +kernel
/-- The bellows before a block that it reads past and before the one it goes on with: the header asked for, come, and at
an address that no window maps. -/
theorem witness_UnitSteps_past : ([(2, 0x400, false), (2, 0x400, true), (2, 0x40000000, true), (0, 0x400, false), (0, 0x40000000, true)].all fun (p : Nat × Nat × Bool) =>
    let s := { mst .a { blowq := [{ fd := 1, count := 3, goal := p.1, hdr := BitVec.ofNat 64 p.2.1 }], flues := [(1, { fl 5 with head := 2, read := 2 })] }
      { asks := if p.2.2 then [{ who := .unit 0, addr := 0x400 }] else [] } with mem := mwrite [] 0x200400 (leBytes 2 0x5A6C) }
    let c := (s.hearth 0).act.blowq.headD {}
    let v := askAll s 0 (.unit 0) (virtualAsks s 0 c.hdr.toNat 16)
    unitsRun s 0 && c.phase == .idle && decide (c.idx < c.count) && decide (c.idx < c.goal) == (p.1 == 2) && v.1 == p.2.2
      && (!v.1 || gotIs (readVirtual v.2 0 0 false c.hdr.toNat 16) (fun l _ => leNat (l.take 2) == 0x5A6C) == (p.2.1 == 0x400))) = true := by decide +kernel
/-- The bytes of a last block: asked for, come and right, and of codec 1 in a length that holds a table. -/
theorem witness_UnitSteps_last : ([true, false].all fun b =>
    let s := { mst .a { blowq := [{ fd := 1, count := 1, phase := .claimed, elen := 3, clen := 3, crc := crc32c [1, 2, 3], hdr := 0x400 }], flues := [(1, fl 5)] }
      { asks := if b then [{ who := .unit 0, addr := 0x400 }] else [] } with mem := mwrite [] 0x200410 [1, 2, 3] }
    let c := (s.hearth 0).act.blowq.headD {}
    let v := askAll s 0 (.unit 0) (virtualAsks s 0 (c.hdr + 16).toNat c.clen)
    unitsRun s 0 && c.phase == .claimed && c.idx + 1 == c.count && v.1 == b && (!b || gotIs (readVirtual v.2 0 0 false (c.hdr + 16).toNat c.clen) fun l _ =>
      okIs (expand c.codec c.elen c.crc l) fun _ => true)) = true ∧ 128 ≤ 128 ∧ (3 + (fl 5).slotBytes - 1) / (fl 5).slotBytes ≤ (fl 5).slots := by decide +kernel
/-- A forced message with nothing before it, behind one that has arrived, behind one that has not, and with the forced
entries full. -/
theorem witness_SliceSteps_forced : ([([], 7, false), ([{ force := true }], 0, true), ([{ force := true, path := onRing }], 0, false), ([], 8, true)] : List (List AccMsg × Nat × Bool)).all
    (fun p =>
      let m : AccMsg := { force := true }
      let s := sl { accq := p.1 ++ [m], wq := List.replicate p.2.1 { cls := .forced } }
      let x := s.slice 0
      s.pw.cur == 0 && x.accq[p.1.length]? == some m && (x.mergeAt (accOp m)).isNone
        && ((x.accq.take p.1.length).any (fun k => k.force && k.path.rings.isEmpty) || decide (8 ≤ x.busy .forced)) == p.2.2) = true := by decide +kernel
/-- An answer of a damper on its way, and the old value of an AMO that has come. -/
theorem witness_SliceSteps_back :
    let s := { mst .a { amo := .sent 3 } with answers := [{ uid := 4, path := onRing }], replies := [{ uid := 3, path := onRing }, { uid := 3, value := 9 }] }
    s.answers[0]? = some { uid := 4, path := onRing } ∧ onRing.rings ≠ [] ∧ (s.hearth 0).fetch = none ∧ gatedAt s 0 = false ∧ (s.hearth 0).act.amo = .sent 3
      ∧ (s.replies.find? fun r => r.uid == 3 && r.path.rings.isEmpty) = some { uid := 3, value := 9 } := by decide +kernel
/-- An image whose engines had stopped at a YIELD, one of them led to its RESTART slot, and the task that takes it up.
-/
theorem witness_SavesAndResumes_clamped :
    let e : EngState := { stopped := true, clamp := some 1, pc := 0x30004, loops := [(1, { restart := 0x30004 })] }
    let s := taskst { st := .saved, slot := some 0 } { state := 2, ctx := { ae := e, xe := { stopped := true }, frame := { kind := 1, aslot := 0x30004 } } }
    let v := askPassed s 0
    let c := (tget {} (v.part 0).images 0).ctx
    someIs (chosenFor s 0) (fun t => t.st == .saved && t.slot == some 0 && fbIs (fbRead v t.part (winimgOf v t) 4096) fun l => l == leBytes 16 0 ++ List.replicate 4080 0) = true
      ∧ c.frame.kind = 1 ∧ c.frame.adone = false ∧ c.ae.stopped = true ∧ c.ae.clamp = some 1 ∧ c.ae.pc = (c.ae.loop 1).restart := by decide +kernel
/-- Held notifies whose descriptors are not resident; and every slot taken by queues whose descriptors are not. -/
theorem witness_QueueSteps_waits :
    let s := qst { heldSince := some 3, heldFor := 5 } 0 0
    let far := fun (s : State) => withPart s { (s.part 0) with s2 := [{ fr 1 with nr := true }] }
    let full := far { s with fb := { s.fb with queues := (List.range 256).map fun i => (i, { slotNo := some i }) } }
    heldWait s = [] ∧ heldWait (far s) = [0] ∧ awake (far s) = true ∧ rivalsWait s = [] ∧ (rivalsWait full).length = 256 := by decide +kernel
/-- A task that waits for its record is passed by, and one that does not is chosen. -/
theorem witness_Dispatching_passed :
    let s := disst { st := .ready }
    let far := withPart s { (s.part 0) with s2 := [{ fr 1 with nr := true }, fr 2, fr 3] }
    someIs (chosenFor s 0) (fun t => !itemsWait s t) = true ∧ chosenFor far 0 = none ∧ (far.fb.tasks.all (itemsWait far)) = true
      ∧ fbIs (fbRead (askPassed s 0) 0 0x2000 128) (fun _ => true) = true := by decide +kernel
/-- A task's end with no record of the task, with its successors released, to be released, and waiting. -/
theorem witness_ParksEndsAndQuanta_release : ([0, 1, 2, 3].all fun k =>
    let s := dst { run := .ending }
    let s := if k = 0 then { s with fb := { s.fb with tasks := [] } }
      else if k = 1 then { s with fb := { s.fb with tasks := s.fb.tasks.map fun t => { t with treled := true } } }
      else if k = 2 then s else withPart s { (s.part 0) with s2 := [{ fr 1 with nr := true }] }
    let v := finishWork s 0
    let c := (v.1.hearth 0).act
    (s.hearth 0).run == .ending && unitsRun s 0 && v.2 && (v.1.hearth 0).serves == .none && match v.1.taskOf c.part c.task with
      | none => k == 0
      | some t => t.treled == (k == 1) && (releaseOnce v.1 t c.failed).2 == (k != 3)) = true := by decide +kernel
/-- The tree of 64 excluded lanes gives the identity of the operation (R117). -/
theorem test_tree_empty : ([(RedOp.add, 0x80000000), (.min, canonNan .f32), (.max, canonNan .f32)].all fun (p : RedOp × Nat) =>
    (treeReduce (redNode p.1 .f32 { rnd := .rne, sat := false }) false 6 (List.replicate 64 (redIdentity p.1 .f32)) 0).1 == p.2) = true := by decide +kernel

end Sys2Proof.Tests
end

section
/-!
PROOFS. The scalar arithmetic of 03 (R68, R72-R74): O9, O10 and O11. The model computes with numbers modulo 2^w; the laws
below say once which bit vector of width w each of its operations stands for, and the obligations are assembled from them.
-/
set_option autoImplicit false

namespace Sys2Proof.Machine

/-! ### Numbers modulo 2^w as bit vectors -/

theorem wrap_eq_toNat (w : Nat) (i : Int) : wrap w i = (BitVec.ofInt w i).toNat := rfl

theorem sextNat_eq_toInt (w v : Nat) : sextNat w v = (BitVec.ofNat w v).toInt := by
  cases w with
  | zero => rw [BitVec.toInt_zero_length, sextNat, if_pos rfl]
  | succ k =>
    have half : 2 ^ (k + 1) = 2 * 2 ^ k := Nat.pow_succ'
    simp only [sextNat, BitVec.toInt_eq_toNat_cond, BitVec.toNat_ofNat, Nat.add_sub_cancel, Nat.succ_ne_zero, if_false]
    split <;> split <;> omega

theorem sextNat_wrap (w : Nat) (i : Int) : sextNat w (wrap w i) = (BitVec.ofInt w i).toInt := by
  rw [sextNat_eq_toInt, wrap_eq_toNat, BitVec.ofNat_toNat, BitVec.setWidth_eq]

theorem cast_two_pow (n : Nat) : ((2 ^ n : Nat) : Int) = 2 ^ n := Int.natCast_pow 2 n

/-! ### Sources and results at a TYPE (R68) -/

theorem typed_of_signed {t : DType} (h : isSigned t = true) (v : Word) : typed t v = (v.setWidth (tyBits t)).toInt := by
  rw [typed, tyInt, if_pos h, sextNat_eq_toInt, BitVec.ofNat_toNat]

theorem typed_of_unsigned {t : DType} (h : isSigned t = false) (v : Word) :
    typed t v = (v.setWidth (tyBits t)).toNat := by
  simp only [typed, tyInt, h, Bool.false_eq_true, if_false, BitVec.toNat_setWidth]

/-- Reading at a TYPE loses none of the w bits that are read. -/
theorem ofInt_typed (t : DType) (v : Word) : BitVec.ofInt (tyBits t) (typed t v) = v.setWidth (tyBits t) := by
  cases h : isSigned t with
  | true => rw [typed_of_signed h, BitVec.ofInt_toInt]
  | false => rw [typed_of_unsigned h, BitVec.ofInt_natCast, BitVec.ofNat_toNat, BitVec.setWidth_eq]

theorem wrap_srcTy (s : State) (t : DType) (x : Src) : wrap (tyBits t) (s.srcTy t x) = s.srcBits t x := by
  rw [wrap_eq_toNat, State.srcTy, ofInt_typed, BitVec.toNat_setWidth, State.srcBits]

theorem sextNat_wrap_srcTy (s : State) (t : DType) (x : Src) :
    sextNat (tyBits t) (wrap (tyBits t) (s.srcTy t x)) = ((s.src x).setWidth (tyBits t)).toInt := by
  rw [sextNat_wrap, State.srcTy, ofInt_typed]

theorem resultTy_of_signed {t : DType} (h : isSigned t = true) (r : Int) :
    resultTy t r = (BitVec.ofInt (tyBits t) r).signExtend 64 := by
  rw [resultTy, if_pos h, sextNat_wrap, BitVec.signExtend]

theorem resultTy_of_unsigned {t : DType} (h : isSigned t = false) (r : Int) :
    resultTy t r = (BitVec.ofInt (tyBits t) r).setWidth 64 := by
  simp only [resultTy, h, wrap_eq_toNat, BitVec.ofNat_toNat, Bool.false_eq_true, if_false]

theorem tyBits_pos (t : DType) : 0 < tyBits t := by cases t <;> decide

/-- The low bits of a word at a scalar TYPE, whose width is 32 or 64: bits [31:0], or the word itself. -/
theorem setWidth_of_scalarTy {t : DType} (h : WF.scalarTy t = true) {α : Type} (f : (w : Nat) → BitVec w → α) (v : Word) :
    f (tyBits t) (v.setWidth (tyBits t)) = if tyBits t = 32 then f 32 (v.setWidth 32) else f 64 v := by
  have hw : tyBits t = 32 ∨ tyBits t = 64 := by revert h; cases t <;> decide
  obtain hw | hw := hw
  · rw [hw, if_pos rfl]
  · rw [hw, if_neg (by decide), BitVec.setWidth_eq]

/-! ### An instruction that writes one register at a TYPE -/

theorem scalarTy_eq {g : Guard} {s : State} (hs : Straight s) (hg : GuardTrue g false s) (d : Reg) (t : DType) (r : Int) :
    scalarTy g d t s r = .next (nextSlot (s.setReg d (resultTy t r))) :=
  common_done g s _ hs hg (straight_setReg s d _ hs)

/-! ### Bounds (R72) -/

theorem tyMin_eq (t : DType) : tyMin t = if isSigned t then -2 ^ (tyBits t - 1) else 0 := by
  rw [tyMin, cast_two_pow]

theorem tyMax_eq (t : DType) : tyMax t = if isSigned t then 2 ^ (tyBits t - 1) - 1 else 2 ^ tyBits t - 1 := by
  rw [tyMax, cast_two_pow, cast_two_pow]

/-- Settles O9: sources and results are the bit vectors of their TYPE, and each instruction writes one result, clamped by
`sat1` or the carry that `carryOf` gives. -/
theorem addSubAddx : Obligations.AddSubAddx := by
  refine ⟨fun s x r => ⟨?_, ?_, ?_, ?_, ?_, ?_, ?_, ?_⟩, fun g d s1 s2 s3 t sat s hs hg _ => ?_⟩
  · exact typed_of_signed rfl _
  · exact typed_of_unsigned rfl _
  · exact (typed_of_signed rfl _).trans (by rw [tyBits, BitVec.setWidth_eq])
  · exact (typed_of_unsigned rfl _).trans (by rw [tyBits, BitVec.setWidth_eq])
  · exact resultTy_of_signed rfl r
  · exact resultTy_of_unsigned rfl r
  · exact (resultTy_of_signed rfl r).trans (by rw [tyBits, BitVec.signExtend_eq])
  · exact (resultTy_of_unsigned rfl r).trans (by rw [tyBits, BitVec.setWidth_eq])
  · simp only [← tyMin_eq, ← tyMax_eq]
    have written := scalarTy_eq hs hg d t
    exact ⟨written (sat1 t sat _), written (sat1 t sat _), written (carryOf t _)⟩

/-! ### Quotient and remainder (R73) -/

theorem divTy_fst (t : DType) (x y : Int) : (divTy t x y).1 =
    if y = 0 then -1 else if isSigned t = true ∧ x = tyMin t ∧ y = -1 then tyMin t else x.tdiv y := by
  unfold divTy
  split
  · rfl
  · split
    · next h => exact h.2.1
    · rfl

theorem divTy_snd (t : DType) (x y : Int) : (divTy t x y).2 =
    if y = 0 then x else if isSigned t = true ∧ x = tyMin t ∧ y = -1 then 0 else x - x.tdiv y * y := by
  simp only [divTy, apply_ite Prod.snd]

/-- Settles O10: each instruction writes one result, and the quotient and the remainder are those of `divTy`. -/
theorem mulDivRem : Obligations.MulDivRem := by
  intro g d s1 s2 t sat s hs hg _
  simp only [← tyMin_eq, ← tyMax_eq, ← divTy_fst, ← divTy_snd]
  have written := scalarTy_eq hs hg d t
  refine ⟨written (sat1 t sat _), ?_, written (divTy t _ _).1, written (divTy t _ _).2⟩
  have upper := written (s.srcTy t s1 * s.srcTy t s2 / ((2 ^ tyBits t : Nat) : Int))
  rwa [cast_two_pow] at upper

/-! ### Shifts and rotation (R74) -/

theorem shiftL_eq (t : DType) (x : Int) (n : Nat) : shiftL t x n = if n < tyBits t then x * 2 ^ n else 0 := by
  simp only [shiftL, ← Nat.not_lt, ite_not, cast_two_pow]

theorem shiftR_srcTy (s : State) (t : DType) (x : Src) (n : Nat) :
    shiftR t (s.srcTy t x) n = if n < tyBits t then ((s.srcBits t x / 2 ^ n : Nat) : Int) else 0 := by
  simp only [shiftR, wrap_srcTy, ← Nat.not_lt, ite_not]

theorem shiftA_srcTy (s : State) (t : DType) (x : Src) (n : Nat) : shiftA t (s.srcTy t x) n =
    if n < tyBits t then ((s.src x).setWidth (tyBits t)).toInt / 2 ^ n else if 0 ≤ s.srcTy t x then 0 else -1 := by
  simp only [shiftA, sextNat_wrap_srcTy, ← Nat.not_lt, ← Int.not_le, ite_not, cast_two_pow]

/-- The bits that a rotation brings round fill the low bits that the shift has left 0. -/
theorem toNat_rotateLeft_eq_add {w : Nat} (hw : 0 < w) (x : BitVec w) (n : Nat) :
    (x.rotateLeft n).toNat = x.toNat * 2 ^ (n % w) % 2 ^ w + x.toNat / 2 ^ (w - n % w) := by
  have hpow : 2 ^ w = 2 ^ (n % w) * 2 ^ (w - n % w) := by
    rw [← Nat.pow_add, Nat.add_sub_cancel' (Nat.le_of_lt (Nat.mod_lt n hw))]
  have hlow : x.toNat / 2 ^ (w - n % w) < 2 ^ (n % w) :=
    Nat.div_lt_of_lt_mul (by rw [Nat.mul_comm, ← hpow]; exact x.isLt)
  rw [BitVec.toNat_rotateLeft, Nat.shiftLeft_eq, Nat.shiftRight_eq_div_pow, Nat.mul_comm, hpow, Nat.mul_mod_mul_left,
    Nat.two_pow_add_eq_or_of_lt hlow]

theorem rotL_srcTy (s : State) (t : DType) (x : Src) (n : Nat) :
    rotL t (s.srcTy t x) n = (((s.src x).setWidth (tyBits t)).rotateLeft n).toNat := by
  rw [toNat_rotateLeft_eq_add (tyBits_pos t), rotL, wrap_srcTy, State.srcBits, BitVec.toNat_setWidth]

/-- Settles O11: each instruction writes one result, which the shifts and the rotation take from the source's low bits. -/
theorem logicalAndShift : Obligations.LogicalAndShift := by
  intro g d s1 s2 t s hs hg ht w x u v n rot wr
  have hv : ((s.src s1).setWidth w).toInt = v := setWidth_of_scalarTy ht (fun _ b => b.toInt) _
  have hrot : (((s.src s1).setWidth w).rotateLeft (n % w)).toNat = rot :=
    setWidth_of_scalarTy ht (fun k b => (b.rotateLeft (n % k)).toNat) _
  have written : ∀ r, scalarTy g d t s r = wr r := scalarTy_eq hs hg d t
  refine ⟨written _, written _, written _, written _, ?_, ?_, ?_, ?_⟩
  · exact (written (shiftL t x n)).trans (by rw [shiftL_eq])
  · exact (written (shiftR t x n)).trans (by rw [shiftR_srcTy]; rfl)
  · exact (written (shiftA t x n)).trans (by rw [shiftA_srcTy, hv])
  · exact (written (rotL t x n)).trans (by rw [rotL_srcTy, ← BitVec.rotateLeft_mod_eq_rotateLeft, hrot])

end Sys2Proof.Machine
end

section
/-!
PROOFS. The predicate instructions of 04 (R85, R86): O15. Each of them ends in one of three ways: it replaces the
predicate stack, pushes an entry onto it, or traps; an integer condition of PCMP compares the numbers of its TYPE.
-/
set_option autoImplicit false

namespace Sys2Proof.Machine

/-! ### Integer conditions (R68, R85) -/

theorem valueOf_of_not_flt {t : DType} (h : isFlt t = false) (b : Nat) : valueOf t b = ofInt (tyInt t b) := by
  have hf : fmtOf t = none := Option.not_isSome_iff_eq_none.mp (Bool.eq_false_iff.mp h)
  rw [valueOf, hf]
  rfl

theorem isFlt_of_intTy {t : DType} (h : WF.intTy t = true) : isFlt t = false := by revert h; cases t <;> decide

@[simp] theorem isNan_ofInt (i : Int) : (ofInt i).isNan = false := rfl

theorem scaled_natAbs (i : Int) : Val.scaled (i < 0) (i.natAbs * 1) 1 0 0 1 = i := by
  simp only [Val.scaled, decide_eq_true_eq, Int.sub_self, Int.toNat_zero, Nat.pow_zero, Nat.div_self Nat.one_pos, Nat.mul_one]
  split <;> omega

@[simp] theorem lt_ofInt (x y : Int) : Val.lt (ofInt x) (ofInt y) = decide (x < y) := by
  simp only [ofInt, Val.lt, if_neg (Int.lt_irrefl 0), scaled_natAbs]

/-- The six conditions of two numbers: integers are never unordered, so the order decides each of them. -/
theorem compareVals_ofInt (x y : Int) :
    compareVals .eq (ofInt x) (ofInt y) = decide (x = y) ∧ compareVals .ne (ofInt x) (ofInt y) = decide (x ≠ y) ∧
    compareVals .lt (ofInt x) (ofInt y) = decide (x < y) ∧ compareVals .le (ofInt x) (ofInt y) = decide (x ≤ y) ∧
    compareVals .gt (ofInt x) (ofInt y) = decide (y < x) ∧ compareVals .ge (ofInt x) (ofInt y) = decide (y ≤ x) := by
  simp only [compareVals, isNan_ofInt, lt_ofInt, Bool.or_self, Bool.not_false, Bool.true_and, Bool.false_or,
    ← decide_not, ← Bool.decide_and, ← Bool.decide_or, decide_eq_decide]
  exact ⟨by omega, by omega, trivial, Int.not_lt, trivial, Int.not_lt⟩

/-! ### How an instruction on the predicate stack ends (R50, R85, R86) -/

theorem common_trap {g : Guard} {s : State} (hs : Straight s) (hg : GuardTrue g false s) (code : FaultCode) (a : Word) :
    common g s (.trap s code a) = .next (raise (s.setStall false) code a) :=
  common_eq g s _ hs.1 hg

theorem common_setPreds {g : Guard} {s : State} (hs : Straight s) (hg : GuardTrue g false s) (l : List Word) :
    common g s (setPreds s l) = .next (nextSlot (s.setEs { s.es with preds := l })) :=
  common_done g s _ hs hg (straight_setEs s _ hs rfl rfl rfl)

theorem common_underflow {g : Guard} {s : State} (hs : Straight s) (hg : GuardTrue g false s) :
    common g s (underflow s) = .next (raise (s.setStall false) .pstackUnder s.pc) :=
  common_trap hs hg _ _

theorem straight_cleanImage (s : State) (o n : Nat) (h : Straight s) : Straight (s.cleanImage o n) :=
  straight_of_es s _ h (cleanImage_cur s o n) (by rw [es_cleanImage]) (by rw [es_cleanImage]) (by rw [es_cleanImage])

theorem common_pushPred_full {g : Guard} {s : State} (hs : Straight s) (hg : GuardTrue g false s)
    (h : s.es.preds.length = 16) (m : Word) :
    common g s (pushPred s m) = .next (raise (s.setStall false) .pstackOver s.pc) := by
  rw [pushPred, if_pos h, common_trap hs hg]

/-- On X the new entry is also written whole in the register image (R358). -/
theorem common_pushPred {g : Guard} {s : State} (hs : Straight s) (hg : GuardTrue g false s)
    (h : s.es.preds.length ≠ 16) (m : Word) :
    let u := s.setEs { s.es with preds := m :: s.es.preds }
    common g s (pushPred s m) =
      .next (nextSlot (if s.eng = .x then u.cleanImage (0x500 + 8 * s.es.preds.length) 8 else u)) := by
  intro u
  have hu : Straight u := straight_setEs s _ hs rfl rfl rfl
  cases he : s.eng with
  | a =>
    have hp : pushPred s m = .done u := by simp [pushPred, h, he, u]
    rw [hp, common_done g s _ hs hg hu]
    rfl
  | x =>
    have hp : pushPred s m = .done (u.cleanImage (0x500 + 8 * s.es.preds.length) 8) := by
      simp [pushPred, h, he, u, ctlOfs]
    rw [hp, common_done g s _ hs hg (straight_cleanImage _ _ _ hu)]
    rfl

/-! ### PAND and POR (R86) -/

theorem combinePred_of_some {s : State} {m e : Word} {r : List Word} {j : Nat} (hp : s.es.preds = m :: r)
    (hj : s.es.preds[j]? = some e) (f : Word → Word → Word) : combinePred f j s = setPreds s (f m e :: r) := by
  rw [hp] at hj
  simp only [combinePred, hp, hj]

theorem combinePred_of_none {s : State} {j : Nat} (hj : s.es.preds[j]? = none) (f : Word → Word → Word) :
    combinePred f j s = underflow s := by
  unfold combinePred
  split
  · next _ hn => rw [hj] at hn; contradiction
  · rfl

/-! ### The instructions -/

section
variable {g : Guard} {s : State} (hs : Straight s) (hg : GuardTrue g false s)
include hs hg

theorem exec_pcmp_full (c : Cond) (s1 s2 : Src) (t : DType) (h : s.es.preds.length = 16) :
    exec (.pcmp g c s1 s2 t) s = .next (raise (s.setStall false) .pstackOver s.pc) := by
  change common g s (pushPred s _) = _
  exact common_pushPred_full hs hg h _

theorem exec_pcmp_push (c : Cond) (s1 s2 : Src) (t : DType) (h : s.es.preds.length ≠ 16) :
    let u := s.setEs { s.es with preds := predEntry (compareTy c t (s.src s1).toNat (s.src s2).toNat) :: s.es.preds }
    exec (.pcmp g c s1 s2 t) s =
      .next (nextSlot (if s.eng = .x then u.cleanImage (0x500 + 8 * s.es.preds.length) 8 else u)) := by
  change common g s (pushPred s _) = _
  exact common_pushPred hs hg h _

theorem exec_pnot_top {m : Word} {r : List Word} (h : s.es.preds = m :: r) :
    exec (.pnot g) s = .next (nextSlot (s.setEs { s.es with preds := ~~~m :: r })) := by
  change execPnot g s = _
  simp only [execPnot, h, common_setPreds hs hg]

theorem exec_pnot_under (h : s.es.preds = []) :
    exec (.pnot g) s = .next (raise (s.setStall false) .pstackUnder s.pc) := by
  change execPnot g s = _
  simp only [execPnot, h, common_underflow hs hg]

theorem common_combinePred_of_some {m e : Word} {r : List Word} {j : Nat} (hp : s.es.preds = m :: r)
    (hj : s.es.preds[j]? = some e) (f : Word → Word → Word) :
    common g s (combinePred f j s) = .next (nextSlot (s.setEs { s.es with preds := f m e :: r })) := by
  rw [combinePred_of_some hp hj, common_setPreds hs hg]

theorem common_combinePred_of_none {j : Nat} (hj : s.es.preds[j]? = none) (f : Word → Word → Word) :
    common g s (combinePred f j s) = .next (raise (s.setStall false) .pstackUnder s.pc) := by
  rw [combinePred_of_none hj, common_underflow hs hg]

theorem exec_ppop_drop (n : BitVec 5) (h : n.toNat ≤ s.es.preds.length) :
    exec (.ppop g n) s = .next (nextSlot (s.setEs { s.es with preds := s.es.preds.drop n.toNat })) := by
  change common g s (if _ then _ else _) = _
  rw [if_neg (Nat.not_lt.mpr h), common_setPreds hs hg]

theorem exec_ppop_under (n : BitVec 5) (h : s.es.preds.length < n.toNat) :
    exec (.ppop g n) s = .next (raise (s.setStall false) .pstackUnder s.pc) := by
  change common g s (if _ then _ else _) = _
  rw [if_pos h, common_underflow hs hg]

end

/-- Settles O15: each instruction by its own lemma, the two ends of PAND and POR by `combinePred`'s, and the conditions
by the order of the integers that an integer TYPE reads. -/
theorem predicates : Obligations.Predicates := by
  refine ⟨fun g c s1 s2 t j n s hs hg => ⟨?_, ?_, fun m r hp => ⟨?_, fun e hj => ?_⟩, ?_, fun hj => ?_, ?_, ?_⟩, fun t a b ht => ?_⟩
  · exact exec_pcmp_full hs hg c s1 s2 t
  · exact exec_pcmp_push hs hg c s1 s2 t
  · exact exec_pnot_top hs hg hp
  · have combined := common_combinePred_of_some hs hg hp hj
    exact ⟨combined (· &&& ·), combined (· ||| ·)⟩
  · exact exec_pnot_under hs hg
  · have under := common_combinePred_of_none hs hg hj
    exact ⟨under (· &&& ·), under (· ||| ·)⟩
  · exact exec_ppop_drop hs hg n
  · exact exec_ppop_under hs hg n
  · simp only [compareTy, valueOf_of_not_flt (isFlt_of_intTy ht)]
    exact compareVals_ofInt (tyInt t a) (tyInt t b)

end Sys2Proof.Machine
end
